-- ==== Sys2Proof/Word.lean ====
section
/-! DEFINITION. The bit-vector types of the hardware (spec 00_scope.md R7, R10, R11): 8-bit bytes, the smallest addressable
unit, and 32-bit words, the width of every register and of every address. -/

namespace Sys2Proof

/-- One byte, the unit of memory (R70). -/
abbrev Byte := BitVec 8

/-- One 32-bit word: a register, an address, a page-table entry, a frame word (R7, R76). -/
abbrev Word := BitVec 32

end Sys2Proof
end

