-- ==== Sys2Proof/Config.lean ====
section
/-! DEFINITION. What an implementation fixes and what the spec leaves to a draw. Every name here is OPAQUE: it has no body,
so no proof can lean on a value of it, and a claim that mentions it holds whatever the value is. -/

namespace Sys2Proof.Config

/-- R8, R361, D47: the interrupt queue's capacity is the implementation's choice, a positive number of entries or
unbounded. `some n` means that the queue holds at most `n + 1` entries, `none` that it is unbounded (log entry 4). -/
opaque irqQueueSpare : Option Nat

/-- `IRQ_QUEUE_CAPACITY` of R8: positive by construction, or `none` for an unbounded queue. -/
def irqQueueCapacity : Option Nat := irqQueueSpare.map (· + 1)

/-- R415, R417: the byte at offset `offset` of the 4096 unspecified bytes that the failed disk transfer number `draw`
leaves in the buffer or in the block (log entry 5). -/
opaque failedTransferByte (draw offset : Nat) : Byte

end Sys2Proof.Config
end

