-- ==== Sys2Proof/Syntax.lean ====
section
/-! DEFINITION. The instructions of the opcode table (spec 30_encoding.md R140), one constructor of `Instr` per row of
spec/opcode_table.json, and their operands (R130 to R135). A constructor's suffix says its form: `R` a register form, `I` a
literal integer, `A` a literal address. -/

namespace Sys2Proof

/-- The three widths at which a general register is accessible (R31). -/
inductive Width where
  | byte
  | half
  | word
  deriving DecidableEq, Repr

/-- `W(ref)` of R12: the width in bits. -/
@[reducible] def Width.bits : Width → Nat
  | .byte => 8
  | .half => 16
  | .word => 32

/-- `W(ref) / 8`: the width in bytes. -/
@[reducible] def Width.bytes : Width → Nat
  | .byte => 1
  | .half => 2
  | .word => 4

/-- A view of a general register (R31): class `G` of R134. -/
structure GRef where
  index : Fin 8
  width : Width
  deriving DecidableEq, Repr

/-- The special registers that an instruction can name (R34), numbers 8 to 13. -/
inductive SpecialReg where
  | flags
  | uspr
  | kspr
  | pdpr
  | imr
  | pfva
  deriving DecidableEq, Repr

/-- Any legal register reference: class `S` of R134. A special register has only its 32-bit view (R46). -/
inductive Ref where
  | gpr (r : GRef)
  | special (r : SpecialReg)
  deriving DecidableEq, Repr

/-- The width of a register reference; a special register is a word (R46). -/
def Ref.width : Ref → Width
  | .gpr r => r.width
  | .special _ => .word

/-- The instruction set, in the order of the opcode map (R140). Operands stand in encoding order. A literal integer is held
in a `Word` whose bits above its width are zero (WellFormed.lean). An operand of class `GW` or `RA` is a word register and
one of class `GB` the low byte of a register, so only the register's number is held. -/
inductive Instr where
  | halt
  | pause
  | nop
  | ireturn
  | syscall
  | loadA (dst : Ref) (addr : Word)
  | loadR (dst : Ref) (src : Fin 8)
  | storeR (addr : Fin 8) (src : Ref)
  | storeA (addr : Word) (src : Ref)
  | copyR (dst src : Ref)
  | copyI (dst : Ref) (lit : Word)
  | swapA (reg : Ref) (addr : Word)
  | swapR (reg : Ref) (addr : Fin 8)
  | swapRR (a b : Ref)
  | push (src : Ref)
  | pop (dst : Ref)
  | blockcopy (count dst src : Fin 8)
  | blockset (count dst value : Fin 8)
  | addR (dst src : GRef)
  | addI (dst : GRef) (lit : Word)
  | subR (dst src : GRef)
  | subI (dst : GRef) (lit : Word)
  | mulR (dst src : GRef)
  | mulI (dst : GRef) (lit : Word)
  | udivR (dst src : GRef)
  | udivI (dst : GRef) (lit : Word)
  | sdivR (dst src : GRef)
  | sdivI (dst : GRef) (lit : Word)
  | neg (dst : GRef)
  | andR (dst src : GRef)
  | andI (dst : GRef) (lit : Word)
  | orR (dst src : GRef)
  | orI (dst : GRef) (lit : Word)
  | xorR (dst src : GRef)
  | xorI (dst : GRef) (lit : Word)
  | notR (dst : GRef)
  | shlR (dst count : GRef)
  | shlI (dst : GRef) (lit : Word)
  | shrR (dst count : GRef)
  | shrI (dst : GRef) (lit : Word)
  | sarR (dst count : GRef)
  | sarI (dst : GRef) (lit : Word)
  | rolR (dst count : GRef)
  | rolI (dst : GRef) (lit : Word)
  | rorR (dst count : GRef)
  | rorI (dst : GRef) (lit : Word)
  | rclR (dst count : GRef)
  | rclI (dst : GRef) (lit : Word)
  | rcrR (dst count : GRef)
  | rcrI (dst : GRef) (lit : Word)
  | cmpR (a b : GRef)
  | cmpI (a : GRef) (lit : Word)
  | bA (target : Word)
  | bR (target : Fin 8)
  | beqA (target : Word)
  | beqR (target : Fin 8)
  | bneqA (target : Word)
  | bneqR (target : Fin 8)
  | bltA (target : Word)
  | bltR (target : Fin 8)
  | bltuA (target : Word)
  | bltuR (target : Fin 8)
  | bgtA (target : Word)
  | bgtR (target : Fin 8)
  | bgtuA (target : Word)
  | bgtuR (target : Fin 8)
  | bleA (target : Word)
  | bleR (target : Fin 8)
  | bleuA (target : Word)
  | bleuR (target : Fin 8)
  | bgeA (target : Word)
  | bgeR (target : Fin 8)
  | bgeuA (target : Word)
  | bgeuR (target : Fin 8)
  | zext (dst src : GRef)
  | sext (dst src : GRef)
  | trunc (dst src : GRef)
  | itof (dst src : Fin 8)
  | utof (dst src : Fin 8)
  | ftoi (dst src : Fin 8)
  | ftou (dst src : Fin 8)
  | fcmp (a b : Fin 8)
  deriving DecidableEq, Repr

end Sys2Proof
end

