-- ==== Sys2Proof/Machine/State.lean ====
section
/-! DEFINITION. The state of the machine as plain data (spec 10_state.md, 20_memory.md section 2, 60_exceptions.md,
70_reset_and_hazards.md R450), its value after reset, and the two ways in which a step can stop. -/

namespace Sys2Proof.Machine

/-- The two privilege modes (R44, R385). -/
inductive Mode where
  | kernel
  | user
  deriving DecidableEq, Repr

/-- The run state of the CPU (R48). -/
inductive RunState where
  | stopped
  | running
  | paused
  deriving DecidableEq, Repr

/-- The four significant bits of the `flags` register (R36): carry, zero, overflow, negative. -/
structure Flags where
  c : Bool
  z : Bool
  o : Bool
  n : Bool
  deriving DecidableEq, Repr

/-- Bytes by number, in canonical form: numbers strictly rising, and no entry holds 0, which is what an unlisted number
reads as (R73: "Both return `0` for any byte never written"). -/
abbrev Memory := List Host.Cell

/-- The two disk controllers (R410). -/
inductive DiskId where
  | a
  | b
  deriving DecidableEq, Repr

/-- The interrupt kinds that pass through the queue (R360): their producers are the only ones. -/
inductive DeviceIrq where
  | keyboard
  | diskA
  | diskB
  deriving DecidableEq, Repr

/-- `IRQ_QUEUE_CAPACITY` (R8, R361): a positive integer or unbounded. -/
inductive QueueCapacity where
  /-- The implementation's own choice, which nothing in the model knows (log entry 4). -/
  | parameter
  /-- At most `spare + 1` entries. -/
  | bounded (spare : Nat)
  | unbounded
  deriving DecidableEq, Repr

/-- The sixteen interrupt kinds, one per vector entry (R350, R351). `reset`, `timer` and `reserved` are raised by nothing
(R352, R389). -/
inductive Interrupt where
  | reset
  | illegalOperation
  | divideByZero
  | pageFault
  | timer
  | keyboard
  | diskA
  | diskB
  | systemCall
  /-- Numbers 9 to 15: `reserved i` is number `9 + i`. -/
  | reserved (i : Fin 7)
  deriving DecidableEq, Repr

/-- The image attached to a disk controller (R410): `blocks` blocks of 4096 bytes, byte `o` of block `k` at number
`4096 * k + o`. -/
structure DiskImage where
  blocks : Word
  bytes : Memory
  deriving DecidableEq, Repr

/-- One disk controller (R410). `STATUS` is held as its result bits: `CONNECTED` is whether an image is attached and bits
7:4 are always 0 (R411). `NBA` is the attached image's block count (R410). -/
structure Disk where
  image : Option DiskImage
  finished : Bool
  success : Bool
  badCommand : Bool
  /-- `DA`, the current block address. -/
  da : Word
  /-- The 4096-byte data buffer. -/
  buffer : Memory
  busy : Bool
  /-- The latched command byte. -/
  lcmd : Byte
  /-- The latched block address. -/
  lda : Word
  deriving DecidableEq, Repr

/-- The keyboard controller's two bytes (R400). -/
structure Keyboard where
  key : Byte
  metadata : Byte
  deriving DecidableEq, Repr

/-- A key message from the host (R402). -/
structure KeyMessage where
  key : Byte
  ctrl : Bool
  alt : Bool
  deriving DecidableEq, Repr

/-- A colour as its red, green and blue channels (R394). -/
structure Rgb where
  red : Nat
  green : Nat
  blue : Nat
  deriving DecidableEq, Repr

/-- A record that the display emits to the host (R392). -/
inductive DisplayRecord where
  | setChar (row col : Nat) (character : Char)
  | setFg (row col : Nat) (colour : Rgb)
  | setBg (row col : Nat) (colour : Rgb)
  deriving DecidableEq, Repr

/-- One atomic step of a device (R15, R402, R415). The outcome of a disk transfer is a draw (R417): it stands in the step. -/
inductive DeviceStep where
  | keyboard
  | disk (d : DiskId) (transferOk : Bool)
  deriving DecidableEq, Repr

/-- The image that the host attaches to a disk at start (R8): `blocks` blocks, their bytes in order. A byte that the list
does not reach is 0 (log entry 3). -/
structure DiskSource where
  blocks : Word
  bytes : List Byte
  deriving DecidableEq, Repr

/-- What one disk controller holds at start: the host's image or none, and the values R450 draws. -/
structure DiskStart where
  image : Option DiskSource
  da : Word
  buffer : List Byte
  lcmd : Byte
  lda : Word
  deriving DecidableEq, Repr

/-- What the host supplies at start (R8, R420) and the draws that R450 makes at reset. -/
structure StartInput where
  /-- `ROM_IMAGE`; a byte that the list does not reach is 0 (log entry 3). -/
  rom : List Byte
  diskA : DiskStart
  diskB : DiskStart
  keyboard : Keyboard
  deriving DecidableEq, Repr

/-- Whose turn it is (R15): the agents are interleaved in any order, so the order is data. -/
inductive Agent where
  | cpu
  | device (d : DeviceStep)
  /-- The host delivers a key message. -/
  | hostKey (m : KeyMessage)
  /-- The host's stop signal. -/
  | hostStop
  /-- The host starts the machine: a reset (R420, R452). -/
  | hostStart (i : StartInput)
  deriving DecidableEq, Repr

/-- The machine. -/
structure State where
  /-- `r0` to `r7` (R30). -/
  regs : Vector Word 8
  /-- The program counter (R35). -/
  pc : Word
  /-- The significant bits of `flags` (R36). -/
  flags : Flags
  /-- The user stack pointer (R39). -/
  uspr : Word
  /-- The kernel stack pointer (R40). -/
  kspr : Word
  /-- The page-directory physical base (R41). -/
  pdpr : Word
  /-- The significant bits of the interrupt mask register (R42). -/
  imr : BitVec 16
  /-- The page-fault virtual address (R43). -/
  pfva : Word
  /-- The privilege mode (R44). -/
  mode : Mode
  /-- The run state (R48). -/
  runState : RunState
  /-- The RAM array, by physical address; the interrupt vector is part of it (R73). -/
  ram : Memory
  /-- The ROM, by offset from 0x40 (R74). -/
  rom : Memory
  /-- The display's 6000 bytes, by offset from 0x240 (R391). -/
  display : Memory
  /-- The display records the host has received, oldest first (R392). -/
  records : List DisplayRecord
  /-- The keyboard controller (R400). -/
  keyboard : Keyboard
  /-- Disk controller A (R410). -/
  diskA : Disk
  /-- Disk controller B (R410). -/
  diskB : Disk
  /-- The interrupt queue, head first (R360). -/
  queue : List DeviceIrq
  /-- `IRQ_QUEUE_CAPACITY` (R8, R361): a parameter of the machine, fixed for a run. -/
  irqCapacity : QueueCapacity
  /-- The key messages the host has delivered and the keyboard has not consumed, oldest first (R402). -/
  hostKeys : List KeyMessage
  /-- The MODEL's own field: whose turns come next (R15). Empty: the CPU's (log entry 6). -/
  schedule : List Agent
  /-- The MODEL's own field: the device steps that fall inside CPU steps, one list for each byte access that the CPU makes
  to a device window, taken right after that access (R120, log entry 7). -/
  midStep : List (List DeviceStep)
  /-- The MODEL's own field: how many free values have been drawn (log entry 5). -/
  draws : Nat
  deriving DecidableEq, Repr

/-- How a step could stop with a fault. The spec gives this machine none: "Nothing the VM encounters during execution
terminates the process except `HALT`" (R170), every exception has an entry (R372, R373), no address is unmapped (R71), and
the one model fault the spec asks for, a read of a register that nothing has written (R50), is replaced by a named reset
value (log entry 1). So the type is closed and has no constructor, and no step raises one (safe). -/
inductive Fault where
  deriving DecidableEq, Repr

/-- How a step could be refused. -/
inductive Refusal where
  /-- Raised by an arm of `exec` for an instruction that has no meaning yet; safe. Every instruction has one, so no arm
  raises it. -/
  | notModelled (mnemonic : String)
  deriving DecidableEq, Repr

/-! ## Updates of one field -/

/-- `s` with a new `regs`. -/
def State.setRegs (s : State) (v : Vector Word 8) : State := { s with regs := v }

/-- `s` with a new `pc`. -/
def State.setPc (s : State) (v : Word) : State := { s with pc := v }

/-- `s` with a new `flags`. -/
def State.setFlags (s : State) (v : Flags) : State := { s with flags := v }

/-- `s` with a new `uspr`. -/
def State.setUspr (s : State) (v : Word) : State := { s with uspr := v }

/-- `s` with a new `kspr`. -/
def State.setKspr (s : State) (v : Word) : State := { s with kspr := v }

/-- `s` with a new `pdpr`. -/
def State.setPdpr (s : State) (v : Word) : State := { s with pdpr := v }

/-- `s` with a new `imr`. -/
def State.setImr (s : State) (v : BitVec 16) : State := { s with imr := v }

/-- `s` with a new `pfva`. -/
def State.setPfva (s : State) (v : Word) : State := { s with pfva := v }

/-- `s` with a new `mode`. -/
def State.setMode (s : State) (v : Mode) : State := { s with mode := v }

/-- `s` with a new `runState`. -/
def State.setRunState (s : State) (v : RunState) : State := { s with runState := v }

/-- `s` with a new `ram`. -/
def State.setRam (s : State) (v : Memory) : State := { s with ram := v }

/-- `s` with a new `rom`. -/
def State.setRom (s : State) (v : Memory) : State := { s with rom := v }

/-- `s` with a new `display`. -/
def State.setDisplay (s : State) (v : Memory) : State := { s with display := v }

/-- `s` with a new `records`. -/
def State.setRecords (s : State) (v : List DisplayRecord) : State := { s with records := v }

/-- `s` with a new `keyboard`. -/
def State.setKeyboard (s : State) (v : Keyboard) : State := { s with keyboard := v }

/-- `s` with a new `diskA`. -/
def State.setDiskA (s : State) (v : Disk) : State := { s with diskA := v }

/-- `s` with a new `diskB`. -/
def State.setDiskB (s : State) (v : Disk) : State := { s with diskB := v }

/-- `s` with a new `queue`. -/
def State.setQueue (s : State) (v : List DeviceIrq) : State := { s with queue := v }

/-- `s` with a new `hostKeys`. -/
def State.setHostKeys (s : State) (v : List KeyMessage) : State := { s with hostKeys := v }

/-- `s` with a new `schedule`. -/
def State.setSchedule (s : State) (v : List Agent) : State := { s with schedule := v }

/-- `s` with a new `midStep`. -/
def State.setMidStep (s : State) (v : List (List DeviceStep)) : State := { s with midStep := v }

/-- `s` with a new `draws`. -/
def State.setDraws (s : State) (v : Nat) : State := { s with draws := v }

/-! ## Reset -/

/-- A disk controller with no image (R418), with the values that log entry 2 names where R450 makes a draw. -/
def Disk.unattached : Disk :=
  { image := none, finished := false, success := false, badCommand := false, da := 0, buffer := [], busy := false,
    lcmd := 0, lda := 0 }

/-- The machine right after the reset sequence of R450 and R451, when the host has started it with no image in ROM (every
byte 0) and no disk attached (log entry 3). The registers R450 leaves unspecified hold 0 (log entry 1), and so do the bytes
it draws (log entry 2); `State.start` (Machine/Boot.lean) is reset for any input and any draw. -/
def State.reset : State :=
  { regs := Vector.replicate 8 0
    pc := 0x40
    flags := ⟨false, false, false, false⟩
    uspr := 0
    kspr := 0
    pdpr := 0
    imr := 0
    pfva := 0
    mode := .kernel
    runState := .running
    ram := []
    rom := []
    display := []
    records := []
    keyboard := ⟨0, 0⟩
    diskA := Disk.unattached
    diskB := Disk.unattached
    queue := []
    irqCapacity := .parameter
    hostKeys := []
    schedule := []
    midStep := []
    draws := 0 }

end Sys2Proof.Machine
end

