-- ==== Sys2Proof/Machine/Memory.lean ====
section
/-! DEFINITION. The operations over bytes held in canonical form (spec 20_memory.md R73): reading and writing one byte, and
the copies of whole blocks that a disk transfer makes (60_exceptions.md R415). -/

namespace Sys2Proof.Machine

/-- The byte at `a`; an unlisted byte reads 0 (R73). -/
def Memory.read : Memory → Nat → Byte
  | [], _ => 0
  | c :: m, a => if c.1 = a then c.2 else Memory.read m a

/-- `m` with byte `b` at `a`, in canonical form again: writing 0 removes the entry. -/
def Memory.write : Memory → Nat → Byte → Memory
  | [], a, b => if b = 0 then [] else [(a, b)]
  | c :: m, a, b =>
    if a < c.1 then (if b = 0 then c :: m else (a, b) :: c :: m)
    else if c.1 = a then (if b = 0 then m else (a, b) :: m)
    else c :: Memory.write m a b

/-- Every number of `m` is at least `lo`, and the numbers rise strictly with no entry holding 0. -/
def Memory.sortedFrom : Nat → Memory → Bool
  | _, [] => true
  | lo, c :: m => decide (lo ≤ c.1) && decide (c.2 ≠ 0) && Memory.sortedFrom (c.1 + 1) m

/-- The canonical form: numbers strictly rising, no entry equal to what an unlisted number reads as. -/
def Memory.wf (m : Memory) : Bool := Memory.sortedFrom 0 m

/-- Every listed number is below `n`. -/
def Memory.below (n : Nat) (m : Memory) : Bool := m.all fun c => decide (c.1 < n)

/-- The bytes `bs` in order from number `a`, in canonical form. -/
def Memory.ofBytesFrom : Nat → List Byte → Memory
  | _, [] => []
  | a, b :: bs => if b = 0 then Memory.ofBytesFrom (a + 1) bs else (a, b) :: Memory.ofBytesFrom (a + 1) bs

/-- The bytes `bs` in order from number 0. -/
def Memory.ofBytes (bs : List Byte) : Memory := Memory.ofBytesFrom 0 bs

/-- The `n` bytes of `m` from number `a`, renumbered from 0. -/
def Memory.window (a n : Nat) (m : Memory) : Memory :=
  (m.filter fun c => decide (a ≤ c.1 ∧ c.1 < a + n)).map fun c => (c.1 - a, c.2)

/-- `m` with its `n` bytes from number `a` replaced by the first `n` bytes of `src`. -/
def Memory.splice (a n : Nat) (src m : Memory) : Memory :=
  (m.filter fun c => decide (c.1 < a))
    ++ ((src.filter fun c => decide (c.1 < n)).map fun c => (a + c.1, c.2))
    ++ m.filter fun c => decide (a + n ≤ c.1)

end Sys2Proof.Machine
end

