-- ==== Sys2Proof/Machine/Devices.lean ====
section
/-! DEFINITION. The devices and the interrupt queue (spec 60_exceptions.md sections 2 and 6 to 8): display, keyboard, disks,
and the atomic steps that devices take. -/

namespace Sys2Proof.Machine

/-! ## The interrupt queue -/

/-- R351: the number of an interrupt kind, which is its entry in the vector. -/
def Interrupt.number : Interrupt → Nat
  | .reset => 0
  | .illegalOperation => 1
  | .divideByZero => 2
  | .pageFault => 3
  | .timer => 4
  | .keyboard => 5
  | .diskA => 6
  | .diskB => 7
  | .systemCall => 8
  | .reserved i => 9 + i.val

/-- The interrupt kind of a queue entry (R360). -/
def DeviceIrq.kind : DeviceIrq → Interrupt
  | .keyboard => .keyboard
  | .diskA => .diskA
  | .diskB => .diskB

/-- R363: whether `imr` enables a queue entry. -/
def DeviceIrq.enabled (imr : BitVec 16) (k : DeviceIrq) : Bool := imr.getLsbD k.kind.number

/-- R361: the number of entries that the queue holds at most; `none` is unbounded. -/
def QueueCapacity.limit : QueueCapacity → Option Nat
  | .parameter => Config.irqQueueCapacity
  | .bounded spare => some (spare + 1)
  | .unbounded => none

/-- R361: the queue has room for one more entry. -/
def queueHasRoom (s : State) : Bool :=
  match s.irqCapacity.limit with
  | none => true
  | some n => decide (s.queue.length < n)

/-- R360: `Enqueue(k)`. -/
def enqueue (k : DeviceIrq) (s : State) : State := s.setQueue (s.queue ++ [k])

/-- R363: the first enabled entry of the queue, and the others in their order. -/
def takeEnabled (imr : BitVec 16) : List DeviceIrq → Option (DeviceIrq × List DeviceIrq)
  | [] => none
  | k :: ks =>
    if k.enabled imr then some (k, ks)
    else
      match takeEnabled imr ks with
      | none => none
      | some (j, rest) => some (j, k :: rest)

/-! ## Display -/

/-- R393: the character of a byte, if it has one. -/
def charOfByte (b : Byte) : Option Char :=
  if b = 31 then some (Char.ofNat 0xA3)
  else if b = 127 then some (Char.ofNat 0xAC)
  else if 32 ≤ b.toNat ∧ b.toNat ≤ 126 then some (Char.ofNat b.toNat)
  else none

/-- R394: a 2-bit colour channel quantised to 0, 85, 170 or 255. -/
def quantise (v : BitVec 2) : Nat := 85 * v.toNat

/-- R394: the colour of a byte laid out `00RRGGBB`; bits 7:6 are ignored. -/
def rgbOfByte (b : Byte) : Rgb :=
  ⟨quantise (b.extractLsb' 4 2), quantise (b.extractLsb' 2 2), quantise (b.extractLsb' 0 2)⟩

/-- R392: the record that a write of `b` at offset `o` of the display emits, if any. -/
def displayRecord (o : Nat) (b : Byte) : Option DisplayRecord :=
  let row := o % 2000 / 80
  let col := o % 2000 % 80
  if o < 2000 then (charOfByte b).map (.setChar row col)
  else if o < 4000 then some (.setFg row col (rgbOfByte b))
  else some (.setBg row col (rgbOfByte b))

/-- R392: a write to the display stores the byte and emits at most one record. -/
def displayWrite (o : Nat) (b : Byte) (s : State) : State :=
  (s.setDisplay (s.display.write o b)).setRecords (s.records ++ (displayRecord o b).toList)

/-! ## Keyboard -/

/-- R401: a read of the keyboard window. -/
def Keyboard.read (k : Keyboard) (o : Nat) : Byte := if o = 0 then k.key else k.metadata

/-- R402: the two bytes that a key message leaves; `metadata` is `(alt << 1) | ctrl`. -/
def Keyboard.ofMessage (m : KeyMessage) : Keyboard :=
  ⟨m.key, BitVec.ofNat 8 (2 * m.alt.toNat + m.ctrl.toNat)⟩

/-! ## Disks -/

/-- The disk commands (R416). -/
inductive DiskCommand where
  | read
  | write
  | contiguousRead
  | contiguousWrite
  deriving DecidableEq, Repr

/-- R416: the command of a command byte; every other byte is a bad command. -/
def diskCommand (c : Byte) : Option DiskCommand :=
  if c = 1 then some .read
  else if c = 2 then some .write
  else if c = 3 then some .contiguousRead
  else if c = 4 then some .contiguousWrite
  else none

/-- R416: the command copies a block into the buffer. -/
def DiskCommand.reads : DiskCommand → Bool
  | .read => true
  | .write => false
  | .contiguousRead => true
  | .contiguousWrite => false

/-- R416: the command increments `DA` when it succeeds. -/
def DiskCommand.contiguous : DiskCommand → Bool
  | .read => false
  | .write => false
  | .contiguousRead => true
  | .contiguousWrite => true

/-- R411: `STATUS`. -/
def Disk.status (d : Disk) : Byte :=
  BitVec.ofNat 8 (d.image.isSome.toNat + 2 * d.finished.toNat + 4 * d.success.toNat + 8 * d.badCommand.toNat)

/-- R410, R418: `NBA`, the block count of the attached image, 0 when disconnected. -/
def Disk.nba (d : Disk) : Word :=
  match d.image with
  | none => 0
  | some i => i.blocks

/-- Byte `i` of a word stored big-endian, byte 0 the most significant (R76). -/
def wordByte (v : Word) (i : Nat) : Byte := v.extractLsb' (8 * (3 - i)) 8

/-- `v` with byte `i`, counted from the most significant, replaced by `b`. -/
def setWordByte (v : Word) (i : Nat) (b : Byte) : Word :=
  match i with
  | 0 => b ++ v.extractLsb' 0 24
  | 1 => v.extractLsb' 24 8 ++ b ++ v.extractLsb' 0 16
  | 2 => v.extractLsb' 16 16 ++ b ++ v.extractLsb' 0 8
  | _ => v.extractLsb' 8 24 ++ b

/-- R412: a read of the register window. -/
def Disk.readRegister (d : Disk) (o : Nat) : Byte :=
  if o = 0 then d.status
  else if o ≤ 4 then wordByte d.nba (o - 1)
  else if o ≤ 8 then wordByte d.da (o - 5)
  else 0

/-- R414: a write of `c` to `CMD`. -/
def Disk.command (d : Disk) (c : Byte) : Disk :=
  if d.image.isNone || d.busy then d
  else { d with lcmd := c, lda := d.da, finished := false, success := false, badCommand := false, busy := true }

/-- R412: a write to the register window. -/
def Disk.writeRegister (d : Disk) (o : Nat) (b : Byte) : Disk :=
  if o ≤ 4 then d
  else if o ≤ 8 then (if d.busy then d else { d with da := setWordByte d.da (o - 5) b })
  else d.command b

/-- R410: the size of a block and of the buffer. -/
def blockBytes : Nat := 4096

/-- R415: the transfer of a valid command; `fill` is what a failed transfer leaves. -/
def Disk.transfer (d : Disk) (img : DiskImage) (c : DiskCommand) (ok : Bool) (fill : Memory) : Disk :=
  if c.reads then { d with buffer := if ok then Memory.window (blockBytes * d.lda.toNat) blockBytes img.bytes else fill }
  else
    { d with
      image := some { img with
        bytes := Memory.splice (blockBytes * d.lda.toNat) blockBytes (if ok then d.buffer else fill) img.bytes } }

/-- R415: the end of a command that is not valid. -/
def Disk.rejectCommand (d : Disk) : Disk :=
  { d with finished := true, success := false, badCommand := true, busy := false }

/-- R415: the result bits, `DA` and `busy` after a transfer. -/
def Disk.finish (d : Disk) (c : DiskCommand) (ok : Bool) : Disk :=
  { d with
    finished := true, success := ok, badCommand := false, busy := false
    da := if ok && c.contiguous then d.lda + 1 else d.da }

/-- R415: the completion of the latched command. -/
def Disk.complete (d : Disk) (ok : Bool) (fill : Memory) : Disk :=
  match d.image, diskCommand d.lcmd with
  | some img, some c =>
    if d.lda.toNat < img.blocks.toNat then (d.transfer img c ok fill).finish c ok else d.rejectCommand
  | _, _ => d.rejectCommand

/-- The controller of a disk. -/
def State.disk (s : State) : DiskId → Disk
  | .a => s.diskA
  | .b => s.diskB

/-- The state with a new controller for a disk. -/
def State.setDisk (s : State) (d : DiskId) (v : Disk) : State :=
  match d with
  | .a => s.setDiskA v
  | .b => s.setDiskB v

/-- R415: the interrupt of a disk. -/
def DiskId.irq : DiskId → DeviceIrq
  | .a => .diskA
  | .b => .diskB

/-- R417: the unspecified bytes that failed transfer number `draw` leaves. -/
def failedTransferBytes (draw : Nat) : Memory :=
  Memory.ofBytes ((List.range blockBytes).map (Config.failedTransferByte draw))

/-! ## Device steps -/

/-- R402: the keyboard consumes the oldest message, if there is one and the queue has room; else its state is unchanged. -/
def keyboardStep (s : State) : State :=
  match s.hostKeys with
  | [] => s
  | m :: ms =>
    if queueHasRoom s then enqueue .keyboard ((s.setHostKeys ms).setKeyboard (Keyboard.ofMessage m)) else s

/-- R415: a busy controller completes its command, if the queue has room; else its state is unchanged. -/
def diskStep (d : DiskId) (ok : Bool) (s : State) : State :=
  if (s.disk d).busy && queueHasRoom s then
    enqueue d.irq ((s.setDisk d ((s.disk d).complete ok (failedTransferBytes s.draws))).setDraws (s.draws + 1))
  else s

/-- One atomic step of a device (R111). -/
def deviceStep (t : DeviceStep) (s : State) : State :=
  match t with
  | .keyboard => keyboardStep s
  | .disk d ok => diskStep d ok s

/-- Device steps in order. -/
def deviceSteps (ts : List DeviceStep) (s : State) : State := ts.foldl (fun s t => deviceStep t s) s

end Sys2Proof.Machine
end

