-- ==== Sys2Proof/Machine/Boot.lean ====
section
/-! DEFINITION. The host's start (spec 70_reset_and_hazards.md R450 to R452, 60_exceptions.md R420): reset for any ROM image,
any disk images and any draw. -/

namespace Sys2Proof.Machine

/-- R8: the size of `ROM_IMAGE`. -/
def romBytes : Nat := 512

/-- R391: the number of display bytes. -/
def displayBytes : Nat := 6000

/-- R8, R410: the image a source stands for, its bytes those of `blocks` blocks. -/
def DiskImage.ofSource (src : DiskSource) : DiskImage :=
  ⟨src.blocks, Memory.ofBytes (src.bytes.take (blockBytes * src.blocks.toNat))⟩

/-- R450: a disk controller after reset. -/
def Disk.start (d : DiskStart) : Disk :=
  { image := d.image.map DiskImage.ofSource, finished := false, success := false, badCommand := false, da := d.da,
    buffer := Memory.ofBytes (d.buffer.take blockBytes), busy := false, lcmd := d.lcmd, lda := d.lda }

/-- R450, R451: the machine right after the host has started it, with `capacity` the queue's capacity. -/
def State.start (capacity : QueueCapacity) (i : StartInput) : State :=
  { State.reset with
    rom := Memory.ofBytes (i.rom.take romBytes)
    keyboard := i.keyboard
    diskA := Disk.start i.diskA
    diskB := Disk.start i.diskB
    irqCapacity := capacity }

/-- A disk controller with no image and every drawn value 0. -/
def DiskStart.unattached : DiskStart := ⟨none, 0, [], 0, 0⟩

/-- The start that `State.reset` stands for: no image anywhere and every drawn value 0 (log entries 2 and 3). -/
def StartInput.bare : StartInput := ⟨[], DiskStart.unattached, DiskStart.unattached, ⟨0, 0⟩⟩

/-- R420, R452: the host starts the machine again. Only a stopped machine is started, the start is a reset, and the turns
still to come stay as they were. -/
def hostStart (i : StartInput) (s : State) : State :=
  match s.runState with
  | .stopped => ((State.start s.irqCapacity i).setSchedule s.schedule).setMidStep s.midStep
  | .running => s
  | .paused => s

/-- R420, R48: the host's stop signal; no state is saved. -/
def hostStop (s : State) : State := s.setRunState .stopped

/-- R402: the host delivers a key message. -/
def hostKey (m : KeyMessage) (s : State) : State := s.setHostKeys (s.hostKeys ++ [m])

end Sys2Proof.Machine
end

