-- ==== Sys2Proof/Machine/Flags.lean ====
section
/-! DEFINITION. The `flags` register as a word and every flag computation of the spec: 10_state.md R36, 42_arithmetic.md R230
to R236, 43_bitwise.md R260 to R273, 44_compare_branch.md R303. -/

namespace Sys2Proof.Machine

/-- R36, R46: `flags` read as a word; bits 31:4 read as zero. -/
def Flags.toWord (f : Flags) : Word :=
  BitVec.ofNat 32 (f.c.toNat + 2 * f.z.toNat + 4 * f.o.toNat + 8 * f.n.toNat)

/-- R36, R46: a word written to `flags`; bits 31:4 are ignored. -/
def Flags.ofWord (v : Word) : Flags :=
  ⟨v.getLsbD 0, v.getLsbD 1, v.getLsbD 2, v.getLsbD 3⟩

/-- `setZN(r, w)` of R14, together with the carry and the overflow of the rule that calls it. -/
def flagsOfResult {w : Nat} (r : BitVec w) (c o : Bool) : Flags :=
  ⟨c, decide (r = 0), o, r.msb⟩

/-- A signed value does not fit in `w` bits: the overflow test of R231, R232, R233 and R300. -/
def signedOverflow (w : Nat) (v : Int) : Bool :=
  decide (v < -(2 ^ (w - 1) : Int) ∨ (2 ^ (w - 1) : Int) ≤ v)

/-- R231: the unsigned carry out of an addition. -/
def addCarry {w : Nat} (a b : BitVec w) : Bool := decide (2 ^ w ≤ a.toNat + b.toNat)

/-- R231: signed overflow of an addition. -/
def addOverflow {w : Nat} (a b : BitVec w) : Bool := signedOverflow w (a.toInt + b.toInt)

/-- R232, R300: the borrow of a subtraction. -/
def subBorrow {w : Nat} (a b : BitVec w) : Bool := decide (a.toNat < b.toNat)

/-- R232, R300: signed overflow of a subtraction. -/
def subOverflow {w : Nat} (a b : BitVec w) : Bool := signedOverflow w (a.toInt - b.toInt)

/-- R233: the unsigned product does not fit. -/
def mulCarry {w : Nat} (a b : BitVec w) : Bool := decide (2 ^ w ≤ a.toNat * b.toNat)

/-- R233: the signed product does not fit. -/
def mulOverflow {w : Nat} (a b : BitVec w) : Bool := signedOverflow w (a.toInt * b.toInt)

/-- R235: the quotient of the most negative value by -1 does not fit. -/
def divOverflow {w : Nat} (a b : BitVec w) : Bool :=
  decide (a.toInt = -(2 ^ (w - 1) : Int) ∧ b.toInt = -1)

/-- R266: the last bit that a left shift by `n` moves out. -/
def shlCarry {w : Nat} (a : BitVec w) (n : Nat) : Bool :=
  if 1 ≤ n ∧ n ≤ w then a.getLsbD (w - n) else false

/-- R267: the last bit that a logical right shift by `n` moves out. -/
def shrCarry {w : Nat} (a : BitVec w) (n : Nat) : Bool :=
  if 1 ≤ n ∧ n ≤ w then a.getLsbD (n - 1) else false

/-- R268: the last bit that an arithmetic right shift by `n` moves out; the sign bit beyond the width. -/
def sarCarry {w : Nat} (a : BitVec w) (n : Nat) : Bool :=
  if n = 0 then false else if n ≤ w then a.getLsbD (n - 1) else a.getLsbD (w - 1)

/-- The branch conditions (R303). -/
inductive Cond where
  | always
  | eq
  | neq
  | lt
  | ltu
  | gt
  | gtu
  | le
  | leu
  | ge
  | geu
  deriving DecidableEq, Repr

/-- R303: whether a condition holds on the flags. -/
def Cond.holds (cc : Cond) (f : Flags) : Bool :=
  match cc with
  | .always => true
  | .eq => f.z
  | .neq => !f.z
  | .lt => f.n != f.o
  | .ltu => f.c
  | .gt => !f.z && f.n == f.o
  | .gtu => !f.c && !f.z
  | .le => f.z || f.n != f.o
  | .leu => f.c || f.z
  | .ge => f.n == f.o
  | .geu => !f.c

end Sys2Proof.Machine
end

