-- ==== Sys2Proof/Machine/Alu.lean ====
section
/-! DEFINITION. The results of the arithmetic, logical, shift and rotate operations at any width, each with its flags: spec
42_arithmetic.md R231 to R236 and 43_bitwise.md R261 to R273. -/

namespace Sys2Proof.Machine

/-- A result and the four flags that go with it. -/
structure AluResult (w : Nat) where
  value : BitVec w
  flags : Flags
  deriving DecidableEq, Repr

/-- A result with the `Z` and `N` of its value (R14 `setZN`). -/
def aluResult {w : Nat} (r : BitVec w) (c o : Bool) : AluResult w := ⟨r, flagsOfResult r c o⟩

/-- R231. -/
def aluAdd (w : Nat) (a b : BitVec w) : AluResult w := aluResult (a + b) (addCarry a b) (addOverflow a b)

/-- R232. -/
def aluSub (w : Nat) (a b : BitVec w) : AluResult w := aluResult (a - b) (subBorrow a b) (subOverflow a b)

/-- R233. -/
def aluMul (w : Nat) (a b : BitVec w) : AluResult w := aluResult (a * b) (mulCarry a b) (mulOverflow a b)

/-- R234, for a divisor that is not zero. -/
def aluUdiv (w : Nat) (a b : BitVec w) : AluResult w :=
  aluResult (BitVec.ofNat w (a.toNat / b.toNat)) false false

/-- R235, for a divisor that is not zero: the quotient rounds toward zero. -/
def aluSdiv (w : Nat) (a b : BitVec w) : AluResult w :=
  if divOverflow a b then aluResult (BitVec.intMin w) false true
  else aluResult (BitVec.ofInt w (a.toInt.tdiv b.toInt)) false false

/-- R236. -/
def aluNeg (w : Nat) (a : BitVec w) : AluResult w :=
  aluResult (0 - a) (decide (a ≠ 0)) (decide (a = BitVec.intMin w))

/-- R261. -/
def aluAnd (w : Nat) (a b : BitVec w) : AluResult w := aluResult (a &&& b) false false

/-- R262. -/
def aluOr (w : Nat) (a b : BitVec w) : AluResult w := aluResult (a ||| b) false false

/-- R263. -/
def aluXor (w : Nat) (a b : BitVec w) : AluResult w := aluResult (a ^^^ b) false false

/-- R264. -/
def aluNot (w : Nat) (a : BitVec w) : AluResult w := aluResult (a ^^^ BitVec.allOnes w) false false

/-- R265, R266: the count is the unsigned value of `b`. -/
def aluShl (w : Nat) (a b : BitVec w) : AluResult w :=
  aluResult (if w ≤ b.toNat then 0 else BitVec.ofNat w (a.toNat * 2 ^ b.toNat)) (shlCarry a b.toNat) false

/-- R265, R267. -/
def aluShr (w : Nat) (a b : BitVec w) : AluResult w :=
  aluResult (if w ≤ b.toNat then 0 else BitVec.ofNat w (a.toNat / 2 ^ b.toNat)) (shrCarry a b.toNat) false

/-- R265, R268: the shift rounds toward minus infinity. -/
def aluSar (w : Nat) (a b : BitVec w) : AluResult w :=
  aluResult
    (if w ≤ b.toNat then (if a.getLsbD (w - 1) then BitVec.allOnes w else 0)
     else BitVec.ofInt w (a.toInt / (2 ^ b.toNat : Nat)))
    (sarCarry a b.toNat) false

/-- `a` rotated left by `m`, for `m < w` (R269). -/
def rotateLeftValue (w : Nat) (a : BitVec w) (m : Nat) : BitVec w :=
  BitVec.ofNat w ((a.toNat * 2 ^ m) % 2 ^ w ||| a.toNat / 2 ^ (w - m))

/-- `a` rotated right by `m`, for `m < w` (R270). -/
def rotateRightValue (w : Nat) (a : BitVec w) (m : Nat) : BitVec w :=
  BitVec.ofNat w (a.toNat / 2 ^ m ||| (a.toNat * 2 ^ (w - m)) % 2 ^ w)

/-- R265, R269. -/
def aluRol (w : Nat) (a b : BitVec w) : AluResult w :=
  let r := rotateLeftValue w a (b.toNat % w)
  aluResult r (decide (b.toNat ≠ 0) && r.getLsbD 0) false

/-- R265, R270. -/
def aluRor (w : Nat) (a b : BitVec w) : AluResult w :=
  let r := rotateRightValue w a (b.toNat % w)
  aluResult r (decide (b.toNat ≠ 0) && r.getLsbD (w - 1)) false

/-- R271: rotate left through carry by one bit. -/
def rclOnce {w : Nat} (p : BitVec w × Bool) : BitVec w × Bool :=
  (p.1 <<< 1 ||| (BitVec.ofBool p.2).setWidth w, p.1.msb)

/-- R271: rotate right through carry by one bit. -/
def rcrOnce {w : Nat} (p : BitVec w × Bool) : BitVec w × Bool :=
  (p.1 >>> 1 ||| (BitVec.ofBool p.2).setWidth w <<< (w - 1), p.1.getLsbD 0)

/-- `f` applied `n` times. -/
def iterate {α : Type} (f : α → α) : Nat → α → α
  | 0, x => x
  | n + 1, x => iterate f n (f x)

/-- R265, R272, with the carry flag before the instruction. -/
def aluRcl (c : Bool) (w : Nat) (a b : BitVec w) : AluResult w :=
  let p := iterate rclOnce (b.toNat % (w + 1)) (a, c)
  aluResult p.1 p.2 false

/-- R265, R273, with the carry flag before the instruction. -/
def aluRcr (c : Bool) (w : Nat) (a b : BitVec w) : AluResult w :=
  let p := iterate rcrOnce (b.toNat % (w + 1)) (a, c)
  aluResult p.1 p.2 false

end Sys2Proof.Machine
end

