-- ==== Sys2Proof/Machine/Operands.lean ====
section
/-! DEFINITION. Register operands (spec 10_state.md R30 to R47, 30_encoding.md R135): the one way in which instructions read
and write registers. -/

namespace Sys2Proof.Machine

/-- `x[i]` of R12: the 32 bits of a general register. -/
def readReg (i : Fin 8) (s : State) : Word := s.regs[i]

/-- `x[i] <- v` of R12. -/
def writeReg (i : Fin 8) (v : Word) (s : State) : State := s.setRegs (s.regs.set i v)

/-- R32: a register whose low part of width `w` becomes `v`, the bits outside the part preserved. -/
def mergeLow (w : Width) (old : Word) (v : BitVec w.bits) : Word :=
  match w with
  | .byte => old.extractLsb' 8 24 ++ v.setWidth 8
  | .half => old.extractLsb' 16 16 ++ v.setWidth 16
  | .word => v.setWidth 32

/-- R31: `Reg(ref)` for a general register, at the width that the reference names. -/
def readG (r : GRef) (s : State) : BitVec r.width.bits := (readReg r.index s).setWidth r.width.bits

/-- R32: `Reg(ref) <- v` for a general register. -/
def writeG (r : GRef) (v : BitVec r.width.bits) (s : State) : State :=
  writeReg r.index (mergeLow r.width (readReg r.index s) v) s

/-- R36, R39 to R43: a special register read as a word. -/
def readSpecial (r : SpecialReg) (s : State) : Word :=
  match r with
  | .flags => s.flags.toWord
  | .uspr => s.uspr
  | .kspr => s.kspr
  | .pdpr => s.pdpr
  | .imr => s.imr.setWidth 32
  | .pfva => s.pfva

/-- R46: a word written to a special register; `flags` keeps bits 3:0 and `imr` bits 15:0. -/
def writeSpecial (r : SpecialReg) (v : Word) (s : State) : State :=
  match r with
  | .flags => s.setFlags (Flags.ofWord v)
  | .uspr => s.setUspr v
  | .kspr => s.setKspr v
  | .pdpr => s.setPdpr v
  | .imr => s.setImr (v.setWidth 16)
  | .pfva => s.setPfva v

/-- `Reg(ref)` of R12 for any reference: a `W(ref)`-bit value, held in a word. -/
def readRef (r : Ref) (s : State) : Word :=
  match r with
  | .gpr g => (readG g s).setWidth 32
  | .special p => readSpecial p s

/-- `Reg(ref) <- v` of R12 for any reference: the low `W(ref)` bits of `v`. -/
def writeRef (r : Ref) (v : Word) (s : State) : State :=
  match r with
  | .gpr g => writeG g (v.setWidth g.width.bits) s
  | .special p => writeSpecial p v s

/-- R45: the privileged registers. -/
def specialPrivileged : SpecialReg → Bool
  | .flags => false
  | .uspr => false
  | .kspr => true
  | .pdpr => true
  | .imr => true
  | .pfva => true

/-- R45: the reference names a privileged register. -/
def refPrivileged : Ref → Bool
  | .gpr _ => false
  | .special r => specialPrivileged r

/-- R47: the active stack pointer. -/
def activeSp (s : State) : Word :=
  match s.mode with
  | .kernel => s.kspr
  | .user => s.uspr

/-- R47: a write of the active stack pointer. -/
def setActiveSp (v : Word) (s : State) : State :=
  match s.mode with
  | .kernel => s.setKspr v
  | .user => s.setUspr v

/-- R35: past an instruction of `n` bytes. -/
def advance (n : Nat) (s : State) : State := s.setPc (s.pc + BitVec.ofNat 32 n)

end Sys2Proof.Machine
end

