-- ==== Sys2Proof/Machine/Ops.lean ====
section
/-! DEFINITION. The operations that instructions share: the physical map and its byte accesses (spec 20_memory.md R71 to R81),
address translation (R90 to R101), the memory primitives (R95 to R98), and taking an exception and returning from one
(60_exceptions.md R372 to R376, 40_control.md R173). -/

namespace Sys2Proof.Machine

/-- The outcome of a CPU step. -/
abbrev Result := Host.Outcome State Fault Refusal

/-! ## The physical map -/

/-- The rows of R71, each device row with the offset in it. -/
inductive Region where
  | vector
  | rom (o : Nat)
  | display (o : Nat)
  | diskRegister (d : DiskId) (o : Nat)
  | diskBuffer (d : DiskId) (o : Nat)
  | keyboard (o : Nat)
  | ram
  deriving DecidableEq, Repr

/-- R71: the row that holds a physical address. Every address belongs to exactly one. -/
def regionOf (pa : Word) : Region :=
  let a := pa.toNat
  if a < 0x40 then .vector
  else if a < 0x240 then .rom (a - 0x40)
  else if a < 0x19B0 then .display (a - 0x240)
  else if a < 0x19BA then .diskRegister .a (a - 0x19B0)
  else if a < 0x29BA then .diskBuffer .a (a - 0x19BA)
  else if a < 0x29C4 then .diskRegister .b (a - 0x29BA)
  else if a < 0x39C4 then .diskBuffer .b (a - 0x29C4)
  else if a < 0x39C6 then .keyboard (a - 0x39C4)
  else .ram

/-- R120: the rows that are device windows. -/
def Region.isDevice : Region → Bool
  | .vector => false
  | .rom _ => false
  | .display _ => true
  | .diskRegister _ _ => true
  | .diskBuffer _ _ => true
  | .keyboard _ => true
  | .ram => false

/-- R72: what a read of one byte returns. No read has a side effect (R81). -/
def peek (s : State) (pa : Word) : Byte :=
  match regionOf pa with
  | .vector => s.ram.read pa.toNat
  | .rom o => s.rom.read o
  | .display o => s.display.read o
  | .diskRegister d o => (s.disk d).readRegister o
  | .diskBuffer d o => (s.disk d).buffer.read o
  | .keyboard o => s.keyboard.read o
  | .ram => s.ram.read pa.toNat

/-- R72: what a write of one byte does. ROM and the keyboard discard it (R74, R401). -/
def poke (pa : Word) (b : Byte) (s : State) : State :=
  match regionOf pa with
  | .vector => s.setRam (s.ram.write pa.toNat b)
  | .rom _ => s
  | .display o => displayWrite o b s
  | .diskRegister d o => s.setDisk d ((s.disk d).writeRegister o b)
  | .diskBuffer d o => s.setDisk d { s.disk d with buffer := (s.disk d).buffer.write o b }
  | .keyboard _ => s
  | .ram => s.setRam (s.ram.write pa.toNat b)

/-- R120: device steps may fall between two byte accesses that one CPU step makes to device windows. They are taken right
after an access to a device window (log entry 7). -/
def afterAccess (pa : Word) (s : State) : State :=
  if (regionOf pa).isDevice then
    match s.midStep with
    | [] => s
    | ts :: rest => deviceSteps ts (s.setMidStep rest)
  else s

/-- `PhysRead8` of R72. -/
def physRead8 (pa : Word) (s : State) : Byte × State := (peek s pa, afterAccess pa s)

/-- `PhysWrite8` of R72. -/
def physWrite8 (pa : Word) (b : Byte) (s : State) : State := afterAccess pa (poke pa b s)

/-- The `n` addresses from `a`, ascending, modulo 2^32 (R77, R79). -/
def addresses (a : Word) (n : Nat) : List Word := (List.range n).map fun i => a + BitVec.ofNat 32 i

/-- `BE` of R13: the number whose most significant byte is the first. -/
def beWord (bs : List Byte) : Word := bs.foldl (fun acc b => acc <<< 8 ||| b.setWidth 32) 0

/-- The `n` bytes of a value, the most significant first (R77). -/
def beBytes (n : Nat) (v : Word) : List Byte := (List.range n).map fun i => v.extractLsb' (8 * (n - 1 - i)) 8

/-- The bytes at physical addresses, read in order (R77). -/
def physReadList : List Word → State → List Byte × State
  | [], s => ([], s)
  | p :: ps, s =>
    let first := physRead8 p s
    let others := physReadList ps first.2
    (first.1 :: others.1, others.2)

/-- Bytes written at physical addresses, in order (R77). -/
def physWriteList : List (Word × Byte) → State → State
  | [], s => s
  | c :: cs, s => physWriteList cs (physWrite8 c.1 c.2 s)

/-- `PhysRead(pa, n)` of R77. -/
def physRead (n : Nat) (pa : Word) (s : State) : Word × State :=
  let r := physReadList (addresses pa n) s
  (beWord r.1, r.2)

/-- `PhysWrite(pa, n, v)` of R77. -/
def physWrite (n : Nat) (pa v : Word) (s : State) : State :=
  physWriteList ((addresses pa n).zip (beBytes n v)) s

/-! ## Translation -/

/-- The kinds of access (R93). -/
inductive Access where
  | read
  | write
  | fetch
  deriving DecidableEq, Repr

/-- R92, R93: the page-table entry bit that an access needs. -/
def Access.permissionBit : Access → Nat
  | .read => 1
  | .write => 2
  | .fetch => 3

/-- R90: the address of the page-directory entry of a virtual address. -/
def pdeAddress (pdpr va : Word) : Word := pdpr + (va.extractLsb' 22 10).setWidth 32 * 4

/-- R90, R91: the address of the page-table entry, in the table that the directory entry names. -/
def pteAddress (pde va : Word) : Word := (pde.extractLsb' 12 20 ++ 0#12) + (va.extractLsb' 12 10).setWidth 32 * 4

/-- R90: `Translate(va, acc)`; `none` is `Fault`. There is no TLB (R99): both entries are read anew. -/
def translate (va : Word) (acc : Access) (s : State) : Option Word × State :=
  let pde := physRead 4 (pdeAddress s.pdpr va) s
  if pde.1.getLsbD 0 = false then (none, pde.2)
  else
    let pte := physRead 4 (pteAddress pde.1 va) pde.2
    if pte.1.getLsbD 0 = false then (none, pte.2)
    else if pte.1.getLsbD acc.permissionBit = false then (none, pte.2)
    else (some (pte.1.extractLsb' 12 20 ++ va.extractLsb' 0 12), pte.2)

/-- R90, R94: in kernel mode an address is physical and nothing is checked. -/
def resolve (va : Word) (acc : Access) (s : State) : Option Word × State :=
  match s.mode with
  | .kernel => (some va, s)
  | .user => translate va acc s

/-- A memory access ends with a value, or with a page fault at a virtual address. -/
inductive MemResult (α : Type) where
  | ok (v : α) (s : State)
  | pageFault (va : Word) (s : State)

/-- One access after another; the first page fault ends them. -/
def MemResult.bind {α β : Type} (r : MemResult α) (k : α → State → MemResult β) : MemResult β :=
  match r with
  | .ok v s => k v s
  | .pageFault va s => .pageFault va s

/-- R95, R96: every byte's address translated in order, up to the first that fails. -/
def resolveList (acc : Access) : List Word → State → MemResult (List Word)
  | [], s => .ok [] s
  | a :: rest, s =>
    match resolve a acc s with
    | (none, s1) => .pageFault a s1
    | (some p, s1) => (resolveList acc rest s1).bind fun ps s2 => .ok (p :: ps) s2

/-- `MemRead(va, n, acc)` of R95. -/
def memRead (n : Nat) (va : Word) (acc : Access) (s : State) : MemResult Word :=
  (resolveList acc (addresses va n) s).bind fun ps s1 =>
    .ok (beWord (physReadList ps s1).1) (physReadList ps s1).2

/-- `MemWrite(va, n, v)` of R96: no byte is written unless every byte translates. -/
def memWrite (n : Nat) (va v : Word) (s : State) : MemResult Unit :=
  (resolveList .write (addresses va n) s).bind fun ps s1 => .ok () (physWriteList (ps.zip (beBytes n v)) s1)

/-- R98, R196: the exchange of a value with memory. Every byte is checked for read, then for write, before any effect. -/
def memSwap (n : Nat) (va v : Word) (s : State) : MemResult Word :=
  (resolveList .read (addresses va n) s).bind fun _ s1 =>
    (resolveList .write (addresses va n) s1).bind fun _ s2 =>
      (memRead n va .read s2).bind fun old s3 =>
        (memWrite n va v s3).bind fun _ s4 => .ok old s4

/-- R203: the bytes of a block copy, one at a time in ascending order. A page fault keeps the bytes already written. -/
def blockCopyLoop : Nat → Word → Word → State → MemResult Unit
  | 0, _, _, s => .ok () s
  | n + 1, d, src, s =>
    (memRead 1 src .read s).bind fun b s1 =>
      (memWrite 1 d b s1).bind fun _ s2 => blockCopyLoop n (d + 1) (src + 1) s2

/-- R204: the bytes of a block set, one at a time in ascending order. -/
def blockSetLoop : Nat → Word → Word → State → MemResult Unit
  | 0, _, _, s => .ok () s
  | n + 1, d, v, s => (memWrite 1 d v s).bind fun _ s1 => blockSetLoop n (d + 1) v s1

/-! ## Taking an exception and returning from one -/

/-- R374: the status word that entry saves. -/
def statusWord (s : State) : Word :=
  s.imr.setWidth 32 <<< 16 ||| (if s.mode = .user then 0x100 else 0) ||| s.flags.toWord

/-- R373: one word pushed on the kernel stack. -/
def pushKernel (v : Word) (s : State) : State := physWrite 4 (s.kspr - 4) v (s.setKspr (s.kspr - 4))

/-- R350: the address of a vector entry. -/
def vectorAddress (k : Interrupt) : Word := BitVec.ofNat 32 (4 * k.number)

/-- R373: the three words of the frame, pushed in kernel mode: status, return address, user stack pointer. -/
def pushFrame (ret : Word) (s : State) : State :=
  let s1 := pushKernel (statusWord s) (s.setMode .kernel)
  let s2 := pushKernel ret s1
  pushKernel s2.uspr s2

/-- R373: `TakeInterrupt(k, ret)`. -/
def takeInterrupt (k : Interrupt) (ret : Word) (s : State) : State :=
  let s1 := (pushFrame ret s).setImr 0
  let v := physRead 4 (vectorAddress k) s1
  (v.2.setPc v.1).setRunState .running

/-- `raise IllegalOperation()` (R353, R372, R375). -/
def raiseIllegal (s : State) : State := takeInterrupt .illegalOperation s.pc s

/-- `raise DivideByZero()` (R354, R372, R375). -/
def raiseDivideByZero (s : State) : State := takeInterrupt .divideByZero s.pc s

/-- `raise PageFault(va)` (R97, R372, R375): `pfva` is set before entry. -/
def raisePageFault (va : Word) (s : State) : State := takeInterrupt .pageFault s.pc (s.setPfva va)

/-- `raise SystemCall()` (R174, R375): the saved pc is that of the next instruction. -/
def raiseSystemCall (s : State) : State := takeInterrupt .systemCall (s.pc + 1) s

/-- R173: the three words of a frame popped, and what each restores. -/
def returnFromInterrupt (s : State) : State :=
  let u := physRead 4 s.kspr s
  let p := physRead 4 (s.kspr + 4) u.2
  let st := physRead 4 (s.kspr + 8) p.2
  (((((st.2.setKspr (s.kspr + 12)).setUspr u.1).setFlags (Flags.ofWord st.1)).setMode
    (if st.1.getLsbD 8 then .user else .kernel)).setImr (st.1.extractLsb' 16 16)).setPc p.1

/-- R150, R175, R45: a privileged instruction, or one that names a privileged register, raises `IllegalOperation` in user
mode with no other effect. -/
def guardPrivilege (privileged : Bool) (s : State) (k : Result) : Result :=
  if privileged = true ∧ s.mode = .user then .next (raiseIllegal s) else k

/-- R97: the rest of an instruction after a memory access, or the page fault that the access ends in. -/
def MemResult.finish {α : Type} (r : MemResult α) (k : α → State → State) : Result :=
  match r with
  | .ok v s => .next (k v s)
  | .pageFault va s => .next (raisePageFault va s)

end Sys2Proof.Machine
end

