-- ==== Sys2Proof/Machine/AluShapes.lean ====
section
/-! DEFINITION. The two shapes that arithmetic, bitwise and compare instructions share (spec 42_arithmetic.md R230,
43_bitwise.md R260 and R265): both operands are read before the result is written. -/

namespace Sys2Proof.Machine

/-- A result written to `dst` with its flags, by an instruction of `len` bytes. -/
def writeResult (len : Nat) (dst : GRef) (r : AluResult dst.width.bits) (s : State) : State :=
  advance len ((writeG dst r.value s).setFlags r.flags)

/-- `Reg(src)` as a value of the width of `dst`, which is the width of `src` too (R134). -/
def sourceValue (dst src : GRef) (s : State) : BitVec dst.width.bits := (readG src s).setWidth dst.width.bits

/-- A literal as a value of the width of `dst` (R132). -/
def literalValue (dst : GRef) (lit : Word) : BitVec dst.width.bits := lit.setWidth dst.width.bits

/-- The length of a register-literal instruction (R136). -/
def literalLength (dst : GRef) : Nat := 2 + dst.width.bytes

/-- The register form of a two-operand instruction. -/
def aluReg (f : (w : Nat) → BitVec w → BitVec w → AluResult w) (dst src : GRef) (s : State) : Result :=
  .next (writeResult 3 dst (f dst.width.bits (readG dst s) (sourceValue dst src s)) s)

/-- The literal form of a two-operand instruction. -/
def aluLit (f : (w : Nat) → BitVec w → BitVec w → AluResult w) (dst : GRef) (lit : Word) (s : State) : Result :=
  .next (writeResult (literalLength dst) dst (f dst.width.bits (readG dst s) (literalValue dst lit)) s)

/-- A one-operand instruction. -/
def aluOne (f : (w : Nat) → BitVec w → AluResult w) (dst : GRef) (s : State) : Result :=
  .next (writeResult 2 dst (f dst.width.bits (readG dst s)) s)

/-- A division: a zero divisor raises `DivideByZero` before any write (R234, R235, R354). -/
def divide (len : Nat) (f : (w : Nat) → BitVec w → BitVec w → AluResult w) (dst : GRef) (b : BitVec dst.width.bits)
    (s : State) : Result :=
  if b = 0 then .next (raiseDivideByZero s) else .next (writeResult len dst (f dst.width.bits (readG dst s) b) s)

end Sys2Proof.Machine
end

