-- ==== Sys2Proof/Machine/Arithmetic.lean ====
section
/-! DEFINITION. The arithmetic instructions (spec 42_arithmetic.md R230 to R237). -/

namespace Sys2Proof.Machine

/-- `ADD dst, src` (R231). -/
def execAddR (dst src : GRef) (s : State) : Result := aluReg aluAdd dst src s

/-- `ADD dst, lit` (R231). -/
def execAddI (dst : GRef) (lit : Word) (s : State) : Result := aluLit aluAdd dst lit s

/-- `SUB dst, src` (R232). -/
def execSubR (dst src : GRef) (s : State) : Result := aluReg aluSub dst src s

/-- `SUB dst, lit` (R232). -/
def execSubI (dst : GRef) (lit : Word) (s : State) : Result := aluLit aluSub dst lit s

/-- `MUL dst, src` (R233). -/
def execMulR (dst src : GRef) (s : State) : Result := aluReg aluMul dst src s

/-- `MUL dst, lit` (R233). -/
def execMulI (dst : GRef) (lit : Word) (s : State) : Result := aluLit aluMul dst lit s

/-- `UDIV dst, src` (R234). -/
def execUdivR (dst src : GRef) (s : State) : Result :=
  divide 3 aluUdiv dst (sourceValue dst src s) s

/-- `UDIV dst, lit` (R234). -/
def execUdivI (dst : GRef) (lit : Word) (s : State) : Result :=
  divide (literalLength dst) aluUdiv dst (literalValue dst lit) s

/-- `SDIV dst, src` (R235). -/
def execSdivR (dst src : GRef) (s : State) : Result :=
  divide 3 aluSdiv dst (sourceValue dst src s) s

/-- `SDIV dst, lit` (R235). -/
def execSdivI (dst : GRef) (lit : Word) (s : State) : Result :=
  divide (literalLength dst) aluSdiv dst (literalValue dst lit) s

/-- `NEG dst` (R236). -/
def execNeg (dst : GRef) (s : State) : Result := aluOne aluNeg dst s

end Sys2Proof.Machine
end

