-- ==== Sys2Proof/Machine/Bitwise.lean ====
section
/-! DEFINITION. The logical, shift and rotate instructions (spec 43_bitwise.md R260 to R273). -/

namespace Sys2Proof.Machine

/-- `AND dst, src` (R261). -/
def execAndR (dst src : GRef) (s : State) : Result := aluReg aluAnd dst src s

/-- `AND dst, lit` (R261). -/
def execAndI (dst : GRef) (lit : Word) (s : State) : Result := aluLit aluAnd dst lit s

/-- `OR dst, src` (R262). -/
def execOrR (dst src : GRef) (s : State) : Result := aluReg aluOr dst src s

/-- `OR dst, lit` (R262). -/
def execOrI (dst : GRef) (lit : Word) (s : State) : Result := aluLit aluOr dst lit s

/-- `XOR dst, src` (R263). -/
def execXorR (dst src : GRef) (s : State) : Result := aluReg aluXor dst src s

/-- `XOR dst, lit` (R263). -/
def execXorI (dst : GRef) (lit : Word) (s : State) : Result := aluLit aluXor dst lit s

/-- `NOT dst` (R264). -/
def execNotR (dst : GRef) (s : State) : Result := aluOne aluNot dst s

/-- `SHL dst, count` (R266). -/
def execShlR (dst count : GRef) (s : State) : Result := aluReg aluShl dst count s

/-- `SHL dst, lit` (R266). -/
def execShlI (dst : GRef) (lit : Word) (s : State) : Result := aluLit aluShl dst lit s

/-- `SHR dst, count` (R267). -/
def execShrR (dst count : GRef) (s : State) : Result := aluReg aluShr dst count s

/-- `SHR dst, lit` (R267). -/
def execShrI (dst : GRef) (lit : Word) (s : State) : Result := aluLit aluShr dst lit s

/-- `SAR dst, count` (R268). -/
def execSarR (dst count : GRef) (s : State) : Result := aluReg aluSar dst count s

/-- `SAR dst, lit` (R268). -/
def execSarI (dst : GRef) (lit : Word) (s : State) : Result := aluLit aluSar dst lit s

/-- `ROL dst, count` (R269). -/
def execRolR (dst count : GRef) (s : State) : Result := aluReg aluRol dst count s

/-- `ROL dst, lit` (R269). -/
def execRolI (dst : GRef) (lit : Word) (s : State) : Result := aluLit aluRol dst lit s

/-- `ROR dst, count` (R270). -/
def execRorR (dst count : GRef) (s : State) : Result := aluReg aluRor dst count s

/-- `ROR dst, lit` (R270). -/
def execRorI (dst : GRef) (lit : Word) (s : State) : Result := aluLit aluRor dst lit s

/-- `RCL dst, count` (R272). -/
def execRclR (dst count : GRef) (s : State) : Result := aluReg (aluRcl s.flags.c) dst count s

/-- `RCL dst, lit` (R272). -/
def execRclI (dst : GRef) (lit : Word) (s : State) : Result := aluLit (aluRcl s.flags.c) dst lit s

/-- `RCR dst, count` (R273). -/
def execRcrR (dst count : GRef) (s : State) : Result := aluReg (aluRcr s.flags.c) dst count s

/-- `RCR dst, lit` (R273). -/
def execRcrI (dst : GRef) (lit : Word) (s : State) : Result := aluLit (aluRcr s.flags.c) dst lit s

end Sys2Proof.Machine
end

