-- ==== Sys2Proof/Machine/CompareBranch.lean ====
section
/-! DEFINITION. The compare and branch instructions (spec 44_compare_branch.md R300 to R306). -/

namespace Sys2Proof.Machine

/-- `CMP a, b` (R300): the flags of `SUB`, and no register. -/
def execCmpR (a b : GRef) (s : State) : Result :=
  .next (advance 3 (s.setFlags (aluSub a.width.bits (readG a s) (sourceValue a b s)).flags))

/-- `CMP a, lit` (R300). -/
def execCmpI (a : GRef) (lit : Word) (s : State) : Result :=
  .next (advance (literalLength a) (s.setFlags (aluSub a.width.bits (readG a s) (literalValue a lit)).flags))

/-- A branch of `len` bytes to an absolute virtual address, which is not checked here (R302, R303, R305). -/
def branch (cc : Cond) (len : Nat) (target : Word) (s : State) : Result :=
  .next (if cc.holds s.flags then s.setPc target else advance len s)

/-- `B target` literal address (R304). -/
def execBA (target : Word) (s : State) : Result := branch .always 5 target s

/-- `B target` register-indirect (R304). -/
def execBR (target : Fin 8) (s : State) : Result := branch .always 2 (readReg target s) s

/-- `BEQ target` literal address (R305). -/
def execBeqA (target : Word) (s : State) : Result := branch .eq 5 target s

/-- `BEQ target` register-indirect (R305). -/
def execBeqR (target : Fin 8) (s : State) : Result := branch .eq 2 (readReg target s) s

/-- `BNEQ target` literal address (R305). -/
def execBneqA (target : Word) (s : State) : Result := branch .neq 5 target s

/-- `BNEQ target` register-indirect (R305). -/
def execBneqR (target : Fin 8) (s : State) : Result := branch .neq 2 (readReg target s) s

/-- `BLT target` literal address (R305). -/
def execBltA (target : Word) (s : State) : Result := branch .lt 5 target s

/-- `BLT target` register-indirect (R305). -/
def execBltR (target : Fin 8) (s : State) : Result := branch .lt 2 (readReg target s) s

/-- `BLTU target` literal address (R305). -/
def execBltuA (target : Word) (s : State) : Result := branch .ltu 5 target s

/-- `BLTU target` register-indirect (R305). -/
def execBltuR (target : Fin 8) (s : State) : Result := branch .ltu 2 (readReg target s) s

/-- `BGT target` literal address (R305). -/
def execBgtA (target : Word) (s : State) : Result := branch .gt 5 target s

/-- `BGT target` register-indirect (R305). -/
def execBgtR (target : Fin 8) (s : State) : Result := branch .gt 2 (readReg target s) s

/-- `BGTU target` literal address (R305). -/
def execBgtuA (target : Word) (s : State) : Result := branch .gtu 5 target s

/-- `BGTU target` register-indirect (R305). -/
def execBgtuR (target : Fin 8) (s : State) : Result := branch .gtu 2 (readReg target s) s

/-- `BLE target` literal address (R305). -/
def execBleA (target : Word) (s : State) : Result := branch .le 5 target s

/-- `BLE target` register-indirect (R305). -/
def execBleR (target : Fin 8) (s : State) : Result := branch .le 2 (readReg target s) s

/-- `BLEU target` literal address (R305). -/
def execBleuA (target : Word) (s : State) : Result := branch .leu 5 target s

/-- `BLEU target` register-indirect (R305). -/
def execBleuR (target : Fin 8) (s : State) : Result := branch .leu 2 (readReg target s) s

/-- `BGE target` literal address (R305). -/
def execBgeA (target : Word) (s : State) : Result := branch .ge 5 target s

/-- `BGE target` register-indirect (R305). -/
def execBgeR (target : Fin 8) (s : State) : Result := branch .ge 2 (readReg target s) s

/-- `BGEU target` literal address (R305). -/
def execBgeuA (target : Word) (s : State) : Result := branch .geu 5 target s

/-- `BGEU target` register-indirect (R305). -/
def execBgeuR (target : Fin 8) (s : State) : Result := branch .geu 2 (readReg target s) s

end Sys2Proof.Machine
end

