-- ==== Sys2Proof/Machine/Control.lean ====
section
/-! DEFINITION. The control instructions (spec 40_control.md R170 to R175). -/

namespace Sys2Proof.Machine

/-- `HALT` (R170): stops the CPU. Privileged (R175). -/
def execHalt (s : State) : Result := guardPrivilege true s (.next ((advance 1 s).setRunState .stopped))

/-- `PAUSE` (R171): waits for an interrupt. Privileged (R175). -/
def execPause (s : State) : Result := guardPrivilege true s (.next ((advance 1 s).setRunState .paused))

/-- `NOP` (R172). -/
def execNop (s : State) : Result := .next (advance 1 s)

/-- `IRETURN` (R173): the interrupt return. Privileged (R175). -/
def execIreturn (s : State) : Result := guardPrivilege true s (.next (returnFromInterrupt s))

/-- `SYSCALL` (R174): takes interrupt 8 in both modes. -/
def execSyscall (s : State) : Result := .next (raiseSystemCall s)

end Sys2Proof.Machine
end

