-- ==== Sys2Proof/Machine/Float.lean ====
section
/-! DEFINITION. IEEE-754 binary32 values as the spec uses them (45_conversion.md R333 to R338; the field layout and the
comparison relation are marked there as general knowledge, log entry 14). A value is held exactly, as the integer
`value * 2^149`: every finite binary32 value is such an integer. -/

namespace Sys2Proof.Machine

/-- The value that a binary32 bit pattern stands for. -/
inductive FloatValue where
  | nan
  /-- Positive infinity, or negative infinity where `negative`. -/
  | infinite (negative : Bool)
  /-- The finite value `scaled / 2^149`. -/
  | finite (scaled : Int)
  deriving DecidableEq, Repr

/-- `v` with the sign of a binary32 pattern. -/
def signedValue (negative : Bool) (v : Int) : Int := if negative then -v else v

/-- R333: bit 31 sign, bits 30:23 biased exponent, bits 22:0 fraction; subnormal values are honoured. -/
def FloatValue.ofBits (b : Word) : FloatValue :=
  let negative := b.getLsbD 31
  let e := (b.extractLsb' 23 8).toNat
  let f := (b.extractLsb' 0 23).toNat
  if e = 255 then (if f = 0 then .infinite negative else .nan)
  else if e = 0 then .finite (signedValue negative f)
  else .finite (signedValue negative (((2 ^ 23 + f) * 2 ^ (e - 1) : Nat) : Int))

/-- A value in units of 2^-149, the infinities beyond every finite value. `none` for a NaN. -/
def FloatValue.rank : FloatValue → Option Int
  | .nan => none
  | .infinite negative => some (signedValue negative (2 ^ 277))
  | .finite v => some v

/-- The magnitude `m / 2^sh` rounded to an integer, ties to even. -/
def roundShift (m sh : Nat) : Nat :=
  let q := m / 2 ^ sh
  let r := m % 2 ^ sh
  if 2 ^ sh < 2 * r ∨ (2 * r = 2 ^ sh ∧ q % 2 = 1) then q + 1 else q

/-- The binary32 magnitude bits (sign clear) of the positive integer `m`, rounded to nearest, ties to even. A significand
that rounds up to 2^24 carries into the exponent. -/
def magnitudeBits (m : Nat) : Nat :=
  if m = 0 then 0
  else
    let e := Nat.log2 m
    let significand := if e ≤ 23 then m * 2 ^ (23 - e) else roundShift m (e - 23)
    (e + 126) * 2 ^ 23 + significand

/-- `binary32_round_nearest_even` of R334 and R335: the bit pattern nearest to an integer; 0 gives +0.0. -/
def floatOfInt (v : Int) : Word :=
  BitVec.ofNat 32 (magnitudeBits v.natAbs + if v < 0 then 2 ^ 31 else 0)

/-- R336: to a signed integer, toward zero, saturating, NaN to 0. -/
def intOfFloat (b : Word) : Word :=
  match FloatValue.ofBits b with
  | .nan => 0
  | .infinite negative => if negative then 0x80000000 else 0x7FFFFFFF
  | .finite v =>
    if 2 ^ 31 * 2 ^ 149 ≤ v then 0x7FFFFFFF
    else if v < -(2 ^ 31 * 2 ^ 149) then 0x80000000
    else BitVec.ofInt 32 (v.tdiv (2 ^ 149))

/-- R337: to an unsigned integer, toward zero, saturating, NaN to 0. -/
def natOfFloat (b : Word) : Word :=
  match FloatValue.ofBits b with
  | .nan => 0
  | .infinite negative => if negative then 0 else 0xFFFFFFFF
  | .finite v =>
    if v ≤ -(2 ^ 149) then 0
    else if 2 ^ 32 * 2 ^ 149 ≤ v then 0xFFFFFFFF
    else BitVec.ofInt 32 (v.tdiv (2 ^ 149))

/-- R338: the flags of a comparison. -/
def floatCompare (a b : Word) : Flags :=
  match (FloatValue.ofBits a).rank, (FloatValue.ofBits b).rank with
  | some x, some y =>
    if x = y then ⟨false, true, false, false⟩
    else if x < y then ⟨true, false, false, true⟩
    else ⟨false, false, false, false⟩
  | _, _ => ⟨false, false, true, false⟩

end Sys2Proof.Machine
end

