-- ==== Sys2Proof/Machine/Conversion.lean ====
section
/-! DEFINITION. The conversion and floating-point instructions (spec 45_conversion.md R330 to R338). Only `FCMP` writes the
flags. -/

namespace Sys2Proof.Machine

/-- `ZEXT dst, src` (R330). -/
def execZext (dst src : GRef) (s : State) : Result :=
  .next (advance 3 (writeG dst ((readG src s).setWidth dst.width.bits) s))

/-- `SEXT dst, src` (R331). -/
def execSext (dst src : GRef) (s : State) : Result :=
  .next (advance 3 (writeG dst ((readG src s).signExtend dst.width.bits) s))

/-- `TRUNC dst, src` (R332). -/
def execTrunc (dst src : GRef) (s : State) : Result :=
  .next (advance 3 (writeG dst ((readG src s).setWidth dst.width.bits) s))

/-- `ITOF dst, src` (R334). -/
def execItof (dst src : Fin 8) (s : State) : Result :=
  .next (advance 3 (writeReg dst (floatOfInt (readReg src s).toInt) s))

/-- `UTOF dst, src` (R335). -/
def execUtof (dst src : Fin 8) (s : State) : Result :=
  .next (advance 3 (writeReg dst (floatOfInt (readReg src s).toNat) s))

/-- `FTOI dst, src` (R336). -/
def execFtoi (dst src : Fin 8) (s : State) : Result :=
  .next (advance 3 (writeReg dst (intOfFloat (readReg src s)) s))

/-- `FTOU dst, src` (R337). -/
def execFtou (dst src : Fin 8) (s : State) : Result :=
  .next (advance 3 (writeReg dst (natOfFloat (readReg src s)) s))

/-- `FCMP a, b` (R338). -/
def execFcmp (a b : Fin 8) (s : State) : Result :=
  .next (advance 3 (s.setFlags (floatCompare (readReg a s) (readReg b s))))

end Sys2Proof.Machine
end

