-- ==== Sys2Proof/Machine/DataMovement.lean ====
section
/-! DEFINITION. The data movement instructions (spec 41_data_movement.md R190 to R204). The byte count of an access is that of
the register operand (R80); naming a privileged register in user mode raises `IllegalOperation` (R45, R150). -/

namespace Sys2Proof.Machine

/-- `LOAD` from `addr`, an instruction of `len` bytes (R190, R191). -/
def loadFrom (len : Nat) (dst : Ref) (addr : Word) (s : State) : Result :=
  guardPrivilege (refPrivileged dst) s
    ((memRead dst.width.bytes addr .read s).finish fun v s1 => advance len (writeRef dst v s1))

/-- `STORE` to `addr`, an instruction of `len` bytes (R192, R193). -/
def storeTo (len : Nat) (addr : Word) (src : Ref) (s : State) : Result :=
  guardPrivilege (refPrivileged src) s
    ((memWrite src.width.bytes addr (readRef src s) s).finish fun _ s1 => advance len s1)

/-- `SWAP` with memory at `addr`, an instruction of `len` bytes (R196, R197). -/
def swapWith (len : Nat) (reg : Ref) (addr : Word) (s : State) : Result :=
  guardPrivilege (refPrivileged reg) s
    ((memSwap reg.width.bytes addr (readRef reg s) s).finish fun old s1 => advance len (writeRef reg old s1))

/-- `LOAD dst, addr` (R190). -/
def execLoadA (dst : Ref) (addr : Word) (s : State) : Result := loadFrom 6 dst addr s

/-- `LOAD dst, src` register-indirect (R191): the address is read before the register is written. -/
def execLoadR (dst : Ref) (src : Fin 8) (s : State) : Result := loadFrom 3 dst (readReg src s) s

/-- `STORE addr, src` register-indirect (R192). -/
def execStoreR (addr : Fin 8) (src : Ref) (s : State) : Result := storeTo 3 (readReg addr s) src s

/-- `STORE addr, src` literal address (R193). -/
def execStoreA (addr : Word) (src : Ref) (s : State) : Result := storeTo 6 addr src s

/-- `COPY dst, src` (R194). -/
def execCopyR (dst src : Ref) (s : State) : Result :=
  guardPrivilege (refPrivileged dst || refPrivileged src) s (.next (advance 3 (writeRef dst (readRef src s) s)))

/-- `COPY dst, lit` (R195). -/
def execCopyI (dst : Ref) (lit : Word) (s : State) : Result :=
  guardPrivilege (refPrivileged dst) s (.next (advance (2 + dst.width.bytes) (writeRef dst lit s)))

/-- `SWAP reg, addr` literal address (R196). -/
def execSwapA (reg : Ref) (addr : Word) (s : State) : Result := swapWith 6 reg addr s

/-- `SWAP reg, addr` register-indirect (R197): the address is read before the register is written. -/
def execSwapR (reg : Ref) (addr : Fin 8) (s : State) : Result := swapWith 3 reg (readReg addr s) s

/-- `SWAP a, b` (R198). -/
def execSwapRR (a b : Ref) (s : State) : Result :=
  guardPrivilege (refPrivileged a || refPrivileged b) s
    (.next (advance 3 (writeRef b (readRef a s) (writeRef a (readRef b s) s))))

/-- `PUSH src` (R199): the value is read before the stack pointer moves, and the pointer moves after the write. -/
def execPush (src : Ref) (s : State) : Result :=
  let a := activeSp s - BitVec.ofNat 32 src.width.bytes
  guardPrivilege (refPrivileged src) s
    ((memWrite src.width.bytes a (readRef src s) s).finish fun _ s1 => advance 2 (setActiveSp a s1))

/-- `POP dst` (R200): the register is written after the stack pointer, so a popped stack pointer keeps the popped value. -/
def execPop (dst : Ref) (s : State) : Result :=
  guardPrivilege (refPrivileged dst) s
    ((memRead dst.width.bytes (activeSp s) .read s).finish fun v s1 =>
      advance 2 (writeRef dst v (setActiveSp (activeSp s + BitVec.ofNat 32 dst.width.bytes) s1)))

/-- `BLOCKCOPY count, dst, src` (R203). -/
def execBlockcopy (count dst src : Fin 8) (s : State) : Result :=
  (blockCopyLoop (readReg count s).toNat (readReg dst s) (readReg src s) s).finish fun _ s1 => advance 4 s1

/-- `BLOCKSET count, dst, value` (R204): the value is the low byte of its register. -/
def execBlockset (count dst value : Fin 8) (s : State) : Result :=
  (blockSetLoop (readReg count s).toNat (readReg dst s) (readReg value s) s).finish fun _ s1 => advance 4 s1

end Sys2Proof.Machine
end

