-- ==== Sys2Proof/Machine/Dispatch.lean ====
section
/-! DEFINITION. The meaning of each instruction: one arm per row of spec/opcode_table.json. -/

namespace Sys2Proof.Machine

/-- What an instruction does (R150 "execute op by its rule"), in a state whose `pc` is the address of its opcode byte. -/
def exec (i : Instr) (s : State) : Host.Outcome State Fault Refusal :=
  match i with
  | .halt => Sys2Proof.Machine.execHalt s
  | .pause => Sys2Proof.Machine.execPause s
  | .nop => Sys2Proof.Machine.execNop s
  | .ireturn => Sys2Proof.Machine.execIreturn s
  | .syscall => Sys2Proof.Machine.execSyscall s
  | .loadA dst addr => Sys2Proof.Machine.execLoadA dst addr s
  | .loadR dst src => Sys2Proof.Machine.execLoadR dst src s
  | .storeR addr src => Sys2Proof.Machine.execStoreR addr src s
  | .storeA addr src => Sys2Proof.Machine.execStoreA addr src s
  | .copyR dst src => Sys2Proof.Machine.execCopyR dst src s
  | .copyI dst lit => Sys2Proof.Machine.execCopyI dst lit s
  | .swapA reg addr => Sys2Proof.Machine.execSwapA reg addr s
  | .swapR reg addr => Sys2Proof.Machine.execSwapR reg addr s
  | .swapRR a b => Sys2Proof.Machine.execSwapRR a b s
  | .push src => Sys2Proof.Machine.execPush src s
  | .pop dst => Sys2Proof.Machine.execPop dst s
  | .blockcopy count dst src => Sys2Proof.Machine.execBlockcopy count dst src s
  | .blockset count dst value => Sys2Proof.Machine.execBlockset count dst value s
  | .addR dst src => Sys2Proof.Machine.execAddR dst src s
  | .addI dst lit => Sys2Proof.Machine.execAddI dst lit s
  | .subR dst src => Sys2Proof.Machine.execSubR dst src s
  | .subI dst lit => Sys2Proof.Machine.execSubI dst lit s
  | .mulR dst src => Sys2Proof.Machine.execMulR dst src s
  | .mulI dst lit => Sys2Proof.Machine.execMulI dst lit s
  | .udivR dst src => Sys2Proof.Machine.execUdivR dst src s
  | .udivI dst lit => Sys2Proof.Machine.execUdivI dst lit s
  | .sdivR dst src => Sys2Proof.Machine.execSdivR dst src s
  | .sdivI dst lit => Sys2Proof.Machine.execSdivI dst lit s
  | .neg dst => Sys2Proof.Machine.execNeg dst s
  | .andR dst src => Sys2Proof.Machine.execAndR dst src s
  | .andI dst lit => Sys2Proof.Machine.execAndI dst lit s
  | .orR dst src => Sys2Proof.Machine.execOrR dst src s
  | .orI dst lit => Sys2Proof.Machine.execOrI dst lit s
  | .xorR dst src => Sys2Proof.Machine.execXorR dst src s
  | .xorI dst lit => Sys2Proof.Machine.execXorI dst lit s
  | .notR dst => Sys2Proof.Machine.execNotR dst s
  | .shlR dst count => Sys2Proof.Machine.execShlR dst count s
  | .shlI dst lit => Sys2Proof.Machine.execShlI dst lit s
  | .shrR dst count => Sys2Proof.Machine.execShrR dst count s
  | .shrI dst lit => Sys2Proof.Machine.execShrI dst lit s
  | .sarR dst count => Sys2Proof.Machine.execSarR dst count s
  | .sarI dst lit => Sys2Proof.Machine.execSarI dst lit s
  | .rolR dst count => Sys2Proof.Machine.execRolR dst count s
  | .rolI dst lit => Sys2Proof.Machine.execRolI dst lit s
  | .rorR dst count => Sys2Proof.Machine.execRorR dst count s
  | .rorI dst lit => Sys2Proof.Machine.execRorI dst lit s
  | .rclR dst count => Sys2Proof.Machine.execRclR dst count s
  | .rclI dst lit => Sys2Proof.Machine.execRclI dst lit s
  | .rcrR dst count => Sys2Proof.Machine.execRcrR dst count s
  | .rcrI dst lit => Sys2Proof.Machine.execRcrI dst lit s
  | .cmpR a b => Sys2Proof.Machine.execCmpR a b s
  | .cmpI a lit => Sys2Proof.Machine.execCmpI a lit s
  | .bA target => Sys2Proof.Machine.execBA target s
  | .bR target => Sys2Proof.Machine.execBR target s
  | .beqA target => Sys2Proof.Machine.execBeqA target s
  | .beqR target => Sys2Proof.Machine.execBeqR target s
  | .bneqA target => Sys2Proof.Machine.execBneqA target s
  | .bneqR target => Sys2Proof.Machine.execBneqR target s
  | .bltA target => Sys2Proof.Machine.execBltA target s
  | .bltR target => Sys2Proof.Machine.execBltR target s
  | .bltuA target => Sys2Proof.Machine.execBltuA target s
  | .bltuR target => Sys2Proof.Machine.execBltuR target s
  | .bgtA target => Sys2Proof.Machine.execBgtA target s
  | .bgtR target => Sys2Proof.Machine.execBgtR target s
  | .bgtuA target => Sys2Proof.Machine.execBgtuA target s
  | .bgtuR target => Sys2Proof.Machine.execBgtuR target s
  | .bleA target => Sys2Proof.Machine.execBleA target s
  | .bleR target => Sys2Proof.Machine.execBleR target s
  | .bleuA target => Sys2Proof.Machine.execBleuA target s
  | .bleuR target => Sys2Proof.Machine.execBleuR target s
  | .bgeA target => Sys2Proof.Machine.execBgeA target s
  | .bgeR target => Sys2Proof.Machine.execBgeR target s
  | .bgeuA target => Sys2Proof.Machine.execBgeuA target s
  | .bgeuR target => Sys2Proof.Machine.execBgeuR target s
  | .zext dst src => Sys2Proof.Machine.execZext dst src s
  | .sext dst src => Sys2Proof.Machine.execSext dst src s
  | .trunc dst src => Sys2Proof.Machine.execTrunc dst src s
  | .itof dst src => Sys2Proof.Machine.execItof dst src s
  | .utof dst src => Sys2Proof.Machine.execUtof dst src s
  | .ftoi dst src => Sys2Proof.Machine.execFtoi dst src s
  | .ftou dst src => Sys2Proof.Machine.execFtou dst src s
  | .fcmp a b => Sys2Proof.Machine.execFcmp a b s

end Sys2Proof.Machine
end

