-- ==== Sys2Proof/WellFormed.lean ====
section
/-! DEFINITION. Which instruction terms an encoding stands for: the width constraints of spec 30_encoding.md R134 and the
length of a literal (R132). Everything else that R131 and R134 forbid cannot be written in `Instr`. -/

namespace Sys2Proof

/-- R132: a literal is a value of the width of the register reference that precedes it. -/
abbrev LitFits (w : Width) (lit : Word) : Prop := lit.toNat < 2 ^ w.bits

/-- R134 "same width". -/
abbrev SameWidth (a b : Width) : Prop := a = b

/-- R134: the destination of `ZEXT` and `SEXT` is wider than the source. -/
abbrev Wider (dst src : Width) : Prop := src.bits < dst.bits

/-- R134: the destination of `TRUNC` is narrower than the source. -/
abbrev Narrower (dst src : Width) : Prop := dst.bits < src.bits

/-- The instructions that an encoding stands for (R134, R132). -/
def Instr.wellFormed : Instr → Bool
  | .halt => true
  | .pause => true
  | .nop => true
  | .ireturn => true
  | .syscall => true
  | .loadA _ _ => true
  | .loadR _ _ => true
  | .storeR _ _ => true
  | .storeA _ _ => true
  | .copyR dst src => decide (SameWidth dst.width src.width)
  | .copyI dst lit => decide (LitFits dst.width lit)
  | .swapA _ _ => true
  | .swapR _ _ => true
  | .swapRR a b => decide (SameWidth a.width b.width)
  | .push _ => true
  | .pop _ => true
  | .blockcopy _ _ _ => true
  | .blockset _ _ _ => true
  | .addR dst src => decide (SameWidth dst.width src.width)
  | .addI dst lit => decide (LitFits dst.width lit)
  | .subR dst src => decide (SameWidth dst.width src.width)
  | .subI dst lit => decide (LitFits dst.width lit)
  | .mulR dst src => decide (SameWidth dst.width src.width)
  | .mulI dst lit => decide (LitFits dst.width lit)
  | .udivR dst src => decide (SameWidth dst.width src.width)
  | .udivI dst lit => decide (LitFits dst.width lit)
  | .sdivR dst src => decide (SameWidth dst.width src.width)
  | .sdivI dst lit => decide (LitFits dst.width lit)
  | .neg _ => true
  | .andR dst src => decide (SameWidth dst.width src.width)
  | .andI dst lit => decide (LitFits dst.width lit)
  | .orR dst src => decide (SameWidth dst.width src.width)
  | .orI dst lit => decide (LitFits dst.width lit)
  | .xorR dst src => decide (SameWidth dst.width src.width)
  | .xorI dst lit => decide (LitFits dst.width lit)
  | .notR _ => true
  | .shlR dst count => decide (SameWidth dst.width count.width)
  | .shlI dst lit => decide (LitFits dst.width lit)
  | .shrR dst count => decide (SameWidth dst.width count.width)
  | .shrI dst lit => decide (LitFits dst.width lit)
  | .sarR dst count => decide (SameWidth dst.width count.width)
  | .sarI dst lit => decide (LitFits dst.width lit)
  | .rolR dst count => decide (SameWidth dst.width count.width)
  | .rolI dst lit => decide (LitFits dst.width lit)
  | .rorR dst count => decide (SameWidth dst.width count.width)
  | .rorI dst lit => decide (LitFits dst.width lit)
  | .rclR dst count => decide (SameWidth dst.width count.width)
  | .rclI dst lit => decide (LitFits dst.width lit)
  | .rcrR dst count => decide (SameWidth dst.width count.width)
  | .rcrI dst lit => decide (LitFits dst.width lit)
  | .cmpR a b => decide (SameWidth a.width b.width)
  | .cmpI a lit => decide (LitFits a.width lit)
  | .bA _ => true
  | .bR _ => true
  | .beqA _ => true
  | .beqR _ => true
  | .bneqA _ => true
  | .bneqR _ => true
  | .bltA _ => true
  | .bltR _ => true
  | .bltuA _ => true
  | .bltuR _ => true
  | .bgtA _ => true
  | .bgtR _ => true
  | .bgtuA _ => true
  | .bgtuR _ => true
  | .bleA _ => true
  | .bleR _ => true
  | .bleuA _ => true
  | .bleuR _ => true
  | .bgeA _ => true
  | .bgeR _ => true
  | .bgeuA _ => true
  | .bgeuR _ => true
  | .zext dst src => decide (Wider dst.width src.width)
  | .sext dst src => decide (Wider dst.width src.width)
  | .trunc dst src => decide (Narrower dst.width src.width)
  | .itof _ _ => true
  | .utof _ _ => true
  | .ftoi _ _ => true
  | .ftou _ _ => true
  | .fcmp _ _ => true

end Sys2Proof
end

