-- ==== Sys2Proof/Decode.lean ====
section
/-! DEFINITION. Decoding and encoding of instructions (spec 30_encoding.md R130 to R151).

The machine fetches an instruction one byte at a time and makes each check as soon as its bytes are there (R150), so
`decode` reads whatever bytes have been fetched so far and answers one of three things: an instruction with the bytes that
follow it, an illegal encoding with the name of the check that fails, or that more bytes are needed. -/

namespace Sys2Proof

/-- Why an encoding is illegal. Each of these raises `IllegalOperation` (R143, R353). -/
inductive DecodeError where
  /-- R142: an opcode from 0x52 to 0xFF. -/
  | reservedOpcode
  /-- R131: a width code from 3 to 15. -/
  | badWidthCode
  /-- R131: register number 14 or 15. -/
  | badRegisterNumber
  /-- R131, R46: a special register with a width code other than 0. -/
  | specialPartWidth
  /-- R134: a legal reference outside the class of its operand. -/
  | outsideClass
  /-- R134: two references of different widths where the rule says "same width". -/
  | widthMismatch
  /-- R134: `ZEXT` or `SEXT` whose destination is not wider than its source. -/
  | notWider
  /-- R134: `TRUNC` whose destination is not narrower than its source. -/
  | notNarrower
  deriving DecidableEq, Repr

/-- What the bytes fetched so far say. -/
inductive Decoded where
  /-- Every check so far passes and the instruction needs at least one more byte. -/
  | more
  /-- A check fails on these bytes. -/
  | illegal (e : DecodeError)
  /-- A whole legal instruction, and the bytes after it. -/
  | ok (i : Instr) (rest : List Byte)
  deriving DecidableEq, Repr

/-! ## Operand bytes -/

/-- R130, R131: the width that a width code names. -/
def widthOfCode (code : Nat) : Option Width :=
  match code with
  | 0 => some .word
  | 1 => some .byte
  | 2 => some .half
  | _ => none

/-- R130: the width code of a width. -/
def codeOfWidth : Width → Nat
  | .word => 0
  | .byte => 1
  | .half => 2

/-- R34: the special registers by number. -/
def specialOfNumber (n : Nat) : Option SpecialReg :=
  match n with
  | 8 => some .flags
  | 9 => some .uspr
  | 10 => some .kspr
  | 11 => some .pdpr
  | 12 => some .imr
  | 13 => some .pfva
  | _ => none

/-- R34: the number of a special register. -/
def numberOfSpecial : SpecialReg → Nat
  | .flags => 8
  | .uspr => 9
  | .kspr => 10
  | .pdpr => 11
  | .imr => 12
  | .pfva => 13

/-- R130, R131: one register-reference byte, width code in bits 7:4 and register number in bits 3:0. -/
def parseRef (b : Byte) : Except DecodeError Ref :=
  match widthOfCode (b.toNat / 16) with
  | none => .error .badWidthCode
  | some w =>
    if h : b.toNat % 16 < 8 then .ok (.gpr ⟨⟨b.toNat % 16, h⟩, w⟩)
    else
      match specialOfNumber (b.toNat % 16) with
      | none => .error .badRegisterNumber
      | some r => if w = .word then .ok (.special r) else .error .specialPartWidth

/-- R134 class `S`: any legal reference. -/
def takeRef (bs : List Byte) (k : Ref → List Byte → Decoded) : Decoded :=
  match bs with
  | [] => .more
  | b :: rest =>
    match parseRef b with
    | .error e => .illegal e
    | .ok r => k r rest

/-- R134 class `G`: a general register at any width. -/
def takeGRef (bs : List Byte) (k : GRef → List Byte → Decoded) : Decoded :=
  takeRef bs fun r rest =>
    match r with
    | .gpr g => k g rest
    | .special _ => .illegal .outsideClass

/-- A general register at the one width `w`, as its number. -/
def takeRegAt (w : Width) (bs : List Byte) (k : Fin 8 → List Byte → Decoded) : Decoded :=
  takeGRef bs fun g rest => if g.width = w then k g.index rest else .illegal .outsideClass

/-- R134 classes `GW` and `RA`: a general register at word width. -/
def takeWordReg (bs : List Byte) (k : Fin 8 → List Byte → Decoded) : Decoded :=
  takeRegAt .word bs k

/-- R134 class `GB`: a general register at byte width. -/
def takeByteReg (bs : List Byte) (k : Fin 8 → List Byte → Decoded) : Decoded :=
  takeRegAt .byte bs k

/-- R133: a 4-byte big-endian literal address. -/
def takeWord (bs : List Byte) (k : Word → List Byte → Decoded) : Decoded :=
  match bs with
  | b0 :: b1 :: b2 :: b3 :: rest => k (b0 ++ b1 ++ b2 ++ b3) rest
  | _ => .more

/-- R132: a big-endian literal integer of the width of the reference before it, with no extension. -/
def takeLit (w : Width) (bs : List Byte) (k : Word → List Byte → Decoded) : Decoded :=
  match w with
  | .byte =>
    match bs with
    | b0 :: rest => k (b0.setWidth 32) rest
    | _ => .more
  | .half =>
    match bs with
    | b0 :: b1 :: rest => k ((b0 ++ b1).setWidth 32) rest
    | _ => .more
  | .word => takeWord bs k

/-- A width constraint of R134, checked after every operand is read (R150). -/
def require (p : Prop) [Decidable p] (e : DecodeError) (k : Decoded) : Decoded :=
  if p then k else .illegal e

/-! ## The opcode map -/

/-- R140: the operands of each opcode, in encoding order, and the instruction they make; R142: every other opcode is
reserved. -/
def decodeOperands (op : Nat) (rest : List Byte) : Decoded :=
  match op with
  | 0x00 => .ok .halt rest
  | 0x01 => .ok .pause rest
  | 0x02 => .ok .nop rest
  | 0x03 => .ok .ireturn rest
  | 0x04 => .ok .syscall rest
  | 0x05 => takeRef rest fun r bs => takeWord bs fun a bs => .ok (.loadA r a) bs
  | 0x06 => takeRef rest fun r bs => takeWordReg bs fun a bs => .ok (.loadR r a) bs
  | 0x07 => takeWordReg rest fun a bs => takeRef bs fun r bs => .ok (.storeR a r) bs
  | 0x08 => takeWord rest fun a bs => takeRef bs fun r bs => .ok (.storeA a r) bs
  | 0x09 => takeRef rest fun a bs => takeRef bs fun b bs => require (SameWidth a.width b.width) .widthMismatch (.ok (.copyR a b) bs)
  | 0x0A => takeRef rest fun r bs => takeLit r.width bs fun l bs => .ok (.copyI r l) bs
  | 0x0B => takeRef rest fun r bs => takeWord bs fun a bs => .ok (.swapA r a) bs
  | 0x0C => takeRef rest fun r bs => takeWordReg bs fun a bs => .ok (.swapR r a) bs
  | 0x0D => takeRef rest fun a bs => takeRef bs fun b bs => require (SameWidth a.width b.width) .widthMismatch (.ok (.swapRR a b) bs)
  | 0x0E => takeRef rest fun r bs => .ok (.push r) bs
  | 0x0F => takeRef rest fun r bs => .ok (.pop r) bs
  | 0x10 => takeWordReg rest fun c bs => takeWordReg bs fun d bs => takeWordReg bs fun s bs => .ok (.blockcopy c d s) bs
  | 0x11 => takeWordReg rest fun c bs => takeWordReg bs fun d bs => takeByteReg bs fun v bs => .ok (.blockset c d v) bs
  | 0x12 => takeGRef rest fun a bs => takeGRef bs fun b bs => require (SameWidth a.width b.width) .widthMismatch (.ok (.addR a b) bs)
  | 0x13 => takeGRef rest fun r bs => takeLit r.width bs fun l bs => .ok (.addI r l) bs
  | 0x14 => takeGRef rest fun a bs => takeGRef bs fun b bs => require (SameWidth a.width b.width) .widthMismatch (.ok (.subR a b) bs)
  | 0x15 => takeGRef rest fun r bs => takeLit r.width bs fun l bs => .ok (.subI r l) bs
  | 0x16 => takeGRef rest fun a bs => takeGRef bs fun b bs => require (SameWidth a.width b.width) .widthMismatch (.ok (.mulR a b) bs)
  | 0x17 => takeGRef rest fun r bs => takeLit r.width bs fun l bs => .ok (.mulI r l) bs
  | 0x18 => takeGRef rest fun a bs => takeGRef bs fun b bs => require (SameWidth a.width b.width) .widthMismatch (.ok (.udivR a b) bs)
  | 0x19 => takeGRef rest fun r bs => takeLit r.width bs fun l bs => .ok (.udivI r l) bs
  | 0x1A => takeGRef rest fun a bs => takeGRef bs fun b bs => require (SameWidth a.width b.width) .widthMismatch (.ok (.sdivR a b) bs)
  | 0x1B => takeGRef rest fun r bs => takeLit r.width bs fun l bs => .ok (.sdivI r l) bs
  | 0x1C => takeGRef rest fun r bs => .ok (.neg r) bs
  | 0x1D => takeGRef rest fun a bs => takeGRef bs fun b bs => require (SameWidth a.width b.width) .widthMismatch (.ok (.andR a b) bs)
  | 0x1E => takeGRef rest fun r bs => takeLit r.width bs fun l bs => .ok (.andI r l) bs
  | 0x1F => takeGRef rest fun a bs => takeGRef bs fun b bs => require (SameWidth a.width b.width) .widthMismatch (.ok (.orR a b) bs)
  | 0x20 => takeGRef rest fun r bs => takeLit r.width bs fun l bs => .ok (.orI r l) bs
  | 0x21 => takeGRef rest fun a bs => takeGRef bs fun b bs => require (SameWidth a.width b.width) .widthMismatch (.ok (.xorR a b) bs)
  | 0x22 => takeGRef rest fun r bs => takeLit r.width bs fun l bs => .ok (.xorI r l) bs
  | 0x23 => takeGRef rest fun r bs => .ok (.notR r) bs
  | 0x24 => takeGRef rest fun a bs => takeGRef bs fun b bs => require (SameWidth a.width b.width) .widthMismatch (.ok (.shlR a b) bs)
  | 0x25 => takeGRef rest fun r bs => takeLit r.width bs fun l bs => .ok (.shlI r l) bs
  | 0x26 => takeGRef rest fun a bs => takeGRef bs fun b bs => require (SameWidth a.width b.width) .widthMismatch (.ok (.shrR a b) bs)
  | 0x27 => takeGRef rest fun r bs => takeLit r.width bs fun l bs => .ok (.shrI r l) bs
  | 0x28 => takeGRef rest fun a bs => takeGRef bs fun b bs => require (SameWidth a.width b.width) .widthMismatch (.ok (.sarR a b) bs)
  | 0x29 => takeGRef rest fun r bs => takeLit r.width bs fun l bs => .ok (.sarI r l) bs
  | 0x2A => takeGRef rest fun a bs => takeGRef bs fun b bs => require (SameWidth a.width b.width) .widthMismatch (.ok (.rolR a b) bs)
  | 0x2B => takeGRef rest fun r bs => takeLit r.width bs fun l bs => .ok (.rolI r l) bs
  | 0x2C => takeGRef rest fun a bs => takeGRef bs fun b bs => require (SameWidth a.width b.width) .widthMismatch (.ok (.rorR a b) bs)
  | 0x2D => takeGRef rest fun r bs => takeLit r.width bs fun l bs => .ok (.rorI r l) bs
  | 0x2E => takeGRef rest fun a bs => takeGRef bs fun b bs => require (SameWidth a.width b.width) .widthMismatch (.ok (.rclR a b) bs)
  | 0x2F => takeGRef rest fun r bs => takeLit r.width bs fun l bs => .ok (.rclI r l) bs
  | 0x30 => takeGRef rest fun a bs => takeGRef bs fun b bs => require (SameWidth a.width b.width) .widthMismatch (.ok (.rcrR a b) bs)
  | 0x31 => takeGRef rest fun r bs => takeLit r.width bs fun l bs => .ok (.rcrI r l) bs
  | 0x32 => takeGRef rest fun a bs => takeGRef bs fun b bs => require (SameWidth a.width b.width) .widthMismatch (.ok (.cmpR a b) bs)
  | 0x33 => takeGRef rest fun r bs => takeLit r.width bs fun l bs => .ok (.cmpI r l) bs
  | 0x34 => takeWord rest fun a bs => .ok (.bA a) bs
  | 0x35 => takeWordReg rest fun r bs => .ok (.bR r) bs
  | 0x36 => takeWord rest fun a bs => .ok (.beqA a) bs
  | 0x37 => takeWordReg rest fun r bs => .ok (.beqR r) bs
  | 0x38 => takeWord rest fun a bs => .ok (.bneqA a) bs
  | 0x39 => takeWordReg rest fun r bs => .ok (.bneqR r) bs
  | 0x3A => takeWord rest fun a bs => .ok (.bltA a) bs
  | 0x3B => takeWordReg rest fun r bs => .ok (.bltR r) bs
  | 0x3C => takeWord rest fun a bs => .ok (.bltuA a) bs
  | 0x3D => takeWordReg rest fun r bs => .ok (.bltuR r) bs
  | 0x3E => takeWord rest fun a bs => .ok (.bgtA a) bs
  | 0x3F => takeWordReg rest fun r bs => .ok (.bgtR r) bs
  | 0x40 => takeWord rest fun a bs => .ok (.bgtuA a) bs
  | 0x41 => takeWordReg rest fun r bs => .ok (.bgtuR r) bs
  | 0x42 => takeWord rest fun a bs => .ok (.bleA a) bs
  | 0x43 => takeWordReg rest fun r bs => .ok (.bleR r) bs
  | 0x44 => takeWord rest fun a bs => .ok (.bleuA a) bs
  | 0x45 => takeWordReg rest fun r bs => .ok (.bleuR r) bs
  | 0x46 => takeWord rest fun a bs => .ok (.bgeA a) bs
  | 0x47 => takeWordReg rest fun r bs => .ok (.bgeR r) bs
  | 0x48 => takeWord rest fun a bs => .ok (.bgeuA a) bs
  | 0x49 => takeWordReg rest fun r bs => .ok (.bgeuR r) bs
  | 0x4A => takeGRef rest fun a bs => takeGRef bs fun b bs => require (Wider a.width b.width) .notWider (.ok (.zext a b) bs)
  | 0x4B => takeGRef rest fun a bs => takeGRef bs fun b bs => require (Wider a.width b.width) .notWider (.ok (.sext a b) bs)
  | 0x4C => takeGRef rest fun a bs => takeGRef bs fun b bs => require (Narrower a.width b.width) .notNarrower (.ok (.trunc a b) bs)
  | 0x4D => takeWordReg rest fun a bs => takeWordReg bs fun b bs => .ok (.itof a b) bs
  | 0x4E => takeWordReg rest fun a bs => takeWordReg bs fun b bs => .ok (.utof a b) bs
  | 0x4F => takeWordReg rest fun a bs => takeWordReg bs fun b bs => .ok (.ftoi a b) bs
  | 0x50 => takeWordReg rest fun a bs => takeWordReg bs fun b bs => .ok (.ftou a b) bs
  | 0x51 => takeWordReg rest fun a bs => takeWordReg bs fun b bs => .ok (.fcmp a b) bs
  | _ => .illegal .reservedOpcode

/-- R150: decodes the bytes of one instruction, the opcode byte first. Total on any bytes. -/
def decode (bs : List Byte) : Decoded :=
  match bs with
  | [] => .more
  | op :: rest => decodeOperands op.toNat rest

/-! ## Encoding -/

/-- R140: the opcode of each instruction. -/
def Instr.opcode : Instr → Nat
  | .halt => 0x00
  | .pause => 0x01
  | .nop => 0x02
  | .ireturn => 0x03
  | .syscall => 0x04
  | .loadA _ _ => 0x05
  | .loadR _ _ => 0x06
  | .storeR _ _ => 0x07
  | .storeA _ _ => 0x08
  | .copyR _ _ => 0x09
  | .copyI _ _ => 0x0A
  | .swapA _ _ => 0x0B
  | .swapR _ _ => 0x0C
  | .swapRR _ _ => 0x0D
  | .push _ => 0x0E
  | .pop _ => 0x0F
  | .blockcopy _ _ _ => 0x10
  | .blockset _ _ _ => 0x11
  | .addR _ _ => 0x12
  | .addI _ _ => 0x13
  | .subR _ _ => 0x14
  | .subI _ _ => 0x15
  | .mulR _ _ => 0x16
  | .mulI _ _ => 0x17
  | .udivR _ _ => 0x18
  | .udivI _ _ => 0x19
  | .sdivR _ _ => 0x1A
  | .sdivI _ _ => 0x1B
  | .neg _ => 0x1C
  | .andR _ _ => 0x1D
  | .andI _ _ => 0x1E
  | .orR _ _ => 0x1F
  | .orI _ _ => 0x20
  | .xorR _ _ => 0x21
  | .xorI _ _ => 0x22
  | .notR _ => 0x23
  | .shlR _ _ => 0x24
  | .shlI _ _ => 0x25
  | .shrR _ _ => 0x26
  | .shrI _ _ => 0x27
  | .sarR _ _ => 0x28
  | .sarI _ _ => 0x29
  | .rolR _ _ => 0x2A
  | .rolI _ _ => 0x2B
  | .rorR _ _ => 0x2C
  | .rorI _ _ => 0x2D
  | .rclR _ _ => 0x2E
  | .rclI _ _ => 0x2F
  | .rcrR _ _ => 0x30
  | .rcrI _ _ => 0x31
  | .cmpR _ _ => 0x32
  | .cmpI _ _ => 0x33
  | .bA _ => 0x34
  | .bR _ => 0x35
  | .beqA _ => 0x36
  | .beqR _ => 0x37
  | .bneqA _ => 0x38
  | .bneqR _ => 0x39
  | .bltA _ => 0x3A
  | .bltR _ => 0x3B
  | .bltuA _ => 0x3C
  | .bltuR _ => 0x3D
  | .bgtA _ => 0x3E
  | .bgtR _ => 0x3F
  | .bgtuA _ => 0x40
  | .bgtuR _ => 0x41
  | .bleA _ => 0x42
  | .bleR _ => 0x43
  | .bleuA _ => 0x44
  | .bleuR _ => 0x45
  | .bgeA _ => 0x46
  | .bgeR _ => 0x47
  | .bgeuA _ => 0x48
  | .bgeuR _ => 0x49
  | .zext _ _ => 0x4A
  | .sext _ _ => 0x4B
  | .trunc _ _ => 0x4C
  | .itof _ _ => 0x4D
  | .utof _ _ => 0x4E
  | .ftoi _ _ => 0x4F
  | .ftou _ _ => 0x50
  | .fcmp _ _ => 0x51

/-- R130: the reference byte of a general register. -/
def encodeGRef (r : GRef) : Byte := BitVec.ofNat 8 (16 * codeOfWidth r.width + r.index.val)

/-- R130: the reference byte of any register. -/
def encodeRef : Ref → Byte
  | .gpr r => encodeGRef r
  | .special r => BitVec.ofNat 8 (numberOfSpecial r)

/-- R133: four bytes, most significant first. -/
def encodeWord (v : Word) : List Byte :=
  [v.extractLsb' 24 8, v.extractLsb' 16 8, v.extractLsb' 8 8, v.extractLsb' 0 8]

/-- R132: a literal of width `w`, most significant byte first. -/
def encodeLit (w : Width) (v : Word) : List Byte :=
  match w with
  | .byte => [v.extractLsb' 0 8]
  | .half => [v.extractLsb' 8 8, v.extractLsb' 0 8]
  | .word => encodeWord v

/-- R136, R140: the operand bytes of each instruction, in encoding order. -/
def encodeOperands : Instr → List Byte
  | .halt => []
  | .pause => []
  | .nop => []
  | .ireturn => []
  | .syscall => []
  | .loadA dst addr => [encodeRef dst] ++ encodeWord addr
  | .loadR dst src => [encodeRef dst] ++ [encodeGRef ⟨src, .word⟩]
  | .storeR addr src => [encodeGRef ⟨addr, .word⟩] ++ [encodeRef src]
  | .storeA addr src => encodeWord addr ++ [encodeRef src]
  | .copyR dst src => [encodeRef dst] ++ [encodeRef src]
  | .copyI dst lit => [encodeRef dst] ++ encodeLit dst.width lit
  | .swapA reg addr => [encodeRef reg] ++ encodeWord addr
  | .swapR reg addr => [encodeRef reg] ++ [encodeGRef ⟨addr, .word⟩]
  | .swapRR a b => [encodeRef a] ++ [encodeRef b]
  | .push src => [encodeRef src]
  | .pop dst => [encodeRef dst]
  | .blockcopy count dst src => [encodeGRef ⟨count, .word⟩] ++ [encodeGRef ⟨dst, .word⟩] ++ [encodeGRef ⟨src, .word⟩]
  | .blockset count dst value => [encodeGRef ⟨count, .word⟩] ++ [encodeGRef ⟨dst, .word⟩] ++ [encodeGRef ⟨value, .byte⟩]
  | .addR dst src => [encodeGRef dst] ++ [encodeGRef src]
  | .addI dst lit => [encodeGRef dst] ++ encodeLit dst.width lit
  | .subR dst src => [encodeGRef dst] ++ [encodeGRef src]
  | .subI dst lit => [encodeGRef dst] ++ encodeLit dst.width lit
  | .mulR dst src => [encodeGRef dst] ++ [encodeGRef src]
  | .mulI dst lit => [encodeGRef dst] ++ encodeLit dst.width lit
  | .udivR dst src => [encodeGRef dst] ++ [encodeGRef src]
  | .udivI dst lit => [encodeGRef dst] ++ encodeLit dst.width lit
  | .sdivR dst src => [encodeGRef dst] ++ [encodeGRef src]
  | .sdivI dst lit => [encodeGRef dst] ++ encodeLit dst.width lit
  | .neg dst => [encodeGRef dst]
  | .andR dst src => [encodeGRef dst] ++ [encodeGRef src]
  | .andI dst lit => [encodeGRef dst] ++ encodeLit dst.width lit
  | .orR dst src => [encodeGRef dst] ++ [encodeGRef src]
  | .orI dst lit => [encodeGRef dst] ++ encodeLit dst.width lit
  | .xorR dst src => [encodeGRef dst] ++ [encodeGRef src]
  | .xorI dst lit => [encodeGRef dst] ++ encodeLit dst.width lit
  | .notR dst => [encodeGRef dst]
  | .shlR dst count => [encodeGRef dst] ++ [encodeGRef count]
  | .shlI dst lit => [encodeGRef dst] ++ encodeLit dst.width lit
  | .shrR dst count => [encodeGRef dst] ++ [encodeGRef count]
  | .shrI dst lit => [encodeGRef dst] ++ encodeLit dst.width lit
  | .sarR dst count => [encodeGRef dst] ++ [encodeGRef count]
  | .sarI dst lit => [encodeGRef dst] ++ encodeLit dst.width lit
  | .rolR dst count => [encodeGRef dst] ++ [encodeGRef count]
  | .rolI dst lit => [encodeGRef dst] ++ encodeLit dst.width lit
  | .rorR dst count => [encodeGRef dst] ++ [encodeGRef count]
  | .rorI dst lit => [encodeGRef dst] ++ encodeLit dst.width lit
  | .rclR dst count => [encodeGRef dst] ++ [encodeGRef count]
  | .rclI dst lit => [encodeGRef dst] ++ encodeLit dst.width lit
  | .rcrR dst count => [encodeGRef dst] ++ [encodeGRef count]
  | .rcrI dst lit => [encodeGRef dst] ++ encodeLit dst.width lit
  | .cmpR a b => [encodeGRef a] ++ [encodeGRef b]
  | .cmpI a lit => [encodeGRef a] ++ encodeLit a.width lit
  | .bA target => encodeWord target
  | .bR target => [encodeGRef ⟨target, .word⟩]
  | .beqA target => encodeWord target
  | .beqR target => [encodeGRef ⟨target, .word⟩]
  | .bneqA target => encodeWord target
  | .bneqR target => [encodeGRef ⟨target, .word⟩]
  | .bltA target => encodeWord target
  | .bltR target => [encodeGRef ⟨target, .word⟩]
  | .bltuA target => encodeWord target
  | .bltuR target => [encodeGRef ⟨target, .word⟩]
  | .bgtA target => encodeWord target
  | .bgtR target => [encodeGRef ⟨target, .word⟩]
  | .bgtuA target => encodeWord target
  | .bgtuR target => [encodeGRef ⟨target, .word⟩]
  | .bleA target => encodeWord target
  | .bleR target => [encodeGRef ⟨target, .word⟩]
  | .bleuA target => encodeWord target
  | .bleuR target => [encodeGRef ⟨target, .word⟩]
  | .bgeA target => encodeWord target
  | .bgeR target => [encodeGRef ⟨target, .word⟩]
  | .bgeuA target => encodeWord target
  | .bgeuR target => [encodeGRef ⟨target, .word⟩]
  | .zext dst src => [encodeGRef dst] ++ [encodeGRef src]
  | .sext dst src => [encodeGRef dst] ++ [encodeGRef src]
  | .trunc dst src => [encodeGRef dst] ++ [encodeGRef src]
  | .itof dst src => [encodeGRef ⟨dst, .word⟩] ++ [encodeGRef ⟨src, .word⟩]
  | .utof dst src => [encodeGRef ⟨dst, .word⟩] ++ [encodeGRef ⟨src, .word⟩]
  | .ftoi dst src => [encodeGRef ⟨dst, .word⟩] ++ [encodeGRef ⟨src, .word⟩]
  | .ftou dst src => [encodeGRef ⟨dst, .word⟩] ++ [encodeGRef ⟨src, .word⟩]
  | .fcmp a b => [encodeGRef ⟨a, .word⟩] ++ [encodeGRef ⟨b, .word⟩]

/-- R136: the bytes of an instruction, the opcode byte first. -/
def encode (i : Instr) : List Byte := BitVec.ofNat 8 i.opcode :: encodeOperands i

/-! ## Words as the opcode table numbers them -/

/-- R136: no instruction is longer than 6 bytes. -/
def maxInstrBytes : Nat := 6

/-- The bytes of an instruction given as the number `w`, whose bits 7:0 are the first byte, bits 15:8 the second and so on;
bits at or above `nbits` are zero, up to the longest instruction. -/
def bytesOfTableWord (nbits w : Nat) : List Byte :=
  (List.range maxInstrBytes).map fun i => BitVec.ofNat 8 ((w % 2 ^ nbits) / 2 ^ (8 * i))

/-- The instruction that the decoder reads from an instruction whose bits are `w` (`none` where it refuses). -/
def decodeTableWord (nbits w : Nat) : Option Instr :=
  match decode (bytesOfTableWord nbits w) with
  | .ok i _ => some i
  | _ => none

end Sys2Proof
end

