-- ==== Sys2Proof/Machine/Fetch.lean ====
section
/-! DEFINITION. Fetching and decoding one instruction (spec 30_encoding.md R150): one byte at a time, each check made as soon
as its bytes are there; and the storing of an instruction where the next fetch reads it. -/

namespace Sys2Proof.Machine

/-- How a fetch ends. -/
inductive FetchResult where
  /-- A whole legal instruction. -/
  | ok (i : Instr) (s : State)
  /-- A check of the decoder fails on the bytes fetched (R143). -/
  | illegal (e : DecodeError) (s : State)
  /-- An instruction byte's address does not translate (R150). -/
  | pageFault (va : Word) (s : State)

/-- `Fetch8` of R150 until the decoder has an answer: `got` are the bytes fetched so far, and at most `fuel` more are
fetched. An instruction has at most 6 bytes (R136), so 6 bytes always get an answer. -/
def fetchLoop : Nat → List Byte → State → FetchResult
  | 0, _, s => .illegal .reservedOpcode s
  | fuel + 1, got, s =>
    match memRead 1 (s.pc + BitVec.ofNat 32 got.length) .fetch s with
    | .pageFault va s1 => .pageFault va s1
    | .ok b s1 =>
      match decode (got ++ [b.setWidth 8]) with
      | .ok i _ => .ok i s1
      | .illegal e => .illegal e s1
      | .more => fetchLoop fuel (got ++ [b.setWidth 8]) s1

/-- R150: fetch and decode at `pc`. -/
def fetch (s : State) : FetchResult := fetchLoop maxInstrBytes [] s

/-- One byte placed from outside the machine: into RAM, ROM, the display or a disk buffer. A byte of a device's register
cannot be placed. -/
def placeByte (pa : Word) (b : Byte) (s : State) : State :=
  match regionOf pa with
  | .vector => s.setRam (s.ram.write pa.toNat b)
  | .rom o => s.setRom (s.rom.write o b)
  | .display o => s.setDisplay (s.display.write o b)
  | .diskRegister _ _ => s
  | .diskBuffer d o => s.setDisk d { s.disk d with buffer := (s.disk d).buffer.write o b }
  | .keyboard _ => s
  | .ram => s.setRam (s.ram.write pa.toNat b)

/-- Bytes placed at the physical addresses from which an instruction at virtual address `va` is fetched; a byte whose
address does not translate is not placed. -/
def placeInstr : List Byte → Word → State → State
  | [], _, s => s
  | b :: bs, va, s =>
    match (resolve va .fetch s).1 with
    | none => placeInstr bs (va + 1) s
    | some pa => placeInstr bs (va + 1) (placeByte pa b s)

/-- The machine as it must be for the next step to fetch an instruction: running, the CPU's turn, and no interrupt of the
queue enabled (R371). -/
def readyToFetch (s : State) : State :=
  ((s.setRunState .running).setSchedule []).setQueue (s.queue.filter fun k => !k.enabled s.imr)

end Sys2Proof.Machine
end

