-- ==== Sys2Proof/Machine/Cpu.lean ====
section
/-! DEFINITION. The CPU's step (spec 60_exceptions.md R371) and the turns of the other agents (00_scope.md R15). -/

namespace Sys2Proof.Machine

/-- R150: one instruction, or the exception that its fetch raises. -/
def runInstruction (s : State) : Result :=
  match fetch s with
  | .ok i s1 => exec i s1
  | .illegal _ s1 => .next (raiseIllegal s1)
  | .pageFault va s1 => .next (raisePageFault va s1)

/-- R371: `CpuStep()`. A CPU that takes no step leaves the state as it is (log entry 8). -/
def cpuStep (s : State) : Result :=
  match s.runState with
  | .stopped => .next s
  | .running =>
    match takeEnabled s.imr s.queue with
    | some (k, rest) => .next (takeInterrupt k.kind s.pc (s.setQueue rest))
    | none => runInstruction s
  | .paused =>
    match takeEnabled s.imr s.queue with
    | some (k, rest) => .next (takeInterrupt k.kind s.pc (s.setQueue rest))
    | none => .next s

/-- R15: the turn of one agent. -/
def agentStep (a : Agent) (s : State) : Result :=
  match a with
  | .cpu => cpuStep s
  | .device d => .next (deviceStep d s)
  | .hostKey m => .next (hostKey m s)
  | .hostStop => .next (hostStop s)
  | .hostStart i => .next (hostStart i s)

/-- R15, R465: the next turn that the schedule names; the CPU's where it names none (log entry 6). -/
def scheduledStep (s : State) : Result :=
  match s.schedule with
  | [] => cpuStep s
  | a :: rest => agentStep a (s.setSchedule rest)

end Sys2Proof.Machine
end

