-- ==== Sys2Proof/Machine/Step.lean ====
section
/-! DEFINITION. One step of the machine, and an instruction placed where the next step fetches it. -/

namespace Sys2Proof.Machine

/-- One atomic step of one agent (R15): the whole machine's step. -/
def step (s : State) : Host.Outcome State Fault Refusal := scheduledStep s

/-- `s` with the instruction whose bits are `w` stored where `step` fetches next, ready for that fetch (log entry 3). -/
def State.withFetchWord (s : State) (nbits w : Nat) : State :=
  placeInstr (bytesOfTableWord nbits w) s.pc (readyToFetch s)

end Sys2Proof.Machine
end

