-- ==== Sys2Proof/Safety.lean ====
section
/-! DEFINITION. The terms in which claims about the machine are made: what a step or an instruction leaves unchanged, what a
write of a register or of memory means, and the invariant of the machine. -/

namespace Sys2Proof

/-! ## Operands of an instruction -/

/-- The operands of class `S` (R134, R140): the registers that may be special ones. -/
def Instr.refs : Instr → List Ref
  | .loadA r _ | .loadR r _ | .copyI r _ | .swapA r _ | .swapR r _ | .storeR _ r | .storeA _ r | .push r
  | .pop r => [r]
  | .copyR a b | .swapRR a b => [a, b]
  | .halt | .pause | .nop | .ireturn | .syscall | .blockcopy _ _ _ | .blockset _ _ _ | .addR _ _ | .addI _ _
  | .subR _ _ | .subI _ _ | .mulR _ _ | .mulI _ _ | .udivR _ _ | .udivI _ _ | .sdivR _ _ | .sdivI _ _ | .andR _ _
  | .andI _ _ | .orR _ _ | .orI _ _ | .xorR _ _ | .xorI _ _ | .shlR _ _ | .shlI _ _ | .shrR _ _ | .shrI _ _
  | .sarR _ _ | .sarI _ _ | .rolR _ _ | .rolI _ _ | .rorR _ _ | .rorI _ _ | .rclR _ _ | .rclI _ _ | .rcrR _ _
  | .rcrI _ _ | .neg _ | .notR _ | .cmpR _ _ | .cmpI _ _ | .bA _ | .bR _ | .beqA _ | .beqR _ | .bneqA _ | .bneqR _
  | .bltA _ | .bltR _ | .bltuA _ | .bltuR _ | .bgtA _ | .bgtR _ | .bgtuA _ | .bgtuR _ | .bleA _ | .bleR _ | .bleuA _
  | .bleuR _ | .bgeA _ | .bgeR _ | .bgeuA _ | .bgeuR _ | .zext _ _ | .sext _ _ | .trunc _ _ | .itof _ _ | .utof _ _
  | .ftoi _ _ | .ftou _ _ | .fcmp _ _ => []

/-- The registers that an instruction names as destination. -/
def Instr.writes : Instr → List Ref
  | .loadA r _ | .loadR r _ | .copyI r _ | .swapA r _ | .swapR r _ | .copyR r _ | .pop r => [r]
  | .swapRR a b => [a, b]
  | .addR g _ | .addI g _ | .subR g _ | .subI g _ | .mulR g _ | .mulI g _ | .udivR g _ | .udivI g _ | .sdivR g _
  | .sdivI g _ | .andR g _ | .andI g _ | .orR g _ | .orI g _ | .xorR g _ | .xorI g _ | .shlR g _ | .shlI g _
  | .shrR g _ | .shrI g _ | .sarR g _ | .sarI g _ | .rolR g _ | .rolI g _ | .rorR g _ | .rorI g _ | .rclR g _
  | .rclI g _ | .rcrR g _ | .rcrI g _ | .neg g | .notR g | .zext g _ | .sext g _ | .trunc g _ => [.gpr g]
  | .itof i _ | .utof i _ | .ftoi i _ | .ftou i _ => [.gpr ⟨i, .word⟩]
  | .halt | .pause | .nop | .ireturn | .syscall | .storeR _ _ | .storeA _ _ | .push _ | .blockcopy _ _ _
  | .blockset _ _ _ | .cmpR _ _ | .cmpI _ _ | .bA _ | .bR _ | .beqA _ | .beqR _ | .bneqA _ | .bneqR _ | .bltA _
  | .bltR _ | .bltuA _ | .bltuR _ | .bgtA _ | .bgtR _ | .bgtuA _ | .bgtuR _ | .bleA _ | .bleR _ | .bleuA _ | .bleuR _
  | .bgeA _ | .bgeR _ | .bgeuA _ | .bgeuR _ | .fcmp _ _ => []

/-- `PUSH` and `POP`, the instructions that move the active stack pointer (R47). -/
def Instr.usesStack (i : Instr) : Prop := (∃ r, i = .push r) ∨ ∃ r, i = .pop r

/-- `BLOCKCOPY` and `BLOCKSET`, the instructions whose stores are not all checked before the first (R97). -/
def Instr.isBlock (i : Instr) : Prop := (∃ c d x, i = .blockcopy c d x) ∨ ∃ c d v, i = .blockset c d v

/-- The instructions that write flags by their own rule (R37): the opcodes from `ADD` to `CMP`, and `FCMP`. -/
def Instr.computesFlags (i : Instr) : Prop := (0x12 ≤ i.opcode ∧ i.opcode ≤ 0x33) ∨ i.opcode = 0x51

end Sys2Proof

namespace Sys2Proof.Machine

/-! ## What stays the same -/

/-- Every register, the mode and the run state are unchanged. -/
structure SameRegisters (s t : State) : Prop where
  regs : t.regs = s.regs
  pc : t.pc = s.pc
  flags : t.flags = s.flags
  uspr : t.uspr = s.uspr
  kspr : t.kspr = s.kspr
  pdpr : t.pdpr = s.pdpr
  imr : t.imr = s.imr
  pfva : t.pfva = s.pfva
  mode : t.mode = s.mode
  runState : t.runState = s.runState

/-- Nothing changed but what a device step can change: the keyboard, the disks, the queue, the host's key messages and the
model's record of inside device steps and draws. -/
structure SameOutsideDevices (s t : State) : Prop extends SameRegisters s t where
  ram : t.ram = s.ram
  rom : t.rom = s.rom
  display : t.display = s.display
  records : t.records = s.records
  irqCapacity : t.irqCapacity = s.irqCapacity
  schedule : t.schedule = s.schedule

/-- `s` with the registers of `t`. -/
def withRegistersOf (t s : State) : State :=
  { s with
    regs := t.regs, pc := t.pc, flags := t.flags, uspr := t.uspr, kspr := t.kspr, pdpr := t.pdpr, imr := t.imr,
    pfva := t.pfva }

/-- Nothing changed but registers that an instruction can name and the pc: memory, devices, mode, run state and the model's
own fields are the same. -/
def SameOutsideRegisters (s t : State) : Prop := t = withRegistersOf t s

/-- Every byte of the physical space reads as before. -/
def SameMemory (s t : State) : Prop := ∀ a : Word, peek t a = peek s a

/-! ## A register written -/

/-- The value that a reference holds after `v` is written to it (R32, R46): `flags` keeps bits 3:0, `imr` bits 15:0, a
general register's view its low bits. -/
def storedValue (r : Ref) (v : Word) : Word :=
  match r with
  | .gpr g => (v.setWidth g.width.bits).setWidth 32
  | .special .flags => v &&& 0xF
  | .special .imr => v &&& 0xFFFF
  | .special .uspr => v
  | .special .kspr => v
  | .special .pdpr => v
  | .special .pfva => v

/-- No general register changed but the view `g`: the other registers and the bits of its register outside the view are the
same (R32). -/
def OnlyViewChanged (g : GRef) (s t : State) : Prop :=
  (∀ j : Fin 8, j ≠ g.index → readReg j t = readReg j s) ∧
    readReg g.index t >>> g.width.bits = readReg g.index s >>> g.width.bits

/-- No register that an instruction can name changed but the one `r` names. -/
def OnlyRefChanged (r : Ref) (s t : State) : Prop :=
  match r with
  | .gpr g => OnlyViewChanged g s t ∧ ∀ p : SpecialReg, readSpecial p t = readSpecial p s
  | .special q => t.regs = s.regs ∧ ∀ p : SpecialReg, p ≠ q → readSpecial p t = readSpecial p s

/-- `t` is `s` after an instruction of `len` bytes has written `v` to `r` and done nothing else. -/
structure WritesRef (len : Nat) (r : Ref) (v : Word) (s t : State) : Prop where
  value : readRef r t = storedValue r v
  others : OnlyRefChanged r s t
  pc : t.pc = s.pc + BitVec.ofNat 32 len
  elsewhere : SameOutsideRegisters s t
  memory : SameMemory s t

/-- `t` is `s` after an instruction of `len` bytes has written the value `r` (as a number) to the view `g`, set the flags to
`f` and done nothing else. -/
structure WritesView (len : Nat) (g : GRef) (r : Nat) (f : Flags) (s t : State) : Prop where
  value : (readG g t).toNat = r
  flags : t.flags = f
  others : OnlyViewChanged g s t
  pc : t.pc = s.pc + BitVec.ofNat 32 len
  elsewhere : t = { s with regs := t.regs, pc := t.pc, flags := t.flags }
  memory : SameMemory s t

/-- The flags of a `w`-bit result `r` with its carry and overflow (R14 `setZN`, R230). -/
def resultFlags (w r : Nat) (c o : Bool) : Flags := ⟨c, decide (r = 0), o, decide (2 ^ (w - 1) ≤ r)⟩

/-- A signed value outside the range of `w` bits (R231). -/
def OutsideSigned (w : Nat) (v : Int) : Prop := v < -(2 ^ (w - 1) : Int) ∨ (2 ^ (w - 1) : Int) ≤ v

/-! ## Memory written -/

/-- The bytes given written at their physical addresses, one after another, with no device step between them (R72, R77): what
each does to RAM or to a device is `poke`. -/
def pokes (cs : List (Word × Byte)) (s : State) : State := cs.foldl (fun u c => poke c.1 c.2 u) s

/-- `n` bytes copied from physical address `x` on to `d` on, one after another in ascending order, with no device step between
them (R203): a byte written earlier is read again where the ranges overlap. -/
def copyPokes (d x : Word) : Nat → State → State
  | 0, s => s
  | n + 1, s =>
    poke (d + BitVec.ofNat 32 n) (peek (copyPokes d x n s) (x + BitVec.ofNat 32 n)) (copyPokes d x n s)

/-- The byte of a physical address is in the RAM array: the vector table or RAM (R73). -/
def InRamArray (a : Word) : Prop := regionOf a = .vector ∨ regionOf a = .ram

/-- A read of the address returns the byte last written to it: the RAM array, the display, a disk buffer. -/
def Writable (a : Word) : Prop :=
  match regionOf a with
  | .vector => True
  | .rom _ => False
  | .display _ => True
  | .diskRegister _ _ => False
  | .diskBuffer _ _ => True
  | .keyboard _ => False
  | .ram => True

/-- The physical address of a disk's `STATUS` (R412). -/
def statusAddress : DiskId → Word
  | .a => 0x19B0
  | .b => 0x29BA

/-- The physical address of a disk's `CMD` (R412). -/
def cmdAddress : DiskId → Word
  | .a => 0x19B9
  | .b => 0x29C3

/-- The physical address of the first byte of a disk's buffer window (R413). -/
def bufferAddress : DiskId → Word
  | .a => 0x19BA
  | .b => 0x29C4

/-- The bytes at the physical addresses `ps` are stored and no other byte changes, but for the `STATUS` of a disk whose `CMD`
is among them, which a command clears (R414). -/
structure StoresBytes (ps : List Word) (bs : List Byte) (s t : State) : Prop where
  stored : ∀ c ∈ ps.zip bs, Writable c.1 → peek t c.1 = c.2
  others : ∀ a : Word, a ∉ ps → (∀ d, a = statusAddress d → cmdAddress d ∉ ps) → peek t a = peek s a

/-- Nothing but memory and devices changed: every register, the mode, the run state, ROM and the model's own fields are the
same; the display's records are those of before with new ones after them. -/
structure OnlyMemoryChanged (s t : State) : Prop extends SameRegisters s t where
  rom : t.rom = s.rom
  keyboard : t.keyboard = s.keyboard
  records : s.records <+: t.records
  queue : t.queue = s.queue
  irqCapacity : t.irqCapacity = s.irqCapacity
  hostKeys : t.hostKeys = s.hostKeys
  schedule : t.schedule = s.schedule
  midStep : t.midStep = s.midStep
  draws : t.draws = s.draws

/-! ## The state as claims read it -/

/-- The CPU may use the register in its mode (R45). -/
def Permitted (r : Ref) (s : State) : Prop := s.mode = .kernel ∨ refPrivileged r = false

/-- The big-endian word in the four bytes from a physical address (R76). -/
def wordAt (s : State) (a : Word) : Word := beWord ((addresses a 4).map (peek s))

/-- The `n` bytes from virtual address `va` translate, in order, to the physical addresses `ps` (R90, R94). -/
def Translates (acc : Access) (va : Word) (n : Nat) (ps : List Word) (s : State) : Prop :=
  (addresses va n).map (fun a => (resolve a acc s).1) = ps.map some

/-- `a` is the first of the `n` bytes from virtual address `va` that does not translate (R95, R96). -/
def FirstFault (acc : Access) (va : Word) (n : Nat) (a : Word) (s : State) : Prop :=
  ∃ i, i < n ∧ a = va + BitVec.ofNat 32 i ∧ (resolve a acc s).1 = none ∧
    ∀ j, j < i → (resolve (va + BitVec.ofNat 32 j) acc s).1 ≠ none

/-- The next turn is the CPU's, and it takes it in state `u`: `s` with that turn taken off the schedule. -/
def CpuTurn (s u : State) : Prop :=
  (s.schedule = [] ∧ u = s) ∨ ∃ rest, s.schedule = .cpu :: rest ∧ u = s.setSchedule rest

/-- The next turn is the CPU's, in state `u`; it is running, and it takes no queued interrupt (R371). -/
structure FetchesNext (s u : State) : Prop where
  turn : CpuTurn s u
  running : s.runState = .running
  noInterrupt : ∀ k ∈ s.queue, s.imr.getLsbD k.kind.number = false

/-- The bytes that a fetch reads in order from the pc are `bs`. -/
def FetchableAtPc (bs : List Byte) (s : State) : Prop :=
  ∃ ps, Translates .fetch s.pc bs.length ps s ∧ ps.map (peek s) = bs

/-! ## The accesses of an instruction -/

/-- No device step falls inside accesses to the physical addresses `ps` (R120): none is planned, or no address is in a device
window. -/
def Quiet (ps : List Word) (s : State) : Prop := s.midStep = [] ∨ ∀ p ∈ ps, (regionOf p).isDevice = false

/-- The physical addresses that the translation of one address reads (R90, R94): in user mode the directory entry, and the
table entry where the directory entry is present; none in kernel mode. -/
def walkReads (va : Word) (s : State) : List Word :=
  match s.mode with
  | .kernel => []
  | .user =>
    let pde := wordAt s (pdeAddress s.pdpr va)
    addresses (pdeAddress s.pdpr va) 4 ++ if pde.getLsbD 0 then addresses (pteAddress pde va) 4 else []

/-- The physical addresses that the translations of several addresses read, in order up to the first that faults (R95, R96). -/
def walksRead (acc : Access) : List Word → State → List Word
  | [], _ => []
  | a :: as, s => walkReads a s ++ if (resolve a acc s).1.isNone then [] else walksRead acc as s

/-- Every one of the addresses translates. -/
def allTranslate (acc : Access) (as : List Word) (s : State) : Bool := as.all fun a => (resolve a acc s).1.isSome

/-- The physical addresses that an access of `n` bytes at virtual address `va` reads or writes: those of its translations and,
if all its bytes translate, the bytes themselves (R95, R96). -/
def bytesAccessed (acc : Access) (va : Word) (n : Nat) (s : State) : List Word :=
  walksRead acc (addresses va n) s ++
    if allTranslate acc (addresses va n) s then (addresses va n).filterMap fun a => (resolve a acc s).1 else []

/-- The physical addresses that a `SWAP` with the `n` bytes at `va` reads or writes (R98): the checks for reading, then those
for writing, then the bytes. -/
def bytesSwapped (va : Word) (n : Nat) (s : State) : List Word :=
  walksRead .read (addresses va n) s ++
    if allTranslate .read (addresses va n) s then bytesAccessed .write va n s else []

/-- The physical addresses that an instruction's own memory accesses read or write, from the state in which it executes; its
fetch and an exception that it raises are not among them. For the block instructions they are those of kernel mode. -/
def accessesOf (i : Instr) (s : State) : List Word :=
  match i with
  | .loadA r addr => bytesAccessed .read addr r.width.bytes s
  | .loadR r addr => bytesAccessed .read (readReg addr s) r.width.bytes s
  | .storeA addr r => bytesAccessed .write addr r.width.bytes s
  | .storeR addr r => bytesAccessed .write (readReg addr s) r.width.bytes s
  | .swapA r addr => bytesSwapped addr r.width.bytes s
  | .swapR r addr => bytesSwapped (readReg addr s) r.width.bytes s
  | .push r => bytesAccessed .write (activeSp s - BitVec.ofNat 32 r.width.bytes) r.width.bytes s
  | .pop r => bytesAccessed .read (activeSp s) r.width.bytes s
  | .ireturn => addresses s.kspr 12
  | .blockcopy c d x => addresses (readReg x s) (readReg c s).toNat ++ addresses (readReg d s) (readReg c s).toNat
  | .blockset c d _ => addresses (readReg d s) (readReg c s).toNat
  | .halt | .pause | .nop | .syscall | .copyI _ _ | .copyR _ _ | .swapRR _ _ | .addR _ _ | .addI _ _
  | .subR _ _ | .subI _ _ | .mulR _ _ | .mulI _ _ | .udivR _ _ | .udivI _ _ | .sdivR _ _ | .sdivI _ _ | .andR _ _
  | .andI _ _ | .orR _ _ | .orI _ _ | .xorR _ _ | .xorI _ _ | .shlR _ _ | .shlI _ _ | .shrR _ _ | .shrI _ _
  | .sarR _ _ | .sarI _ _ | .rolR _ _ | .rolI _ _ | .rorR _ _ | .rorI _ _ | .rclR _ _ | .rclI _ _ | .rcrR _ _
  | .rcrI _ _ | .neg _ | .notR _ | .cmpR _ _ | .cmpI _ _ | .bA _ | .bR _ | .beqA _ | .beqR _ | .bneqA _ | .bneqR _
  | .bltA _ | .bltR _ | .bltuA _ | .bltuR _ | .bgtA _ | .bgtR _ | .bgtuA _ | .bgtuR _ | .bleA _ | .bleR _ | .bleuA _
  | .bleuR _ | .bgeA _ | .bgeR _ | .bgeuA _ | .bgeuR _ | .zext _ _ | .sext _ _ | .trunc _ _ | .itof _ _ | .utof _ _
  | .ftoi _ _ | .ftou _ _ | .fcmp _ _ => []

/-- The instruction is exactly the page fault at `a` (R97), where no device step falls inside its accesses. -/
def FaultsAt (i : Instr) (a : Word) (s : State) : Prop :=
  Quiet (accessesOf i s) s → exec i s = .next (takeInterrupt .pageFault s.pc (s.setPfva a))

/-! ## Devices and steps -/

/-- A device step that enqueues is enabled (R361). -/
def HasRoom (s : State) : Prop := ∀ n, s.irqCapacity.limit = some n → s.queue.length < n

/-- A step that answers a next state: the only end of a step that is safe. -/
def CompletesStep (s : State) : Prop := ∃ t, step s = .next t

/-! ## Values -/

/-- `s(v)` of R11: a `w`-bit value, given as its unsigned number, read as two's complement. -/
def signed (w v : Nat) : Int := if v < 2 ^ (w - 1) then v else (v : Int) - 2 ^ w

/-- Bit `i` of an unsigned number. -/
def bit (v i : Nat) : Bool := decide (v / 2 ^ i % 2 = 1)

/-- A two-operand instruction in both its forms (R230, R260): where the divisor or count satisfies `guard`, it completes,
and the result `r` (as a number), the carry `c` and the overflow `o` that it writes meet `rule` of the width, the two
operands (as numbers) and the carry before. -/
structure TwoOperand (regForm : GRef → GRef → Instr) (litForm : GRef → Word → Instr) (guard : Nat → Prop)
    (rule : (w a b : Nat) → (carry : Bool) → (r : Nat) → (c o : Bool) → Prop) : Prop where
  register : ∀ (dst src : GRef) (s : State), SameWidth dst.width src.width → guard (readG src s).toNat →
    ∃ t r c o, exec (regForm dst src) s = .next t ∧
      rule dst.width.bits (readG dst s).toNat (readG src s).toNat s.flags.c r c o ∧
      WritesView 3 dst r (resultFlags dst.width.bits r c o) s t
  literal : ∀ (dst : GRef) (lit : Word) (s : State), LitFits dst.width lit → guard lit.toNat →
    ∃ t r c o, exec (litForm dst lit) s = .next t ∧
      rule dst.width.bits (readG dst s).toNat lit.toNat s.flags.c r c o ∧
      WritesView (2 + dst.width.bytes) dst r (resultFlags dst.width.bits r c o) s t

/-- A one-operand instruction (R236, R264), as `TwoOperand`. -/
def OneOperand (form : GRef → Instr) (rule : (w a r : Nat) → (c o : Bool) → Prop) : Prop :=
  ∀ (dst : GRef) (s : State), ∃ t r c o, exec (form dst) s = .next t ∧
    rule dst.width.bits (readG dst s).toNat r c o ∧ WritesView 2 dst r (resultFlags dst.width.bits r c o) s t

/-- A branch in both its forms (R302, R304, R305): it goes to its target where `holds` is true of the flags and to the next
instruction where it is not, and changes nothing but the pc. -/
structure Branches (litForm : Word → Instr) (regForm : Fin 8 → Instr) (holds : Flags → Prop) : Prop where
  literal : ∀ (target : Word) (s : State), ∃ t, exec (litForm target) s = .next t ∧ t = s.setPc t.pc ∧
    (holds s.flags → t.pc = target) ∧ (¬ holds s.flags → t.pc = s.pc + 5)
  register : ∀ (target : Fin 8) (s : State), ∃ t, exec (regForm target) s = .next t ∧ t = s.setPc t.pc ∧
    (holds s.flags → t.pc = readReg target s) ∧ (¬ holds s.flags → t.pc = s.pc + 2)

/-- After `t`, the branch given in both forms is taken exactly when `meaning` holds. -/
def TakenExactlyWhen (litForm : Word → Instr) (regForm : Fin 8 → Instr) (t : State) (meaning : Prop) : Prop :=
  (∀ target, target ≠ t.pc + 5 →
    (meaning ↔ ∃ u, exec (litForm target) t = .next u ∧ u.pc = target)) ∧
  ∀ target, readReg target t ≠ t.pc + 2 →
    (meaning ↔ ∃ u, exec (regForm target) t = .next u ∧ u.pc = readReg target t)

/-- R303: after a comparison that left state `t`, each conditional branch is taken exactly when the `w`-bit values `x` and `y`
compared stand in its relation. -/
structure BranchesCompare (w x y : Nat) (t : State) : Prop where
  eq : TakenExactlyWhen .beqA .beqR t (x = y)
  neq : TakenExactlyWhen .bneqA .bneqR t (x ≠ y)
  lt : TakenExactlyWhen .bltA .bltR t (signed w x < signed w y)
  ltu : TakenExactlyWhen .bltuA .bltuR t (x < y)
  gt : TakenExactlyWhen .bgtA .bgtR t (signed w y < signed w x)
  gtu : TakenExactlyWhen .bgtuA .bgtuR t (y < x)
  le : TakenExactlyWhen .bleA .bleR t (signed w x ≤ signed w y)
  leu : TakenExactlyWhen .bleuA .bleuR t (x ≤ y)
  ge : TakenExactlyWhen .bgeA .bgeR t (signed w y ≤ signed w x)
  geu : TakenExactlyWhen .bgeuA .bgeuR t (y ≤ x)

/-- R333: a binary32 pattern is a NaN. -/
def IsNan (b : Word) : Prop := b.toNat / 2 ^ 23 % 2 ^ 8 = 255 ∧ b.toNat % 2 ^ 23 ≠ 0

/-- R333: a binary32 pattern is positive infinity. -/
def IsPlusInf (b : Word) : Prop := b.toNat = 0x7F800000

/-- R333: a binary32 pattern is negative infinity. -/
def IsMinusInf (b : Word) : Prop := b.toNat = 0xFF800000

/-- R333: a binary32 pattern stands for a number. -/
def IsFinite (b : Word) : Prop := b.toNat / 2 ^ 23 % 2 ^ 8 ≠ 255

/-- R333: the number that a finite binary32 pattern stands for; an exponent of 0 is that of the subnormal values. -/
def binary32 (b : Word) : ℚ :=
  let e : ℕ := b.toNat / 2 ^ 23 % 2 ^ 8
  let f : ℕ := b.toNat % 2 ^ 23
  (if b.toNat < 2 ^ 31 then 1 else -1) * (if e = 0 then (f : ℚ) else (2 ^ 23 + (f : ℚ)) * 2 ^ (e - 1)) / 2 ^ 149

/-- R338: two patterns that are not NaNs stand for equal values. -/
def FloatEq (a b : Word) : Prop := (IsFinite a ∧ IsFinite b ∧ binary32 a = binary32 b) ∨ (¬ IsFinite a ∧ a = b)

/-- R338: of two patterns that are not NaNs, the first stands for the smaller value. -/
def FloatLt (a b : Word) : Prop :=
  (IsFinite a ∧ IsFinite b ∧ binary32 a < binary32 b) ∨ (IsMinusInf a ∧ ¬ IsMinusInf b) ∨
    (IsPlusInf b ∧ ¬ IsPlusInf a)

/-- R334, R335: the pattern `b` is the binary32 number nearest to `x`, the one with an even significand where two are equally
near; 0 gives +0.0. -/
structure NearestEven (x : Int) (b : Word) : Prop where
  finite : IsFinite b
  nearest : ∀ b', IsFinite b' → |binary32 b - x| ≤ |binary32 b' - x|
  tie : ∀ b', IsFinite b' → |binary32 b' - x| = |binary32 b - x| → binary32 b' ≠ binary32 b → bit b.toNat 0 = false
  sign : bit b.toNat 31 = true ↔ x < 0

/-- R336, R337: `v` is `q` with its fraction dropped. -/
def TruncatesTo (q : ℚ) (v : Int) : Prop := (0 ≤ q → (v : ℚ) ≤ q ∧ q < v + 1) ∧ (q ≤ 0 → q ≤ v ∧ (v : ℚ) - 1 < q)

/-! ## Exceptions -/

/-- R374: the status word saved from `s`, as a number. -/
def savedStatus (s : State) : Nat :=
  s.imr.toNat * 2 ^ 16 + (if s.mode = .user then 2 ^ 8 else 0) + s.flags.n.toNat * 8 + s.flags.o.toNat * 4 +
    s.flags.z.toNat * 2 + s.flags.c.toNat

/-- The addresses of the frame that an entry from `s` pushes (R373). -/
def frameAddresses (s : State) : List Word := addresses (s.kspr - 12) 12

/-- The frame that an entry from `s` with return address `ret` pushes, byte by byte in the order of the pushes (R373): status
word, return address, user stack pointer. -/
def frameBytes (ret : Word) (s : State) : List (Word × Byte) :=
  (addresses (s.kspr - 4) 4).zip (beBytes 4 (BitVec.ofNat 32 (savedStatus s))) ++
    (addresses (s.kspr - 8) 4).zip (beBytes 4 ret) ++ (addresses (s.kspr - 12) 4).zip (beBytes 4 s.uspr)

/-- R373: `t` is `s` after the entry of interrupt `k` with return address `ret`. The field `exactly` says all of it: memory and
devices are those of `s` with the frame's bytes written. -/
structure EntersHandler (k : Interrupt) (ret : Word) (s t : State) : Prop where
  regs : t.regs = s.regs
  flags : t.flags = s.flags
  uspr : t.uspr = s.uspr
  pdpr : t.pdpr = s.pdpr
  pfva : t.pfva = s.pfva
  mode : t.mode = .kernel
  kspr : t.kspr = s.kspr - 12
  imr : t.imr = 0
  runState : t.runState = .running
  pc : t.pc = wordAt t (BitVec.ofNat 32 (4 * k.number))
  frame : StoresBytes (frameAddresses s)
    (beBytes 4 s.uspr ++ beBytes 4 ret ++ beBytes 4 (BitVec.ofNat 32 (savedStatus s))) s t
  elsewhere : OnlyMemoryChanged
    (((((s.setMode .kernel).setKspr (s.kspr - 12)).setImr 0).setRunState .running).setPc t.pc) t
  exactly : t =
    (((((pokes (frameBytes ret s) s).setMode .kernel).setKspr (s.kspr - 12)).setImr 0).setRunState .running).setPc t.pc

/-- `t` can be `s` after an entry: kernel mode, the frame pushed, every maskable interrupt masked, running (R373, R376). -/
def TookException (s t : State) : Prop :=
  t.mode = .kernel ∧ t.kspr = s.kspr - 12 ∧ t.imr = 0 ∧ t.runState = .running

/-- R420, R452: the step is the host's start of a stopped machine. -/
def Restarted (s t : State) : Prop :=
  s.runState = .stopped ∧ ∃ i rest, s.schedule = .hostStart i :: rest ∧ t = hostStart i (s.setSchedule rest)

/-- `n` byte steps of a block instruction, numbered from 0, complete and lead from `s` to `t` (R203, R204). -/
def ByteRun (byteStep : Nat → State → MemResult Unit) : Nat → State → State → Prop
  | 0, s, t => t = s
  | n + 1, s, t => ∃ u, ByteRun byteStep n s u ∧ byteStep n u = .ok () t

/-- R203, R204: a block instruction of `c` byte steps: all of them complete, or step number `k` faults and those before it
keep their effects. -/
def BlockRuns (i : Instr) (c : Nat) (byteStep : Nat → State → MemResult Unit) (s : State) : Prop :=
  (∃ u, ByteRun byteStep c s u ∧ exec i s = .next (u.setPc (s.pc + 4))) ∨
    ∃ k u v a, k < c ∧ ByteRun byteStep k s u ∧ byteStep k u = .pageFault a v ∧ exec i s = .next (raisePageFault a v)

/-! ## The invariant -/

/-- What holds of a disk controller: canonical buffer and image of the right sizes; no activity and no result while
disconnected (R418); result bits that belong together (R414, R415). -/
structure Disk.Inv (d : Disk) : Prop where
  bufferForm : d.buffer.wf = true
  bufferSize : d.buffer.below blockBytes = true
  imageForm : ∀ i, d.image = some i → i.bytes.wf = true ∧ i.bytes.below (blockBytes * i.blocks.toNat) = true
  disconnected : d.image = none → d.busy = false ∧ d.finished = false
  busyClear : d.busy = true → d.finished = false
  successFinished : d.success = true → d.finished = true ∧ d.badCommand = false
  badFinished : d.badCommand = true → d.finished = true

/-- The invariant of the machine: every store is in canonical form and inside its row of the map, the disks' state is
consistent, and the queue is within its capacity (R361). -/
structure Inv (s : State) : Prop where
  ramForm : s.ram.wf = true
  ramSize : s.ram.below (2 ^ 32) = true
  romForm : s.rom.wf = true
  romSize : s.rom.below romBytes = true
  displayForm : s.display.wf = true
  displaySize : s.display.below displayBytes = true
  diskA : s.diskA.Inv
  diskB : s.diskB.Inv
  queueFits : ∀ n, s.irqCapacity.limit = some n → s.queue.length ≤ n

end Sys2Proof.Machine
end

