-- ==== Sys2Proof/Certificates/Slice0/Obligations.lean ====
section
/-! DEFINITION. The statements for the provers. `Quiet ps s` says in each that no device step falls inside the accesses to the
physical addresses `ps` (R120): none is planned (`s.midStep = []`), or no address of `ps` is in a device window. `pokes` are
the byte writes of R72 in their order; a state given by them says of every device what the writes do there. `Inv s` is the
machine's invariant, a statement of its own. -/

open Sys2Proof Sys2Proof.Machine

/-! ## Encoding -/

/-- Decoding the bytes of any well-formed instruction gives it back, with the bytes that follow (R130 to R142). -/
def Obligations.DecodeEncode : Prop :=
  ∀ (i : Instr) (rest : List Byte), i.wellFormed = true → decode (encode i ++ rest) = .ok i rest

/-- Whatever decodes is the encoding of a well-formed instruction: no reserved bit pattern is taken for one (R131, R134). -/
def Obligations.EncodeDecode : Prop :=
  ∀ (bs rest : List Byte) (i : Instr), decode bs = .ok i rest → i.wellFormed = true ∧ bs = encode i ++ rest

/-- Which register-reference bytes are illegal, and what the others name, the numbers of the special registers written out
(R130, R131, R34). -/
def Obligations.ReferenceBytes : Prop :=
  (parseRef 8 = .ok (.special .flags) ∧ parseRef 9 = .ok (.special .uspr) ∧ parseRef 10 = .ok (.special .kspr) ∧
    parseRef 11 = .ok (.special .pdpr) ∧ parseRef 12 = .ok (.special .imr) ∧ parseRef 13 = .ok (.special .pfva) ∧
    numberOfSpecial .flags = 8 ∧ numberOfSpecial .uspr = 9 ∧ numberOfSpecial .kspr = 10 ∧ numberOfSpecial .pdpr = 11 ∧
    numberOfSpecial .imr = 12 ∧ numberOfSpecial .pfva = 13) ∧
  ∀ b : Byte,
    ((∃ e, parseRef b = .error e) ↔
      3 ≤ b.toNat / 16 ∨ 14 ≤ b.toNat % 16 ∨ (8 ≤ b.toNat % 16 ∧ b.toNat / 16 ≠ 0)) ∧
    ∀ r, parseRef b = .ok r →
      match r with
      | .gpr g => g.index.val = b.toNat % 16 ∧ g.width.bits = (if b.toNat / 16 = 0 then 32 else 8 * (b.toNat / 16))
      | .special p => numberOfSpecial p = b.toNat % 16

/-- Words written out in the spec decode to what the spec says they are (R141, R161, R192, R197, R203, R204, R305, R330, R338). -/
def Obligations.SpecWordsDecode : Prop :=
  decode [0x0A, 0x10, 0x24] = .ok (.copyI (.gpr ⟨0, .byte⟩) 0x24) [] ∧
  decode [0x08, 0x00, 0x00, 0x02, 0x40, 0x10] = .ok (.storeA 0x240 (.gpr ⟨0, .byte⟩)) [] ∧
  decode [0x01] = .ok .pause [] ∧
  decode [0x06, 0x01, 0x02] = .ok (.loadR (.gpr ⟨1, .word⟩) 2) [] ∧
  decode [0x07, 0x03, 0x04] = .ok (.storeR 3 (.gpr ⟨4, .word⟩)) [] ∧
  decode [0x0C, 0x01, 0x02] = .ok (.swapR (.gpr ⟨1, .word⟩) 2) [] ∧
  decode [0x10, 0x00, 0x01, 0x02] = .ok (.blockcopy 0 1 2) [] ∧
  decode [0x11, 0x00, 0x01, 0x12] = .ok (.blockset 0 1 2) [] ∧
  decode [0x36, 0x00, 0x00, 0x20, 0x00] = .ok (.beqA 0x2000) [] ∧
  decode [0x4A, 0x22, 0x11] = .ok (.zext ⟨2, .half⟩ ⟨1, .byte⟩) [] ∧
  decode [0x51, 0x01, 0x02] = .ok (.fcmp 1 2) []

/-! ## The step -/

/-- A step runs the decoded instruction: when the bytes at the pc are those of a well-formed instruction, the step is what
the instruction does, in the state in which the CPU takes its turn (R150, R371). -/
def Obligations.StepRunsDecodedInstruction : Prop :=
  ∀ (s u : State) (i : Instr), FetchesNext s u → i.wellFormed = true → FetchableAtPc (encode i) s →
    Quiet (bytesAccessed .fetch s.pc (encode i).length s) s → step s = exec i u

/-- R143: an illegal encoding takes interrupt 1 with the address of the opcode byte saved, whatever check it fails; a reserved
opcode is illegal. -/
def Obligations.IllegalEncodingRaises : Prop :=
  (∀ (s u : State) (bs : List Byte) (e : DecodeError), FetchesNext s u → FetchableAtPc bs s →
    Quiet (bytesAccessed .fetch s.pc bs.length s) s → decode bs = .illegal e →
    step s = .next (takeInterrupt .illegalOperation s.pc u)) ∧
  ∀ (op : Byte) (rest : List Byte), 0x52 ≤ op.toNat → decode (op :: rest) = .illegal .reservedOpcode

/-- A fetch that reaches an instruction byte whose address does not translate takes a page fault at that byte, with the
address of the opcode byte saved (R150, R97, R375). -/
def Obligations.FetchFaultRaises : Prop :=
  ∀ (s u : State) (bs : List Byte), FetchesNext s u → FetchableAtPc bs s → decode bs = .more →
    (resolve (s.pc + BitVec.ofNat 32 bs.length) .fetch s).1 = none →
    Quiet (bytesAccessed .fetch s.pc bs.length s ++ walkReads (s.pc + BitVec.ofNat 32 bs.length) s) s →
    step s = .next (takeInterrupt .pageFault s.pc (u.setPfva (s.pc + BitVec.ofNat 32 bs.length)))

/-- At its boundary a running or paused CPU takes the enabled queue entry nearest the head and leaves every other entry in
its order (R363, R371). -/
def Obligations.QueuedInterruptTaken : Prop :=
  ∀ (s u : State) (before behind : List DeviceIrq) (k : DeviceIrq), CpuTurn s u → s.runState ≠ .stopped →
    s.queue = before ++ k :: behind → (∀ j ∈ before, s.imr.getLsbD j.kind.number = false) →
    s.imr.getLsbD k.kind.number = true →
    step s = .next (takeInterrupt k.kind s.pc (u.setQueue (before ++ behind)))

/-- Whose turn it is takes it: a stopped CPU, and a paused one with no enabled entry, take no step; a device, a key message, a
stop and a start are what their rules say (R371, R15, R402, R415, R420). That the turn of an agent with no step to take answers
the state, and that the schedule names the turns, are the model's choices (log entries 6, 8 and 10). Device steps inside a CPU step (R120)
are, in the model's form (log entry 7), the next list of `midStep`, taken right after a byte access to a device window; the last
two clauses say so of each byte access, and of the two that a half-word `LOAD` or `STORE` makes in kernel mode. -/
def Obligations.AgentTurns : Prop :=
  (∀ s u : State, CpuTurn s u → s.runState = .stopped → step s = .next u) ∧
  (∀ s u : State, CpuTurn s u → s.runState = .paused → (∀ k ∈ s.queue, s.imr.getLsbD k.kind.number = false) →
    step s = .next u) ∧
  (∀ (s : State) (d : DeviceStep) (rest : List Agent), s.schedule = .device d :: rest →
    step s = .next (deviceStep d (s.setSchedule rest))) ∧
  (∀ (s : State) (m : KeyMessage) (rest : List Agent), s.schedule = .hostKey m :: rest →
    step s = .next ((s.setSchedule rest).setHostKeys (s.hostKeys ++ [m]))) ∧
  (∀ (s : State) (rest : List Agent), s.schedule = .hostStop :: rest →
    step s = .next ((s.setSchedule rest).setRunState .stopped)) ∧
  (∀ (s : State) (i : StartInput) (rest : List Agent), s.schedule = .hostStart i :: rest →
    step s = .next (if s.runState = .stopped then
      ((State.start s.irqCapacity i).setSchedule rest).setMidStep s.midStep else s.setSchedule rest)) ∧
  (∀ (s : State) (pa : Word) (b : Byte),
    ((regionOf pa).isDevice = false ∨ s.midStep = [] →
      physRead8 pa s = (peek s pa, s) ∧ physWrite8 pa b s = poke pa b s) ∧
    ∀ (ts : List DeviceStep) (rest : List (List DeviceStep)), (regionOf pa).isDevice = true → s.midStep = ts :: rest →
      physRead8 pa s = (peek s pa, ts.foldl (fun u d => deviceStep d u) (s.setMidStep rest)) ∧
      physWrite8 pa b s = ts.foldl (fun u d => deviceStep d u) ((poke pa b s).setMidStep rest)) ∧
  ∀ (i : Fin 8) (pa : Word) (s u v : State), s.mode = .kernel →
    (u = (physRead8 pa s).2 → v = (physRead8 (pa + 1) u).2 →
      exec (.loadA (.gpr ⟨i, .half⟩) pa) s =
        .next ((writeRef (.gpr ⟨i, .half⟩) (beWord [peek s pa, peek u (pa + 1)]) v).setPc (s.pc + 6))) ∧
    (u = physWrite8 pa ((readReg i s).extractLsb' 8 8) s → v = physWrite8 (pa + 1) ((readReg i s).extractLsb' 0 8) u →
      exec (.storeA pa (.gpr ⟨i, .half⟩)) s = .next (v.setPc (s.pc + 6)))

/-- No step and no instruction of the model ever stops with a fault or a refusal. This rests on two choices of the model: a
read of a register that nothing has written is no model fault, since every register holds a value from reset on (log entry 1,
where R50 and R450 ask for a fault), and a turn of an agent that has no step to take answers the state (log entry 8, where
R371 gives a stopped CPU no step). -/
def Obligations.EveryStepCompletes : Prop :=
  ∀ s : State, CompletesStep s ∧ ∀ i : Instr, ∃ t, exec i s = .next t

/-! ## Exceptions and privilege -/

/-- R373: what taking any interrupt saves, where it goes, and what it leaves alone. -/
def Obligations.InterruptEntry : Prop :=
  ∀ (k : Interrupt) (ret : Word) (s : State), Inv s → Quiet (frameAddresses s) s →
    EntersHandler k ret s (takeInterrupt k ret s)

/-- R351: the interrupt numbers. -/
def Obligations.InterruptNumbers : Prop :=
  Interrupt.number .reset = 0 ∧ Interrupt.number .illegalOperation = 1 ∧ Interrupt.number .divideByZero = 2 ∧
  Interrupt.number .pageFault = 3 ∧ Interrupt.number .timer = 4 ∧ Interrupt.number .keyboard = 5 ∧
  Interrupt.number .diskA = 6 ∧ Interrupt.number .diskB = 7 ∧ Interrupt.number .systemCall = 8 ∧
  (∀ i : Fin 7, Interrupt.number (.reserved i) = 9 + i.val) ∧
  DeviceIrq.kind .keyboard = .keyboard ∧ DeviceIrq.kind .diskA = .diskA ∧ DeviceIrq.kind .diskB = .diskB

/-- R173: `IRETURN` in kernel mode restores the five registers from the three words at `kspr` and changes nothing else. -/
def Obligations.IreturnPops : Prop :=
  ∀ s : State, s.mode = .kernel → Quiet (accessesOf .ireturn s) s →
    exec .ireturn s = .next { s with
      uspr := wordAt s s.kspr
      pc := wordAt s (s.kspr + 4)
      flags := ⟨bit (wordAt s (s.kspr + 8)).toNat 0, bit (wordAt s (s.kspr + 8)).toNat 1,
        bit (wordAt s (s.kspr + 8)).toNat 2, bit (wordAt s (s.kspr + 8)).toNat 3⟩
      mode := if bit (wordAt s (s.kspr + 8)).toNat 8 then .user else .kernel
      imr := BitVec.ofNat 16 ((wordAt s (s.kspr + 8)).toNat / 2 ^ 16)
      kspr := s.kspr + 12 }

/-- An `IRETURN` from any handler that leaves its frame and `kspr` as entry left them undoes the entry: the interrupted pc,
mode, flags, mask and stack pointers are back (R380). -/
def Obligations.ReturnUndoesEntry : Prop :=
  ∀ (k : Interrupt) (ret : Word) (s t : State), Inv s → Quiet (frameAddresses s) s →
    (∀ a ∈ frameAddresses s, Writable a) → t.mode = .kernel → Quiet (accessesOf .ireturn t) t → t.kspr = s.kspr - 12 →
    (∀ a ∈ frameAddresses s, peek t a = peek (takeInterrupt k ret s) a) →
    exec .ireturn t = .next { t with
      uspr := s.uspr, pc := ret, flags := s.flags, mode := s.mode, imr := s.imr, kspr := s.kspr }

/-- In user mode the privileged instructions, and every instruction that names `kspr`, `pdpr`, `imr` or `pfva`, take
interrupt 1 and do nothing else (R45, R175). -/
def Obligations.UserModePrivilege : Prop :=
  ∀ (i : Instr) (s : State), s.mode = .user →
    i = .halt ∨ i = .pause ∨ i = .ireturn ∨ .special .kspr ∈ i.refs ∨ .special .pdpr ∈ i.refs ∨
      .special .imr ∈ i.refs ∨ .special .pfva ∈ i.refs →
    exec i s = .next (takeInterrupt .illegalOperation s.pc s)

/-- `NOP` in both modes only advances the pc (R172) and `SYSCALL` takes interrupt 8 with the next address saved (R174); in
kernel mode `HALT` stops (R170) and `PAUSE` pauses (R171) the CPU past the instruction. -/
def Obligations.ControlResults : Prop :=
  (∀ s : State, exec .nop s = .next (s.setPc (s.pc + 1))) ∧
  (∀ s : State, exec .syscall s = .next (takeInterrupt .systemCall (s.pc + 1) s)) ∧
  (∀ s : State, s.mode = .kernel → exec .halt s = .next ((s.setPc (s.pc + 1)).setRunState .stopped)) ∧
  ∀ s : State, s.mode = .kernel → exec .pause s = .next ((s.setPc (s.pc + 1)).setRunState .paused)

/-- A data access whose bytes do not all translate takes interrupt 3, with `pfva` the first byte that fails and this
instruction's address saved, and with no other effect of the instruction (R95 to R98, R97). -/
def Obligations.DataPageFaults : Prop :=
  ∀ (r : Ref) (s : State) (a : Word), Permitted r s →
    (∀ addr, FirstFault .read addr r.width.bytes a s → FaultsAt (.loadA r addr) a s ∧ FaultsAt (.swapA r addr) a s) ∧
    (∀ addr, FirstFault .read (readReg addr s) r.width.bytes a s →
      FaultsAt (.loadR r addr) a s ∧ FaultsAt (.swapR r addr) a s) ∧
    (FirstFault .read (activeSp s) r.width.bytes a s → FaultsAt (.pop r) a s) ∧
    (∀ addr, FirstFault .write addr r.width.bytes a s →
      FaultsAt (.storeA addr r) a s ∧ ∀ ps, Translates .read addr r.width.bytes ps s → FaultsAt (.swapA r addr) a s) ∧
    (∀ addr, FirstFault .write (readReg addr s) r.width.bytes a s →
      FaultsAt (.storeR addr r) a s ∧
      ∀ ps, Translates .read (readReg addr s) r.width.bytes ps s → FaultsAt (.swapR r addr) a s) ∧
    (FirstFault .write (activeSp s - BitVec.ofNat 32 r.width.bytes) r.width.bytes a s → FaultsAt (.push r) a s)

/-- R386: kernel mode is entered only by an interrupt entry or by the host's start, user mode only by an `IRETURN` that pops a
status word with bit 8 set. -/
def Obligations.ModeChanges : Prop :=
  ∀ s t : State, step s = .next t →
    (s.mode = .user → t.mode = .kernel → TookException s t ∨ Restarted s t) ∧
    (s.mode = .kernel → t.mode = .user →
      ∃ u v, CpuTurn s u ∧ fetch u = .ok .ireturn v ∧ exec .ireturn v = .next t ∧ v.mode = .kernel ∧
        t.kspr = v.kspr + 12 ∧
        (Quiet (accessesOf .ireturn v) v → bit (wordAt v (v.kspr + 8)).toNat 8 = true))

/-- A step in user mode either stays in user mode with every privileged register as it was, or takes an exception, or is the
host's start of a stopped machine (R45, R385, R386). -/
def Obligations.UserKeepsPrivileged : Prop :=
  ∀ s t : State, s.mode = .user → step s = .next t →
    (t.mode = .user ∧ t.kspr = s.kspr ∧ t.pdpr = s.pdpr ∧ t.imr = s.imr ∧ t.pfva = s.pfva) ∨
    (TookException s t ∧ t.pdpr = s.pdpr) ∨ Restarted s t

/-- A user-mode instruction that takes no exception does the same whatever `kspr`, `imr` and `pfva` hold: user code cannot
observe them (R45). -/
def Obligations.UserCannotObserve : Prop :=
  ∀ (i : Instr) (s t : State) (k f : Word) (m : BitVec 16), s.mode = .user → exec i s = .next t → t.mode = .user →
    exec i (((s.setKspr k).setImr m).setPfva f) = .next (((t.setKspr k).setImr m).setPfva f)

/-- The flags change only by an instruction that computes them, by one that names `flags` as destination and by `IRETURN`, and
not by interrupt entry (R37). -/
def Obligations.FlagsWriters : Prop :=
  (∀ (i : Instr) (s t : State), exec i s = .next t → t.flags ≠ s.flags →
    i.computesFlags ∨ .special .flags ∈ i.writes ∨ i = .ireturn) ∧
  ∀ (k : Interrupt) (ret : Word) (s : State), (takeInterrupt k ret s).flags = s.flags

/-- What any instruction may change of the registers, with or without device steps inside it: the views it names as
destination, the active stack pointer for `PUSH` and `POP`, what `IRETURN` restores and what an exception sets (R30, R32, R39
to R43, R47). -/
def Obligations.RegisterFrame : Prop :=
  ∀ (i : Instr) (s t : State), exec i s = .next t →
    (∀ j : Fin 8, readReg j t = readReg j s ∨
      ∃ g, .gpr g ∈ i.writes ∧ g.index = j ∧ readReg j t >>> g.width.bits = readReg j s >>> g.width.bits) ∧
    (t.uspr ≠ s.uspr → .special .uspr ∈ i.writes ∨ (i.usesStack ∧ s.mode = .user) ∨ i = .ireturn) ∧
    (t.kspr ≠ s.kspr →
      .special .kspr ∈ i.writes ∨ (i.usesStack ∧ s.mode = .kernel) ∨ i = .ireturn ∨ TookException s t) ∧
    (t.pdpr ≠ s.pdpr → .special .pdpr ∈ i.writes) ∧
    (t.imr ≠ s.imr → .special .imr ∈ i.writes ∨ i = .ireturn ∨ TookException s t) ∧
    (t.pfva ≠ s.pfva → .special .pfva ∈ i.writes ∨ (s.mode = .user ∧ TookException s t)) ∧
    (t.runState ≠ s.runState → i = .halt ∨ i = .pause ∨ TookException s t) ∧
    t.rom = s.rom ∧ t.irqCapacity = s.irqCapacity ∧ t.schedule = s.schedule ∧ s.records <+: t.records

/-- R360, R364: over any step the queue only grows at its tail, and an entry leaves it only by being taken, as the first
enabled one, or by the host's start. -/
def Obligations.QueueFifo : Prop :=
  ∀ s t : State, step s = .next t → ∃ added : List DeviceIrq,
    t.queue = s.queue ++ added ∨
    (∃ before behind k, s.queue = before ++ k :: behind ∧ s.imr.getLsbD k.kind.number = true ∧
      (∀ j ∈ before, s.imr.getLsbD j.kind.number = false) ∧ t.queue = before ++ behind ++ added ∧ TookException s t) ∨
    Restarted s t

/-! ## Invariant and reset -/

/-- Every step keeps the invariant: the stores in canonical form and inside their rows of the map, the controllers'
consistency, the queue within its capacity (R71, R73, R361, R411, R414, R415, R418). -/
def Obligations.InvPreserved : Prop :=
  ∀ s t : State, Inv s → step s = .next t → Inv t

/-- The invariant holds right after reset, whatever the host supplies and whatever reset draws. -/
def Obligations.InvAtReset : Prop :=
  Inv State.reset ∧ ∀ (capacity : QueueCapacity) (i : StartInput), Inv (State.start capacity i)

/-- What reset leaves, for every image the host supplies and every draw (R450, R451); `State.reset` is one such start, the
model's choice of log entries 1 to 4. That a start leaves no key message unread and no record received is the model's choice of
log entry 10: R450 says that no key message is consumed yet and that reset emits no record. -/
def Obligations.ResetValues : Prop :=
  State.reset = State.start .parameter StartInput.bare ∧
  ∀ (capacity : QueueCapacity) (i : StartInput) (s : State), s = State.start capacity i →
    s.imr = 0 ∧ s.pc = 0x40 ∧ s.mode = .kernel ∧ s.runState = .running ∧ s.queue = [] ∧ s.hostKeys = [] ∧
    s.records = [] ∧
    (∀ a : Word, InRamArray a → peek s a = 0) ∧
    (∀ o, o < 512 → peek s (BitVec.ofNat 32 (0x40 + o)) = i.rom[o]?.getD 0) ∧
    (∀ o, o < 6000 → peek s (BitVec.ofNat 32 (0x240 + o)) = 0) ∧
    peek s 0x39C4 = i.keyboard.key ∧ peek s 0x39C5 = i.keyboard.metadata ∧
    s.diskA = Disk.start i.diskA ∧ s.diskB = Disk.start i.diskB ∧
    ∀ d : DiskStart,
      (Disk.start d).busy = false ∧ (Disk.start d).da = d.da ∧
      (Disk.start d).status = (if d.image.isSome then 1 else 0) ∧
      (∀ o, o < 4096 → (Disk.start d).buffer.read o = d.buffer[o]?.getD 0) ∧
      (d.image = none → (Disk.start d).image = none) ∧
      ∀ src, d.image = some src → ∃ img, (Disk.start d).image = some img ∧ img.blocks = src.blocks ∧
        ∀ o, o < 4096 * src.blocks.toNat → img.bytes.read o = src.bytes[o]?.getD 0

/-! ## Memory and translation -/

/-- R90: the two-level walk of a user-mode access. -/
def Obligations.TranslateWalk : Prop :=
  ∀ (va : Word) (acc : Access) (s : State) (pde pte : Word), s.mode = .user → Quiet (walkReads va s) s →
    pde = wordAt s (s.pdpr + BitVec.ofNat 32 (4 * (va.toNat / 2 ^ 22))) →
    pte = wordAt s (BitVec.ofNat 32 (pde.toNat / 2 ^ 12 * 2 ^ 12 + 4 * (va.toNat / 2 ^ 12 % 2 ^ 10))) →
    resolve va acc s =
      (if bit pde.toNat 0 = false ∨ bit pte.toNat 0 = false ∨ (acc = .read ∧ bit pte.toNat 1 = false) ∨
          (acc = .write ∧ bit pte.toNat 2 = false) ∨ (acc = .fetch ∧ bit pte.toNat 3 = false) then none
        else some (BitVec.ofNat 32 (pte.toNat / 2 ^ 12 * 2 ^ 12 + va.toNat % 2 ^ 12)), s)

/-- R94: in kernel mode the physical address is the virtual address, and no instruction and no fetch raises a page fault. -/
def Obligations.KernelNeverFaults : Prop :=
  ∀ s : State, s.mode = .kernel →
    (∀ va acc, resolve va acc s = (some va, s)) ∧ (∀ va t, fetch s ≠ .pageFault va t) ∧
    ∀ (i : Instr) (t : State), exec i s = .next t → t.pfva ≠ s.pfva → .special .pfva ∈ i.writes

/-- R71, R74: every physical address is in exactly the row the map gives; ROM reads its image and ignores writes. -/
def Obligations.PhysicalMap : Prop :=
  (∀ pa : Word,
    (regionOf pa = .vector ↔ pa.toNat ≤ 0x3F) ∧
    (∀ o, regionOf pa = .rom o ↔ pa.toNat = 0x40 + o ∧ pa.toNat ≤ 0x23F) ∧
    (∀ o, regionOf pa = .display o ↔ pa.toNat = 0x240 + o ∧ pa.toNat ≤ 0x19AF) ∧
    (∀ o, regionOf pa = .diskRegister .a o ↔ pa.toNat = 0x19B0 + o ∧ pa.toNat ≤ 0x19B9) ∧
    (∀ o, regionOf pa = .diskBuffer .a o ↔ pa.toNat = 0x19BA + o ∧ pa.toNat ≤ 0x29B9) ∧
    (∀ o, regionOf pa = .diskRegister .b o ↔ pa.toNat = 0x29BA + o ∧ pa.toNat ≤ 0x29C3) ∧
    (∀ o, regionOf pa = .diskBuffer .b o ↔ pa.toNat = 0x29C4 + o ∧ pa.toNat ≤ 0x39C3) ∧
    (∀ o, regionOf pa = .keyboard o ↔ pa.toNat = 0x39C4 + o ∧ pa.toNat ≤ 0x39C5) ∧
    (regionOf pa = .ram ↔ 0x39C6 ≤ pa.toNat)) ∧
  ∀ (s : State) (pa : Word), 0x40 ≤ pa.toNat → pa.toNat ≤ 0x23F →
    peek s pa = s.rom.read (pa.toNat - 0x40) ∧ ∀ b, poke pa b s = s

/-- R78: what narrower reads return after a four-byte write, where the four bytes hold what is written to them. -/
def Obligations.MixedWidthReads : Prop :=
  ∀ (a v : Word) (s : State), Inv s → Quiet (addresses a 4) s → (∀ p ∈ addresses a 4, Writable p) →
    (physRead 1 a (physWrite 4 a v s)).1.toNat = v.toNat / 2 ^ 24 ∧
    (physRead 1 (a + 3) (physWrite 4 a v s)).1.toNat = v.toNat % 2 ^ 8 ∧
    (physRead 2 (a + 1) (physWrite 4 a v s)).1.toNat = v.toNat / 2 ^ 8 % 2 ^ 16 ∧
    (physRead 4 a (physWrite 4 a v s)).1 = v

/-- A user-mode instruction that takes no exception, other than the two block instructions, changes only bytes to which some
virtual address translates for writing (and the `STATUS` of a disk whose `CMD` is such a byte) (R92, R93, R96). -/
def Obligations.UserStoresOnlyWritable : Prop :=
  ∀ (i : Instr) (s t : State) (a : Word), s.mode = .user → Quiet (accessesOf i s) s → ¬ i.isBlock →
    exec i s = .next t → t.mode = .user → peek t a ≠ peek s a →
    (∃ va, (resolve va .write s).1 = some a) ∨
      ∃ d va, a = statusAddress d ∧ (resolve va .write s).1 = some (cmdAddress d)

/-! ## Data movement -/

/-- R190, R191: `LOAD` writes the big-endian value of the bytes it reads to its register and changes nothing else. -/
def Obligations.LoadResult : Prop :=
  ∀ (dst : Ref) (s : State) (ps : List Word), Permitted dst s →
    (∀ addr, Translates .read addr dst.width.bytes ps s → Quiet (accessesOf (.loadA dst addr) s) s →
      ∃ t, exec (.loadA dst addr) s = .next t ∧ WritesRef 6 dst (beWord (ps.map (peek s))) s t) ∧
    ∀ src, Translates .read (readReg src s) dst.width.bytes ps s → Quiet (accessesOf (.loadR dst src) s) s →
      ∃ t, exec (.loadR dst src) s = .next t ∧ WritesRef 3 dst (beWord (ps.map (peek s))) s t

/-- R192, R193: `STORE` stores the bytes of its register, most significant first, and changes nothing else: memory and devices
are those of `s` with these bytes written. -/
def Obligations.StoreResult : Prop :=
  ∀ (src : Ref) (s : State) (ps : List Word), Inv s → Permitted src s →
    (∀ addr, Translates .write addr src.width.bytes ps s → Quiet (accessesOf (.storeA addr src) s) s →
      ∃ t, exec (.storeA addr src) s = .next t ∧
        t = (pokes (ps.zip (beBytes src.width.bytes (readRef src s))) s).setPc (s.pc + 6) ∧
        StoresBytes ps (beBytes src.width.bytes (readRef src s)) s t ∧ OnlyMemoryChanged (s.setPc t.pc) t) ∧
    ∀ addr, Translates .write (readReg addr s) src.width.bytes ps s → Quiet (accessesOf (.storeR addr src) s) s →
      ∃ t, exec (.storeR addr src) s = .next t ∧
        t = (pokes (ps.zip (beBytes src.width.bytes (readRef src s))) s).setPc (s.pc + 3) ∧
        StoresBytes ps (beBytes src.width.bytes (readRef src s)) s t ∧ OnlyMemoryChanged (s.setPc t.pc) t

/-- R194, R195: `COPY` writes its source to its destination and changes nothing else. -/
def Obligations.CopyResult : Prop :=
  (∀ (dst src : Ref) (s : State), SameWidth dst.width src.width → Permitted dst s → Permitted src s →
    ∃ t, exec (.copyR dst src) s = .next t ∧ WritesRef 3 dst (readRef src s) s t) ∧
  ∀ (dst : Ref) (lit : Word) (s : State), LitFits dst.width lit → Permitted dst s →
    ∃ t, exec (.copyI dst lit) s = .next t ∧ WritesRef (2 + dst.width.bytes) dst lit s t

/-- R198: `SWAP` of two registers exchanges them and changes nothing else. -/
def Obligations.SwapRegisters : Prop :=
  ∀ (a b : Ref) (s : State), SameWidth a.width b.width → Permitted a s → Permitted b s →
    ∃ t, exec (.swapRR a b) s = .next t ∧ t.pc = s.pc + 3 ∧
      readRef a t = storedValue a (readRef b s) ∧ readRef b t = storedValue b (readRef a s) ∧
      (∀ j : Fin 8, (∀ g, .gpr g = a ∨ .gpr g = b → g.index ≠ j) → readReg j t = readReg j s) ∧
      (∀ g, .gpr g = a ∨ .gpr g = b → readReg g.index t >>> g.width.bits = readReg g.index s >>> g.width.bits) ∧
      (∀ p, .special p ≠ a → .special p ≠ b → readSpecial p t = readSpecial p s) ∧
      SameOutsideRegisters s t ∧ SameMemory s t

/-- R196, R197: `SWAP` with memory puts the register's bytes into memory and the bytes' old value into the register, and
changes nothing else: memory and devices are those of `s` with these bytes written. -/
def Obligations.SwapMemory : Prop :=
  ∀ (reg : Ref) (s : State) (ps : List Word), Inv s → Permitted reg s →
    (∀ addr, Translates .read addr reg.width.bytes ps s → Translates .write addr reg.width.bytes ps s →
      Quiet (accessesOf (.swapA reg addr) s) s →
      ∃ t, exec (.swapA reg addr) s = .next t ∧ t.pc = s.pc + 6 ∧
        readRef reg t = storedValue reg (beWord (ps.map (peek s))) ∧ OnlyRefChanged reg s t ∧
        t = withRegistersOf t (pokes (ps.zip (beBytes reg.width.bytes (readRef reg s))) s) ∧
        StoresBytes ps (beBytes reg.width.bytes (readRef reg s)) s t ∧ OnlyMemoryChanged (withRegistersOf t s) t) ∧
    ∀ addr, Translates .read (readReg addr s) reg.width.bytes ps s →
      Translates .write (readReg addr s) reg.width.bytes ps s → Quiet (accessesOf (.swapR reg addr) s) s →
      ∃ t, exec (.swapR reg addr) s = .next t ∧ t.pc = s.pc + 3 ∧
        readRef reg t = storedValue reg (beWord (ps.map (peek s))) ∧ OnlyRefChanged reg s t ∧
        t = withRegistersOf t (pokes (ps.zip (beBytes reg.width.bytes (readRef reg s))) s) ∧
        StoresBytes ps (beBytes reg.width.bytes (readRef reg s)) s t ∧ OnlyMemoryChanged (withRegistersOf t s) t

/-- R199, R200: `PUSH` stores its register below the active stack pointer and moves it there; `POP` reads at the active stack
pointer, moves it past the bytes and then writes its register. -/
def Obligations.StackResults : Prop :=
  ∀ (r : Ref) (s : State) (ps : List Word), Permitted r s →
    (Inv s → Translates .write (activeSp s - BitVec.ofNat 32 r.width.bytes) r.width.bytes ps s →
      Quiet (accessesOf (.push r) s) s →
      ∃ t, exec (.push r) s = .next t ∧
        t = (setActiveSp (activeSp s - BitVec.ofNat 32 r.width.bytes)
          (pokes (ps.zip (beBytes r.width.bytes (readRef r s))) s)).setPc (s.pc + 2) ∧
        StoresBytes ps (beBytes r.width.bytes (readRef r s)) s t ∧
        OnlyMemoryChanged ((setActiveSp (activeSp s - BitVec.ofNat 32 r.width.bytes) s).setPc t.pc) t) ∧
    (Translates .read (activeSp s) r.width.bytes ps s → Quiet (accessesOf (.pop r) s) s →
      ∃ t, exec (.pop r) s = .next t ∧
        WritesRef 2 r (beWord (ps.map (peek s))) (setActiveSp (activeSp s + BitVec.ofNat 32 r.width.bytes) s) t)

/-- R203, R204: the block instructions, in either mode and with or without device steps inside, are their byte steps in
ascending order, up to the first that faults; in kernel mode they complete. A byte step, in the state in which it runs, reads
and writes the physical bytes that its addresses translate to, wherever these lie, or faults at the address that does not
translate. -/
def Obligations.BlockInstructions : Prop :=
  ∀ (count dst src : Fin 8) (s : State) (copyByte setByte : Nat → State → MemResult Unit),
    copyByte = (fun i u => (memRead 1 (readReg src s + BitVec.ofNat 32 i) .read u).bind fun b v =>
      memWrite 1 (readReg dst s + BitVec.ofNat 32 i) b v) →
    setByte = (fun i u => memWrite 1 (readReg dst s + BitVec.ofNat 32 i) (readReg src s) u) →
    BlockRuns (.blockcopy count dst src) (readReg count s).toNat copyByte s ∧
    BlockRuns (.blockset count dst src) (readReg count s).toNat setByte s ∧
    (s.mode = .kernel →
      (∃ u, ByteRun copyByte (readReg count s).toNat s u ∧
        exec (.blockcopy count dst src) s = .next (u.setPc (s.pc + 4))) ∧
      ∃ u, ByteRun setByte (readReg count s).toNat s u ∧
        exec (.blockset count dst src) s = .next (u.setPc (s.pc + 4))) ∧
    ∀ (i : Nat) (u : State) (x d : Word), x = readReg src s + BitVec.ofNat 32 i → d = readReg dst s + BitVec.ofNat 32 i →
      ((resolve x .read u).1 = none → Quiet (walkReads x u) u → copyByte i u = .pageFault x u) ∧
      (∀ p, (resolve x .read u).1 = some p → (resolve d .write u).1 = none →
        Quiet (walkReads x u ++ p :: walkReads d u) u → copyByte i u = .pageFault d u) ∧
      (∀ p q, (resolve x .read u).1 = some p → (resolve d .write u).1 = some q →
        Quiet (walkReads x u ++ p :: walkReads d u ++ [q]) u → copyByte i u = .ok () (poke q (peek u p) u)) ∧
      ((resolve d .write u).1 = none → Quiet (walkReads d u) u → setByte i u = .pageFault d u) ∧
      ∀ q, (resolve d .write u).1 = some q → Quiet (walkReads d u ++ [q]) u →
        setByte i u = .ok () (poke q ((readReg src s).setWidth 8) u)

/-- `BLOCKCOPY` in kernel mode copies byte after byte, whatever the two ranges are. Into the RAM array this is, for any overlap:
a destination that starts inside the source fills forward with the bytes between the two starts, every other one behaves as a
move (R203). User mode is in `BlockInstructions`. -/
def Obligations.BlockCopyInRam : Prop :=
  ∀ (count dst src : Fin 8) (s : State) (c : Nat) (d from' : Word), c = (readReg count s).toNat → d = readReg dst s →
    from' = readReg src s → s.mode = .kernel → Quiet (accessesOf (.blockcopy count dst src) s) s →
    ∃ t, exec (.blockcopy count dst src) s = .next t ∧ t = (copyPokes d from' c s).setPc (s.pc + 4) ∧
      (Inv s → (∀ a ∈ addresses d c, InRamArray a) →
        (∀ i, i < c → peek t (d + BitVec.ofNat 32 i) = peek s (from' + BitVec.ofNat 32 (i % (d - from').toNat))) ∧
        (∀ a, a ∉ addresses d c → peek t a = peek s a) ∧ t = { s with ram := t.ram, pc := s.pc + 4 })

/-- `BLOCKSET` in kernel mode stores the low byte of its value register to every byte of its destination, wherever that lies,
and changes nothing else: memory and devices are those of `s` with these bytes written (R204). -/
def Obligations.BlockSetKernel : Prop :=
  ∀ (count dst value : Fin 8) (s : State) (ps : List Word) (bs : List Byte), s.mode = .kernel → Inv s →
    Quiet (accessesOf (.blockset count dst value) s) s → ps = addresses (readReg dst s) (readReg count s).toNat →
    bs = List.replicate (readReg count s).toNat ((readReg value s).setWidth 8) →
    ∃ t, exec (.blockset count dst value) s = .next t ∧ t = (pokes (ps.zip bs) s).setPc (s.pc + 4) ∧
      StoresBytes ps bs s t ∧ OnlyMemoryChanged (s.setPc t.pc) t

/-! ## Arithmetic and bitwise -/

/-- R231, R232, R233, R236: `ADD`, `SUB`, `MUL` and `NEG`: result, all four flags and nothing else, at every width. -/
def Obligations.ArithmeticResults : Prop :=
  TwoOperand .addR .addI (fun _ => True) (fun w a b _ r c o =>
    r = (a + b) % 2 ^ w ∧ (c = true ↔ 2 ^ w ≤ a + b) ∧ (o = true ↔ OutsideSigned w (signed w a + signed w b))) ∧
  TwoOperand .subR .subI (fun _ => True) (fun w a b _ r c o =>
    (r : Int) = ((a : Int) - b) % 2 ^ w ∧ (c = true ↔ a < b) ∧ (o = true ↔ OutsideSigned w (signed w a - signed w b))) ∧
  TwoOperand .mulR .mulI (fun _ => True) (fun w a b _ r c o =>
    r = a * b % 2 ^ w ∧ (c = true ↔ 2 ^ w ≤ a * b) ∧ (o = true ↔ OutsideSigned w (signed w a * signed w b))) ∧
  OneOperand .neg (fun w a r c o =>
    (r : Int) = (-(a : Int)) % 2 ^ w ∧ (c = true ↔ a ≠ 0) ∧ (o = true ↔ a = 2 ^ (w - 1)))

/-- R234, R235: `UDIV` and `SDIV`: result, all four flags and nothing else where the divisor is not zero; interrupt 2 with this
instruction's address saved, and nothing else, where it is. -/
def Obligations.DivisionResults : Prop :=
  TwoOperand .udivR .udivI (fun b => b ≠ 0) (fun _ a b _ r c o => r = a / b ∧ c = false ∧ o = false) ∧
  TwoOperand .sdivR .sdivI (fun b => b ≠ 0) (fun w a b _ r c o =>
    c = false ∧
    (signed w a = -(2 ^ (w - 1)) ∧ signed w b = -1 → r = 2 ^ (w - 1) ∧ o = true) ∧
    (¬ (signed w a = -(2 ^ (w - 1)) ∧ signed w b = -1) →
      (r : Int) = (signed w a).tdiv (signed w b) % 2 ^ w ∧ o = false)) ∧
  ∀ (dst src : GRef) (s : State),
    (SameWidth dst.width src.width → readG src s = 0 →
      exec (.udivR dst src) s = .next (takeInterrupt .divideByZero s.pc s) ∧
      exec (.sdivR dst src) s = .next (takeInterrupt .divideByZero s.pc s)) ∧
    exec (.udivI dst 0) s = .next (takeInterrupt .divideByZero s.pc s) ∧
    exec (.sdivI dst 0) s = .next (takeInterrupt .divideByZero s.pc s)

/-- R261, R262, R263, R264: `AND`, `OR`, `XOR` and `NOT`, bit by bit. -/
def Obligations.LogicResults : Prop :=
  TwoOperand .andR .andI (fun _ => True) (fun w a b _ r c o =>
    (∀ i, i < w → bit r i = (bit a i && bit b i)) ∧ c = false ∧ o = false) ∧
  TwoOperand .orR .orI (fun _ => True) (fun w a b _ r c o =>
    (∀ i, i < w → bit r i = (bit a i || bit b i)) ∧ c = false ∧ o = false) ∧
  TwoOperand .xorR .xorI (fun _ => True) (fun w a b _ r c o =>
    (∀ i, i < w → bit r i = (bit a i ^^ bit b i)) ∧ c = false ∧ o = false) ∧
  OneOperand .notR (fun w a r c o => (∀ i, i < w → bit r i = !bit a i) ∧ c = false ∧ o = false)

/-- R266, R267, R268: the shifts, for every count up to the largest a register holds. -/
def Obligations.ShiftResults : Prop :=
  TwoOperand .shlR .shlI (fun _ => True) (fun w a n _ r c o =>
    r = (if w ≤ n then 0 else a * 2 ^ n % 2 ^ w) ∧ c = (if 1 ≤ n ∧ n ≤ w then bit a (w - n) else false) ∧ o = false) ∧
  TwoOperand .shrR .shrI (fun _ => True) (fun w a n _ r c o =>
    r = (if w ≤ n then 0 else a / 2 ^ n) ∧ c = (if 1 ≤ n ∧ n ≤ w then bit a (n - 1) else false) ∧ o = false) ∧
  TwoOperand .sarR .sarI (fun _ => True) (fun w a n _ r c o =>
    (w ≤ n → r = if bit a (w - 1) then 2 ^ w - 1 else 0) ∧ (n < w → (r : Int) = signed w a / 2 ^ n % 2 ^ w) ∧
    c = (if n = 0 then false else if n ≤ w then bit a (n - 1) else bit a (w - 1)) ∧ o = false)

/-- R269, R270: the rotates, bit by bit: the count counts modulo the width, and the carry is the last bit rotated round. -/
def Obligations.RotateResults : Prop :=
  TwoOperand .rolR .rolI (fun _ => True) (fun w a n _ r c o =>
    (∀ i, i < w → bit r i = bit a ((i + w - n % w) % w)) ∧ c = (decide (n ≠ 0) && bit r 0) ∧ o = false) ∧
  TwoOperand .rorR .rorI (fun _ => True) (fun w a n _ r c o =>
    (∀ i, i < w → bit r i = bit a ((i + n % w) % w)) ∧ c = (decide (n ≠ 0) && bit r (w - 1)) ∧ o = false)

/-- R272, R273: the rotates through carry turn the number of `w + 1` bits whose top bit is the carry, by the count modulo
`w + 1`. -/
def Obligations.RotateCarryResults : Prop :=
  TwoOperand .rclR .rclI (fun _ => True) (fun w a n carry r c o =>
    carry.toNat * 2 ^ w + a < 2 ^ (w + 1) ∧
    c.toNat * 2 ^ w + r = (carry.toNat * 2 ^ w + a) * 2 ^ (n % (w + 1)) % 2 ^ (w + 1)
      + (carry.toNat * 2 ^ w + a) / 2 ^ (w + 1 - n % (w + 1)) ∧ o = false) ∧
  TwoOperand .rcrR .rcrI (fun _ => True) (fun w a n carry r c o =>
    carry.toNat * 2 ^ w + a < 2 ^ (w + 1) ∧
    c.toNat * 2 ^ w + r = (carry.toNat * 2 ^ w + a) / 2 ^ (n % (w + 1))
      + (carry.toNat * 2 ^ w + a) * 2 ^ (w + 1 - n % (w + 1)) % 2 ^ (w + 1) ∧ o = false)

/-- R271: the one-bit rotate-with-carry primitives, and that each undoes the other. -/
def Obligations.RclRcrInverse : Prop :=
  ∀ (w : Nat) (x : BitVec w) (c : Bool), 0 < w →
    (rclOnce (x, c)).1.toNat = x.toNat * 2 % 2 ^ w + c.toNat ∧ (rclOnce (x, c)).2 = bit x.toNat (w - 1) ∧
    (rcrOnce (x, c)).1.toNat = x.toNat / 2 + c.toNat * 2 ^ (w - 1) ∧ (rcrOnce (x, c)).2 = bit x.toNat 0 ∧
    rcrOnce (rclOnce (x, c)) = (x, c) ∧ rclOnce (rcrOnce (x, c)) = (x, c)

/-! ## Compare, branch and conversion -/

/-- R300: `CMP` sets the flags of the subtraction and changes nothing else but the pc. -/
def Obligations.CmpResult : Prop :=
  ∀ (a : GRef) (s : State) (w x y len : Nat) (i : Instr), w = a.width.bits → x = (readG a s).toNat →
    (∃ b, i = .cmpR a b ∧ SameWidth a.width b.width ∧ y = (readG b s).toNat ∧ len = 3) ∨
      (∃ lit, i = .cmpI a lit ∧ LitFits a.width lit ∧ y = lit.toNat ∧ len = 2 + a.width.bytes) →
    ∃ (r : Nat) (o : Bool), (r : Int) = ((x : Int) - y) % 2 ^ w ∧ (o = true ↔ OutsideSigned w (signed w x - signed w y)) ∧
      exec i s = .next
        ((s.setFlags (resultFlags w r (decide (x < y)) o)).setPc (s.pc + BitVec.ofNat 32 len))

/-- R304, R305: the branches of both forms, on the flags their conditions name. -/
def Obligations.BranchResults : Prop :=
  Branches .bA .bR (fun _ => True) ∧
  Branches .beqA .beqR (fun f => f.z = true) ∧
  Branches .bneqA .bneqR (fun f => f.z = false) ∧
  Branches .bltA .bltR (fun f => f.n ≠ f.o) ∧
  Branches .bltuA .bltuR (fun f => f.c = true) ∧
  Branches .bgtA .bgtR (fun f => f.z = false ∧ f.n = f.o) ∧
  Branches .bgtuA .bgtuR (fun f => f.c = false ∧ f.z = false) ∧
  Branches .bleA .bleR (fun f => f.z = true ∨ f.n ≠ f.o) ∧
  Branches .bleuA .bleuR (fun f => f.c = true ∨ f.z = true) ∧
  Branches .bgeA .bgeR (fun f => f.n = f.o) ∧
  Branches .bgeuA .bgeuR (fun f => f.c = false)

/-- What the branch conditions mean after a `CMP` of either form, signed and unsigned (R303). -/
def Obligations.CompareThenBranch : Prop :=
  ∀ (a : GRef) (s t : State),
    (∀ b : GRef, SameWidth a.width b.width → exec (.cmpR a b) s = .next t →
      BranchesCompare a.width.bits (readG a s).toNat (readG b s).toNat t) ∧
    ∀ lit : Word, LitFits a.width lit → exec (.cmpI a lit) s = .next t →
      BranchesCompare a.width.bits (readG a s).toNat lit.toNat t

/-- R330, R331, R332: `ZEXT` and `SEXT` to a wider view, `TRUNC` to a narrower one; no flag changes. -/
def Obligations.WidenNarrow : Prop :=
  ∀ (dst src : GRef) (s : State),
    (Wider dst.width src.width →
      (∃ t, exec (.zext dst src) s = .next t ∧ WritesView 3 dst (readG src s).toNat s.flags s t) ∧
      ∃ (t : State) (r : Nat), exec (.sext dst src) s = .next t ∧
        (r : Int) = signed src.width.bits (readG src s).toNat % 2 ^ dst.width.bits ∧ WritesView 3 dst r s.flags s t) ∧
    (Narrower dst.width src.width →
      ∃ t, exec (.trunc dst src) s = .next t ∧
        WritesView 3 dst ((readG src s).toNat % 2 ^ dst.width.bits) s.flags s t)

/-- R334, R335: `ITOF` and `UTOF` give the binary32 number nearest to the integer, ties to even; no flag changes. -/
def Obligations.IntToFloat : Prop :=
  ∀ (dst src : Fin 8) (s : State),
    (∃ t b, exec (.itof dst src) s = .next t ∧ NearestEven (signed 32 (readReg src s).toNat) b ∧
      WritesView 3 ⟨dst, .word⟩ b.toNat s.flags s t) ∧
    ∃ t b, exec (.utof dst src) s = .next t ∧ NearestEven (readReg src s).toNat b ∧
      WritesView 3 ⟨dst, .word⟩ b.toNat s.flags s t

/-- R336, R337: `FTOI` and `FTOU` drop the fraction, saturate and send a NaN to 0; no flag changes. -/
def Obligations.FloatToInt : Prop :=
  ∀ (dst src : Fin 8) (s : State) (x : Word), x = readReg src s →
    (∃ t r, exec (.ftoi dst src) s = .next t ∧ WritesView 3 ⟨dst, .word⟩ r s.flags s t ∧
      (IsNan x → r = 0) ∧
      (IsPlusInf x ∨ (IsFinite x ∧ 2 ^ 31 ≤ binary32 x) → r = 0x7FFFFFFF) ∧
      (IsMinusInf x ∨ (IsFinite x ∧ binary32 x < -2 ^ 31) → r = 0x80000000) ∧
      (IsFinite x → -2 ^ 31 ≤ binary32 x → binary32 x < 2 ^ 31 → TruncatesTo (binary32 x) (signed 32 r))) ∧
    ∃ t r, exec (.ftou dst src) s = .next t ∧ WritesView 3 ⟨dst, .word⟩ r s.flags s t ∧
      (IsNan x ∨ IsMinusInf x ∨ (IsFinite x ∧ binary32 x ≤ -1) → r = 0) ∧
      (IsPlusInf x ∨ (IsFinite x ∧ 2 ^ 32 ≤ binary32 x) → r = 0xFFFFFFFF) ∧
      (IsFinite x → -1 < binary32 x → binary32 x < 2 ^ 32 → TruncatesTo (binary32 x) r)

/-- R338: `FCMP` sets all four flags by the IEEE-754 relation and changes nothing else but the pc. -/
def Obligations.FcmpResult : Prop :=
  ∀ (a b : Fin 8) (s : State) (x y : Word), x = readReg a s → y = readReg b s →
    ∃ f : Flags, exec (.fcmp a b) s = .next ((s.setFlags f).setPc (s.pc + 3)) ∧
      (IsNan x ∨ IsNan y → f = ⟨false, false, true, false⟩) ∧
      (¬ IsNan x → ¬ IsNan y → FloatEq x y → f = ⟨false, true, false, false⟩) ∧
      (¬ IsNan x → ¬ IsNan y → FloatLt x y → f = ⟨true, false, false, true⟩) ∧
      (¬ IsNan x → ¬ IsNan y → ¬ FloatEq x y → ¬ FloatLt x y → f = ⟨false, false, false, false⟩)

/-! ## Devices -/

/-- R391, R392, R393, R394: a write to the display stores the byte and emits at most one record. -/
def Obligations.DisplayWrite : Prop :=
  ∀ (o : Nat) (b : Byte) (s t : State), Inv s → o < 6000 → t = poke (BitVec.ofNat 32 (0x240 + o)) b s →
    peek t (BitVec.ofNat 32 (0x240 + o)) = b ∧
    (∀ a, a ≠ BitVec.ofNat 32 (0x240 + o) → peek t a = peek s a) ∧
    t = { s with display := t.display, records := t.records } ∧
    (o < 2000 →
      (32 ≤ b.toNat ∧ b.toNat ≤ 126 →
        t.records = s.records ++ [.setChar (o / 80) (o % 80) (Char.ofNat b.toNat)]) ∧
      (b = 31 → t.records = s.records ++ [.setChar (o / 80) (o % 80) '£']) ∧
      (b = 127 → t.records = s.records ++ [.setChar (o / 80) (o % 80) '¬']) ∧
      (b.toNat < 31 ∨ 127 < b.toNat → t.records = s.records)) ∧
    (2000 ≤ o → o < 4000 →
      t.records = s.records ++ [.setFg ((o - 2000) / 80) ((o - 2000) % 80)
        ⟨85 * (b.toNat / 16 % 4), 85 * (b.toNat / 4 % 4), 85 * (b.toNat % 4)⟩]) ∧
    (4000 ≤ o →
      t.records = s.records ++ [.setBg ((o - 4000) / 80) ((o - 4000) % 80)
        ⟨85 * (b.toNat / 16 % 4), 85 * (b.toNat / 4 % 4), 85 * (b.toNat % 4)⟩])

/-- R401, R402: the keyboard's two bytes, and the step in which it consumes a key message. It waits while the queue is full
(R361); that its turn without a message or without room answers the state is the model's choice (log entry 8). -/
def Obligations.KeyboardEvent : Prop :=
  (∀ (s : State) (m : KeyMessage) (ms : List KeyMessage), s.hostKeys = m :: ms →
    (HasRoom s → deviceStep .keyboard s = { s with
      hostKeys := ms
      keyboard := ⟨m.key, BitVec.ofNat 8 (2 * m.alt.toNat + m.ctrl.toNat)⟩
      queue := s.queue ++ [.keyboard] }) ∧
    (¬ HasRoom s → deviceStep .keyboard s = s)) ∧
  (∀ s : State, s.hostKeys = [] → deviceStep .keyboard s = s) ∧
  ∀ (s : State) (b : Byte),
    peek s 0x39C4 = s.keyboard.key ∧ peek s 0x39C5 = s.keyboard.metadata ∧ poke 0x39C4 b s = s ∧ poke 0x39C5 b s = s

/-- R411, R412, R413, R414: what reads and writes of a disk's register and buffer windows do, the start of a command among
them. The buffer is read and written directly at any time and a write to it changes nothing else; one before a pending `WRITE`
completes goes to the image with it, and one after it leaves the image alone. -/
def Obligations.DiskWindow : Prop :=
  ∀ (d : DiskId) (s : State) (b : Byte) (k : Disk) (base : Word), k = s.disk d → base = statusAddress d →
    (peek s base).toNat =
      k.image.isSome.toNat + 2 * k.finished.toNat + 4 * k.success.toNat + 8 * k.badCommand.toNat ∧
    wordAt s (base + 1) = (match k.image with | some i => i.blocks | none => 0) ∧
    wordAt s (base + 5) = k.da ∧ peek s (cmdAddress d) = 0 ∧
    (∀ o, o ≤ 4 → poke (base + BitVec.ofNat 32 o) b s = s) ∧
    (∀ o, 5 ≤ o → o ≤ 8 →
      (k.busy = true → poke (base + BitVec.ofNat 32 o) b s = s) ∧
      (k.busy = false → ∃ v, poke (base + BitVec.ofNat 32 o) b s = s.setDisk d { k with da := v } ∧
        ∀ i, i < 4 → v.toNat / 2 ^ (8 * i) % 2 ^ 8 = if i + o = 8 then b.toNat else k.da.toNat / 2 ^ (8 * i) % 2 ^ 8)) ∧
    (k.image = none ∨ k.busy = true → poke (cmdAddress d) b s = s) ∧
    (k.image ≠ none → k.busy = false → poke (cmdAddress d) b s = s.setDisk d { k with
      lcmd := b, lda := k.da, finished := false, success := false, badCommand := false, busy := true }) ∧
    ∀ (o : Nat) (a : Word), o < 4096 → a = bufferAddress d + BitVec.ofNat 32 o →
      peek s a = k.buffer.read o ∧
      ∃ m : Memory, poke a b s = s.setDisk d { k with buffer := m } ∧ (Inv s → m.read o = b) ∧
        (∀ o', o' ≠ o → m.read o' = k.buffer.read o') ∧
        ∀ img, Inv s → k.image = some img → k.busy = true → HasRoom s → k.lcmd.toNat = 2 ∨ k.lcmd.toNat = 4 →
          k.lda.toNat < img.blocks.toNat →
          ∃ img', ((deviceStep (.disk d true) (poke a b s)).disk d).image = some img' ∧
            img'.bytes.read (4096 * k.lda.toNat + o) = b

/-- R415, R416: the completion of a disk's latched command, and its interrupt. The bytes that a failed transfer leaves are
free (R417), so the statement says nothing of them. A busy disk waits while the queue is full (R361); that the turn of an idle
or a waiting disk answers the state is the model's choice (log entry 8). -/
def Obligations.DiskCompletion : Prop :=
  ∀ (d : DiskId) (ok : Bool) (s t : State) (k e : Disk) (img : DiskImage), k = s.disk d → k.image = some img →
    t = deviceStep (.disk d ok) s → e = t.disk d →
    (k.busy = false ∨ ¬ HasRoom s → t = s) ∧
    (k.busy = true → HasRoom s →
      e.busy = false ∧ e.finished = true ∧ t.queue = s.queue ++ [d.irq] ∧ SameOutsideDevices s t ∧
      t.keyboard = s.keyboard ∧ t.hostKeys = s.hostKeys ∧ (∀ d', d' ≠ d → t.disk d' = s.disk d') ∧
      (k.lcmd.toNat < 1 ∨ 4 < k.lcmd.toNat ∨ img.blocks.toNat ≤ k.lda.toNat →
        e.success = false ∧ e.badCommand = true ∧ e.image = k.image ∧ e.buffer = k.buffer ∧ e.da = k.da) ∧
      (1 ≤ k.lcmd.toNat → k.lcmd.toNat ≤ 4 → k.lda.toNat < img.blocks.toNat →
        e.success = ok ∧ e.badCommand = false ∧
        e.da = (if ok = true ∧ 3 ≤ k.lcmd.toNat then k.lda + 1 else k.da) ∧
        (k.lcmd.toNat = 1 ∨ k.lcmd.toNat = 3 →
          e.image = k.image ∧
          (ok = true → ∀ o, o < 4096 → e.buffer.read o = img.bytes.read (4096 * k.lda.toNat + o))) ∧
        (k.lcmd.toNat = 2 ∨ k.lcmd.toNat = 4 →
          e.buffer = k.buffer ∧
          ∃ img', e.image = some img' ∧ img'.blocks = img.blocks ∧
            (∀ o, o / 4096 ≠ k.lda.toNat → img'.bytes.read o = img.bytes.read o) ∧
            (ok = true → ∀ o, o < 4096 → img'.bytes.read (4096 * k.lda.toNat + o) = k.buffer.read o))))

/-- R418: a disconnected controller reads as 0, ignores commands, is never busy and never interrupts; and only the host's
start changes whether a controller is connected or how many blocks it has. That its turn answers the state is the model's choice
(log entry 8). -/
def Obligations.DisconnectedDisk : Prop :=
  (∀ (s : State) (d : DiskId), Inv s → (s.disk d).image = none →
    peek s (statusAddress d) = 0 ∧ wordAt s (statusAddress d + 1) = 0 ∧ (s.disk d).busy = false ∧
    (∀ b, poke (cmdAddress d) b s = s) ∧ ∀ ok, deviceStep (.disk d ok) s = s) ∧
  ∀ (s t : State) (d : DiskId), step s = .next t → ¬ Restarted s t →
    (t.disk d).image.map DiskImage.blocks = (s.disk d).image.map DiskImage.blocks

/-- What byte writes leave alone, by the row of the map that they fall in (R71, R72): a write changes a disk controller or the
display with its records only through its own window, and a write to the RAM array changes nothing but RAM. -/
def Obligations.WritesStayInTheirRow : Prop :=
  ∀ (cs : List (Word × Byte)) (s t : State), t = pokes cs s →
    (∀ d, (∀ c ∈ cs, ∀ o, regionOf c.1 ≠ .diskRegister d o ∧ regionOf c.1 ≠ .diskBuffer d o) → t.disk d = s.disk d) ∧
    ((∀ c ∈ cs, ∀ o, regionOf c.1 ≠ .display o) → t.display = s.display ∧ t.records = s.records) ∧
    ((∀ c ∈ cs, ¬ InRamArray c.1) → t.ram = s.ram) ∧
    ((∀ c ∈ cs, InRamArray c.1) → t = s.setRam t.ram)
end

