-- ==== Sys2Proof/Laws/Memory.lean ====
section
/-! SUPPORT. The laws of bytes held in canonical form: read after write, the reads of whole blocks, and that every operation
keeps the form and the bound on the numbers. -/

namespace Sys2Proof.Machine

@[simp] theorem Memory.read_nil (a : Nat) : Memory.read [] a = 0 := rfl

@[simp] theorem Memory.read_cons (c : Host.Cell) (m : Memory) (a : Nat) :
    Memory.read (c :: m) a = if c.1 = a then c.2 else Memory.read m a := rfl

theorem Memory.sortedFrom_cons {lo : Nat} {c : Host.Cell} {m : Memory} :
    Memory.sortedFrom lo (c :: m) = true ↔ lo ≤ c.1 ∧ c.2 ≠ 0 ∧ Memory.sortedFrom (c.1 + 1) m = true := by
  simp [Memory.sortedFrom, and_assoc]

theorem Memory.sortedFrom_mono {lo lo' : Nat} {m : Memory} (h : Memory.sortedFrom lo m = true) (hle : lo' ≤ lo) :
    Memory.sortedFrom lo' m = true := by
  cases m with
  | nil => rfl
  | cons c m =>
    rw [Memory.sortedFrom_cons] at h ⊢
    exact ⟨by omega, h.2⟩

/-- A number below every listed one reads 0. -/
theorem Memory.read_of_lt_sortedFrom {lo a : Nat} {m : Memory} (h : Memory.sortedFrom lo m = true) (ha : a < lo) :
    Memory.read m a = 0 := by
  induction m generalizing lo with
  | nil => rfl
  | cons c m ih =>
    rw [Memory.sortedFrom_cons] at h
    rw [Memory.read_cons, if_neg (by omega)]
    exact ih h.2.2 (by omega)

theorem Memory.read_write_same (m : Memory) (a : Nat) (b : Byte) (h : m.wf = true) : (m.write a b).read a = b := by
  suffices ∀ lo, Memory.sortedFrom lo m = true → (m.write a b).read a = b from this 0 h
  intro lo h
  clear * - h
  induction m generalizing lo with
  | nil =>
    simp only [Memory.write]
    split
    · next hb => rw [hb]; rfl
    · rw [Memory.read_cons, if_pos rfl]
  | cons c m ih =>
    rw [Memory.sortedFrom_cons] at h
    have hlow := Memory.read_of_lt_sortedFrom (a := a) h.2.2
    simp only [Memory.write]
    split
    · split
      · next hb =>
        rw [Memory.read_cons, if_neg (by omega), hlow (by omega), hb]
      · simp
    · split
      · split
        · next hb => rw [hlow (by omega), hb]
        · simp
      · rw [Memory.read_cons, if_neg (by omega)]
        exact ih _ h.2.2

theorem Memory.read_write_other (m : Memory) (a a' : Nat) (b : Byte) (h : a' ≠ a) :
    (m.write a b).read a' = m.read a' := by
  induction m with
  | nil =>
    simp only [Memory.write]
    split
    · rfl
    · rw [Memory.read_cons, if_neg h.symm]
  | cons c m ih =>
    simp only [Memory.write]
    split
    · split
      · rfl
      · rw [Memory.read_cons, if_neg h.symm]
    · split
      · next hc =>
        split
        · rw [Memory.read_cons, if_neg (by omega)]
        · rw [Memory.read_cons, if_neg h.symm, Memory.read_cons, if_neg (by omega)]
      · rw [Memory.read_cons, Memory.read_cons, ih]

theorem Memory.read_write (m : Memory) (a a' : Nat) (b : Byte) (h : m.wf = true) :
    (m.write a b).read a' = if a' = a then b else m.read a' := by
  split
  · next e => rw [e, Memory.read_write_same m a b h]
  · next e => exact Memory.read_write_other m a a' b e

theorem Memory.sortedFrom_write {lo : Nat} {m : Memory} {a : Nat} {b : Byte} (h : Memory.sortedFrom lo m = true)
    (ha : lo ≤ a) : Memory.sortedFrom lo (m.write a b) = true := by
  induction m generalizing lo with
  | nil =>
    simp only [Memory.write]
    split
    · rfl
    · next hb => rw [Memory.sortedFrom_cons]; exact ⟨ha, hb, rfl⟩
  | cons c m ih =>
    have h' := h
    rw [Memory.sortedFrom_cons] at h
    simp only [Memory.write]
    split
    · split
      · exact h'
      · next hb =>
        rw [Memory.sortedFrom_cons, Memory.sortedFrom_cons]
        exact ⟨ha, hb, by omega, h.2⟩
    · split
      · split
        · exact Memory.sortedFrom_mono h.2.2 (by omega)
        · next hc hb =>
          rw [Memory.sortedFrom_cons]
          exact ⟨ha, hb, hc ▸ h.2.2⟩
      · rw [Memory.sortedFrom_cons]
        exact ⟨h.1, h.2.1, ih h.2.2 (by omega)⟩

/-- A write keeps the canonical form. -/
theorem Memory.wf_write {m : Memory} (a : Nat) (b : Byte) (h : m.wf = true) : (m.write a b).wf = true :=
  Memory.sortedFrom_write h (Nat.zero_le a)

theorem Memory.below_iff {n : Nat} {m : Memory} : m.below n = true ↔ ∀ c ∈ m, c.1 < n := by
  simp [Memory.below, List.all_eq_true]

theorem Memory.mem_write {m : Memory} {a : Nat} {b : Byte} {c : Host.Cell} (h : c ∈ m.write a b) : c.1 = a ∨ c ∈ m := by
  induction m with
  | nil =>
    simp only [Memory.write] at h
    split at h <;> simp_all
  | cons d m ih =>
    simp only [Memory.write] at h
    split at h
    · split at h
      · exact .inr h
      · rcases List.mem_cons.1 h with rfl | h
        · exact .inl rfl
        · exact .inr h
    · split at h
      · split at h
        · exact .inr (List.mem_cons_of_mem _ h)
        · rcases List.mem_cons.1 h with rfl | h
          · exact .inl rfl
          · exact .inr (List.mem_cons_of_mem _ h)
      · rcases List.mem_cons.1 h with rfl | h
        · exact .inr List.mem_cons_self
        · exact (ih h).imp_right (List.mem_cons_of_mem _)

/-- A write below the bound keeps the bound. -/
theorem Memory.below_write {m : Memory} {n a : Nat} {b : Byte} (h : m.below n = true) (ha : a < n) :
    (m.write a b).below n = true := by
  rw [Memory.below_iff] at h ⊢
  intro c hc
  rcases Memory.mem_write hc with e | hm
  · omega
  · exact h c hm

theorem Memory.sortedFrom_ofBytesFrom (a : Nat) (bs : List Byte) :
    Memory.sortedFrom a (Memory.ofBytesFrom a bs) = true := by
  induction bs generalizing a with
  | nil => rfl
  | cons b bs ih =>
    simp only [Memory.ofBytesFrom]
    split
    · exact Memory.sortedFrom_mono (ih (a + 1)) (by omega)
    · next hb => rw [Memory.sortedFrom_cons]; exact ⟨Nat.le_refl a, hb, ih (a + 1)⟩

/-- A list of bytes makes a canonical store. -/
theorem Memory.wf_ofBytes (bs : List Byte) : (Memory.ofBytes bs).wf = true := Memory.sortedFrom_ofBytesFrom 0 bs

theorem Memory.mem_ofBytesFrom {a : Nat} {bs : List Byte} {c : Host.Cell} (h : c ∈ Memory.ofBytesFrom a bs) :
    c.1 < a + bs.length := by
  induction bs generalizing a with
  | nil => simp [Memory.ofBytesFrom] at h
  | cons b bs ih =>
    simp only [Memory.ofBytesFrom] at h
    simp only [List.length_cons]
    split at h
    · have := ih h; omega
    · rcases List.mem_cons.1 h with rfl | h
      · simp
      · have := ih h; omega

theorem Memory.below_ofBytes {n : Nat} {bs : List Byte} (h : bs.length ≤ n) : (Memory.ofBytes bs).below n = true := by
  rw [Memory.below_iff]
  intro c hc
  have := Memory.mem_ofBytesFrom (a := 0) hc
  omega

theorem Memory.read_ofBytesFrom (a : Nat) (bs : List Byte) (i : Nat) :
    (Memory.ofBytesFrom a bs).read (a + i) = bs[i]?.getD 0 := by
  induction bs generalizing a i with
  | nil => simp [Memory.ofBytesFrom]
  | cons b bs ih =>
    cases i with
    | zero =>
      simp only [Memory.ofBytesFrom]
      split
      · next hb =>
        rw [Memory.read_of_lt_sortedFrom (Memory.sortedFrom_ofBytesFrom (a + 1) bs) (by omega)]
        simp [hb]
      · simp
    | succ i =>
      have e : a + (i + 1) = a + 1 + i := by omega
      simp only [Memory.ofBytesFrom]
      split
      · rw [e, ih]; simp
      · rw [Memory.read_cons, if_neg (by simp), e, ih]; simp

/-- Byte `i` of a store made from a list is byte `i` of the list, or 0 beyond it. -/
theorem Memory.read_ofBytes (bs : List Byte) (i : Nat) : (Memory.ofBytes bs).read i = bs[i]?.getD 0 := by
  have := Memory.read_ofBytesFrom 0 bs i
  rwa [Nat.zero_add] at this

theorem Memory.sortedFrom_window {lo a n : Nat} {m : Memory} (h : Memory.sortedFrom lo m = true) :
    Memory.sortedFrom (lo - a) (m.window a n) = true := by
  induction m generalizing lo with
  | nil => rfl
  | cons c m ih =>
    rw [Memory.sortedFrom_cons] at h
    have := ih h.2.2
    simp only [Memory.window, List.filter_cons] at this ⊢
    split
    · next hc =>
      rw [decide_eq_true_eq] at hc
      rw [List.map_cons, Memory.sortedFrom_cons]
      refine ⟨by simp only; omega, h.2.1, Memory.sortedFrom_mono this (by simp only; omega)⟩
    · exact Memory.sortedFrom_mono this (by omega)

/-- A block taken out of a canonical store is canonical. -/
theorem Memory.wf_window {m : Memory} (a n : Nat) (h : m.wf = true) : (m.window a n).wf = true := by
  have := Memory.sortedFrom_window (a := a) (n := n) h
  rwa [Nat.zero_sub] at this

theorem Memory.below_window (m : Memory) (a n : Nat) : (m.window a n).below n = true := by
  rw [Memory.below_iff]
  intro c hc
  simp only [Memory.window, List.mem_map, List.mem_filter, decide_eq_true_eq] at hc
  obtain ⟨d, ⟨_, h1, h2⟩, rfl⟩ := hc
  simp only
  omega

/-- A block's byte is the store's byte at its place. -/
theorem Memory.read_window (m : Memory) (a n i : Nat) :
    (m.window a n).read i = if i < n then m.read (a + i) else 0 := by
  induction m with
  | nil => simp [Memory.window]
  | cons c m ih =>
    simp only [Memory.window, List.filter_cons] at ih ⊢
    split
    · next hc =>
      rw [decide_eq_true_eq] at hc
      rw [List.map_cons, Memory.read_cons, ih, Memory.read_cons]
      by_cases h1 : c.1 = a + i
      · rw [if_pos (by simp only; omega), if_pos (by omega), if_pos h1]
      · rw [if_neg (by simp only; omega)]
        by_cases h2 : i < n
        · rw [if_pos h2, if_pos h2, if_neg h1]
        · rw [if_neg h2, if_neg h2]
    · next hc =>
      rw [decide_eq_true_eq] at hc
      rw [ih, Memory.read_cons]
      by_cases h2 : i < n
      · rw [if_pos h2, if_pos h2, if_neg (by omega)]
      · rw [if_neg h2, if_neg h2]

theorem Memory.sortedFrom_iff {lo : Nat} {m : Memory} :
    Memory.sortedFrom lo m = true ↔
      (∀ c ∈ m, lo ≤ c.1 ∧ c.2 ≠ 0) ∧ m.Pairwise fun c d => c.1 < d.1 := by
  induction m generalizing lo with
  | nil => simp [Memory.sortedFrom]
  | cons c m ih =>
    rw [Memory.sortedFrom_cons, ih, List.pairwise_cons]
    constructor
    · rintro ⟨h1, h2, h3, h4⟩
      refine ⟨?_, fun d hd => by have := (h3 d hd).1; omega, h4⟩
      intro d hd
      rcases List.mem_cons.1 hd with rfl | hd
      · exact ⟨h1, h2⟩
      · exact ⟨by have := (h3 d hd).1; omega, (h3 d hd).2⟩
    · rintro ⟨h1, h2, h3⟩
      refine ⟨(h1 c List.mem_cons_self).1, (h1 c List.mem_cons_self).2, ?_, h3⟩
      intro d hd
      exact ⟨h2 d hd, (h1 d (List.mem_cons_of_mem _ hd)).2⟩

/-- A canonical store with one block replaced by another canonical block is canonical. -/
theorem Memory.wf_splice {src m : Memory} (a n : Nat) (hs : src.wf = true) (hm : m.wf = true) :
    (Memory.splice a n src m).wf = true := by
  unfold Memory.wf at *
  rw [Memory.sortedFrom_iff] at *
  obtain ⟨hs1, hs2⟩ := hs
  obtain ⟨hm1, hm2⟩ := hm
  refine ⟨?_, ?_⟩
  · intro c hc
    simp only [Memory.splice, List.mem_append, List.mem_map, List.mem_filter, decide_eq_true_eq] at hc
    rcases hc with (⟨h, _⟩ | ⟨d, ⟨h, _⟩, rfl⟩) | ⟨h, _⟩
    · exact hm1 c h
    · exact ⟨Nat.zero_le _, (hs1 d h).2⟩
    · exact hm1 c h
  · simp only [Memory.splice, List.pairwise_append, List.pairwise_map, List.mem_append, List.mem_map, List.mem_filter,
      decide_eq_true_eq]
    refine ⟨⟨hm2.filter _, (hs2.filter _).imp (by intro x y h; omega), ?_⟩, hm2.filter _, ?_⟩
    · rintro x ⟨_, h1⟩ y ⟨d, ⟨_, _⟩, rfl⟩
      simp only
      omega
    · rintro x h y ⟨_, h2⟩
      rcases h with ⟨_, h1⟩ | ⟨d, ⟨_, h1⟩, rfl⟩
      · omega
      · simp only
        omega

theorem Memory.below_splice {src m : Memory} {a n k : Nat} (hm : m.below k = true) (ha : a + n ≤ k) :
    (Memory.splice a n src m).below k = true := by
  rw [Memory.below_iff] at *
  intro c hc
  simp only [Memory.splice, List.mem_append, List.mem_map, List.mem_filter, decide_eq_true_eq] at hc
  rcases hc with (⟨h, _⟩ | ⟨d, ⟨h, h2⟩, rfl⟩) | ⟨h, _⟩
  · exact hm c h
  · simp only
    omega
  · exact hm c h

theorem Memory.read_append_of_ge {m m' : Memory} {i : Nat} (h : ∀ c ∈ m, c.1 ≠ i) :
    Memory.read (m ++ m') i = Memory.read m' i := by
  induction m with
  | nil => rfl
  | cons c m ih =>
    rw [List.cons_append, Memory.read_cons, if_neg (h c List.mem_cons_self)]
    exact ih fun d hd => h d (List.mem_cons_of_mem _ hd)

theorem Memory.read_append_left {m m' : Memory} {i : Nat} (h : ∀ c ∈ m', c.1 ≠ i) :
    Memory.read (m ++ m') i = Memory.read m i := by
  induction m with
  | nil =>
    have := Memory.read_append_of_ge (m' := []) h
    simpa using this
  | cons c m ih => rw [List.cons_append, Memory.read_cons, Memory.read_cons, ih]

theorem Memory.read_filter {m : Memory} {p : Nat → Bool} {i : Nat} (h : p i = true) :
    Memory.read (m.filter fun c => p c.1) i = m.read i := by
  induction m with
  | nil => rfl
  | cons c m ih =>
    rw [List.filter_cons]
    split
    · rw [Memory.read_cons, Memory.read_cons, ih]
    · next hc =>
      rw [Memory.read_cons, if_neg, ih]
      rintro rfl
      exact hc h

theorem Memory.read_shift {m : Memory} {a i : Nat} :
    Memory.read (m.map fun c => (a + c.1, c.2)) (a + i) = m.read i := by
  induction m with
  | nil => rfl
  | cons c m ih =>
    rw [List.map_cons, Memory.read_cons, Memory.read_cons, ih]
    simp

/-- A spliced store reads as the block inside the block's place, and as before outside it. -/
theorem Memory.read_splice (src m : Memory) (a n i : Nat) :
    (Memory.splice a n src m).read i = if a ≤ i ∧ i < a + n then src.read (i - a) else m.read i := by
  unfold Memory.splice
  split
  · next h =>
    rw [Memory.read_append_left, Memory.read_append_of_ge]
    · have e : i = a + (i - a) := by omega
      rw [e, Memory.read_shift, Nat.add_sub_cancel_left,
        Memory.read_filter (p := fun k => decide (k < n)) (by simp; omega)]
    · intro c hc
      simp only [List.mem_filter, decide_eq_true_eq] at hc
      omega
    · intro c hc
      simp only [List.mem_filter, decide_eq_true_eq] at hc
      omega
  · next h =>
    by_cases hlt : i < a
    · rw [Memory.read_append_left, Memory.read_append_left,
        Memory.read_filter (p := fun k => decide (k < a)) (by simp; omega)]
      · intro c hc
        simp only [List.mem_map, List.mem_filter, decide_eq_true_eq] at hc
        obtain ⟨d, _, rfl⟩ := hc
        simp only
        omega
      · intro c hc
        simp only [List.mem_filter, decide_eq_true_eq] at hc
        omega
    · rw [Memory.read_append_of_ge, Memory.read_filter (p := fun k => decide (a + n ≤ k)) (by simp; omega)]
      intro c hc
      simp only [List.mem_append, List.mem_map, List.mem_filter, decide_eq_true_eq] at hc
      rcases hc with ⟨_, h1⟩ | ⟨d, ⟨_, h1⟩, rfl⟩
      · omega
      · simp only
        omega

/-- Two canonical stores that read the same everywhere are equal: equal memories are equal data. -/
theorem Memory.ext_of_read {m m' : Memory} (h : m.wf = true) (h' : m'.wf = true) (e : ∀ a, m.read a = m'.read a) :
    m = m' := by
  suffices ∀ lo, Memory.sortedFrom lo m = true → Memory.sortedFrom lo m' = true → m = m' from this 0 h h'
  intro lo
  clear h h'
  induction m generalizing m' lo with
  | nil =>
    intro _ h'
    cases m' with
    | nil => rfl
    | cons d m' =>
      rw [Memory.sortedFrom_cons] at h'
      have := e d.1
      simp only [Memory.read_nil, Memory.read_cons, if_true] at this
      exact absurd this.symm h'.2.1
  | cons c m ih =>
    intro h h'
    rw [Memory.sortedFrom_cons] at h
    cases m' with
    | nil =>
      have := e c.1
      simp only [Memory.read_nil, Memory.read_cons, if_true] at this
      exact absurd this h.2.1
    | cons d m' =>
      rw [Memory.sortedFrom_cons] at h'
      have key : c.1 = d.1 := by
        rcases Nat.lt_trichotomy c.1 d.1 with hlt | heq | hgt
        · have := e c.1
          rw [Memory.read_cons, if_pos rfl, Memory.read_cons, if_neg (by omega),
            Memory.read_of_lt_sortedFrom h'.2.2 (by omega)] at this
          exact absurd this h.2.1
        · exact heq
        · have := e d.1
          rw [Memory.read_cons, if_neg (by omega), Memory.read_cons, if_pos rfl,
            Memory.read_of_lt_sortedFrom h.2.2 (by omega)] at this
          exact absurd this.symm h'.2.1
      have hv : c.2 = d.2 := by
        have := e c.1
        rwa [Memory.read_cons, if_pos rfl, Memory.read_cons, if_pos key.symm] at this
      have hcd : c = d := Prod.ext key hv
      subst hcd
      congr 1
      refine ih (fun a => ?_) (c.1 + 1) h.2.2 h'.2.2
      by_cases ha : a = c.1
      · rw [ha, Memory.read_of_lt_sortedFrom h.2.2 (by omega), Memory.read_of_lt_sortedFrom h'.2.2 (by omega)]
      · have := e a
        rwa [Memory.read_cons, Memory.read_cons, if_neg (Ne.symm ha), if_neg (Ne.symm ha)] at this

end Sys2Proof.Machine
end

