-- ==== Sys2Proof/Laws/State.lean ====
section
/-! SUPPORT. What each update of one field of the state does to every field: one lemma per field per update, true by
definition, so that no later proof unfolds a record update. -/

namespace Sys2Proof.Machine

@[simp] theorem State.setRegs_regs (s : State) (v : Vector Word 8) : (s.setRegs v).regs = v := rfl
@[simp] theorem State.setRegs_pc (s : State) (v : Vector Word 8) : (s.setRegs v).pc = s.pc := rfl
@[simp] theorem State.setRegs_flags (s : State) (v : Vector Word 8) : (s.setRegs v).flags = s.flags := rfl
@[simp] theorem State.setRegs_uspr (s : State) (v : Vector Word 8) : (s.setRegs v).uspr = s.uspr := rfl
@[simp] theorem State.setRegs_kspr (s : State) (v : Vector Word 8) : (s.setRegs v).kspr = s.kspr := rfl
@[simp] theorem State.setRegs_pdpr (s : State) (v : Vector Word 8) : (s.setRegs v).pdpr = s.pdpr := rfl
@[simp] theorem State.setRegs_imr (s : State) (v : Vector Word 8) : (s.setRegs v).imr = s.imr := rfl
@[simp] theorem State.setRegs_pfva (s : State) (v : Vector Word 8) : (s.setRegs v).pfva = s.pfva := rfl
@[simp] theorem State.setRegs_mode (s : State) (v : Vector Word 8) : (s.setRegs v).mode = s.mode := rfl
@[simp] theorem State.setRegs_runState (s : State) (v : Vector Word 8) : (s.setRegs v).runState = s.runState := rfl
@[simp] theorem State.setRegs_ram (s : State) (v : Vector Word 8) : (s.setRegs v).ram = s.ram := rfl
@[simp] theorem State.setRegs_rom (s : State) (v : Vector Word 8) : (s.setRegs v).rom = s.rom := rfl
@[simp] theorem State.setRegs_display (s : State) (v : Vector Word 8) : (s.setRegs v).display = s.display := rfl
@[simp] theorem State.setRegs_records (s : State) (v : Vector Word 8) : (s.setRegs v).records = s.records := rfl
@[simp] theorem State.setRegs_keyboard (s : State) (v : Vector Word 8) : (s.setRegs v).keyboard = s.keyboard := rfl
@[simp] theorem State.setRegs_diskA (s : State) (v : Vector Word 8) : (s.setRegs v).diskA = s.diskA := rfl
@[simp] theorem State.setRegs_diskB (s : State) (v : Vector Word 8) : (s.setRegs v).diskB = s.diskB := rfl
@[simp] theorem State.setRegs_queue (s : State) (v : Vector Word 8) : (s.setRegs v).queue = s.queue := rfl
@[simp] theorem State.setRegs_irqCapacity (s : State) (v : Vector Word 8) : (s.setRegs v).irqCapacity = s.irqCapacity := rfl
@[simp] theorem State.setRegs_hostKeys (s : State) (v : Vector Word 8) : (s.setRegs v).hostKeys = s.hostKeys := rfl
@[simp] theorem State.setRegs_schedule (s : State) (v : Vector Word 8) : (s.setRegs v).schedule = s.schedule := rfl
@[simp] theorem State.setRegs_midStep (s : State) (v : Vector Word 8) : (s.setRegs v).midStep = s.midStep := rfl
@[simp] theorem State.setRegs_draws (s : State) (v : Vector Word 8) : (s.setRegs v).draws = s.draws := rfl

@[simp] theorem State.setPc_regs (s : State) (v : Word) : (s.setPc v).regs = s.regs := rfl
@[simp] theorem State.setPc_pc (s : State) (v : Word) : (s.setPc v).pc = v := rfl
@[simp] theorem State.setPc_flags (s : State) (v : Word) : (s.setPc v).flags = s.flags := rfl
@[simp] theorem State.setPc_uspr (s : State) (v : Word) : (s.setPc v).uspr = s.uspr := rfl
@[simp] theorem State.setPc_kspr (s : State) (v : Word) : (s.setPc v).kspr = s.kspr := rfl
@[simp] theorem State.setPc_pdpr (s : State) (v : Word) : (s.setPc v).pdpr = s.pdpr := rfl
@[simp] theorem State.setPc_imr (s : State) (v : Word) : (s.setPc v).imr = s.imr := rfl
@[simp] theorem State.setPc_pfva (s : State) (v : Word) : (s.setPc v).pfva = s.pfva := rfl
@[simp] theorem State.setPc_mode (s : State) (v : Word) : (s.setPc v).mode = s.mode := rfl
@[simp] theorem State.setPc_runState (s : State) (v : Word) : (s.setPc v).runState = s.runState := rfl
@[simp] theorem State.setPc_ram (s : State) (v : Word) : (s.setPc v).ram = s.ram := rfl
@[simp] theorem State.setPc_rom (s : State) (v : Word) : (s.setPc v).rom = s.rom := rfl
@[simp] theorem State.setPc_display (s : State) (v : Word) : (s.setPc v).display = s.display := rfl
@[simp] theorem State.setPc_records (s : State) (v : Word) : (s.setPc v).records = s.records := rfl
@[simp] theorem State.setPc_keyboard (s : State) (v : Word) : (s.setPc v).keyboard = s.keyboard := rfl
@[simp] theorem State.setPc_diskA (s : State) (v : Word) : (s.setPc v).diskA = s.diskA := rfl
@[simp] theorem State.setPc_diskB (s : State) (v : Word) : (s.setPc v).diskB = s.diskB := rfl
@[simp] theorem State.setPc_queue (s : State) (v : Word) : (s.setPc v).queue = s.queue := rfl
@[simp] theorem State.setPc_irqCapacity (s : State) (v : Word) : (s.setPc v).irqCapacity = s.irqCapacity := rfl
@[simp] theorem State.setPc_hostKeys (s : State) (v : Word) : (s.setPc v).hostKeys = s.hostKeys := rfl
@[simp] theorem State.setPc_schedule (s : State) (v : Word) : (s.setPc v).schedule = s.schedule := rfl
@[simp] theorem State.setPc_midStep (s : State) (v : Word) : (s.setPc v).midStep = s.midStep := rfl
@[simp] theorem State.setPc_draws (s : State) (v : Word) : (s.setPc v).draws = s.draws := rfl

@[simp] theorem State.setFlags_regs (s : State) (v : Flags) : (s.setFlags v).regs = s.regs := rfl
@[simp] theorem State.setFlags_pc (s : State) (v : Flags) : (s.setFlags v).pc = s.pc := rfl
@[simp] theorem State.setFlags_flags (s : State) (v : Flags) : (s.setFlags v).flags = v := rfl
@[simp] theorem State.setFlags_uspr (s : State) (v : Flags) : (s.setFlags v).uspr = s.uspr := rfl
@[simp] theorem State.setFlags_kspr (s : State) (v : Flags) : (s.setFlags v).kspr = s.kspr := rfl
@[simp] theorem State.setFlags_pdpr (s : State) (v : Flags) : (s.setFlags v).pdpr = s.pdpr := rfl
@[simp] theorem State.setFlags_imr (s : State) (v : Flags) : (s.setFlags v).imr = s.imr := rfl
@[simp] theorem State.setFlags_pfva (s : State) (v : Flags) : (s.setFlags v).pfva = s.pfva := rfl
@[simp] theorem State.setFlags_mode (s : State) (v : Flags) : (s.setFlags v).mode = s.mode := rfl
@[simp] theorem State.setFlags_runState (s : State) (v : Flags) : (s.setFlags v).runState = s.runState := rfl
@[simp] theorem State.setFlags_ram (s : State) (v : Flags) : (s.setFlags v).ram = s.ram := rfl
@[simp] theorem State.setFlags_rom (s : State) (v : Flags) : (s.setFlags v).rom = s.rom := rfl
@[simp] theorem State.setFlags_display (s : State) (v : Flags) : (s.setFlags v).display = s.display := rfl
@[simp] theorem State.setFlags_records (s : State) (v : Flags) : (s.setFlags v).records = s.records := rfl
@[simp] theorem State.setFlags_keyboard (s : State) (v : Flags) : (s.setFlags v).keyboard = s.keyboard := rfl
@[simp] theorem State.setFlags_diskA (s : State) (v : Flags) : (s.setFlags v).diskA = s.diskA := rfl
@[simp] theorem State.setFlags_diskB (s : State) (v : Flags) : (s.setFlags v).diskB = s.diskB := rfl
@[simp] theorem State.setFlags_queue (s : State) (v : Flags) : (s.setFlags v).queue = s.queue := rfl
@[simp] theorem State.setFlags_irqCapacity (s : State) (v : Flags) : (s.setFlags v).irqCapacity = s.irqCapacity := rfl
@[simp] theorem State.setFlags_hostKeys (s : State) (v : Flags) : (s.setFlags v).hostKeys = s.hostKeys := rfl
@[simp] theorem State.setFlags_schedule (s : State) (v : Flags) : (s.setFlags v).schedule = s.schedule := rfl
@[simp] theorem State.setFlags_midStep (s : State) (v : Flags) : (s.setFlags v).midStep = s.midStep := rfl
@[simp] theorem State.setFlags_draws (s : State) (v : Flags) : (s.setFlags v).draws = s.draws := rfl

@[simp] theorem State.setUspr_regs (s : State) (v : Word) : (s.setUspr v).regs = s.regs := rfl
@[simp] theorem State.setUspr_pc (s : State) (v : Word) : (s.setUspr v).pc = s.pc := rfl
@[simp] theorem State.setUspr_flags (s : State) (v : Word) : (s.setUspr v).flags = s.flags := rfl
@[simp] theorem State.setUspr_uspr (s : State) (v : Word) : (s.setUspr v).uspr = v := rfl
@[simp] theorem State.setUspr_kspr (s : State) (v : Word) : (s.setUspr v).kspr = s.kspr := rfl
@[simp] theorem State.setUspr_pdpr (s : State) (v : Word) : (s.setUspr v).pdpr = s.pdpr := rfl
@[simp] theorem State.setUspr_imr (s : State) (v : Word) : (s.setUspr v).imr = s.imr := rfl
@[simp] theorem State.setUspr_pfva (s : State) (v : Word) : (s.setUspr v).pfva = s.pfva := rfl
@[simp] theorem State.setUspr_mode (s : State) (v : Word) : (s.setUspr v).mode = s.mode := rfl
@[simp] theorem State.setUspr_runState (s : State) (v : Word) : (s.setUspr v).runState = s.runState := rfl
@[simp] theorem State.setUspr_ram (s : State) (v : Word) : (s.setUspr v).ram = s.ram := rfl
@[simp] theorem State.setUspr_rom (s : State) (v : Word) : (s.setUspr v).rom = s.rom := rfl
@[simp] theorem State.setUspr_display (s : State) (v : Word) : (s.setUspr v).display = s.display := rfl
@[simp] theorem State.setUspr_records (s : State) (v : Word) : (s.setUspr v).records = s.records := rfl
@[simp] theorem State.setUspr_keyboard (s : State) (v : Word) : (s.setUspr v).keyboard = s.keyboard := rfl
@[simp] theorem State.setUspr_diskA (s : State) (v : Word) : (s.setUspr v).diskA = s.diskA := rfl
@[simp] theorem State.setUspr_diskB (s : State) (v : Word) : (s.setUspr v).diskB = s.diskB := rfl
@[simp] theorem State.setUspr_queue (s : State) (v : Word) : (s.setUspr v).queue = s.queue := rfl
@[simp] theorem State.setUspr_irqCapacity (s : State) (v : Word) : (s.setUspr v).irqCapacity = s.irqCapacity := rfl
@[simp] theorem State.setUspr_hostKeys (s : State) (v : Word) : (s.setUspr v).hostKeys = s.hostKeys := rfl
@[simp] theorem State.setUspr_schedule (s : State) (v : Word) : (s.setUspr v).schedule = s.schedule := rfl
@[simp] theorem State.setUspr_midStep (s : State) (v : Word) : (s.setUspr v).midStep = s.midStep := rfl
@[simp] theorem State.setUspr_draws (s : State) (v : Word) : (s.setUspr v).draws = s.draws := rfl

@[simp] theorem State.setKspr_regs (s : State) (v : Word) : (s.setKspr v).regs = s.regs := rfl
@[simp] theorem State.setKspr_pc (s : State) (v : Word) : (s.setKspr v).pc = s.pc := rfl
@[simp] theorem State.setKspr_flags (s : State) (v : Word) : (s.setKspr v).flags = s.flags := rfl
@[simp] theorem State.setKspr_uspr (s : State) (v : Word) : (s.setKspr v).uspr = s.uspr := rfl
@[simp] theorem State.setKspr_kspr (s : State) (v : Word) : (s.setKspr v).kspr = v := rfl
@[simp] theorem State.setKspr_pdpr (s : State) (v : Word) : (s.setKspr v).pdpr = s.pdpr := rfl
@[simp] theorem State.setKspr_imr (s : State) (v : Word) : (s.setKspr v).imr = s.imr := rfl
@[simp] theorem State.setKspr_pfva (s : State) (v : Word) : (s.setKspr v).pfva = s.pfva := rfl
@[simp] theorem State.setKspr_mode (s : State) (v : Word) : (s.setKspr v).mode = s.mode := rfl
@[simp] theorem State.setKspr_runState (s : State) (v : Word) : (s.setKspr v).runState = s.runState := rfl
@[simp] theorem State.setKspr_ram (s : State) (v : Word) : (s.setKspr v).ram = s.ram := rfl
@[simp] theorem State.setKspr_rom (s : State) (v : Word) : (s.setKspr v).rom = s.rom := rfl
@[simp] theorem State.setKspr_display (s : State) (v : Word) : (s.setKspr v).display = s.display := rfl
@[simp] theorem State.setKspr_records (s : State) (v : Word) : (s.setKspr v).records = s.records := rfl
@[simp] theorem State.setKspr_keyboard (s : State) (v : Word) : (s.setKspr v).keyboard = s.keyboard := rfl
@[simp] theorem State.setKspr_diskA (s : State) (v : Word) : (s.setKspr v).diskA = s.diskA := rfl
@[simp] theorem State.setKspr_diskB (s : State) (v : Word) : (s.setKspr v).diskB = s.diskB := rfl
@[simp] theorem State.setKspr_queue (s : State) (v : Word) : (s.setKspr v).queue = s.queue := rfl
@[simp] theorem State.setKspr_irqCapacity (s : State) (v : Word) : (s.setKspr v).irqCapacity = s.irqCapacity := rfl
@[simp] theorem State.setKspr_hostKeys (s : State) (v : Word) : (s.setKspr v).hostKeys = s.hostKeys := rfl
@[simp] theorem State.setKspr_schedule (s : State) (v : Word) : (s.setKspr v).schedule = s.schedule := rfl
@[simp] theorem State.setKspr_midStep (s : State) (v : Word) : (s.setKspr v).midStep = s.midStep := rfl
@[simp] theorem State.setKspr_draws (s : State) (v : Word) : (s.setKspr v).draws = s.draws := rfl

@[simp] theorem State.setPdpr_regs (s : State) (v : Word) : (s.setPdpr v).regs = s.regs := rfl
@[simp] theorem State.setPdpr_pc (s : State) (v : Word) : (s.setPdpr v).pc = s.pc := rfl
@[simp] theorem State.setPdpr_flags (s : State) (v : Word) : (s.setPdpr v).flags = s.flags := rfl
@[simp] theorem State.setPdpr_uspr (s : State) (v : Word) : (s.setPdpr v).uspr = s.uspr := rfl
@[simp] theorem State.setPdpr_kspr (s : State) (v : Word) : (s.setPdpr v).kspr = s.kspr := rfl
@[simp] theorem State.setPdpr_pdpr (s : State) (v : Word) : (s.setPdpr v).pdpr = v := rfl
@[simp] theorem State.setPdpr_imr (s : State) (v : Word) : (s.setPdpr v).imr = s.imr := rfl
@[simp] theorem State.setPdpr_pfva (s : State) (v : Word) : (s.setPdpr v).pfva = s.pfva := rfl
@[simp] theorem State.setPdpr_mode (s : State) (v : Word) : (s.setPdpr v).mode = s.mode := rfl
@[simp] theorem State.setPdpr_runState (s : State) (v : Word) : (s.setPdpr v).runState = s.runState := rfl
@[simp] theorem State.setPdpr_ram (s : State) (v : Word) : (s.setPdpr v).ram = s.ram := rfl
@[simp] theorem State.setPdpr_rom (s : State) (v : Word) : (s.setPdpr v).rom = s.rom := rfl
@[simp] theorem State.setPdpr_display (s : State) (v : Word) : (s.setPdpr v).display = s.display := rfl
@[simp] theorem State.setPdpr_records (s : State) (v : Word) : (s.setPdpr v).records = s.records := rfl
@[simp] theorem State.setPdpr_keyboard (s : State) (v : Word) : (s.setPdpr v).keyboard = s.keyboard := rfl
@[simp] theorem State.setPdpr_diskA (s : State) (v : Word) : (s.setPdpr v).diskA = s.diskA := rfl
@[simp] theorem State.setPdpr_diskB (s : State) (v : Word) : (s.setPdpr v).diskB = s.diskB := rfl
@[simp] theorem State.setPdpr_queue (s : State) (v : Word) : (s.setPdpr v).queue = s.queue := rfl
@[simp] theorem State.setPdpr_irqCapacity (s : State) (v : Word) : (s.setPdpr v).irqCapacity = s.irqCapacity := rfl
@[simp] theorem State.setPdpr_hostKeys (s : State) (v : Word) : (s.setPdpr v).hostKeys = s.hostKeys := rfl
@[simp] theorem State.setPdpr_schedule (s : State) (v : Word) : (s.setPdpr v).schedule = s.schedule := rfl
@[simp] theorem State.setPdpr_midStep (s : State) (v : Word) : (s.setPdpr v).midStep = s.midStep := rfl
@[simp] theorem State.setPdpr_draws (s : State) (v : Word) : (s.setPdpr v).draws = s.draws := rfl

@[simp] theorem State.setImr_regs (s : State) (v : BitVec 16) : (s.setImr v).regs = s.regs := rfl
@[simp] theorem State.setImr_pc (s : State) (v : BitVec 16) : (s.setImr v).pc = s.pc := rfl
@[simp] theorem State.setImr_flags (s : State) (v : BitVec 16) : (s.setImr v).flags = s.flags := rfl
@[simp] theorem State.setImr_uspr (s : State) (v : BitVec 16) : (s.setImr v).uspr = s.uspr := rfl
@[simp] theorem State.setImr_kspr (s : State) (v : BitVec 16) : (s.setImr v).kspr = s.kspr := rfl
@[simp] theorem State.setImr_pdpr (s : State) (v : BitVec 16) : (s.setImr v).pdpr = s.pdpr := rfl
@[simp] theorem State.setImr_imr (s : State) (v : BitVec 16) : (s.setImr v).imr = v := rfl
@[simp] theorem State.setImr_pfva (s : State) (v : BitVec 16) : (s.setImr v).pfva = s.pfva := rfl
@[simp] theorem State.setImr_mode (s : State) (v : BitVec 16) : (s.setImr v).mode = s.mode := rfl
@[simp] theorem State.setImr_runState (s : State) (v : BitVec 16) : (s.setImr v).runState = s.runState := rfl
@[simp] theorem State.setImr_ram (s : State) (v : BitVec 16) : (s.setImr v).ram = s.ram := rfl
@[simp] theorem State.setImr_rom (s : State) (v : BitVec 16) : (s.setImr v).rom = s.rom := rfl
@[simp] theorem State.setImr_display (s : State) (v : BitVec 16) : (s.setImr v).display = s.display := rfl
@[simp] theorem State.setImr_records (s : State) (v : BitVec 16) : (s.setImr v).records = s.records := rfl
@[simp] theorem State.setImr_keyboard (s : State) (v : BitVec 16) : (s.setImr v).keyboard = s.keyboard := rfl
@[simp] theorem State.setImr_diskA (s : State) (v : BitVec 16) : (s.setImr v).diskA = s.diskA := rfl
@[simp] theorem State.setImr_diskB (s : State) (v : BitVec 16) : (s.setImr v).diskB = s.diskB := rfl
@[simp] theorem State.setImr_queue (s : State) (v : BitVec 16) : (s.setImr v).queue = s.queue := rfl
@[simp] theorem State.setImr_irqCapacity (s : State) (v : BitVec 16) : (s.setImr v).irqCapacity = s.irqCapacity := rfl
@[simp] theorem State.setImr_hostKeys (s : State) (v : BitVec 16) : (s.setImr v).hostKeys = s.hostKeys := rfl
@[simp] theorem State.setImr_schedule (s : State) (v : BitVec 16) : (s.setImr v).schedule = s.schedule := rfl
@[simp] theorem State.setImr_midStep (s : State) (v : BitVec 16) : (s.setImr v).midStep = s.midStep := rfl
@[simp] theorem State.setImr_draws (s : State) (v : BitVec 16) : (s.setImr v).draws = s.draws := rfl

@[simp] theorem State.setPfva_regs (s : State) (v : Word) : (s.setPfva v).regs = s.regs := rfl
@[simp] theorem State.setPfva_pc (s : State) (v : Word) : (s.setPfva v).pc = s.pc := rfl
@[simp] theorem State.setPfva_flags (s : State) (v : Word) : (s.setPfva v).flags = s.flags := rfl
@[simp] theorem State.setPfva_uspr (s : State) (v : Word) : (s.setPfva v).uspr = s.uspr := rfl
@[simp] theorem State.setPfva_kspr (s : State) (v : Word) : (s.setPfva v).kspr = s.kspr := rfl
@[simp] theorem State.setPfva_pdpr (s : State) (v : Word) : (s.setPfva v).pdpr = s.pdpr := rfl
@[simp] theorem State.setPfva_imr (s : State) (v : Word) : (s.setPfva v).imr = s.imr := rfl
@[simp] theorem State.setPfva_pfva (s : State) (v : Word) : (s.setPfva v).pfva = v := rfl
@[simp] theorem State.setPfva_mode (s : State) (v : Word) : (s.setPfva v).mode = s.mode := rfl
@[simp] theorem State.setPfva_runState (s : State) (v : Word) : (s.setPfva v).runState = s.runState := rfl
@[simp] theorem State.setPfva_ram (s : State) (v : Word) : (s.setPfva v).ram = s.ram := rfl
@[simp] theorem State.setPfva_rom (s : State) (v : Word) : (s.setPfva v).rom = s.rom := rfl
@[simp] theorem State.setPfva_display (s : State) (v : Word) : (s.setPfva v).display = s.display := rfl
@[simp] theorem State.setPfva_records (s : State) (v : Word) : (s.setPfva v).records = s.records := rfl
@[simp] theorem State.setPfva_keyboard (s : State) (v : Word) : (s.setPfva v).keyboard = s.keyboard := rfl
@[simp] theorem State.setPfva_diskA (s : State) (v : Word) : (s.setPfva v).diskA = s.diskA := rfl
@[simp] theorem State.setPfva_diskB (s : State) (v : Word) : (s.setPfva v).diskB = s.diskB := rfl
@[simp] theorem State.setPfva_queue (s : State) (v : Word) : (s.setPfva v).queue = s.queue := rfl
@[simp] theorem State.setPfva_irqCapacity (s : State) (v : Word) : (s.setPfva v).irqCapacity = s.irqCapacity := rfl
@[simp] theorem State.setPfva_hostKeys (s : State) (v : Word) : (s.setPfva v).hostKeys = s.hostKeys := rfl
@[simp] theorem State.setPfva_schedule (s : State) (v : Word) : (s.setPfva v).schedule = s.schedule := rfl
@[simp] theorem State.setPfva_midStep (s : State) (v : Word) : (s.setPfva v).midStep = s.midStep := rfl
@[simp] theorem State.setPfva_draws (s : State) (v : Word) : (s.setPfva v).draws = s.draws := rfl

@[simp] theorem State.setMode_regs (s : State) (v : Mode) : (s.setMode v).regs = s.regs := rfl
@[simp] theorem State.setMode_pc (s : State) (v : Mode) : (s.setMode v).pc = s.pc := rfl
@[simp] theorem State.setMode_flags (s : State) (v : Mode) : (s.setMode v).flags = s.flags := rfl
@[simp] theorem State.setMode_uspr (s : State) (v : Mode) : (s.setMode v).uspr = s.uspr := rfl
@[simp] theorem State.setMode_kspr (s : State) (v : Mode) : (s.setMode v).kspr = s.kspr := rfl
@[simp] theorem State.setMode_pdpr (s : State) (v : Mode) : (s.setMode v).pdpr = s.pdpr := rfl
@[simp] theorem State.setMode_imr (s : State) (v : Mode) : (s.setMode v).imr = s.imr := rfl
@[simp] theorem State.setMode_pfva (s : State) (v : Mode) : (s.setMode v).pfva = s.pfva := rfl
@[simp] theorem State.setMode_mode (s : State) (v : Mode) : (s.setMode v).mode = v := rfl
@[simp] theorem State.setMode_runState (s : State) (v : Mode) : (s.setMode v).runState = s.runState := rfl
@[simp] theorem State.setMode_ram (s : State) (v : Mode) : (s.setMode v).ram = s.ram := rfl
@[simp] theorem State.setMode_rom (s : State) (v : Mode) : (s.setMode v).rom = s.rom := rfl
@[simp] theorem State.setMode_display (s : State) (v : Mode) : (s.setMode v).display = s.display := rfl
@[simp] theorem State.setMode_records (s : State) (v : Mode) : (s.setMode v).records = s.records := rfl
@[simp] theorem State.setMode_keyboard (s : State) (v : Mode) : (s.setMode v).keyboard = s.keyboard := rfl
@[simp] theorem State.setMode_diskA (s : State) (v : Mode) : (s.setMode v).diskA = s.diskA := rfl
@[simp] theorem State.setMode_diskB (s : State) (v : Mode) : (s.setMode v).diskB = s.diskB := rfl
@[simp] theorem State.setMode_queue (s : State) (v : Mode) : (s.setMode v).queue = s.queue := rfl
@[simp] theorem State.setMode_irqCapacity (s : State) (v : Mode) : (s.setMode v).irqCapacity = s.irqCapacity := rfl
@[simp] theorem State.setMode_hostKeys (s : State) (v : Mode) : (s.setMode v).hostKeys = s.hostKeys := rfl
@[simp] theorem State.setMode_schedule (s : State) (v : Mode) : (s.setMode v).schedule = s.schedule := rfl
@[simp] theorem State.setMode_midStep (s : State) (v : Mode) : (s.setMode v).midStep = s.midStep := rfl
@[simp] theorem State.setMode_draws (s : State) (v : Mode) : (s.setMode v).draws = s.draws := rfl

@[simp] theorem State.setRunState_regs (s : State) (v : RunState) : (s.setRunState v).regs = s.regs := rfl
@[simp] theorem State.setRunState_pc (s : State) (v : RunState) : (s.setRunState v).pc = s.pc := rfl
@[simp] theorem State.setRunState_flags (s : State) (v : RunState) : (s.setRunState v).flags = s.flags := rfl
@[simp] theorem State.setRunState_uspr (s : State) (v : RunState) : (s.setRunState v).uspr = s.uspr := rfl
@[simp] theorem State.setRunState_kspr (s : State) (v : RunState) : (s.setRunState v).kspr = s.kspr := rfl
@[simp] theorem State.setRunState_pdpr (s : State) (v : RunState) : (s.setRunState v).pdpr = s.pdpr := rfl
@[simp] theorem State.setRunState_imr (s : State) (v : RunState) : (s.setRunState v).imr = s.imr := rfl
@[simp] theorem State.setRunState_pfva (s : State) (v : RunState) : (s.setRunState v).pfva = s.pfva := rfl
@[simp] theorem State.setRunState_mode (s : State) (v : RunState) : (s.setRunState v).mode = s.mode := rfl
@[simp] theorem State.setRunState_runState (s : State) (v : RunState) : (s.setRunState v).runState = v := rfl
@[simp] theorem State.setRunState_ram (s : State) (v : RunState) : (s.setRunState v).ram = s.ram := rfl
@[simp] theorem State.setRunState_rom (s : State) (v : RunState) : (s.setRunState v).rom = s.rom := rfl
@[simp] theorem State.setRunState_display (s : State) (v : RunState) : (s.setRunState v).display = s.display := rfl
@[simp] theorem State.setRunState_records (s : State) (v : RunState) : (s.setRunState v).records = s.records := rfl
@[simp] theorem State.setRunState_keyboard (s : State) (v : RunState) : (s.setRunState v).keyboard = s.keyboard := rfl
@[simp] theorem State.setRunState_diskA (s : State) (v : RunState) : (s.setRunState v).diskA = s.diskA := rfl
@[simp] theorem State.setRunState_diskB (s : State) (v : RunState) : (s.setRunState v).diskB = s.diskB := rfl
@[simp] theorem State.setRunState_queue (s : State) (v : RunState) : (s.setRunState v).queue = s.queue := rfl
@[simp] theorem State.setRunState_irqCapacity (s : State) (v : RunState) : (s.setRunState v).irqCapacity = s.irqCapacity := rfl
@[simp] theorem State.setRunState_hostKeys (s : State) (v : RunState) : (s.setRunState v).hostKeys = s.hostKeys := rfl
@[simp] theorem State.setRunState_schedule (s : State) (v : RunState) : (s.setRunState v).schedule = s.schedule := rfl
@[simp] theorem State.setRunState_midStep (s : State) (v : RunState) : (s.setRunState v).midStep = s.midStep := rfl
@[simp] theorem State.setRunState_draws (s : State) (v : RunState) : (s.setRunState v).draws = s.draws := rfl

@[simp] theorem State.setRam_regs (s : State) (v : Memory) : (s.setRam v).regs = s.regs := rfl
@[simp] theorem State.setRam_pc (s : State) (v : Memory) : (s.setRam v).pc = s.pc := rfl
@[simp] theorem State.setRam_flags (s : State) (v : Memory) : (s.setRam v).flags = s.flags := rfl
@[simp] theorem State.setRam_uspr (s : State) (v : Memory) : (s.setRam v).uspr = s.uspr := rfl
@[simp] theorem State.setRam_kspr (s : State) (v : Memory) : (s.setRam v).kspr = s.kspr := rfl
@[simp] theorem State.setRam_pdpr (s : State) (v : Memory) : (s.setRam v).pdpr = s.pdpr := rfl
@[simp] theorem State.setRam_imr (s : State) (v : Memory) : (s.setRam v).imr = s.imr := rfl
@[simp] theorem State.setRam_pfva (s : State) (v : Memory) : (s.setRam v).pfva = s.pfva := rfl
@[simp] theorem State.setRam_mode (s : State) (v : Memory) : (s.setRam v).mode = s.mode := rfl
@[simp] theorem State.setRam_runState (s : State) (v : Memory) : (s.setRam v).runState = s.runState := rfl
@[simp] theorem State.setRam_ram (s : State) (v : Memory) : (s.setRam v).ram = v := rfl
@[simp] theorem State.setRam_rom (s : State) (v : Memory) : (s.setRam v).rom = s.rom := rfl
@[simp] theorem State.setRam_display (s : State) (v : Memory) : (s.setRam v).display = s.display := rfl
@[simp] theorem State.setRam_records (s : State) (v : Memory) : (s.setRam v).records = s.records := rfl
@[simp] theorem State.setRam_keyboard (s : State) (v : Memory) : (s.setRam v).keyboard = s.keyboard := rfl
@[simp] theorem State.setRam_diskA (s : State) (v : Memory) : (s.setRam v).diskA = s.diskA := rfl
@[simp] theorem State.setRam_diskB (s : State) (v : Memory) : (s.setRam v).diskB = s.diskB := rfl
@[simp] theorem State.setRam_queue (s : State) (v : Memory) : (s.setRam v).queue = s.queue := rfl
@[simp] theorem State.setRam_irqCapacity (s : State) (v : Memory) : (s.setRam v).irqCapacity = s.irqCapacity := rfl
@[simp] theorem State.setRam_hostKeys (s : State) (v : Memory) : (s.setRam v).hostKeys = s.hostKeys := rfl
@[simp] theorem State.setRam_schedule (s : State) (v : Memory) : (s.setRam v).schedule = s.schedule := rfl
@[simp] theorem State.setRam_midStep (s : State) (v : Memory) : (s.setRam v).midStep = s.midStep := rfl
@[simp] theorem State.setRam_draws (s : State) (v : Memory) : (s.setRam v).draws = s.draws := rfl

@[simp] theorem State.setRom_regs (s : State) (v : Memory) : (s.setRom v).regs = s.regs := rfl
@[simp] theorem State.setRom_pc (s : State) (v : Memory) : (s.setRom v).pc = s.pc := rfl
@[simp] theorem State.setRom_flags (s : State) (v : Memory) : (s.setRom v).flags = s.flags := rfl
@[simp] theorem State.setRom_uspr (s : State) (v : Memory) : (s.setRom v).uspr = s.uspr := rfl
@[simp] theorem State.setRom_kspr (s : State) (v : Memory) : (s.setRom v).kspr = s.kspr := rfl
@[simp] theorem State.setRom_pdpr (s : State) (v : Memory) : (s.setRom v).pdpr = s.pdpr := rfl
@[simp] theorem State.setRom_imr (s : State) (v : Memory) : (s.setRom v).imr = s.imr := rfl
@[simp] theorem State.setRom_pfva (s : State) (v : Memory) : (s.setRom v).pfva = s.pfva := rfl
@[simp] theorem State.setRom_mode (s : State) (v : Memory) : (s.setRom v).mode = s.mode := rfl
@[simp] theorem State.setRom_runState (s : State) (v : Memory) : (s.setRom v).runState = s.runState := rfl
@[simp] theorem State.setRom_ram (s : State) (v : Memory) : (s.setRom v).ram = s.ram := rfl
@[simp] theorem State.setRom_rom (s : State) (v : Memory) : (s.setRom v).rom = v := rfl
@[simp] theorem State.setRom_display (s : State) (v : Memory) : (s.setRom v).display = s.display := rfl
@[simp] theorem State.setRom_records (s : State) (v : Memory) : (s.setRom v).records = s.records := rfl
@[simp] theorem State.setRom_keyboard (s : State) (v : Memory) : (s.setRom v).keyboard = s.keyboard := rfl
@[simp] theorem State.setRom_diskA (s : State) (v : Memory) : (s.setRom v).diskA = s.diskA := rfl
@[simp] theorem State.setRom_diskB (s : State) (v : Memory) : (s.setRom v).diskB = s.diskB := rfl
@[simp] theorem State.setRom_queue (s : State) (v : Memory) : (s.setRom v).queue = s.queue := rfl
@[simp] theorem State.setRom_irqCapacity (s : State) (v : Memory) : (s.setRom v).irqCapacity = s.irqCapacity := rfl
@[simp] theorem State.setRom_hostKeys (s : State) (v : Memory) : (s.setRom v).hostKeys = s.hostKeys := rfl
@[simp] theorem State.setRom_schedule (s : State) (v : Memory) : (s.setRom v).schedule = s.schedule := rfl
@[simp] theorem State.setRom_midStep (s : State) (v : Memory) : (s.setRom v).midStep = s.midStep := rfl
@[simp] theorem State.setRom_draws (s : State) (v : Memory) : (s.setRom v).draws = s.draws := rfl

@[simp] theorem State.setDisplay_regs (s : State) (v : Memory) : (s.setDisplay v).regs = s.regs := rfl
@[simp] theorem State.setDisplay_pc (s : State) (v : Memory) : (s.setDisplay v).pc = s.pc := rfl
@[simp] theorem State.setDisplay_flags (s : State) (v : Memory) : (s.setDisplay v).flags = s.flags := rfl
@[simp] theorem State.setDisplay_uspr (s : State) (v : Memory) : (s.setDisplay v).uspr = s.uspr := rfl
@[simp] theorem State.setDisplay_kspr (s : State) (v : Memory) : (s.setDisplay v).kspr = s.kspr := rfl
@[simp] theorem State.setDisplay_pdpr (s : State) (v : Memory) : (s.setDisplay v).pdpr = s.pdpr := rfl
@[simp] theorem State.setDisplay_imr (s : State) (v : Memory) : (s.setDisplay v).imr = s.imr := rfl
@[simp] theorem State.setDisplay_pfva (s : State) (v : Memory) : (s.setDisplay v).pfva = s.pfva := rfl
@[simp] theorem State.setDisplay_mode (s : State) (v : Memory) : (s.setDisplay v).mode = s.mode := rfl
@[simp] theorem State.setDisplay_runState (s : State) (v : Memory) : (s.setDisplay v).runState = s.runState := rfl
@[simp] theorem State.setDisplay_ram (s : State) (v : Memory) : (s.setDisplay v).ram = s.ram := rfl
@[simp] theorem State.setDisplay_rom (s : State) (v : Memory) : (s.setDisplay v).rom = s.rom := rfl
@[simp] theorem State.setDisplay_display (s : State) (v : Memory) : (s.setDisplay v).display = v := rfl
@[simp] theorem State.setDisplay_records (s : State) (v : Memory) : (s.setDisplay v).records = s.records := rfl
@[simp] theorem State.setDisplay_keyboard (s : State) (v : Memory) : (s.setDisplay v).keyboard = s.keyboard := rfl
@[simp] theorem State.setDisplay_diskA (s : State) (v : Memory) : (s.setDisplay v).diskA = s.diskA := rfl
@[simp] theorem State.setDisplay_diskB (s : State) (v : Memory) : (s.setDisplay v).diskB = s.diskB := rfl
@[simp] theorem State.setDisplay_queue (s : State) (v : Memory) : (s.setDisplay v).queue = s.queue := rfl
@[simp] theorem State.setDisplay_irqCapacity (s : State) (v : Memory) : (s.setDisplay v).irqCapacity = s.irqCapacity := rfl
@[simp] theorem State.setDisplay_hostKeys (s : State) (v : Memory) : (s.setDisplay v).hostKeys = s.hostKeys := rfl
@[simp] theorem State.setDisplay_schedule (s : State) (v : Memory) : (s.setDisplay v).schedule = s.schedule := rfl
@[simp] theorem State.setDisplay_midStep (s : State) (v : Memory) : (s.setDisplay v).midStep = s.midStep := rfl
@[simp] theorem State.setDisplay_draws (s : State) (v : Memory) : (s.setDisplay v).draws = s.draws := rfl

@[simp] theorem State.setRecords_regs (s : State) (v : List DisplayRecord) : (s.setRecords v).regs = s.regs := rfl
@[simp] theorem State.setRecords_pc (s : State) (v : List DisplayRecord) : (s.setRecords v).pc = s.pc := rfl
@[simp] theorem State.setRecords_flags (s : State) (v : List DisplayRecord) : (s.setRecords v).flags = s.flags := rfl
@[simp] theorem State.setRecords_uspr (s : State) (v : List DisplayRecord) : (s.setRecords v).uspr = s.uspr := rfl
@[simp] theorem State.setRecords_kspr (s : State) (v : List DisplayRecord) : (s.setRecords v).kspr = s.kspr := rfl
@[simp] theorem State.setRecords_pdpr (s : State) (v : List DisplayRecord) : (s.setRecords v).pdpr = s.pdpr := rfl
@[simp] theorem State.setRecords_imr (s : State) (v : List DisplayRecord) : (s.setRecords v).imr = s.imr := rfl
@[simp] theorem State.setRecords_pfva (s : State) (v : List DisplayRecord) : (s.setRecords v).pfva = s.pfva := rfl
@[simp] theorem State.setRecords_mode (s : State) (v : List DisplayRecord) : (s.setRecords v).mode = s.mode := rfl
@[simp] theorem State.setRecords_runState (s : State) (v : List DisplayRecord) : (s.setRecords v).runState = s.runState := rfl
@[simp] theorem State.setRecords_ram (s : State) (v : List DisplayRecord) : (s.setRecords v).ram = s.ram := rfl
@[simp] theorem State.setRecords_rom (s : State) (v : List DisplayRecord) : (s.setRecords v).rom = s.rom := rfl
@[simp] theorem State.setRecords_display (s : State) (v : List DisplayRecord) : (s.setRecords v).display = s.display := rfl
@[simp] theorem State.setRecords_records (s : State) (v : List DisplayRecord) : (s.setRecords v).records = v := rfl
@[simp] theorem State.setRecords_keyboard (s : State) (v : List DisplayRecord) : (s.setRecords v).keyboard = s.keyboard := rfl
@[simp] theorem State.setRecords_diskA (s : State) (v : List DisplayRecord) : (s.setRecords v).diskA = s.diskA := rfl
@[simp] theorem State.setRecords_diskB (s : State) (v : List DisplayRecord) : (s.setRecords v).diskB = s.diskB := rfl
@[simp] theorem State.setRecords_queue (s : State) (v : List DisplayRecord) : (s.setRecords v).queue = s.queue := rfl
@[simp] theorem State.setRecords_irqCapacity (s : State) (v : List DisplayRecord) : (s.setRecords v).irqCapacity = s.irqCapacity := rfl
@[simp] theorem State.setRecords_hostKeys (s : State) (v : List DisplayRecord) : (s.setRecords v).hostKeys = s.hostKeys := rfl
@[simp] theorem State.setRecords_schedule (s : State) (v : List DisplayRecord) : (s.setRecords v).schedule = s.schedule := rfl
@[simp] theorem State.setRecords_midStep (s : State) (v : List DisplayRecord) : (s.setRecords v).midStep = s.midStep := rfl
@[simp] theorem State.setRecords_draws (s : State) (v : List DisplayRecord) : (s.setRecords v).draws = s.draws := rfl

@[simp] theorem State.setKeyboard_regs (s : State) (v : Keyboard) : (s.setKeyboard v).regs = s.regs := rfl
@[simp] theorem State.setKeyboard_pc (s : State) (v : Keyboard) : (s.setKeyboard v).pc = s.pc := rfl
@[simp] theorem State.setKeyboard_flags (s : State) (v : Keyboard) : (s.setKeyboard v).flags = s.flags := rfl
@[simp] theorem State.setKeyboard_uspr (s : State) (v : Keyboard) : (s.setKeyboard v).uspr = s.uspr := rfl
@[simp] theorem State.setKeyboard_kspr (s : State) (v : Keyboard) : (s.setKeyboard v).kspr = s.kspr := rfl
@[simp] theorem State.setKeyboard_pdpr (s : State) (v : Keyboard) : (s.setKeyboard v).pdpr = s.pdpr := rfl
@[simp] theorem State.setKeyboard_imr (s : State) (v : Keyboard) : (s.setKeyboard v).imr = s.imr := rfl
@[simp] theorem State.setKeyboard_pfva (s : State) (v : Keyboard) : (s.setKeyboard v).pfva = s.pfva := rfl
@[simp] theorem State.setKeyboard_mode (s : State) (v : Keyboard) : (s.setKeyboard v).mode = s.mode := rfl
@[simp] theorem State.setKeyboard_runState (s : State) (v : Keyboard) : (s.setKeyboard v).runState = s.runState := rfl
@[simp] theorem State.setKeyboard_ram (s : State) (v : Keyboard) : (s.setKeyboard v).ram = s.ram := rfl
@[simp] theorem State.setKeyboard_rom (s : State) (v : Keyboard) : (s.setKeyboard v).rom = s.rom := rfl
@[simp] theorem State.setKeyboard_display (s : State) (v : Keyboard) : (s.setKeyboard v).display = s.display := rfl
@[simp] theorem State.setKeyboard_records (s : State) (v : Keyboard) : (s.setKeyboard v).records = s.records := rfl
@[simp] theorem State.setKeyboard_keyboard (s : State) (v : Keyboard) : (s.setKeyboard v).keyboard = v := rfl
@[simp] theorem State.setKeyboard_diskA (s : State) (v : Keyboard) : (s.setKeyboard v).diskA = s.diskA := rfl
@[simp] theorem State.setKeyboard_diskB (s : State) (v : Keyboard) : (s.setKeyboard v).diskB = s.diskB := rfl
@[simp] theorem State.setKeyboard_queue (s : State) (v : Keyboard) : (s.setKeyboard v).queue = s.queue := rfl
@[simp] theorem State.setKeyboard_irqCapacity (s : State) (v : Keyboard) : (s.setKeyboard v).irqCapacity = s.irqCapacity := rfl
@[simp] theorem State.setKeyboard_hostKeys (s : State) (v : Keyboard) : (s.setKeyboard v).hostKeys = s.hostKeys := rfl
@[simp] theorem State.setKeyboard_schedule (s : State) (v : Keyboard) : (s.setKeyboard v).schedule = s.schedule := rfl
@[simp] theorem State.setKeyboard_midStep (s : State) (v : Keyboard) : (s.setKeyboard v).midStep = s.midStep := rfl
@[simp] theorem State.setKeyboard_draws (s : State) (v : Keyboard) : (s.setKeyboard v).draws = s.draws := rfl

@[simp] theorem State.setDiskA_regs (s : State) (v : Disk) : (s.setDiskA v).regs = s.regs := rfl
@[simp] theorem State.setDiskA_pc (s : State) (v : Disk) : (s.setDiskA v).pc = s.pc := rfl
@[simp] theorem State.setDiskA_flags (s : State) (v : Disk) : (s.setDiskA v).flags = s.flags := rfl
@[simp] theorem State.setDiskA_uspr (s : State) (v : Disk) : (s.setDiskA v).uspr = s.uspr := rfl
@[simp] theorem State.setDiskA_kspr (s : State) (v : Disk) : (s.setDiskA v).kspr = s.kspr := rfl
@[simp] theorem State.setDiskA_pdpr (s : State) (v : Disk) : (s.setDiskA v).pdpr = s.pdpr := rfl
@[simp] theorem State.setDiskA_imr (s : State) (v : Disk) : (s.setDiskA v).imr = s.imr := rfl
@[simp] theorem State.setDiskA_pfva (s : State) (v : Disk) : (s.setDiskA v).pfva = s.pfva := rfl
@[simp] theorem State.setDiskA_mode (s : State) (v : Disk) : (s.setDiskA v).mode = s.mode := rfl
@[simp] theorem State.setDiskA_runState (s : State) (v : Disk) : (s.setDiskA v).runState = s.runState := rfl
@[simp] theorem State.setDiskA_ram (s : State) (v : Disk) : (s.setDiskA v).ram = s.ram := rfl
@[simp] theorem State.setDiskA_rom (s : State) (v : Disk) : (s.setDiskA v).rom = s.rom := rfl
@[simp] theorem State.setDiskA_display (s : State) (v : Disk) : (s.setDiskA v).display = s.display := rfl
@[simp] theorem State.setDiskA_records (s : State) (v : Disk) : (s.setDiskA v).records = s.records := rfl
@[simp] theorem State.setDiskA_keyboard (s : State) (v : Disk) : (s.setDiskA v).keyboard = s.keyboard := rfl
@[simp] theorem State.setDiskA_diskA (s : State) (v : Disk) : (s.setDiskA v).diskA = v := rfl
@[simp] theorem State.setDiskA_diskB (s : State) (v : Disk) : (s.setDiskA v).diskB = s.diskB := rfl
@[simp] theorem State.setDiskA_queue (s : State) (v : Disk) : (s.setDiskA v).queue = s.queue := rfl
@[simp] theorem State.setDiskA_irqCapacity (s : State) (v : Disk) : (s.setDiskA v).irqCapacity = s.irqCapacity := rfl
@[simp] theorem State.setDiskA_hostKeys (s : State) (v : Disk) : (s.setDiskA v).hostKeys = s.hostKeys := rfl
@[simp] theorem State.setDiskA_schedule (s : State) (v : Disk) : (s.setDiskA v).schedule = s.schedule := rfl
@[simp] theorem State.setDiskA_midStep (s : State) (v : Disk) : (s.setDiskA v).midStep = s.midStep := rfl
@[simp] theorem State.setDiskA_draws (s : State) (v : Disk) : (s.setDiskA v).draws = s.draws := rfl

@[simp] theorem State.setDiskB_regs (s : State) (v : Disk) : (s.setDiskB v).regs = s.regs := rfl
@[simp] theorem State.setDiskB_pc (s : State) (v : Disk) : (s.setDiskB v).pc = s.pc := rfl
@[simp] theorem State.setDiskB_flags (s : State) (v : Disk) : (s.setDiskB v).flags = s.flags := rfl
@[simp] theorem State.setDiskB_uspr (s : State) (v : Disk) : (s.setDiskB v).uspr = s.uspr := rfl
@[simp] theorem State.setDiskB_kspr (s : State) (v : Disk) : (s.setDiskB v).kspr = s.kspr := rfl
@[simp] theorem State.setDiskB_pdpr (s : State) (v : Disk) : (s.setDiskB v).pdpr = s.pdpr := rfl
@[simp] theorem State.setDiskB_imr (s : State) (v : Disk) : (s.setDiskB v).imr = s.imr := rfl
@[simp] theorem State.setDiskB_pfva (s : State) (v : Disk) : (s.setDiskB v).pfva = s.pfva := rfl
@[simp] theorem State.setDiskB_mode (s : State) (v : Disk) : (s.setDiskB v).mode = s.mode := rfl
@[simp] theorem State.setDiskB_runState (s : State) (v : Disk) : (s.setDiskB v).runState = s.runState := rfl
@[simp] theorem State.setDiskB_ram (s : State) (v : Disk) : (s.setDiskB v).ram = s.ram := rfl
@[simp] theorem State.setDiskB_rom (s : State) (v : Disk) : (s.setDiskB v).rom = s.rom := rfl
@[simp] theorem State.setDiskB_display (s : State) (v : Disk) : (s.setDiskB v).display = s.display := rfl
@[simp] theorem State.setDiskB_records (s : State) (v : Disk) : (s.setDiskB v).records = s.records := rfl
@[simp] theorem State.setDiskB_keyboard (s : State) (v : Disk) : (s.setDiskB v).keyboard = s.keyboard := rfl
@[simp] theorem State.setDiskB_diskA (s : State) (v : Disk) : (s.setDiskB v).diskA = s.diskA := rfl
@[simp] theorem State.setDiskB_diskB (s : State) (v : Disk) : (s.setDiskB v).diskB = v := rfl
@[simp] theorem State.setDiskB_queue (s : State) (v : Disk) : (s.setDiskB v).queue = s.queue := rfl
@[simp] theorem State.setDiskB_irqCapacity (s : State) (v : Disk) : (s.setDiskB v).irqCapacity = s.irqCapacity := rfl
@[simp] theorem State.setDiskB_hostKeys (s : State) (v : Disk) : (s.setDiskB v).hostKeys = s.hostKeys := rfl
@[simp] theorem State.setDiskB_schedule (s : State) (v : Disk) : (s.setDiskB v).schedule = s.schedule := rfl
@[simp] theorem State.setDiskB_midStep (s : State) (v : Disk) : (s.setDiskB v).midStep = s.midStep := rfl
@[simp] theorem State.setDiskB_draws (s : State) (v : Disk) : (s.setDiskB v).draws = s.draws := rfl

@[simp] theorem State.setQueue_regs (s : State) (v : List DeviceIrq) : (s.setQueue v).regs = s.regs := rfl
@[simp] theorem State.setQueue_pc (s : State) (v : List DeviceIrq) : (s.setQueue v).pc = s.pc := rfl
@[simp] theorem State.setQueue_flags (s : State) (v : List DeviceIrq) : (s.setQueue v).flags = s.flags := rfl
@[simp] theorem State.setQueue_uspr (s : State) (v : List DeviceIrq) : (s.setQueue v).uspr = s.uspr := rfl
@[simp] theorem State.setQueue_kspr (s : State) (v : List DeviceIrq) : (s.setQueue v).kspr = s.kspr := rfl
@[simp] theorem State.setQueue_pdpr (s : State) (v : List DeviceIrq) : (s.setQueue v).pdpr = s.pdpr := rfl
@[simp] theorem State.setQueue_imr (s : State) (v : List DeviceIrq) : (s.setQueue v).imr = s.imr := rfl
@[simp] theorem State.setQueue_pfva (s : State) (v : List DeviceIrq) : (s.setQueue v).pfva = s.pfva := rfl
@[simp] theorem State.setQueue_mode (s : State) (v : List DeviceIrq) : (s.setQueue v).mode = s.mode := rfl
@[simp] theorem State.setQueue_runState (s : State) (v : List DeviceIrq) : (s.setQueue v).runState = s.runState := rfl
@[simp] theorem State.setQueue_ram (s : State) (v : List DeviceIrq) : (s.setQueue v).ram = s.ram := rfl
@[simp] theorem State.setQueue_rom (s : State) (v : List DeviceIrq) : (s.setQueue v).rom = s.rom := rfl
@[simp] theorem State.setQueue_display (s : State) (v : List DeviceIrq) : (s.setQueue v).display = s.display := rfl
@[simp] theorem State.setQueue_records (s : State) (v : List DeviceIrq) : (s.setQueue v).records = s.records := rfl
@[simp] theorem State.setQueue_keyboard (s : State) (v : List DeviceIrq) : (s.setQueue v).keyboard = s.keyboard := rfl
@[simp] theorem State.setQueue_diskA (s : State) (v : List DeviceIrq) : (s.setQueue v).diskA = s.diskA := rfl
@[simp] theorem State.setQueue_diskB (s : State) (v : List DeviceIrq) : (s.setQueue v).diskB = s.diskB := rfl
@[simp] theorem State.setQueue_queue (s : State) (v : List DeviceIrq) : (s.setQueue v).queue = v := rfl
@[simp] theorem State.setQueue_irqCapacity (s : State) (v : List DeviceIrq) : (s.setQueue v).irqCapacity = s.irqCapacity := rfl
@[simp] theorem State.setQueue_hostKeys (s : State) (v : List DeviceIrq) : (s.setQueue v).hostKeys = s.hostKeys := rfl
@[simp] theorem State.setQueue_schedule (s : State) (v : List DeviceIrq) : (s.setQueue v).schedule = s.schedule := rfl
@[simp] theorem State.setQueue_midStep (s : State) (v : List DeviceIrq) : (s.setQueue v).midStep = s.midStep := rfl
@[simp] theorem State.setQueue_draws (s : State) (v : List DeviceIrq) : (s.setQueue v).draws = s.draws := rfl

@[simp] theorem State.setHostKeys_regs (s : State) (v : List KeyMessage) : (s.setHostKeys v).regs = s.regs := rfl
@[simp] theorem State.setHostKeys_pc (s : State) (v : List KeyMessage) : (s.setHostKeys v).pc = s.pc := rfl
@[simp] theorem State.setHostKeys_flags (s : State) (v : List KeyMessage) : (s.setHostKeys v).flags = s.flags := rfl
@[simp] theorem State.setHostKeys_uspr (s : State) (v : List KeyMessage) : (s.setHostKeys v).uspr = s.uspr := rfl
@[simp] theorem State.setHostKeys_kspr (s : State) (v : List KeyMessage) : (s.setHostKeys v).kspr = s.kspr := rfl
@[simp] theorem State.setHostKeys_pdpr (s : State) (v : List KeyMessage) : (s.setHostKeys v).pdpr = s.pdpr := rfl
@[simp] theorem State.setHostKeys_imr (s : State) (v : List KeyMessage) : (s.setHostKeys v).imr = s.imr := rfl
@[simp] theorem State.setHostKeys_pfva (s : State) (v : List KeyMessage) : (s.setHostKeys v).pfva = s.pfva := rfl
@[simp] theorem State.setHostKeys_mode (s : State) (v : List KeyMessage) : (s.setHostKeys v).mode = s.mode := rfl
@[simp] theorem State.setHostKeys_runState (s : State) (v : List KeyMessage) : (s.setHostKeys v).runState = s.runState := rfl
@[simp] theorem State.setHostKeys_ram (s : State) (v : List KeyMessage) : (s.setHostKeys v).ram = s.ram := rfl
@[simp] theorem State.setHostKeys_rom (s : State) (v : List KeyMessage) : (s.setHostKeys v).rom = s.rom := rfl
@[simp] theorem State.setHostKeys_display (s : State) (v : List KeyMessage) : (s.setHostKeys v).display = s.display := rfl
@[simp] theorem State.setHostKeys_records (s : State) (v : List KeyMessage) : (s.setHostKeys v).records = s.records := rfl
@[simp] theorem State.setHostKeys_keyboard (s : State) (v : List KeyMessage) : (s.setHostKeys v).keyboard = s.keyboard := rfl
@[simp] theorem State.setHostKeys_diskA (s : State) (v : List KeyMessage) : (s.setHostKeys v).diskA = s.diskA := rfl
@[simp] theorem State.setHostKeys_diskB (s : State) (v : List KeyMessage) : (s.setHostKeys v).diskB = s.diskB := rfl
@[simp] theorem State.setHostKeys_queue (s : State) (v : List KeyMessage) : (s.setHostKeys v).queue = s.queue := rfl
@[simp] theorem State.setHostKeys_irqCapacity (s : State) (v : List KeyMessage) : (s.setHostKeys v).irqCapacity = s.irqCapacity := rfl
@[simp] theorem State.setHostKeys_hostKeys (s : State) (v : List KeyMessage) : (s.setHostKeys v).hostKeys = v := rfl
@[simp] theorem State.setHostKeys_schedule (s : State) (v : List KeyMessage) : (s.setHostKeys v).schedule = s.schedule := rfl
@[simp] theorem State.setHostKeys_midStep (s : State) (v : List KeyMessage) : (s.setHostKeys v).midStep = s.midStep := rfl
@[simp] theorem State.setHostKeys_draws (s : State) (v : List KeyMessage) : (s.setHostKeys v).draws = s.draws := rfl

@[simp] theorem State.setSchedule_regs (s : State) (v : List Agent) : (s.setSchedule v).regs = s.regs := rfl
@[simp] theorem State.setSchedule_pc (s : State) (v : List Agent) : (s.setSchedule v).pc = s.pc := rfl
@[simp] theorem State.setSchedule_flags (s : State) (v : List Agent) : (s.setSchedule v).flags = s.flags := rfl
@[simp] theorem State.setSchedule_uspr (s : State) (v : List Agent) : (s.setSchedule v).uspr = s.uspr := rfl
@[simp] theorem State.setSchedule_kspr (s : State) (v : List Agent) : (s.setSchedule v).kspr = s.kspr := rfl
@[simp] theorem State.setSchedule_pdpr (s : State) (v : List Agent) : (s.setSchedule v).pdpr = s.pdpr := rfl
@[simp] theorem State.setSchedule_imr (s : State) (v : List Agent) : (s.setSchedule v).imr = s.imr := rfl
@[simp] theorem State.setSchedule_pfva (s : State) (v : List Agent) : (s.setSchedule v).pfva = s.pfva := rfl
@[simp] theorem State.setSchedule_mode (s : State) (v : List Agent) : (s.setSchedule v).mode = s.mode := rfl
@[simp] theorem State.setSchedule_runState (s : State) (v : List Agent) : (s.setSchedule v).runState = s.runState := rfl
@[simp] theorem State.setSchedule_ram (s : State) (v : List Agent) : (s.setSchedule v).ram = s.ram := rfl
@[simp] theorem State.setSchedule_rom (s : State) (v : List Agent) : (s.setSchedule v).rom = s.rom := rfl
@[simp] theorem State.setSchedule_display (s : State) (v : List Agent) : (s.setSchedule v).display = s.display := rfl
@[simp] theorem State.setSchedule_records (s : State) (v : List Agent) : (s.setSchedule v).records = s.records := rfl
@[simp] theorem State.setSchedule_keyboard (s : State) (v : List Agent) : (s.setSchedule v).keyboard = s.keyboard := rfl
@[simp] theorem State.setSchedule_diskA (s : State) (v : List Agent) : (s.setSchedule v).diskA = s.diskA := rfl
@[simp] theorem State.setSchedule_diskB (s : State) (v : List Agent) : (s.setSchedule v).diskB = s.diskB := rfl
@[simp] theorem State.setSchedule_queue (s : State) (v : List Agent) : (s.setSchedule v).queue = s.queue := rfl
@[simp] theorem State.setSchedule_irqCapacity (s : State) (v : List Agent) : (s.setSchedule v).irqCapacity = s.irqCapacity := rfl
@[simp] theorem State.setSchedule_hostKeys (s : State) (v : List Agent) : (s.setSchedule v).hostKeys = s.hostKeys := rfl
@[simp] theorem State.setSchedule_schedule (s : State) (v : List Agent) : (s.setSchedule v).schedule = v := rfl
@[simp] theorem State.setSchedule_midStep (s : State) (v : List Agent) : (s.setSchedule v).midStep = s.midStep := rfl
@[simp] theorem State.setSchedule_draws (s : State) (v : List Agent) : (s.setSchedule v).draws = s.draws := rfl

@[simp] theorem State.setMidStep_regs (s : State) (v : List (List DeviceStep)) : (s.setMidStep v).regs = s.regs := rfl
@[simp] theorem State.setMidStep_pc (s : State) (v : List (List DeviceStep)) : (s.setMidStep v).pc = s.pc := rfl
@[simp] theorem State.setMidStep_flags (s : State) (v : List (List DeviceStep)) : (s.setMidStep v).flags = s.flags := rfl
@[simp] theorem State.setMidStep_uspr (s : State) (v : List (List DeviceStep)) : (s.setMidStep v).uspr = s.uspr := rfl
@[simp] theorem State.setMidStep_kspr (s : State) (v : List (List DeviceStep)) : (s.setMidStep v).kspr = s.kspr := rfl
@[simp] theorem State.setMidStep_pdpr (s : State) (v : List (List DeviceStep)) : (s.setMidStep v).pdpr = s.pdpr := rfl
@[simp] theorem State.setMidStep_imr (s : State) (v : List (List DeviceStep)) : (s.setMidStep v).imr = s.imr := rfl
@[simp] theorem State.setMidStep_pfva (s : State) (v : List (List DeviceStep)) : (s.setMidStep v).pfva = s.pfva := rfl
@[simp] theorem State.setMidStep_mode (s : State) (v : List (List DeviceStep)) : (s.setMidStep v).mode = s.mode := rfl
@[simp] theorem State.setMidStep_runState (s : State) (v : List (List DeviceStep)) : (s.setMidStep v).runState = s.runState := rfl
@[simp] theorem State.setMidStep_ram (s : State) (v : List (List DeviceStep)) : (s.setMidStep v).ram = s.ram := rfl
@[simp] theorem State.setMidStep_rom (s : State) (v : List (List DeviceStep)) : (s.setMidStep v).rom = s.rom := rfl
@[simp] theorem State.setMidStep_display (s : State) (v : List (List DeviceStep)) : (s.setMidStep v).display = s.display := rfl
@[simp] theorem State.setMidStep_records (s : State) (v : List (List DeviceStep)) : (s.setMidStep v).records = s.records := rfl
@[simp] theorem State.setMidStep_keyboard (s : State) (v : List (List DeviceStep)) : (s.setMidStep v).keyboard = s.keyboard := rfl
@[simp] theorem State.setMidStep_diskA (s : State) (v : List (List DeviceStep)) : (s.setMidStep v).diskA = s.diskA := rfl
@[simp] theorem State.setMidStep_diskB (s : State) (v : List (List DeviceStep)) : (s.setMidStep v).diskB = s.diskB := rfl
@[simp] theorem State.setMidStep_queue (s : State) (v : List (List DeviceStep)) : (s.setMidStep v).queue = s.queue := rfl
@[simp] theorem State.setMidStep_irqCapacity (s : State) (v : List (List DeviceStep)) : (s.setMidStep v).irqCapacity = s.irqCapacity := rfl
@[simp] theorem State.setMidStep_hostKeys (s : State) (v : List (List DeviceStep)) : (s.setMidStep v).hostKeys = s.hostKeys := rfl
@[simp] theorem State.setMidStep_schedule (s : State) (v : List (List DeviceStep)) : (s.setMidStep v).schedule = s.schedule := rfl
@[simp] theorem State.setMidStep_midStep (s : State) (v : List (List DeviceStep)) : (s.setMidStep v).midStep = v := rfl
@[simp] theorem State.setMidStep_draws (s : State) (v : List (List DeviceStep)) : (s.setMidStep v).draws = s.draws := rfl

@[simp] theorem State.setDraws_regs (s : State) (v : Nat) : (s.setDraws v).regs = s.regs := rfl
@[simp] theorem State.setDraws_pc (s : State) (v : Nat) : (s.setDraws v).pc = s.pc := rfl
@[simp] theorem State.setDraws_flags (s : State) (v : Nat) : (s.setDraws v).flags = s.flags := rfl
@[simp] theorem State.setDraws_uspr (s : State) (v : Nat) : (s.setDraws v).uspr = s.uspr := rfl
@[simp] theorem State.setDraws_kspr (s : State) (v : Nat) : (s.setDraws v).kspr = s.kspr := rfl
@[simp] theorem State.setDraws_pdpr (s : State) (v : Nat) : (s.setDraws v).pdpr = s.pdpr := rfl
@[simp] theorem State.setDraws_imr (s : State) (v : Nat) : (s.setDraws v).imr = s.imr := rfl
@[simp] theorem State.setDraws_pfva (s : State) (v : Nat) : (s.setDraws v).pfva = s.pfva := rfl
@[simp] theorem State.setDraws_mode (s : State) (v : Nat) : (s.setDraws v).mode = s.mode := rfl
@[simp] theorem State.setDraws_runState (s : State) (v : Nat) : (s.setDraws v).runState = s.runState := rfl
@[simp] theorem State.setDraws_ram (s : State) (v : Nat) : (s.setDraws v).ram = s.ram := rfl
@[simp] theorem State.setDraws_rom (s : State) (v : Nat) : (s.setDraws v).rom = s.rom := rfl
@[simp] theorem State.setDraws_display (s : State) (v : Nat) : (s.setDraws v).display = s.display := rfl
@[simp] theorem State.setDraws_records (s : State) (v : Nat) : (s.setDraws v).records = s.records := rfl
@[simp] theorem State.setDraws_keyboard (s : State) (v : Nat) : (s.setDraws v).keyboard = s.keyboard := rfl
@[simp] theorem State.setDraws_diskA (s : State) (v : Nat) : (s.setDraws v).diskA = s.diskA := rfl
@[simp] theorem State.setDraws_diskB (s : State) (v : Nat) : (s.setDraws v).diskB = s.diskB := rfl
@[simp] theorem State.setDraws_queue (s : State) (v : Nat) : (s.setDraws v).queue = s.queue := rfl
@[simp] theorem State.setDraws_irqCapacity (s : State) (v : Nat) : (s.setDraws v).irqCapacity = s.irqCapacity := rfl
@[simp] theorem State.setDraws_hostKeys (s : State) (v : Nat) : (s.setDraws v).hostKeys = s.hostKeys := rfl
@[simp] theorem State.setDraws_schedule (s : State) (v : Nat) : (s.setDraws v).schedule = s.schedule := rfl
@[simp] theorem State.setDraws_midStep (s : State) (v : Nat) : (s.setDraws v).midStep = s.midStep := rfl
@[simp] theorem State.setDraws_draws (s : State) (v : Nat) : (s.setDraws v).draws = v := rfl

end Sys2Proof.Machine
end

