-- ==== Sys2Proof/Laws/Devices.lean ====
section
/-! SUPPORT. The laws of the devices and of the interrupt queue: what a device step can change, and that it keeps the
controllers' invariant. -/

namespace Sys2Proof.Machine

theorem SameRegisters.refl (s : State) : SameRegisters s s := ⟨rfl, rfl, rfl, rfl, rfl, rfl, rfl, rfl, rfl, rfl⟩

theorem SameRegisters.trans {s t u : State} (h : SameRegisters s t) (k : SameRegisters t u) : SameRegisters s u :=
  ⟨k.regs.trans h.regs, k.pc.trans h.pc, k.flags.trans h.flags, k.uspr.trans h.uspr, k.kspr.trans h.kspr,
    k.pdpr.trans h.pdpr, k.imr.trans h.imr, k.pfva.trans h.pfva, k.mode.trans h.mode, k.runState.trans h.runState⟩

theorem SameOutsideDevices.refl (s : State) : SameOutsideDevices s s :=
  ⟨SameRegisters.refl s, rfl, rfl, rfl, rfl, rfl, rfl⟩

theorem SameOutsideDevices.trans {s t u : State} (h : SameOutsideDevices s t) (k : SameOutsideDevices t u) :
    SameOutsideDevices s u :=
  ⟨h.toSameRegisters.trans k.toSameRegisters, k.ram.trans h.ram, k.rom.trans h.rom, k.display.trans h.display,
    k.records.trans h.records, k.irqCapacity.trans h.irqCapacity, k.schedule.trans h.schedule⟩

/-- What the keyboard's step does: nothing, or the key's two bytes and one queue entry (R402). -/
theorem keyboardStep_cases (s : State) :
    keyboardStep s = s ∨
      ∃ m ms, s.hostKeys = m :: ms ∧ queueHasRoom s = true ∧
        keyboardStep s =
          { s with hostKeys := ms, keyboard := Keyboard.ofMessage m, queue := s.queue ++ [.keyboard] } := by
  unfold keyboardStep
  split
  · exact .inl rfl
  · next m ms hm =>
    split
    · next hr => exact .inr ⟨m, ms, hm, hr, rfl⟩
    · exact .inl rfl

/-- What a disk's step does: nothing, or the completion of its command and one queue entry (R415). -/
theorem diskStep_cases (d : DiskId) (ok : Bool) (s : State) :
    diskStep d ok s = s ∨
      ((s.disk d).busy = true ∧ queueHasRoom s = true ∧
        diskStep d ok s =
          enqueue d.irq
            ((s.setDisk d ((s.disk d).complete ok (failedTransferBytes s.draws))).setDraws (s.draws + 1))) := by
  unfold diskStep
  split
  · next h =>
    rw [Bool.and_eq_true] at h
    exact .inr ⟨h.1, h.2, rfl⟩
  · exact .inl rfl

theorem sameOutsideDevices_setDisk (d : DiskId) (v : Disk) (s : State) : SameOutsideDevices s (s.setDisk d v) := by
  cases d <;> exact ⟨⟨rfl, rfl, rfl, rfl, rfl, rfl, rfl, rfl, rfl, rfl⟩, rfl, rfl, rfl, rfl, rfl, rfl⟩

/-- A device step changes nothing outside the devices (R111). -/
theorem sameOutsideDevices_deviceStep (t : DeviceStep) (s : State) : SameOutsideDevices s (deviceStep t s) := by
  cases t with
  | keyboard =>
    rcases keyboardStep_cases s with h | ⟨m, ms, _, _, h⟩
    · rw [deviceStep, h]; exact SameOutsideDevices.refl s
    · rw [deviceStep, h]
      exact ⟨⟨rfl, rfl, rfl, rfl, rfl, rfl, rfl, rfl, rfl, rfl⟩, rfl, rfl, rfl, rfl, rfl, rfl⟩
  | disk d ok =>
    rcases diskStep_cases d ok s with h | ⟨_, _, h⟩
    · rw [deviceStep, h]; exact SameOutsideDevices.refl s
    · rw [deviceStep, h]
      refine (sameOutsideDevices_setDisk d ((s.disk d).complete ok (failedTransferBytes s.draws)) s).trans ?_
      exact ⟨⟨rfl, rfl, rfl, rfl, rfl, rfl, rfl, rfl, rfl, rfl⟩, rfl, rfl, rfl, rfl, rfl, rfl⟩

theorem sameOutsideDevices_deviceSteps (ts : List DeviceStep) (s : State) :
    SameOutsideDevices s (deviceSteps ts s) := by
  induction ts generalizing s with
  | nil => exact SameOutsideDevices.refl s
  | cons t ts ih => exact (sameOutsideDevices_deviceStep t s).trans (ih (deviceStep t s))

/-- What `takeEnabled` finds: the first enabled entry, every entry before it disabled, the others in their order (R363). -/
theorem takeEnabled_eq_some {imr : BitVec 16} {q : List DeviceIrq} {k : DeviceIrq} {rest : List DeviceIrq}
    (h : takeEnabled imr q = some (k, rest)) :
    ∃ pre post, q = pre ++ k :: post ∧ rest = pre ++ post ∧ k.enabled imr = true ∧
      ∀ j ∈ pre, DeviceIrq.enabled imr j = false := by
  induction q generalizing k rest with
  | nil => simp [takeEnabled] at h
  | cons a q ih =>
    rw [takeEnabled] at h
    split at h
    · next ha =>
      simp only [Option.some.injEq, Prod.mk.injEq] at h
      obtain ⟨rfl, rfl⟩ := h
      exact ⟨[], q, rfl, rfl, ha, by simp⟩
    · next ha =>
      split at h
      · simp at h
      · next j r hj =>
        simp only [Option.some.injEq, Prod.mk.injEq] at h
        obtain ⟨rfl, rfl⟩ := h
        obtain ⟨pre, post, rfl, rfl, hk, hpre⟩ := ih hj
        refine ⟨a :: pre, post, rfl, rfl, hk, ?_⟩
        intro x hx
        rcases List.mem_cons.1 hx with rfl | hx
        · simpa using ha
        · exact hpre x hx

theorem takeEnabled_eq_none {imr : BitVec 16} {q : List DeviceIrq} :
    takeEnabled imr q = none ↔ ∀ k ∈ q, DeviceIrq.enabled imr k = false := by
  induction q with
  | nil => simp [takeEnabled]
  | cons a q ih =>
    rw [takeEnabled]
    split
    · next ha => simp [ha]
    · next ha =>
      split
      · next h =>
        have := ih.1 h
        simp only [List.mem_cons, forall_eq_or_imp, true_iff]
        exact ⟨by simpa using ha, this⟩
      · next j r hj =>
        obtain ⟨pre, post, rfl, rfl, hk, _⟩ := takeEnabled_eq_some hj
        simp only [reduceCtorEq, List.mem_cons, List.mem_append, forall_eq_or_imp, false_iff, not_and]
        intro _ hall
        have := hall j (.inr (.inl rfl))
        simp_all

/-! ## The controllers' invariant -/

theorem wf_failedTransferBytes (n : Nat) : (failedTransferBytes n).wf = true := Memory.wf_ofBytes _

theorem below_failedTransferBytes (n : Nat) : (failedTransferBytes n).below blockBytes = true :=
  Memory.below_ofBytes (by simp)

/-- A completion keeps the controller's invariant (R415). -/
theorem Disk.inv_complete {d : Disk} (h : d.Inv) (hb : d.busy = true) (ok : Bool) {fill : Memory}
    (hf : fill.wf = true) (hs : fill.below blockBytes = true) : (d.complete ok fill).Inv := by
  have himg : d.image ≠ none := fun e => by have := (h.disconnected e).1; simp_all
  have hreject : d.rejectCommand.Inv :=
    ⟨h.bufferForm, h.bufferSize, h.imageForm, fun e => absurd e himg, fun e => by simp [Disk.rejectCommand] at e,
      fun e => by simp [Disk.rejectCommand] at e, fun _ => rfl⟩
  unfold Disk.complete
  split
  · next img c hi hc =>
    obtain ⟨hw, hbel⟩ := h.imageForm img hi
    split
    · next hlt =>
      have hend : blockBytes * d.lda.toNat + blockBytes ≤ blockBytes * img.blocks.toNat := by
        simp only [blockBytes]; omega
      cases hr : c.reads
      · simp only [Disk.transfer, hr, Bool.false_eq_true, if_false]
        refine ⟨h.bufferForm, h.bufferSize, ?_, fun e => by simp [Disk.finish] at e, fun e => by simp [Disk.finish] at e,
          fun _ => ⟨rfl, rfl⟩, fun e => by simp [Disk.finish] at e⟩
        intro i hi'
        simp only [Disk.finish, Option.some.injEq] at hi'
        subst hi'
        refine ⟨Memory.wf_splice _ _ ?_ hw, Memory.below_splice hbel hend⟩
        cases ok
        · exact hf
        · exact h.bufferForm
      · simp only [Disk.transfer, hr, if_true]
        refine ⟨?_, ?_, h.imageForm, fun e => absurd e himg, fun e => by simp [Disk.finish] at e, fun _ => ⟨rfl, rfl⟩,
          fun e => by simp [Disk.finish] at e⟩
        · cases ok
          · exact hf
          · exact Memory.wf_window _ _ hw
        · cases ok
          · exact hs
          · exact Memory.below_window _ _ _
    · exact hreject
  · exact hreject

/-- A write to the register window keeps the controller's invariant (R412, R414). -/
theorem Disk.inv_writeRegister {d : Disk} (h : d.Inv) (o : Nat) (b : Byte) : (d.writeRegister o b).Inv := by
  unfold Disk.writeRegister
  split
  · exact h
  · split
    · split
      · exact h
      · exact ⟨h.bufferForm, h.bufferSize, h.imageForm, h.disconnected, h.busyClear, h.successFinished, h.badFinished⟩
    · unfold Disk.command
      split
      · exact h
      · next hc =>
        have : d.image ≠ none := fun e => by simp [e] at hc
        exact ⟨h.bufferForm, h.bufferSize, h.imageForm, fun e => absurd e this, fun _ => rfl, fun e => by simp at e,
          fun e => by simp at e⟩

/-- A write to the buffer keeps the controller's invariant (R413). -/
theorem Disk.inv_bufferWrite {d : Disk} (h : d.Inv) (o : Nat) (b : Byte) (ho : o < blockBytes) :
    ({ d with buffer := d.buffer.write o b } : Disk).Inv :=
  ⟨Memory.wf_write o b h.bufferForm, Memory.below_write h.bufferSize ho, h.imageForm, h.disconnected, h.busyClear,
    h.successFinished, h.badFinished⟩

theorem queueHasRoom_iff {s : State} : queueHasRoom s = true ↔ ∀ n, s.irqCapacity.limit = some n → s.queue.length < n := by
  unfold queueHasRoom
  cases s.irqCapacity.limit <;> simp

theorem Inv.disk {s : State} (h : Inv s) (d : DiskId) : (s.disk d).Inv := by
  cases d
  · exact h.diskA
  · exact h.diskB

/-- A new controller that meets its invariant keeps the machine's. -/
theorem Inv.setDisk {s : State} (h : Inv s) (d : DiskId) {v : Disk} (hv : v.Inv) : Inv (s.setDisk d v) := by
  cases d
  · exact ⟨h.ramForm, h.ramSize, h.romForm, h.romSize, h.displayForm, h.displaySize, hv, h.diskB,
      h.queueFits⟩
  · exact ⟨h.ramForm, h.ramSize, h.romForm, h.romSize, h.displayForm, h.displaySize, h.diskA, hv,
      h.queueFits⟩

/-- One more entry keeps the invariant where the queue has room (R361). -/
theorem Inv.enqueue {s : State} (h : Inv s) (hr : queueHasRoom s = true) (k : DeviceIrq) : Inv (enqueue k s) := by
  refine ⟨h.ramForm, h.ramSize, h.romForm, h.romSize, h.displayForm, h.displaySize, h.diskA, h.diskB, fun n hn => ?_⟩
  have := queueHasRoom_iff.1 hr n hn
  simp only [Machine.enqueue, State.setQueue_queue, List.length_append, List.length_singleton]
  omega

/-- A device step keeps the machine's invariant. -/
theorem Inv.deviceStep {s : State} (h : Inv s) (t : DeviceStep) : Inv (deviceStep t s) := by
  cases t with
  | keyboard =>
    rcases keyboardStep_cases s with e | ⟨m, ms, _, hr, e⟩
    · rw [Machine.deviceStep, e]; exact h
    · have h' := h.enqueue hr .keyboard
      rw [Machine.deviceStep, e]
      exact ⟨h.ramForm, h.ramSize, h.romForm, h.romSize, h.displayForm, h.displaySize, h.diskA, h.diskB, h'.queueFits⟩
  | disk d ok =>
    rcases diskStep_cases d ok s with e | ⟨hb, hr, e⟩
    · rw [Machine.deviceStep, e]; exact h
    · rw [Machine.deviceStep, e]
      have h1 := h.setDisk d
        (Disk.inv_complete (h.disk d) hb ok (wf_failedTransferBytes s.draws) (below_failedTransferBytes s.draws))
      have h2 : Inv ((s.setDisk d ((s.disk d).complete ok (failedTransferBytes s.draws))).setDraws (s.draws + 1)) :=
        ⟨h1.ramForm, h1.ramSize, h1.romForm, h1.romSize, h1.displayForm, h1.displaySize, h1.diskA, h1.diskB, h1.queueFits⟩
      refine h2.enqueue ?_ d.irq
      cases d <;> exact hr

theorem Inv.deviceSteps {s : State} (h : Inv s) (ts : List DeviceStep) : Inv (deviceSteps ts s) := by
  induction ts generalizing s with
  | nil => exact h
  | cons t ts ih => exact ih (h.deviceStep t)

end Sys2Proof.Machine
end

