-- ==== Sys2Proof/Laws/Operands.lean ====
section
/-! SUPPORT. The laws of register operands: what a write of a register leaves to be read, and what it does not touch. -/

namespace Sys2Proof.Machine

theorem readReg_writeReg (i j : Fin 8) (v : Word) (s : State) :
    readReg j (writeReg i v s) = if j = i then v else readReg j s := by
  simp only [readReg, writeReg, State.setRegs_regs, Fin.getElem_fin, Vector.getElem_set, Fin.ext_iff, eq_comm]

@[simp] theorem readReg_writeReg_same (i : Fin 8) (v : Word) (s : State) : readReg i (writeReg i v s) = v := by
  rw [readReg_writeReg, if_pos rfl]

theorem readReg_writeReg_other {i j : Fin 8} (v : Word) (s : State) (h : j ≠ i) :
    readReg j (writeReg i v s) = readReg j s := by
  rw [readReg_writeReg, if_neg h]

/-- A register write touches no field but the registers. -/
theorem writeReg_eq (i : Fin 8) (v : Word) (s : State) : writeReg i v s = { s with regs := (writeReg i v s).regs } := rfl

theorem writeG_eq (g : GRef) (v : BitVec g.width.bits) (s : State) :
    writeG g v s = { s with regs := (writeG g v s).regs } := rfl

/-- The low part of a merged register is the value written. -/
theorem setWidth_mergeLow (w : Width) (old : Word) (v : BitVec w.bits) : (mergeLow w old v).setWidth w.bits = v := by
  refine BitVec.eq_of_getLsbD_eq fun i hi => ?_
  cases w <;> simp only [Width.bits] at hi <;>
    simp only [mergeLow, Width.bits, BitVec.getLsbD_setWidth, BitVec.getLsbD_append, hi, decide_true, Bool.true_and,
      if_true]

/-- R32: the bits of a register outside the part written are preserved. -/
theorem mergeLow_shiftRight (w : Width) (old : Word) (v : BitVec w.bits) :
    mergeLow w old v >>> w.bits = old >>> w.bits := by
  refine BitVec.eq_of_getLsbD_eq fun i _ => ?_
  cases w
  · simp only [mergeLow, Width.bits, BitVec.getLsbD_ushiftRight, BitVec.getLsbD_append]
    rw [if_neg (by omega), Nat.add_sub_cancel_left, BitVec.getLsbD_extractLsb']
    by_cases h : i < 24
    · simp [h]
    · simp [h, BitVec.getLsbD_of_ge old (8 + i) (by omega)]
  · simp only [mergeLow, Width.bits, BitVec.getLsbD_ushiftRight, BitVec.getLsbD_append]
    rw [if_neg (by omega), Nat.add_sub_cancel_left, BitVec.getLsbD_extractLsb']
    by_cases h : i < 16
    · simp [h]
    · simp [h, BitVec.getLsbD_of_ge old (16 + i) (by omega)]
  · simp only [Width.bits, BitVec.getLsbD_ushiftRight]
    rw [BitVec.getLsbD_of_ge _ (32 + i) (by omega), BitVec.getLsbD_of_ge _ (32 + i) (by omega)]

/-- A view reads the value last written to it. -/
@[simp] theorem readG_writeG_same (g : GRef) (v : BitVec g.width.bits) (s : State) : readG g (writeG g v s) = v := by
  simp only [readG, writeG, readReg_writeReg_same, setWidth_mergeLow]

/-- A write of a view changes no other general register and no bit outside the view. -/
theorem onlyViewChanged_writeG (g : GRef) (v : BitVec g.width.bits) (s : State) : OnlyViewChanged g s (writeG g v s) :=
  ⟨fun _ hj => readReg_writeReg_other _ s hj, by rw [writeG, readReg_writeReg_same, mergeLow_shiftRight]⟩

theorem flags_toWord_ofWord (v : Word) : (Flags.ofWord v).toWord = v &&& 0xF := by
  have bit (i : Nat) : (v.getLsbD i).toNat = v.toNat / 2 ^ i % 2 := by
    rw [BitVec.getLsbD, Nat.testBit_eq_decide_div_mod_eq]
    by_cases h : v.toNat / 2 ^ i % 2 = 1
    · simp [h]
    · simp only [h, decide_false, Bool.toNat_false]; omega
  apply BitVec.eq_of_toNat_eq
  have e15 : v.toNat &&& 15 = v.toNat % 2 ^ 4 := Nat.and_two_pow_sub_one_eq_mod v.toNat 4
  simp only [Flags.toWord, Flags.ofWord, bit, BitVec.toNat_ofNat, BitVec.toNat_and, BitVec.ofNat_eq_ofNat,
    Nat.reducePow, Nat.reduceMod]
  rw [e15]
  omega

theorem flags_ofWord_toWord (f : Flags) : Flags.ofWord f.toWord = f := by
  cases f with
  | mk c z o n => cases c <;> cases z <;> cases o <;> cases n <;> rfl

/-- A special register reads what R46 stores of the value written to it. -/
theorem readSpecial_writeSpecial_same (p : SpecialReg) (v : Word) (s : State) :
    readSpecial p (writeSpecial p v s) = storedValue (.special p) v := by
  cases p
  · exact flags_toWord_ofWord v
  · rfl
  · rfl
  · rfl
  · simp only [readSpecial, writeSpecial, State.setImr_imr, storedValue]
    refine BitVec.eq_of_getLsbD_eq fun i hi => ?_
    simp only [BitVec.getLsbD_setWidth, BitVec.getLsbD_and, hi, decide_true, Bool.true_and]
    have : (0xFFFF#32).getLsbD i = decide (i < 16) := by
      interval_cases i <;> rfl
    simp only [BitVec.ofNat_eq_ofNat, this]
    cases decide (i < 16) <;> simp
  · rfl

/-- A write of a special register changes no other. -/
theorem readSpecial_writeSpecial_other {p q : SpecialReg} (v : Word) (s : State) (h : p ≠ q) :
    readSpecial p (writeSpecial q v s) = readSpecial p s := by
  cases q <;> cases p <;> first | exact absurd rfl h | rfl

/-- A write of a special register changes no general register. -/
theorem writeSpecial_regs (p : SpecialReg) (v : Word) (s : State) : (writeSpecial p v s).regs = s.regs := by
  cases p <;> rfl

/-- A write of a general register changes no special register. -/
theorem readSpecial_writeG (p : SpecialReg) (g : GRef) (v : BitVec g.width.bits) (s : State) :
    readSpecial p (writeG g v s) = readSpecial p s := by
  cases p <;> rfl

/-- `Reg(ref)` after `Reg(ref) <- v` (R31, R32, R46). -/
theorem readRef_writeRef_same (r : Ref) (v : Word) (s : State) : readRef r (writeRef r v s) = storedValue r v := by
  cases r with
  | gpr g => simp only [readRef, writeRef, readG_writeG_same, storedValue]
  | special p => exact readSpecial_writeSpecial_same p v s

/-- `Reg(ref) <- v` changes no other register. -/
theorem onlyRefChanged_writeRef (r : Ref) (v : Word) (s : State) : OnlyRefChanged r s (writeRef r v s) := by
  cases r with
  | gpr g => exact ⟨onlyViewChanged_writeG g _ s, fun p => readSpecial_writeG p g _ s⟩
  | special q => exact ⟨writeSpecial_regs q v s, fun p hp => readSpecial_writeSpecial_other v s hp⟩

/-- `Reg(ref) <- v` touches nothing but registers. -/
theorem sameOutsideRegisters_writeRef (r : Ref) (v : Word) (s : State) : SameOutsideRegisters s (writeRef r v s) := by
  cases r with
  | gpr g => rfl
  | special q => cases q <;> rfl

@[simp] theorem writeRef_pc (r : Ref) (v : Word) (s : State) : (writeRef r v s).pc = s.pc := by
  cases r with
  | gpr g => rfl
  | special q => cases q <;> rfl

@[simp] theorem advance_pc (n : Nat) (s : State) : (advance n s).pc = s.pc + BitVec.ofNat 32 n := rfl

@[simp] theorem readReg_advance (n : Nat) (i : Fin 8) (s : State) : readReg i (advance n s) = readReg i s := rfl

@[simp] theorem readG_advance (n : Nat) (g : GRef) (s : State) : readG g (advance n s) = readG g s := rfl

@[simp] theorem readSpecial_advance (n : Nat) (p : SpecialReg) (s : State) :
    readSpecial p (advance n s) = readSpecial p s := by
  cases p <;> rfl

@[simp] theorem readRef_advance (n : Nat) (r : Ref) (s : State) : readRef r (advance n s) = readRef r s := by
  cases r with
  | gpr g => rfl
  | special p => exact readSpecial_advance n p s

end Sys2Proof.Machine
end

