-- ==== Sys2Proof/Laws/Ops.lean ====
section
/-! SUPPORT. The laws of the shared operations: what reading and writing the physical space, translating an address, accessing
memory and taking an exception can change, said once for each; that where no device step falls inside its accesses (`Quiet`) a
read changes nothing and a write is the writes of its bytes; and that each operation keeps the machine's invariant. -/

namespace Sys2Proof.Machine

/-! ## The physical map -/

/-- Rows of the map that hold a byte a write can change have offsets inside the row (R71). -/
theorem regionOf_display_lt {pa : Word} {o : Nat} (h : regionOf pa = .display o) : o < 6000 := by
  unfold regionOf at h
  simp only at h
  repeat' split at h
  all_goals first | (simp only [Region.display.injEq] at h; omega) | cases h

theorem regionOf_diskBuffer_lt {pa : Word} {d : DiskId} {o : Nat} (h : regionOf pa = .diskBuffer d o) : o < 4096 := by
  unfold regionOf at h
  simp only at h
  repeat' split at h
  all_goals first | (cases h; omega) | cases h

/-- A byte write changes memory and devices only (R72). -/
theorem onlyMemoryChanged_poke (pa : Word) (b : Byte) (s : State) : OnlyMemoryChanged s (poke pa b s) := by
  have hdisk (d : DiskId) (v : Disk) : OnlyMemoryChanged s (s.setDisk d v) := by
    cases d <;> exact ⟨⟨rfl, rfl, rfl, rfl, rfl, rfl, rfl, rfl, rfl, rfl⟩, rfl, rfl, List.prefix_rfl, rfl, rfl, rfl, rfl,
      rfl, rfl⟩
  have hrefl : OnlyMemoryChanged s s :=
    ⟨SameRegisters.refl s, rfl, rfl, List.prefix_rfl, rfl, rfl, rfl, rfl, rfl, rfl⟩
  unfold poke
  split
  · exact ⟨⟨rfl, rfl, rfl, rfl, rfl, rfl, rfl, rfl, rfl, rfl⟩, rfl, rfl, List.prefix_rfl, rfl, rfl, rfl, rfl, rfl, rfl⟩
  · exact hrefl
  · exact ⟨⟨rfl, rfl, rfl, rfl, rfl, rfl, rfl, rfl, rfl, rfl⟩, rfl, rfl, List.prefix_append _ _, rfl, rfl, rfl, rfl, rfl,
      rfl⟩
  · exact hdisk _ _
  · exact hdisk _ _
  · exact hrefl
  · exact ⟨⟨rfl, rfl, rfl, rfl, rfl, rfl, rfl, rfl, rfl, rfl⟩, rfl, rfl, List.prefix_rfl, rfl, rfl, rfl, rfl, rfl, rfl⟩

theorem Inv.poke {s : State} (h : Inv s) (pa : Word) (b : Byte) : Inv (poke pa b s) := by
  have hram : Inv (s.setRam (s.ram.write pa.toNat b)) :=
    ⟨Memory.wf_write _ _ h.ramForm, Memory.below_write h.ramSize pa.isLt, h.romForm, h.romSize, h.displayForm,
      h.displaySize, h.diskA, h.diskB, h.queueFits⟩
  unfold Machine.poke
  split
  · exact hram
  · exact h
  · next o ho =>
    exact ⟨h.ramForm, h.ramSize, h.romForm, h.romSize, Memory.wf_write _ _ h.displayForm,
      Memory.below_write h.displaySize (regionOf_display_lt ho), h.diskA, h.diskB, h.queueFits⟩
  · exact h.setDisk _ (Disk.inv_writeRegister (h.disk _) _ _)
  · next d o ho => exact h.setDisk _ (Disk.inv_bufferWrite (h.disk _) _ _ (regionOf_diskBuffer_lt ho))
  · exact h
  · exact hram

/-! ## Device steps inside a CPU step -/

/-- Whatever device steps fall after an access, they change nothing outside the devices (R120). -/
theorem sameOutsideDevices_afterAccess (pa : Word) (s : State) : SameOutsideDevices s (afterAccess pa s) := by
  unfold afterAccess
  split
  · split
    · exact SameOutsideDevices.refl s
    · next ts rest _ =>
      have h0 : SameOutsideDevices s (s.setMidStep rest) :=
        ⟨⟨rfl, rfl, rfl, rfl, rfl, rfl, rfl, rfl, rfl, rfl⟩, rfl, rfl, rfl, rfl, rfl, rfl⟩
      exact h0.trans (sameOutsideDevices_deviceSteps ts _)
  · exact SameOutsideDevices.refl s

/-- An access outside the device windows is followed by no device step (R120). -/
theorem afterAccess_of_not_device {pa : Word} (h : (regionOf pa).isDevice = false) (s : State) :
    afterAccess pa s = s := by
  unfold afterAccess
  rw [h]
  rfl

/-- Where no device step falls inside the accesses, nothing happens after any of them (R120). -/
theorem afterAccess_of_quiet {ps : List Word} {pa : Word} {s : State} (h : Quiet ps s) (hp : pa ∈ ps) :
    afterAccess pa s = s := by
  rcases h with h | h
  · unfold afterAccess
    rw [h]
    split <;> rfl
  · exact afterAccess_of_not_device (h pa hp) s

/-- An access to a device window is followed by the next planned list of device steps (R120). -/
theorem afterAccess_of_planned {pa : Word} {s : State} {ts : List DeviceStep} {rest : List (List DeviceStep)}
    (h : (regionOf pa).isDevice = true) (e : s.midStep = ts :: rest) :
    afterAccess pa s = deviceSteps ts (s.setMidStep rest) := by
  unfold afterAccess
  rw [h, e]
  rfl

theorem Quiet.mono {ps qs : List Word} {s : State} (h : Quiet ps s) (hs : qs ⊆ ps) : Quiet qs s :=
  h.imp id fun h p hp => h p (hs hp)

theorem Quiet.congr {ps : List Word} {s t : State} (h : Quiet ps s) (e : t.midStep = s.midStep) : Quiet ps t :=
  h.imp e.trans id

theorem quiet_append {ps qs : List Word} {s : State} : Quiet (ps ++ qs) s ↔ Quiet ps s ∧ Quiet qs s := by
  unfold Quiet
  simp only [List.mem_append, or_imp, forall_and, or_and_left]

theorem quiet_nil (s : State) : Quiet [] s := .inr fun _ h => nomatch h

theorem Inv.setMidStep {s : State} (h : Inv s) (v : List (List DeviceStep)) : Inv (s.setMidStep v) :=
  ⟨h.ramForm, h.ramSize, h.romForm, h.romSize, h.displayForm, h.displaySize, h.diskA, h.diskB,
    h.queueFits⟩

theorem Inv.afterAccess {s : State} (h : Inv s) (pa : Word) : Inv (afterAccess pa s) := by
  unfold Machine.afterAccess
  split
  · split
    · exact h
    · exact (h.setMidStep _).deviceSteps _
  · exact h

/-! ## Reads -/

theorem sameOutsideDevices_physReadList (ps : List Word) (s : State) :
    SameOutsideDevices s (physReadList ps s).2 := by
  induction ps generalizing s with
  | nil => exact SameOutsideDevices.refl s
  | cons p ps ih => exact (sameOutsideDevices_afterAccess p s).trans (ih _)

/-- With no device step inside, a read of several bytes returns them and changes nothing (R77, R81). -/
theorem physReadList_of_quiet {ps : List Word} {s : State} (h : Quiet ps s) :
    physReadList ps s = (ps.map (peek s), s) := by
  induction ps with
  | nil => rfl
  | cons p ps ih =>
    have e : (physRead8 p s).2 = s := afterAccess_of_quiet h List.mem_cons_self
    simp only [physReadList, e, ih (h.mono fun _ => List.mem_cons_of_mem _), List.map_cons]
    rfl

theorem Inv.physReadList {s : State} (h : Inv s) (ps : List Word) : Inv (physReadList ps s).2 := by
  induction ps generalizing s with
  | nil => exact h
  | cons p ps ih => exact ih (h.afterAccess p)

/-- A physical read changes nothing outside the devices. -/
theorem sameOutsideDevices_physRead (n : Nat) (pa : Word) (s : State) : SameOutsideDevices s (physRead n pa s).2 :=
  sameOutsideDevices_physReadList _ s

/-- With no device step inside, a physical read returns the bytes' big-endian value and changes nothing (R77, R81). -/
theorem physRead_of_quiet {s : State} {n : Nat} {pa : Word} (h : Quiet (addresses pa n) s) :
    physRead n pa s = (beWord ((addresses pa n).map (peek s)), s) := by
  simp only [physRead, physReadList_of_quiet h]

theorem Inv.physRead {s : State} (h : Inv s) (n : Nat) (pa : Word) : Inv (physRead n pa s).2 := h.physReadList _

/-! ## Writes -/

/-- What a memory write keeps: every register, ROM, the capacity and the schedule; the display's records only grow. -/
structure KeepsCpu (s t : State) : Prop extends SameRegisters s t where
  rom : t.rom = s.rom
  irqCapacity : t.irqCapacity = s.irqCapacity
  schedule : t.schedule = s.schedule
  records : s.records <+: t.records

theorem KeepsCpu.refl (s : State) : KeepsCpu s s := ⟨SameRegisters.refl s, rfl, rfl, rfl, List.prefix_rfl⟩

theorem KeepsCpu.trans {s t u : State} (h : KeepsCpu s t) (k : KeepsCpu t u) : KeepsCpu s u :=
  ⟨h.toSameRegisters.trans k.toSameRegisters, k.rom.trans h.rom, k.irqCapacity.trans h.irqCapacity,
    k.schedule.trans h.schedule, h.records.trans k.records⟩

theorem SameOutsideDevices.keepsCpu {s t : State} (h : SameOutsideDevices s t) : KeepsCpu s t :=
  ⟨h.toSameRegisters, h.rom, h.irqCapacity, h.schedule, by rw [h.records]⟩

theorem OnlyMemoryChanged.keepsCpu {s t : State} (h : OnlyMemoryChanged s t) : KeepsCpu s t :=
  ⟨h.toSameRegisters, h.rom, h.irqCapacity, h.schedule, h.records⟩

theorem OnlyMemoryChanged.refl (s : State) : OnlyMemoryChanged s s :=
  ⟨SameRegisters.refl s, rfl, rfl, List.prefix_rfl, rfl, rfl, rfl, rfl, rfl, rfl⟩

theorem OnlyMemoryChanged.trans {s t u : State} (h : OnlyMemoryChanged s t) (k : OnlyMemoryChanged t u) :
    OnlyMemoryChanged s u :=
  ⟨h.toSameRegisters.trans k.toSameRegisters, k.rom.trans h.rom, k.keyboard.trans h.keyboard,
    h.records.trans k.records, k.queue.trans h.queue, k.irqCapacity.trans h.irqCapacity,
    k.hostKeys.trans h.hostKeys, k.schedule.trans h.schedule, k.midStep.trans h.midStep, k.draws.trans h.draws⟩

theorem keepsCpu_physWrite8 (pa : Word) (b : Byte) (s : State) : KeepsCpu s (physWrite8 pa b s) :=
  (onlyMemoryChanged_poke pa b s).keepsCpu.trans (sameOutsideDevices_afterAccess pa _).keepsCpu

theorem keepsCpu_physWriteList (cs : List (Word × Byte)) (s : State) : KeepsCpu s (physWriteList cs s) := by
  induction cs generalizing s with
  | nil => exact KeepsCpu.refl s
  | cons c cs ih => exact (keepsCpu_physWrite8 c.1 c.2 s).trans (ih _)

@[simp] theorem pokes_nil (s : State) : pokes [] s = s := rfl

@[simp] theorem pokes_cons (c : Word × Byte) (cs : List (Word × Byte)) (s : State) :
    pokes (c :: cs) s = pokes cs (poke c.1 c.2 s) := rfl

theorem pokes_append (cs ds : List (Word × Byte)) (s : State) : pokes (cs ++ ds) s = pokes ds (pokes cs s) :=
  List.foldl_append

theorem onlyMemoryChanged_pokes (cs : List (Word × Byte)) (s : State) : OnlyMemoryChanged s (pokes cs s) := by
  induction cs generalizing s with
  | nil => exact OnlyMemoryChanged.refl s
  | cons c cs ih => exact (onlyMemoryChanged_poke c.1 c.2 s).trans (ih _)

theorem Inv.pokes {s : State} (h : Inv s) (cs : List (Word × Byte)) : Inv (pokes cs s) := by
  induction cs generalizing s with
  | nil => exact h
  | cons c cs ih => exact ih (h.poke c.1 c.2)

/-- With no device step inside, a write of several bytes is the writes of its bytes in order (R77). -/
theorem physWriteList_of_quiet {cs : List (Word × Byte)} {s : State} (h : Quiet (cs.map Prod.fst) s) :
    physWriteList cs s = pokes cs s := by
  induction cs generalizing s with
  | nil => rfl
  | cons c cs ih =>
    have hp : Quiet ((c :: cs).map Prod.fst) (poke c.1 c.2 s) := h.congr (onlyMemoryChanged_poke c.1 c.2 s).midStep
    have e : physWrite8 c.1 c.2 s = poke c.1 c.2 s := afterAccess_of_quiet hp List.mem_cons_self
    rw [physWriteList, e, pokes_cons]
    exact ih (hp.mono fun _ => List.mem_cons_of_mem _)

theorem map_fst_zip_subset {α β : Type} (ps : List α) (bs : List β) : (ps.zip bs).map Prod.fst ⊆ ps := by
  intro p hp
  obtain ⟨c, hc, rfl⟩ := List.mem_map.1 hp
  exact (List.of_mem_zip hc).1

/-- `copyPokes` changes memory and devices only. -/
theorem onlyMemoryChanged_copyPokes (d x : Word) (n : Nat) (s : State) : OnlyMemoryChanged s (copyPokes d x n s) := by
  induction n with
  | zero => exact OnlyMemoryChanged.refl s
  | succ n ih => exact ih.trans (onlyMemoryChanged_poke _ _ _)

theorem Inv.physWriteList {s : State} (h : Inv s) (cs : List (Word × Byte)) : Inv (physWriteList cs s) := by
  induction cs generalizing s with
  | nil => exact h
  | cons c cs ih => exact ih ((h.poke c.1 c.2).afterAccess c.1)

theorem keepsCpu_physWrite (n : Nat) (pa v : Word) (s : State) : KeepsCpu s (physWrite n pa v s) :=
  keepsCpu_physWriteList _ s

theorem Inv.physWrite {s : State} (h : Inv s) (n : Nat) (pa v : Word) : Inv (physWrite n pa v s) := h.physWriteList _

/-! ## Translation -/

/-- A table walk changes nothing outside the devices (R99). -/
theorem sameOutsideDevices_translate (va : Word) (acc : Access) (s : State) :
    SameOutsideDevices s (translate va acc s).2 := by
  have h1 := sameOutsideDevices_physRead 4 (pdeAddress s.pdpr va) s
  unfold translate
  simp only
  split
  · exact h1
  · have h2 := h1.trans (sameOutsideDevices_physRead 4 (pteAddress (physRead 4 (pdeAddress s.pdpr va) s).1 va) _)
    split
    · exact h2
    · split
      · exact h2
      · exact h2

/-- With no device step inside its two reads, a table walk changes nothing, and is what R90 says of the entries as they are. -/
theorem translate_of_quiet {va : Word} {acc : Access} {s : State} (hm : s.mode = .user) (h : Quiet (walkReads va s) s) :
    translate va acc s =
      (let pde := wordAt s (pdeAddress s.pdpr va)
      let pte := wordAt s (pteAddress pde va)
      if pde.getLsbD 0 = false then none
      else if pte.getLsbD 0 = false then none
      else if pte.getLsbD acc.permissionBit = false then none
      else some (pte.extractLsb' 12 20 ++ va.extractLsb' 0 12), s) := by
  rw [walkReads, hm] at h
  simp only [quiet_append] at h
  have e1 : physRead 4 (pdeAddress s.pdpr va) s = (wordAt s (pdeAddress s.pdpr va), s) := physRead_of_quiet h.1
  unfold translate
  simp only [e1]
  by_cases hp : (wordAt s (pdeAddress s.pdpr va)).getLsbD 0 = true
  · rw [if_pos hp] at h
    have e2 : physRead 4 (pteAddress (wordAt s (pdeAddress s.pdpr va)) va) s =
        (wordAt s (pteAddress (wordAt s (pdeAddress s.pdpr va)) va), s) := physRead_of_quiet h.2
    simp only [hp, Bool.true_eq_false, if_false, e2]
    repeat' split
    all_goals rfl
  · simp only [Bool.not_eq_true] at hp
    simp only [hp, if_true]

theorem Inv.translate {s : State} (h : Inv s) (va : Word) (acc : Access) : Inv (translate va acc s).2 := by
  unfold Machine.translate
  simp only
  have h1 := h.physRead 4 (pdeAddress s.pdpr va)
  have h2 := h1.physRead 4 (pteAddress (Machine.physRead 4 (pdeAddress s.pdpr va) s).1 va)
  split
  · exact h1
  · split
    · exact h2
    · split
      · exact h2
      · exact h2

theorem sameOutsideDevices_resolve (va : Word) (acc : Access) (s : State) :
    SameOutsideDevices s (resolve va acc s).2 := by
  unfold resolve
  split
  · exact SameOutsideDevices.refl s
  · exact sameOutsideDevices_translate va acc s

/-- With no device step inside, a translation changes nothing. -/
theorem resolve_state_of_quiet {va : Word} {acc : Access} {s : State} (h : Quiet (walkReads va s) s) :
    (resolve va acc s).2 = s := by
  unfold resolve
  split
  · rfl
  · next hm => rw [translate_of_quiet hm h]

theorem Inv.resolve {s : State} (h : Inv s) (va : Word) (acc : Access) : Inv (resolve va acc s).2 := by
  unfold Machine.resolve
  split
  · exact h
  · exact h.translate va acc

/-- R94: in kernel mode an address is physical. -/
theorem resolve_kernel {s : State} (h : s.mode = .kernel) (va : Word) (acc : Access) :
    resolve va acc s = (some va, s) := by
  unfold resolve
  rw [h]

/-! ## Memory accesses -/

/-- The state in which a memory access ends, with or without a page fault. -/
def MemResult.state {α : Type} (r : MemResult α) : State :=
  match r with
  | .ok _ s => s
  | .pageFault _ s => s

@[simp] theorem MemResult.state_ok {α : Type} (v : α) (s : State) : (MemResult.ok v s).state = s := rfl

@[simp] theorem MemResult.state_pageFault {α : Type} (va : Word) (s : State) :
    (MemResult.pageFault va s : MemResult α).state = s := rfl

@[simp] theorem MemResult.bind_ok {α β : Type} (v : α) (s : State) (k : α → State → MemResult β) :
    (MemResult.ok v s).bind k = k v s := rfl

@[simp] theorem MemResult.bind_pageFault {α β : Type} (va : Word) (s : State) (k : α → State → MemResult β) :
    (MemResult.pageFault va s : MemResult α).bind k = .pageFault va s := rfl

@[simp] theorem MemResult.finish_ok {α : Type} (v : α) (s : State) (k : α → State → State) :
    (MemResult.ok v s).finish k = .next (k v s) := rfl

@[simp] theorem MemResult.finish_pageFault {α : Type} (va : Word) (s : State) (k : α → State → State) :
    (MemResult.pageFault va s : MemResult α).finish k = .next (raisePageFault va s) := rfl

/-- A relation that composes holds of one access after another where it holds of each. -/
theorem MemResult.state_bind {α β : Type} {R : State → Prop} {r : MemResult α} {k : α → State → MemResult β}
    (hr : R r.state) (hk : ∀ v s, R s → R (k v s).state) : R (r.bind k).state := by
  cases r with
  | ok v s => exact hk v s hr
  | pageFault va s => exact hr

theorem sameOutsideDevices_resolveList (acc : Access) (as : List Word) (s : State) :
    SameOutsideDevices s (resolveList acc as s).state := by
  induction as generalizing s with
  | nil => exact SameOutsideDevices.refl s
  | cons a as ih =>
    have h := sameOutsideDevices_resolve a acc s
    rw [resolveList]
    split
    · next e => rw [e] at h; exact h
    · next p s1 e =>
      rw [e] at h
      refine MemResult.state_bind (R := SameOutsideDevices s) (h.trans (ih s1)) ?_
      intro ps s2 h2
      exact h2

/-- With no device step inside, the walk over an access changes nothing. -/
theorem resolveList_state_of_quiet {acc : Access} {as : List Word} {s : State} (h : Quiet (walksRead acc as s) s) :
    (resolveList acc as s).state = s := by
  induction as with
  | nil => rfl
  | cons a as ih =>
    rw [walksRead, quiet_append] at h
    have e := resolve_state_of_quiet (acc := acc) h.1
    rw [resolveList]
    split
    · next e1 => rw [e1] at e; exact e
    · next p s1 e1 =>
      rw [e1] at e
      simp only at e
      subst e
      rw [e1] at h
      exact MemResult.state_bind (R := fun t => t = s1) (ih h.2) (fun _ _ h2 => h2)

/-- R95, R96: when every byte translates, each gets the address that its translation gives. -/
theorem length_of_resolveList_ok {acc : Access} {as ps : List Word} {s t : State}
    (h : resolveList acc as s = .ok ps t) : ps.length = as.length := by
  induction as generalizing s ps t with
  | nil => cases h; rfl
  | cons a as ih =>
    rw [resolveList] at h
    split at h
    · cases h
    · next p s1 _ =>
      cases hr : resolveList acc as s1 with
      | ok qs s2 => rw [hr] at h; cases h; simp [ih hr]
      | pageFault va s2 => rw [hr] at h; cases h

/-- R94: in kernel mode every address is its own physical address. -/
theorem resolveList_kernel {s : State} (h : s.mode = .kernel) (acc : Access) (as : List Word) :
    resolveList acc as s = .ok as s := by
  induction as with
  | nil => rfl
  | cons a as ih => rw [resolveList, resolve_kernel h]; simp only [ih, MemResult.bind_ok]

theorem Inv.resolveList {s : State} (h : Inv s) (acc : Access) (as : List Word) :
    Inv (resolveList acc as s).state := by
  induction as generalizing s with
  | nil => exact h
  | cons a as ih =>
    have h1 := h.resolve a acc
    rw [Machine.resolveList]
    split
    · next e => rw [e] at h1; exact h1
    · next p s1 e =>
      rw [e] at h1
      exact MemResult.state_bind (R := Inv) (ih h1) fun _ _ h2 => h2

/-- A memory read, ending in a value or a page fault, changes nothing outside the devices (R95, R81). -/
theorem sameOutsideDevices_memRead (n : Nat) (va : Word) (acc : Access) (s : State) :
    SameOutsideDevices s (memRead n va acc s).state :=
  MemResult.state_bind (R := SameOutsideDevices s) (sameOutsideDevices_resolveList acc _ s) fun ps s1 h1 =>
    h1.trans (sameOutsideDevices_physReadList ps s1)

/-- R94: a kernel-mode read never faults. -/
theorem memRead_kernel {s : State} (hm : s.mode = .kernel) (n : Nat) (va : Word) (acc : Access) :
    memRead n va acc s = .ok (beWord (physReadList (addresses va n) s).1) (physReadList (addresses va n) s).2 := by
  rw [memRead, resolveList_kernel hm, MemResult.bind_ok]

theorem Inv.memRead {s : State} (h : Inv s) (n : Nat) (va : Word) (acc : Access) : Inv (memRead n va acc s).state :=
  MemResult.state_bind (R := Inv) (h.resolveList acc _) fun ps _ h1 => h1.physReadList ps

/-- A memory write, completed or ended by a page fault, keeps every register (R96). -/
theorem keepsCpu_memWrite (n : Nat) (va v : Word) (s : State) : KeepsCpu s (memWrite n va v s).state :=
  MemResult.state_bind (R := KeepsCpu s) (sameOutsideDevices_resolveList .write _ s).keepsCpu fun _ s1 h1 =>
    h1.trans (keepsCpu_physWriteList _ s1)

/-- R96: a write that faults writes nothing. -/
theorem memWrite_pageFault_same {n : Nat} {va v a : Word} {s t : State} (h : memWrite n va v s = .pageFault a t) :
    SameOutsideDevices s t := by
  have hs := sameOutsideDevices_resolveList .write (addresses va n) s
  rw [memWrite] at h
  cases hr : resolveList .write (addresses va n) s with
  | ok ps s1 => rw [hr] at h; cases h
  | pageFault b s1 => rw [hr] at h hs; cases h; exact hs

/-- R94: a kernel-mode write never faults. -/
theorem memWrite_kernel {s : State} (hm : s.mode = .kernel) (n : Nat) (va v : Word) :
    memWrite n va v s = .ok () (physWrite n va v s) := by
  rw [memWrite, resolveList_kernel hm, MemResult.bind_ok, physWrite]

theorem Inv.memWrite {s : State} (h : Inv s) (n : Nat) (va v : Word) : Inv (memWrite n va v s).state :=
  MemResult.state_bind (R := Inv) (h.resolveList .write _) fun ps _ h1 => h1.physWriteList (ps.zip (beBytes n v))

theorem keepsCpu_memSwap (n : Nat) (va v : Word) (s : State) : KeepsCpu s (memSwap n va v s).state := by
  unfold memSwap
  refine MemResult.state_bind (R := KeepsCpu s) (sameOutsideDevices_resolveList .read _ s).keepsCpu fun _ s1 h1 => ?_
  refine MemResult.state_bind (R := KeepsCpu s)
    (h1.trans (sameOutsideDevices_resolveList .write _ s1).keepsCpu) fun _ s2 h2 => ?_
  refine MemResult.state_bind (R := KeepsCpu s)
    (h2.trans (sameOutsideDevices_memRead n va .read s2).keepsCpu) fun _ s3 h3 => ?_
  exact MemResult.state_bind (R := KeepsCpu s) (h3.trans (keepsCpu_memWrite n va v s3)) fun _ _ h4 => h4

theorem Inv.memSwap {s : State} (h : Inv s) (n : Nat) (va v : Word) : Inv (memSwap n va v s).state := by
  unfold Machine.memSwap
  refine MemResult.state_bind (R := Inv) (h.resolveList .read _) fun _ s1 h1 => ?_
  refine MemResult.state_bind (R := Inv) (h1.resolveList .write _) fun _ s2 h2 => ?_
  refine MemResult.state_bind (R := Inv) (h2.memRead n va .read) fun _ s3 h3 => ?_
  exact MemResult.state_bind (R := Inv) (h3.memWrite n va v) fun _ _ h4 => h4

theorem keepsCpu_blockCopyLoop (n : Nat) (d src : Word) (s : State) : KeepsCpu s (blockCopyLoop n d src s).state := by
  induction n generalizing d src s with
  | zero => exact KeepsCpu.refl s
  | succ n ih =>
    rw [blockCopyLoop]
    refine MemResult.state_bind (R := KeepsCpu s) (sameOutsideDevices_memRead 1 src .read s).keepsCpu fun b s1 h1 => ?_
    exact MemResult.state_bind (R := KeepsCpu s) (h1.trans (keepsCpu_memWrite 1 d b s1)) fun _ s2 h2 => h2.trans (ih _ _ s2)

theorem Inv.blockCopyLoop {s : State} (h : Inv s) (n : Nat) (d src : Word) : Inv (blockCopyLoop n d src s).state := by
  induction n generalizing d src s with
  | zero => exact h
  | succ n ih =>
    rw [Machine.blockCopyLoop]
    refine MemResult.state_bind (R := Inv) (h.memRead 1 src .read) fun b s1 h1 => ?_
    exact MemResult.state_bind (R := Inv) (h1.memWrite 1 d b) fun _ _ h2 => ih h2 _ _

theorem keepsCpu_blockSetLoop (n : Nat) (d v : Word) (s : State) : KeepsCpu s (blockSetLoop n d v s).state := by
  induction n generalizing d s with
  | zero => exact KeepsCpu.refl s
  | succ n ih =>
    rw [blockSetLoop]
    exact MemResult.state_bind (R := KeepsCpu s) (keepsCpu_memWrite 1 d v s) fun _ s1 h1 => h1.trans (ih _ s1)

theorem Inv.blockSetLoop {s : State} (h : Inv s) (n : Nat) (d v : Word) : Inv (blockSetLoop n d v s).state := by
  induction n generalizing d s with
  | zero => exact h
  | succ n ih =>
    rw [Machine.blockSetLoop]
    exact MemResult.state_bind (R := Inv) (h.memWrite 1 d v) fun _ _ h1 => ih h1 _

/-! ## Exceptions -/

/-- What a push on the kernel stack does to the registers: `kspr` moves down by 4 and nothing else changes (R373). -/
theorem keepsCpu_pushKernel (v : Word) (s : State) : KeepsCpu (s.setKspr (s.kspr - 4)) (pushKernel v s) :=
  keepsCpu_physWrite 4 _ v _

/-- What the three pushes of a frame do to the registers: kernel mode, `kspr` 12 lower, nothing else (R373). -/
theorem keepsCpu_pushFrame (ret : Word) (s : State) :
    KeepsCpu ((s.setMode .kernel).setKspr (s.kspr - 12)) (pushFrame ret s) := by
  rw [pushFrame]
  have h1 := keepsCpu_pushKernel (statusWord s) (s.setMode .kernel)
  generalize pushKernel (statusWord s) (s.setMode .kernel) = s1 at h1 ⊢
  have h2 := keepsCpu_pushKernel ret s1
  generalize pushKernel ret s1 = s2 at h2 ⊢
  have h3 := keepsCpu_pushKernel s2.uspr s2
  generalize pushKernel s2.uspr s2 = s3 at h3 ⊢
  have k1 : s1.kspr = s.kspr - 4 := h1.kspr
  have k2 : s2.kspr = s1.kspr - 4 := h2.kspr
  have k3 : s3.kspr = s2.kspr - 4 := h3.kspr
  refine ⟨⟨?_, ?_, ?_, ?_, ?_, ?_, ?_, ?_, ?_, ?_⟩, ?_, ?_, ?_, ?_⟩
  · exact h3.regs.trans (h2.regs.trans h1.regs)
  · exact h3.pc.trans (h2.pc.trans h1.pc)
  · exact h3.flags.trans (h2.flags.trans h1.flags)
  · exact h3.uspr.trans (h2.uspr.trans h1.uspr)
  · rw [k3, k2, k1, State.setKspr_kspr]
    bv_omega
  · exact h3.pdpr.trans (h2.pdpr.trans h1.pdpr)
  · exact h3.imr.trans (h2.imr.trans h1.imr)
  · exact h3.pfva.trans (h2.pfva.trans h1.pfva)
  · exact h3.mode.trans (h2.mode.trans h1.mode)
  · exact h3.runState.trans (h2.runState.trans h1.runState)
  · exact h3.rom.trans (h2.rom.trans h1.rom)
  · exact h3.irqCapacity.trans (h2.irqCapacity.trans h1.irqCapacity)
  · exact h3.schedule.trans (h2.schedule.trans h1.schedule)
  · exact h1.records.trans (h2.records.trans h3.records)

/-- What taking an interrupt does to the registers, said once (R373, R376): kernel mode, `kspr` 12 lower, `imr` 0, running,
the pc from the vector; everything else as before. -/
theorem keepsCpu_takeInterrupt (k : Interrupt) (ret : Word) (s : State) :
    KeepsCpu
      ((((((s.setMode .kernel).setKspr (s.kspr - 12)).setImr 0).setRunState .running)).setPc
        (takeInterrupt k ret s).pc)
      (takeInterrupt k ret s) := by
  rw [takeInterrupt]
  have h := keepsCpu_pushFrame ret s
  generalize pushFrame ret s = s1 at h ⊢
  have h2 := sameOutsideDevices_physRead 4 (vectorAddress k) (s1.setImr 0)
  generalize physRead 4 (vectorAddress k) (s1.setImr 0) = v at h2 ⊢
  have hr : v.2.records = s1.records := h2.records
  refine ⟨⟨?_, rfl, ?_, ?_, ?_, ?_, ?_, ?_, ?_, rfl⟩, ?_, ?_, ?_, ?_⟩
  · exact h2.regs.trans h.regs
  · exact h2.flags.trans h.flags
  · exact h2.uspr.trans h.uspr
  · exact h2.kspr.trans h.kspr
  · exact h2.pdpr.trans h.pdpr
  · exact h2.imr
  · exact h2.pfva.trans h.pfva
  · exact h2.mode.trans h.mode
  · exact h2.rom.trans h.rom
  · exact h2.irqCapacity.trans h.irqCapacity
  · exact h2.schedule.trans h.schedule
  · exact (by rw [← hr] : s1.records = v.2.records) ▸ h.records

theorem Inv.setMode {s : State} (h : Inv s) (m : Mode) : Inv (s.setMode m) :=
  ⟨h.ramForm, h.ramSize, h.romForm, h.romSize, h.displayForm, h.displaySize, h.diskA, h.diskB,
    h.queueFits⟩

theorem Inv.pushKernel {s : State} (h : Inv s) (v : Word) : Inv (pushKernel v s) :=
  Inv.physWrite (s := s.setKspr (s.kspr - 4)) ⟨h.ramForm, h.ramSize, h.romForm, h.romSize, h.displayForm, h.displaySize,
    h.diskA, h.diskB, h.queueFits⟩ _ _ _

theorem Inv.setPc {s : State} (h : Inv s) (v : Word) : Inv (s.setPc v) :=
  ⟨h.ramForm, h.ramSize, h.romForm, h.romSize, h.displayForm, h.displaySize, h.diskA, h.diskB,
    h.queueFits⟩

theorem Inv.setImr {s : State} (h : Inv s) (v : BitVec 16) : Inv (s.setImr v) :=
  ⟨h.ramForm, h.ramSize, h.romForm, h.romSize, h.displayForm, h.displaySize, h.diskA, h.diskB,
    h.queueFits⟩

theorem Inv.setRunState {s : State} (h : Inv s) (v : RunState) : Inv (s.setRunState v) :=
  ⟨h.ramForm, h.ramSize, h.romForm, h.romSize, h.displayForm, h.displaySize, h.diskA, h.diskB,
    h.queueFits⟩

theorem Inv.pushFrame {s : State} (h : Inv s) (ret : Word) : Inv (pushFrame ret s) := by
  rw [Machine.pushFrame]
  have h1 := (h.setMode .kernel).pushKernel (statusWord s)
  generalize Machine.pushKernel (statusWord s) (s.setMode .kernel) = s1 at h1 ⊢
  exact (h1.pushKernel ret).pushKernel _

/-- Taking an interrupt keeps the machine's invariant. -/
theorem Inv.takeInterrupt {s : State} (h : Inv s) (k : Interrupt) (ret : Word) : Inv (takeInterrupt k ret s) := by
  rw [Machine.takeInterrupt]
  have h1 := h.pushFrame ret
  generalize Machine.pushFrame ret s = s1 at h1 ⊢
  exact (((h1.setImr 0).physRead 4 (vectorAddress k)).setPc _).setRunState _

/-- R173: the three reads of a return change nothing outside the devices. -/
theorem sameOutsideDevices_frameReads (s : State) :
    SameOutsideDevices s
      (physRead 4 (s.kspr + 8) (physRead 4 (s.kspr + 4) (physRead 4 s.kspr s).2).2).2 :=
  ((sameOutsideDevices_physRead 4 _ s).trans (sameOutsideDevices_physRead 4 _ _)).trans
    (sameOutsideDevices_physRead 4 _ _)

end Sys2Proof.Machine
end

