-- ==== Sys2Proof/Laws/Access.lean ====
section
/-! SUPPORT. The laws of byte accesses: what a write of one byte leaves to be read everywhere, what a write of several bytes
stores, and when the bytes of an access translate. -/

namespace Sys2Proof.Machine

/-! ## The physical map -/

/-- Where each row of the map lies (R71): the address that a row's offset stands for. -/
theorem regionOf_address {pa : Word} {r : Region} (h : regionOf pa = r) :
    match r with
    | .vector => pa.toNat < 0x40
    | .rom o => pa.toNat = 0x40 + o ∧ o < 512
    | .display o => pa.toNat = 0x240 + o ∧ o < 6000
    | .diskRegister .a o => pa.toNat = 0x19B0 + o ∧ o < 10
    | .diskRegister .b o => pa.toNat = 0x29BA + o ∧ o < 10
    | .diskBuffer .a o => pa.toNat = 0x19BA + o ∧ o < 4096
    | .diskBuffer .b o => pa.toNat = 0x29C4 + o ∧ o < 4096
    | .keyboard o => pa.toNat = 0x39C4 + o ∧ o < 2
    | .ram => 0x39C6 ≤ pa.toNat := by
  unfold regionOf at h
  simp only at h
  repeat' split at h
  all_goals subst h
  all_goals dsimp only
  all_goals omega

/-- Two addresses with the same offset in the same row are the same. -/
theorem eq_of_regionOf_eq {a b : Word} (h : regionOf a = regionOf b) (hr : regionOf a ≠ .ram) (hv : regionOf a ≠ .vector) :
    a = b := by
  apply BitVec.eq_of_toNat_eq
  generalize e : regionOf a = r at h hr hv
  have ha := regionOf_address e
  have hb := regionOf_address h.symm
  cases r with
  | vector => exact absurd rfl hv
  | ram => exact absurd rfl hr
  | rom o => exact ha.1.trans hb.1.symm
  | display o => exact ha.1.trans hb.1.symm
  | diskRegister d o => cases d <;> exact ha.1.trans hb.1.symm
  | diskBuffer d o => cases d <;> exact ha.1.trans hb.1.symm
  | keyboard o => exact ha.1.trans hb.1.symm

/-- The register at offset 0 of a disk's window is `STATUS` and the one at offset 9 is `CMD` (R412). -/
theorem regionOf_diskRegister {a : Word} {d : DiskId} {o : Nat} (h : regionOf a = .diskRegister d o) :
    (o = 0 → a = statusAddress d) ∧ (o = 9 → a = cmdAddress d) ∧ o < 10 := by
  have ha := regionOf_address h
  cases d <;>
    exact ⟨fun e => BitVec.eq_of_toNat_eq (by rw [ha.1, e]; rfl), fun e => BitVec.eq_of_toNat_eq (by rw [ha.1, e]; rfl), ha.2⟩

/-- The byte of a disk's buffer window at offset `o` (R413). -/
theorem regionOf_bufferAddress (d : DiskId) {o : Nat} (ho : o < 4096) :
    regionOf (bufferAddress d + BitVec.ofNat 32 o) = .diskBuffer d o := by
  cases d
  · have h : ((0x19BA : Word) + BitVec.ofNat 32 o).toNat = 0x19BA + o := by
      rw [BitVec.toNat_add, BitVec.toNat_ofNat]
      simp only [BitVec.reduceToNat]
      omega
    unfold regionOf bufferAddress
    dsimp only
    rw [h]
    repeat rw [if_neg (by omega)]
    rw [if_pos (by omega), Nat.add_sub_cancel_left]
  · have h : ((0x29C4 : Word) + BitVec.ofNat 32 o).toNat = 0x29C4 + o := by
      rw [BitVec.toNat_add, BitVec.toNat_ofNat]
      simp only [BitVec.reduceToNat]
      omega
    unfold regionOf bufferAddress
    dsimp only
    rw [h]
    repeat rw [if_neg (by omega)]
    rw [if_pos (by omega), Nat.add_sub_cancel_left]

/-- What a read and a write of a byte of a disk's buffer window do (R413). -/
theorem peek_bufferAddress (d : DiskId) {o : Nat} (ho : o < 4096) (s : State) :
    peek s (bufferAddress d + BitVec.ofNat 32 o) = (s.disk d).buffer.read o := by
  rw [peek, regionOf_bufferAddress d ho]

theorem poke_bufferAddress (d : DiskId) {o : Nat} (ho : o < 4096) (b : Byte) (s : State) :
    poke (bufferAddress d + BitVec.ofNat 32 o) b s =
      s.setDisk d { s.disk d with buffer := (s.disk d).buffer.write o b } := by
  rw [poke, regionOf_bufferAddress d ho]

/-! ## One byte written -/

theorem State.disk_setDisk_same (s : State) (d : DiskId) (v : Disk) : (s.setDisk d v).disk d = v := by
  cases d <;> rfl

theorem State.disk_setDisk_other {d e : DiskId} (s : State) (v : Disk) (h : e ≠ d) : (s.setDisk d v).disk e = s.disk e := by
  cases d <;> cases e <;> first | exact absurd rfl h | rfl

theorem peek_setDisk_of_not_disk {s : State} {d : DiskId} {v : Disk} {a : Word}
    (hr : ∀ o, regionOf a ≠ .diskRegister d o) (hb : ∀ o, regionOf a ≠ .diskBuffer d o) :
    peek (s.setDisk d v) a = peek s a := by
  unfold peek
  cases e : regionOf a with
  | vector => cases d <;> rfl
  | rom o => cases d <;> rfl
  | display o => cases d <;> rfl
  | diskRegister d' o =>
    have : d' ≠ d := fun h => hr o (h ▸ e)
    simp only [State.disk_setDisk_other s v this]
  | diskBuffer d' o =>
    have : d' ≠ d := fun h => hb o (h ▸ e)
    simp only [State.disk_setDisk_other s v this]
  | keyboard o => cases d <;> rfl
  | ram => cases d <;> rfl

/-- A register write of a controller changes its buffer in nothing. -/
theorem Disk.writeRegister_buffer (d : Disk) (o : Nat) (b : Byte) : (d.writeRegister o b).buffer = d.buffer := by
  unfold Disk.writeRegister Disk.command
  repeat' split
  all_goals rfl

/-- The bits of a word with one byte replaced. -/
theorem getLsbD_setWordByte (v : Word) (j : Nat) (b : Byte) (hj : j < 4) (q : Nat) :
    (setWordByte v j b).getLsbD q =
      if 8 * (3 - j) ≤ q ∧ q < 8 * (3 - j) + 8 then b.getLsbD (q - 8 * (3 - j)) else v.getLsbD q := by
  have app {m n : Nat} (x : BitVec m) (y : BitVec n) (k : Nat) :
      BitVec.getLsbD (w := m + n) (x ++ y) k = if k < n then y.getLsbD k else x.getLsbD (k - n) := BitVec.getLsbD_append
  have hv (n : Nat) (h : 32 ≤ n) : v.getLsbD n = false := BitVec.getLsbD_of_ge v n h
  have hb (n : Nat) (h : 8 ≤ n) : b.getLsbD n = false := BitVec.getLsbD_of_ge b n h
  interval_cases j
  · refine (app b (v.extractLsb' 0 24) q).trans ?_
    simp only [BitVec.getLsbD_extractLsb']
    split <;> split <;> first | omega | skip
    · simp_all
    · rfl
    · rw [hb _ (by omega), hv _ (by omega)]
  · refine (app (v.extractLsb' 24 8 ++ b) (v.extractLsb' 0 16) q).trans ?_
    rw [app]
    simp only [BitVec.getLsbD_extractLsb']
    repeat' split
    all_goals first | omega | rfl | (simp_all; done) | skip
    rw [show 24 + (q - 16 - 8) = q by omega]
    by_cases h : q < 32
    · simp; omega
    · rw [hv q (by omega), Bool.and_false]
  · refine (app (v.extractLsb' 16 16 ++ b) (v.extractLsb' 0 8) q).trans ?_
    rw [app]
    simp only [BitVec.getLsbD_extractLsb']
    repeat' split
    all_goals first | omega | rfl | (simp_all; done) | skip
    rw [show 16 + (q - 8 - 8) = q by omega]
    by_cases h : q < 32
    · simp; omega
    · rw [hv q (by omega), Bool.and_false]
  · refine (app (v.extractLsb' 8 24) b q).trans ?_
    simp only [BitVec.getLsbD_extractLsb']
    repeat' split
    all_goals first | omega | rfl | (simp_all; done) | skip
    rw [show 8 + (q - 8) = q by omega]
    by_cases h : q < 32
    · simp; omega
    · rw [hv q (by omega), Bool.and_false]

/-- Byte `i` of a word with byte `j` replaced. -/
theorem wordByte_setWordByte (v : Word) (i j : Nat) (b : Byte) (hi : i < 4) (hj : j < 4) :
    wordByte (setWordByte v j b) i = if i = j then b else wordByte v i := by
  refine BitVec.eq_of_getLsbD_eq fun k hk => ?_
  rw [wordByte, BitVec.getLsbD_extractLsb', getLsbD_setWordByte v j b hj]
  by_cases h : i = j
  · subst h
    rw [if_pos (by omega), if_pos rfl, Nat.add_sub_cancel_left]
    simp [hk]
  · rw [if_neg (by omega), if_neg h, wordByte, BitVec.getLsbD_extractLsb']
/-- A write to one register offset leaves every other to be read as before, but for `STATUS` after `CMD` (R412, R414). -/
theorem Disk.readRegister_writeRegister_other {d : Disk} {o o' : Nat} {b : Byte} (h : o' ≠ o) (ho : o < 10)
    (hs : o' = 0 → o ≠ 9) : (d.writeRegister o b).readRegister o' = d.readRegister o' := by
  unfold Disk.writeRegister
  split
  · rfl
  · split
    · split
      · rfl
      · unfold Disk.readRegister
        split
        · rfl
        · split
          · rfl
          · split
            · simp only
              rw [wordByte_setWordByte _ _ _ _ (by omega) (by omega), if_neg (by omega)]
            · rfl
    · unfold Disk.command
      split
      · rfl
      · unfold Disk.readRegister
        rw [if_neg (show ¬ o' = 0 by omega), if_neg (show ¬ o' = 0 by omega)]
        rfl

/-- A byte that a write does not name reads as before, but for the `STATUS` of a disk whose `CMD` is written (R414). -/
theorem peek_poke_other {s : State} {pa a : Word} {b : Byte} (ha : a ≠ pa)
    (hc : ∀ d, a = statusAddress d → cmdAddress d ≠ pa) : peek (poke pa b s) a = peek s a := by
  have key {r : Region} (hr : r ≠ .ram) (hv : r ≠ .vector) (h1 : regionOf pa = r) : regionOf a ≠ r := fun h2 =>
    ha (eq_of_regionOf_eq (h2.trans h1.symm) (h2 ▸ hr) (h2 ▸ hv))
  have hne : a.toNat ≠ pa.toNat := fun e => ha (BitVec.eq_of_toNat_eq e)
  have hram : peek (s.setRam (s.ram.write pa.toNat b)) a = peek s a := by
    unfold peek
    split
    · exact Memory.read_write_other _ _ _ _ hne
    · rfl
    · rfl
    · rfl
    · rfl
    · rfl
    · exact Memory.read_write_other _ _ _ _ hne
  unfold poke
  split
  · exact hram
  · rfl
  · next o ho =>
    unfold peek displayWrite
    split
    · rfl
    · rfl
    · next o' ho' =>
      have : o' ≠ o := fun e => key (by simp) (by simp) ho (e ▸ ho')
      exact Memory.read_write_other _ _ _ _ this
    · rfl
    · rfl
    · rfl
    · rfl
  · next d o ho =>
    by_cases hd : ∃ o', regionOf a = .diskRegister d o'
    · obtain ⟨o', ho'⟩ := hd
      have h1 : o' ≠ o := fun e => key (by simp) (by simp) ho (e ▸ ho')
      have h2 := regionOf_diskRegister ho
      have h3 := regionOf_diskRegister ho'
      unfold peek
      simp only [ho', State.disk_setDisk_same]
      exact Disk.readRegister_writeRegister_other h1 h2.2.2 fun e0 e9 => hc d (h3.1 e0) (h2.2.1 e9).symm
    · rw [not_exists] at hd
      by_cases hb : ∃ o', regionOf a = .diskBuffer d o'
      · obtain ⟨o', ho'⟩ := hb
        unfold peek
        simp only [ho', State.disk_setDisk_same, Disk.writeRegister_buffer]
      · rw [not_exists] at hb
        exact peek_setDisk_of_not_disk hd hb
  · next d o ho =>
    by_cases hd : ∃ o', regionOf a = .diskRegister d o'
    · obtain ⟨o', ho'⟩ := hd
      unfold peek
      simp only [ho', State.disk_setDisk_same]
      rfl
    · rw [not_exists] at hd
      by_cases hb : ∃ o', regionOf a = .diskBuffer d o'
      · obtain ⟨o', ho'⟩ := hb
        have h1 : o' ≠ o := fun e => key (by simp) (by simp) ho (e ▸ ho')
        unfold peek
        simp only [ho', State.disk_setDisk_same]
        exact Memory.read_write_other _ _ _ _ h1
      · rw [not_exists] at hb
        exact peek_setDisk_of_not_disk hd hb
  · rfl
  · exact hram

/-- A byte of the RAM array, the display or a disk buffer reads what was last written to it. -/
theorem peek_poke_same {s : State} {pa : Word} (b : Byte) (h : Inv s) (hw : Writable pa) : peek (poke pa b s) pa = b := by
  unfold Writable at hw
  unfold poke peek
  cases e : regionOf pa with
  | vector => exact Memory.read_write_same _ _ _ h.ramForm
  | rom o => simp [e] at hw
  | display o => exact Memory.read_write_same _ _ _ h.displayForm
  | diskRegister d o => simp [e] at hw
  | diskBuffer d o =>
    simp only [State.disk_setDisk_same]
    exact Memory.read_write_same _ _ _ (h.disk d).bufferForm
  | keyboard o => simp [e] at hw
  | ram => exact Memory.read_write_same _ _ _ h.ramForm

/-- `STATUS` and `CMD` are not addresses where a write is read back. -/
theorem not_writable_cmdAddress (d : DiskId) : ¬ Writable (cmdAddress d) := by
  cases d <;> exact id

theorem not_writable_statusAddress (d : DiskId) : ¬ Writable (statusAddress d) := by
  cases d <;> exact id

/-- What is read depends only on the stores and devices. -/
theorem peek_congr {s t : State} (hram : t.ram = s.ram) (hrom : t.rom = s.rom) (hdisplay : t.display = s.display)
    (hkeyboard : t.keyboard = s.keyboard) (hA : t.diskA = s.diskA) (hB : t.diskB = s.diskB) (a : Word) :
    peek t a = peek s a := by
  unfold peek
  cases regionOf a with
  | diskRegister d o => cases d <;> simp only [State.disk, hA, hB]
  | diskBuffer d o => cases d <;> simp only [State.disk, hA, hB]
  | vector => rw [hram]
  | rom o => rw [hrom]
  | display o => rw [hdisplay]
  | keyboard o => rw [hkeyboard]
  | ram => rw [hram]

/-! ## Several bytes written -/

/-- Bytes written at different addresses can each be read back, and no other byte changes (R77, R96). -/
theorem storesBytes_pokes {s : State} (h : Inv s) {ps : List Word} {bs : List Byte} (hd : ps.Nodup) :
    StoresBytes ps bs s (pokes (ps.zip bs) s) := by
  induction ps generalizing s bs with
  | nil => exact ⟨by simp, fun _ _ _ => rfl⟩
  | cons p ps ih =>
    cases bs with
    | nil => exact ⟨by simp, fun _ _ _ => rfl⟩
    | cons b bs =>
      rw [List.nodup_cons] at hd
      have r := ih (h.poke p b) (bs := bs) hd.2
      rw [List.zip_cons_cons, pokes_cons]
      refine ⟨fun c hc hw => ?_, fun a ha hs => ?_⟩
      · rcases List.mem_cons.1 hc with rfl | hc
        · rw [r.others p hd.1 fun d ed => absurd hw (ed ▸ not_writable_statusAddress d)]
          exact peek_poke_same b h hw
        · exact r.stored c hc hw
      · rw [List.mem_cons, not_or] at ha
        rw [r.others a ha.2 fun d ed hcm => hs d ed (List.mem_cons_of_mem _ hcm)]
        exact peek_poke_other ha.1 fun d ed ec => hs d ed (ec ▸ List.mem_cons_self)

theorem length_addresses (a : Word) (n : Nat) : (addresses a n).length = n := by
  simp [addresses]

theorem length_beBytes (n : Nat) (v : Word) : (beBytes n v).length = n := by
  simp [beBytes]

/-- Fewer than 2^32 consecutive addresses are all different, wrapping or not (R79). -/
theorem nodup_addresses (a : Word) {n : Nat} (hn : n ≤ 2 ^ 32) : (addresses a n).Nodup := by
  unfold addresses
  refine (List.nodup_range).map_on ?_
  intro x hx y hy e
  rw [List.mem_range] at hx hy
  have e' : BitVec.ofNat 32 x = BitVec.ofNat 32 y := by
    have := congrArg (fun z => z - a) e
    simpa [BitVec.add_comm a] using this
  have := congrArg BitVec.toNat e'
  rw [BitVec.toNat_ofNat, BitVec.toNat_ofNat, Nat.mod_eq_of_lt (by omega), Nat.mod_eq_of_lt (by omega)] at this
  exact this

/-! ## Translation of an access -/

/-- Where the bytes of an access translate and no device step falls inside, the walk over them answers their addresses and
changes nothing (R95, R96). -/
theorem resolveList_of_translates {s : State} {acc : Access} {as ps : List Word} (hq : Quiet (walksRead acc as s) s)
    (h : as.map (fun a => (resolve a acc s).1) = ps.map some) : resolveList acc as s = .ok ps s := by
  induction as generalizing ps with
  | nil =>
    cases ps with
    | nil => rfl
    | cons p ps => simp at h
  | cons a as ih =>
    cases ps with
    | nil => simp at h
    | cons p ps =>
      rw [List.map_cons, List.map_cons, List.cons.injEq] at h
      rw [walksRead, quiet_append, h.1] at hq
      have e : resolve a acc s = (some p, s) := Prod.ext h.1 (resolve_state_of_quiet hq.1)
      rw [resolveList, e]
      simp only [ih hq.2 h.2, MemResult.bind_ok]

/-- The first byte that does not translate is the one that the walk faults at (R95, R96). -/
theorem resolveList_of_fault {s : State} {acc : Access} {as : List Word} {a : Word} {rest : List Word}
    (hq : Quiet (walksRead acc (as ++ a :: rest) s) s) (hb : ∀ x ∈ as, (resolve x acc s).1 ≠ none)
    (ha : (resolve a acc s).1 = none) : resolveList acc (as ++ a :: rest) s = .pageFault a s := by
  induction as with
  | nil =>
    rw [List.nil_append, walksRead, quiet_append] at hq
    have e : resolve a acc s = (none, s) := Prod.ext ha (resolve_state_of_quiet hq.1)
    rw [List.nil_append, resolveList, e]
  | cons x as ih =>
    obtain ⟨p, hp⟩ := Option.ne_none_iff_exists'.1 (hb x List.mem_cons_self)
    rw [List.cons_append, walksRead, quiet_append, hp] at hq
    have e : resolve x acc s = (some p, s) := Prod.ext hp (resolve_state_of_quiet hq.1)
    rw [List.cons_append, resolveList, e]
    simp only [ih hq.2 fun y hy => hb y (List.mem_cons_of_mem _ hy), MemResult.bind_pageFault]

theorem length_of_translates {acc : Access} {va : Word} {n : Nat} {ps : List Word} {s : State}
    (h : Translates acc va n ps s) : ps.length = n := by
  have := congrArg List.length h
  simpa [length_addresses] using this.symm

/-- What the walk over an access answers, from the bytes that translate. -/
theorem resolveList_translates {s : State} {acc : Access} {va : Word} {n : Nat} {ps : List Word}
    (hq : Quiet (walksRead acc (addresses va n) s) s) (h : Translates acc va n ps s) :
    resolveList acc (addresses va n) s = .ok ps s :=
  resolveList_of_translates hq h

theorem allTranslate_of_translates {acc : Access} {va : Word} {n : Nat} {ps : List Word} {s : State}
    (h : Translates acc va n ps s) : allTranslate acc (addresses va n) s = true := by
  refine List.all_eq_true.2 fun a ha => ?_
  have : (resolve a acc s).1 ∈ ps.map some := h ▸ List.mem_map_of_mem ha
  obtain ⟨p, _, hp⟩ := List.mem_map.1 this
  rw [← hp]
  rfl

/-- The addresses that an access whose bytes translate reads or writes: those of its translations, then the bytes. -/
theorem bytesAccessed_of_translates {acc : Access} {va : Word} {n : Nat} {ps : List Word} {s : State}
    (h : Translates acc va n ps s) : bytesAccessed acc va n s = walksRead acc (addresses va n) s ++ ps := by
  have hf : (addresses va n).filterMap (fun a => (resolve a acc s).1) = ps := by
    have := congrArg (List.filterMap id) h
    simpa only [List.filterMap_map, Function.id_comp, Function.comp_def, id_eq, List.filterMap_some] using this
  rw [bytesAccessed, if_pos (allTranslate_of_translates h), hf]

/-- What `Quiet` says of an access whose bytes translate. -/
theorem quiet_bytesAccessed {acc : Access} {va : Word} {n : Nat} {ps : List Word} {s t : State}
    (h : Translates acc va n ps s) :
    Quiet (bytesAccessed acc va n s) t ↔ Quiet (walksRead acc (addresses va n) s) t ∧ Quiet ps t := by
  rw [bytesAccessed_of_translates h, quiet_append]

/-- What `Quiet` says of a swap whose bytes translate for reading. -/
theorem quiet_bytesSwapped {va : Word} {n : Nat} {ps : List Word} {s t : State} (h : Translates .read va n ps s) :
    Quiet (bytesSwapped va n s) t ↔
      Quiet (walksRead .read (addresses va n) s) t ∧ Quiet (bytesAccessed .write va n s) t := by
  rw [bytesSwapped, if_pos (allTranslate_of_translates h), quiet_append]

theorem addresses_split (va : Word) {n i : Nat} (hi : i < n) :
    ∃ rest, addresses va n = addresses va i ++ (va + BitVec.ofNat 32 i) :: rest := by
  refine ⟨(List.range (n - (i + 1))).map fun k => va + BitVec.ofNat 32 (i + 1 + k), ?_⟩
  have e : n = i + 1 + (n - (i + 1)) := by omega
  unfold addresses
  conv_lhs => rw [e]
  rw [List.range_add, List.range_succ]
  simp

/-- What the walk over an access answers, from the first byte that does not translate. -/
theorem resolveList_firstFault {s : State} {acc : Access} {va : Word} {n : Nat} {a : Word}
    (hq : Quiet (walksRead acc (addresses va n) s) s) (h : FirstFault acc va n a s) :
    resolveList acc (addresses va n) s = .pageFault a s := by
  obtain ⟨i, hi, rfl, ha, hb⟩ := h
  obtain ⟨rest, e⟩ := addresses_split va hi
  rw [e] at hq ⊢
  refine resolveList_of_fault hq ?_ ha
  intro x hx
  unfold addresses at hx
  obtain ⟨j, hj, rfl⟩ := List.mem_map.1 hx
  exact hb j (List.mem_range.1 hj)

/-- The offset in its page of a translated address is that of the virtual one (R90). -/
theorem resolve_mod_page {va p : Word} {acc : Access} {s : State} (h : (resolve va acc s).1 = some p) :
    p.toNat % 2 ^ 12 = va.toNat % 2 ^ 12 := by
  unfold resolve at h
  split at h
  · cases h; rfl
  · unfold translate at h
    simp only at h
    repeat' split at h
    · cases h
    · cases h
    · cases h
    · simp only [Option.some.injEq] at h
      rw [← h, BitVec.toNat_append, ← Nat.shiftLeft_add_eq_or_of_lt (by exact BitVec.isLt _), Nat.shiftLeft_eq,
        Nat.add_comm, Nat.add_mul_mod_self_right, BitVec.extractLsb'_toNat]
      simp

/-- The physical addresses of one access are all different (R90). -/
theorem nodup_translates {acc : Access} {va : Word} {n : Nat} {ps : List Word} {s : State}
    (h : Translates acc va n ps s) (hn : n ≤ 4) : ps.Nodup := by
  have hl := length_of_translates h
  rw [List.nodup_iff_getElem?_ne_getElem?]
  intro i j hij hj e
  have get (k : Nat) (hk : k < n) : (resolve (va + BitVec.ofNat 32 k) acc s).1 = ps[k]? := by
    have := congrArg (fun l => l[k]?) h
    simp only [addresses, List.map_map, List.getElem?_map] at this
    rw [List.getElem?_range hk] at this
    have hk' : k < ps.length := by omega
    simp only [Option.map_some, Function.comp_apply, List.getElem?_eq_getElem hk', Option.some.injEq] at this
    rw [this, List.getElem?_eq_getElem hk']
  have hjn : j < n := by omega
  have hp : ps[j]? = some ps[j] := List.getElem?_eq_getElem hj
  have h1 := resolve_mod_page ((get i (by omega)).trans (e.trans hp))
  have h2 := resolve_mod_page ((get j hjn).trans hp)
  rw [h1] at h2
  simp only [BitVec.toNat_add, BitVec.toNat_ofNat] at h2
  omega

/-- Where every address of an access translates, `Quiet` for the access is `Quiet` for each translation. -/
theorem quiet_walkReads_of_mem {acc : Access} {as : List Word} {s : State} {a : Word} (hq : Quiet (walksRead acc as s) s)
    (h : allTranslate acc as s = true) (ha : a ∈ as) : Quiet (walkReads a s) s := by
  induction as with
  | nil => cases ha
  | cons x as ih =>
    rw [walksRead, quiet_append] at hq
    rw [allTranslate, List.all_cons, Bool.and_eq_true] at h
    rcases List.mem_cons.1 ha with rfl | ha
    · exact hq.1
    · have e : ((resolve x acc s).1.isNone) = false := by
        cases hr : (resolve x acc s).1 with
        | none => rw [hr] at h; cases h.1
        | some p => rfl
      rw [e] at hq
      exact ih hq.2 h.2 ha

/-- The address that one byte of an access translates to. -/
theorem resolve_of_translates {acc : Access} {va : Word} {n : Nat} {ps : List Word} {s : State}
    (h : Translates acc va n ps s) {i : Nat} (hi : i < ps.length) :
    (resolve (va + BitVec.ofNat 32 i) acc s).1 = some ps[i] := by
  have e := congrArg (fun l => l[i]?) h
  have hn : i < n := length_of_translates h ▸ hi
  simp only [addresses, List.map_map, List.getElem?_map, List.getElem?_range hn, List.getElem?_eq_getElem hi,
    Option.map_some, Function.comp_apply, Option.some.injEq] at e
  exact e

end Sys2Proof.Machine
end

