-- ==== Sys2Proof/Laws/Decode.lean ====
section
/-! SUPPORT. The operand readers of the decoder and the operand bytes of the encoder, each read back by the other. -/

namespace Sys2Proof

/-! ## Register references -/

@[simp] theorem widthOfCode_codeOfWidth (w : Width) : widthOfCode (codeOfWidth w) = some w := by
  cases w <;> rfl

@[simp] theorem specialOfNumber_numberOfSpecial (r : SpecialReg) : specialOfNumber (numberOfSpecial r) = some r := by
  cases r <;> rfl

/-- Every register reference is read back from its byte (R130). -/
@[simp] theorem parseRef_encodeRef (r : Ref) : parseRef (encodeRef r) = .ok r := by
  cases r with
  | gpr g =>
    obtain ⟨i, w⟩ := g
    revert i
    cases w <;> decide
  | special p => cases p <;> decide

@[simp] theorem parseRef_encodeGRef (g : GRef) : parseRef (encodeGRef g) = .ok (.gpr g) :=
  parseRef_encodeRef (.gpr g)

/-- Whether a byte is the byte of the reference that it is read as. -/
def readsBack (b : Byte) : Bool :=
  match parseRef b with
  | .ok r => decide (encodeRef r = b)
  | .error _ => true

theorem readsBack_all : ∀ hi lo : Fin 16, readsBack (BitVec.ofNat 8 (16 * hi.val + lo.val)) = true := by
  decide

/-- A byte that is a legal reference is the byte of that reference (R131). -/
theorem encodeRef_of_parseRef {b : Byte} {r : Ref} (h : parseRef b = .ok r) : encodeRef r = b := by
  have hb : readsBack b = true := by
    have hh := readsBack_all ⟨b.toNat / 16, by omega⟩ ⟨b.toNat % 16, by omega⟩
    rwa [show 16 * (b.toNat / 16) + b.toNat % 16 = b.toNat by omega, BitVec.ofNat_toNat, BitVec.setWidth_eq] at hh
  simpa [readsBack, h] using hb

theorem encodeGRef_of_parseRef {b : Byte} {g : GRef} (h : parseRef b = .ok (.gpr g)) : encodeGRef g = b :=
  encodeRef_of_parseRef h

/-! ## Operand readers on the bytes that the encoder writes -/

@[simp] theorem takeRef_encodeRef (r : Ref) (bs : List Byte) (k : Ref → List Byte → Decoded) :
    takeRef (encodeRef r :: bs) k = k r bs := by
  simp [takeRef]

@[simp] theorem takeGRef_encodeGRef (g : GRef) (bs : List Byte) (k : GRef → List Byte → Decoded) :
    takeGRef (encodeGRef g :: bs) k = k g bs := by
  simp [takeGRef, takeRef]

@[simp] theorem takeWordReg_encodeGRef (i : Fin 8) (bs : List Byte) (k : Fin 8 → List Byte → Decoded) :
    takeWordReg (encodeGRef ⟨i, .word⟩ :: bs) k = k i bs := by
  simp [takeWordReg, takeRegAt]

@[simp] theorem takeByteReg_encodeGRef (i : Fin 8) (bs : List Byte) (k : Fin 8 → List Byte → Decoded) :
    takeByteReg (encodeGRef ⟨i, .byte⟩ :: bs) k = k i bs := by
  simp [takeByteReg, takeRegAt]

/-- The number that four bytes stand for, the first the most significant (R133). -/
theorem toNat_bytes (b0 b1 b2 b3 : Byte) :
    (b0 ++ b1 ++ b2 ++ b3).toNat = 2 ^ 24 * b0.toNat + 2 ^ 16 * b1.toNat + 2 ^ 8 * b2.toNat + b3.toNat := by
  have h1 := b1.isLt
  have h2 := b2.isLt
  have h3 := b3.isLt
  rw [BitVec.toNat_append, ← Nat.shiftLeft_add_eq_or_of_lt h3, BitVec.toNat_append, ← Nat.shiftLeft_add_eq_or_of_lt h2,
    BitVec.toNat_append, ← Nat.shiftLeft_add_eq_or_of_lt h1]
  simp only [Nat.shiftLeft_eq]
  omega

/-- The bytes of four bytes put together (R133). -/
theorem encodeWord_bytes (b0 b1 b2 b3 : Byte) : encodeWord (b0 ++ b1 ++ b2 ++ b3) = [b0, b1, b2, b3] := by
  have h : BitVec.toNat (w := 32) (b0 ++ b1 ++ b2 ++ b3) = _ := toNat_bytes b0 b1 b2 b3
  have h0 := b0.isLt
  have h1 := b1.isLt
  have h2 := b2.isLt
  have h3 := b3.isLt
  unfold encodeWord
  congr 1
  · apply BitVec.eq_of_toNat_eq
    rw [BitVec.extractLsb'_toNat, h, Nat.shiftRight_eq_div_pow]
    omega
  congr 1
  · apply BitVec.eq_of_toNat_eq
    rw [BitVec.extractLsb'_toNat, h, Nat.shiftRight_eq_div_pow]
    omega
  congr 1
  · apply BitVec.eq_of_toNat_eq
    rw [BitVec.extractLsb'_toNat, h, Nat.shiftRight_eq_div_pow]
    omega
  congr 1
  apply BitVec.eq_of_toNat_eq
  rw [BitVec.extractLsb'_toNat, h, Nat.shiftRight_eq_div_pow]
  omega

@[simp] theorem takeWord_encodeWord (v : Word) (bs : List Byte) (k : Word → List Byte → Decoded) :
    takeWord (encodeWord v ++ bs) k = k v bs := by
  have h : (v.extractLsb' 24 8 ++ v.extractLsb' 16 8 ++ v.extractLsb' 8 8 ++ v.extractLsb' 0 8 : Word) = v :=
    BitVec.eq_of_toNat_eq ((toNat_bytes _ _ _ _).trans (by
      simp only [BitVec.extractLsb'_toNat, Nat.shiftRight_eq_div_pow]
      omega))
  simp only [encodeWord, List.cons_append, List.nil_append, takeWord, h]

theorem takeLit_encodeLit {w : Width} {v : Word} (h : LitFits w v) (bs : List Byte) (k : Word → List Byte → Decoded) :
    takeLit w (encodeLit w v ++ bs) k = k v bs := by
  cases w with
  | byte =>
    have e : (v.extractLsb' 0 8).setWidth 32 = v := by
      apply BitVec.eq_of_toNat_eq
      simp only [LitFits, Width.bits] at h
      simp only [BitVec.toNat_setWidth, BitVec.extractLsb'_toNat, Nat.shiftRight_zero]
      omega
    simp only [encodeLit, List.cons_append, List.nil_append, takeLit, e]
  | half =>
    have e : (v.extractLsb' 8 8 ++ v.extractLsb' 0 8).setWidth 32 = v := by
      apply BitVec.eq_of_toNat_eq
      simp only [LitFits, Width.bits] at h
      rw [BitVec.toNat_setWidth, BitVec.toNat_append, ← Nat.shiftLeft_add_eq_or_of_lt (BitVec.isLt _), Nat.shiftLeft_eq]
      simp only [BitVec.extractLsb'_toNat, Nat.shiftRight_eq_div_pow]
      omega
    simp only [encodeLit, List.cons_append, List.nil_append, takeLit, e]
  | word => exact takeWord_encodeWord v bs k

theorem require_of {p : Prop} [Decidable p] (h : p) (e : DecodeError) (k : Decoded) : require p e k = k :=
  if_pos h

/-! ## What an operand reader that ends in an instruction has read -/

theorem takeRef_ok {bs rest : List Byte} {k : Ref → List Byte → Decoded} {i : Instr} (h : takeRef bs k = .ok i rest) :
    ∃ r bs', bs = encodeRef r :: bs' ∧ k r bs' = .ok i rest := by
  unfold takeRef at h
  split at h
  · cases h
  · split at h
    · cases h
    · next r e => exact ⟨r, _, by rw [encodeRef_of_parseRef e], h⟩

theorem takeGRef_ok {bs rest : List Byte} {k : GRef → List Byte → Decoded} {i : Instr} (h : takeGRef bs k = .ok i rest) :
    ∃ g bs', bs = encodeGRef g :: bs' ∧ k g bs' = .ok i rest := by
  obtain ⟨r, bs', e, h⟩ := takeRef_ok h
  cases r with
  | gpr g => exact ⟨g, bs', e, h⟩
  | special p => cases h

theorem takeRegAt_ok {w : Width} {bs rest : List Byte} {k : Fin 8 → List Byte → Decoded} {i : Instr}
    (h : takeRegAt w bs k = .ok i rest) : ∃ j bs', bs = encodeGRef ⟨j, w⟩ :: bs' ∧ k j bs' = .ok i rest := by
  obtain ⟨g, bs', e, h⟩ := takeGRef_ok h
  obtain ⟨j, v⟩ := g
  dsimp only at h
  split at h
  · next hw =>
    cases hw
    exact ⟨j, bs', e, h⟩
  · cases h

theorem takeWord_ok {bs rest : List Byte} {k : Word → List Byte → Decoded} {i : Instr} (h : takeWord bs k = .ok i rest) :
    ∃ v bs', bs = encodeWord v ++ bs' ∧ k v bs' = .ok i rest := by
  unfold takeWord at h
  split at h
  · next b0 b1 b2 b3 bs' =>
    exact ⟨_, bs', by rw [encodeWord_bytes]; rfl, h⟩
  · cases h

theorem require_ok {p : Prop} [Decidable p] {e : DecodeError} {k : Decoded} {i : Instr} {rest : List Byte}
    (h : require p e k = .ok i rest) : p ∧ k = .ok i rest := by
  unfold require at h
  split at h
  · next hp => exact ⟨hp, h⟩
  · cases h

/-! ## Lengths -/

@[simp] theorem length_encodeWord (v : Word) : (encodeWord v).length = 4 := rfl

@[simp] theorem length_encodeLit (w : Width) (v : Word) : (encodeLit w v).length = w.bytes := by
  cases w <;> rfl

end Sys2Proof
end

