-- ==== Sys2Proof/Laws/Instructions.lean ====
section
/-! SUPPORT. What the shapes that instructions share do: the privilege guard, a register written, a result written with its
flags, a memory access that completes or faults, the words pushed on the kernel stack, and the loops of the block
instructions. -/

namespace Sys2Proof.Machine

/-! ## The privilege guard -/

/-- The two ways through the guard (R150, R175, R45). -/
theorem guardPrivilege_cases {p : Bool} {s t : State} {k : Result} (h : guardPrivilege p s k = .next t) :
    (p = true ∧ s.mode = .user ∧ t = raiseIllegal s) ∨ ((p = false ∨ s.mode = .kernel) ∧ k = .next t) := by
  unfold guardPrivilege at h
  split at h
  · next e => exact .inl ⟨e.1, e.2, (Host.Outcome.next.inj h).symm⟩
  · next e =>
    refine .inr ⟨?_, h⟩
    cases p
    · exact .inl rfl
    · cases hm : s.mode
      · exact .inr rfl
      · exact absurd ⟨rfl, hm⟩ e

theorem guardPrivilege_permitted {r : Ref} {s : State} {k : Result} (h : Permitted r s) :
    guardPrivilege (refPrivileged r) s k = k := by
  unfold guardPrivilege
  rw [if_neg]
  rintro ⟨h1, h2⟩
  rcases h with h | h
  · rw [h] at h2
    cases h2
  · rw [h] at h1
    cases h1

theorem guardPrivilege_permitted_both {a b : Ref} {s : State} {k : Result} (ha : Permitted a s) (hb : Permitted b s) :
    guardPrivilege (refPrivileged a || refPrivileged b) s k = k := by
  unfold guardPrivilege
  rw [if_neg]
  rintro ⟨h1, h2⟩
  rcases ha with h | h
  · rw [h] at h2
    cases h2
  · rcases hb with h' | h'
    · rw [h'] at h2
      cases h2
    · rw [h, h'] at h1
      cases h1

/-- How the rest of an instruction ends after a memory access (R97). -/
theorem MemResult.finish_cases {α : Type} {r : MemResult α} {k : α → State → State} {t : State}
    (h : r.finish k = .next t) :
    (∃ v s, r = .ok v s ∧ t = k v s) ∨ ∃ va s, r = .pageFault va s ∧ t = raisePageFault va s := by
  cases r with
  | ok v s => exact .inl ⟨v, s, rfl, (Host.Outcome.next.inj h).symm⟩
  | pageFault va s => exact .inr ⟨va, s, rfl, (Host.Outcome.next.inj h).symm⟩

/-! ## Registers written -/

theorem peek_writeRef (r : Ref) (v : Word) (s : State) (a : Word) : peek (writeRef r v s) a = peek s a := by
  cases r with
  | gpr g => exact peek_congr rfl rfl rfl rfl rfl rfl a
  | special p => cases p <;> exact peek_congr rfl rfl rfl rfl rfl rfl a

@[simp] theorem peek_advance (n : Nat) (s : State) (a : Word) : peek (advance n s) a = peek s a :=
  peek_congr rfl rfl rfl rfl rfl rfl a

theorem peek_setActiveSp (v : Word) (s : State) (a : Word) : peek (setActiveSp v s) a = peek s a := by
  unfold setActiveSp
  split <;> exact peek_congr rfl rfl rfl rfl rfl rfl a

theorem onlyRefChanged_advance {r : Ref} {s t : State} (n : Nat) (h : OnlyRefChanged r s t) :
    OnlyRefChanged r s (advance n t) := by
  cases r with
  | gpr g => exact ⟨h.1, fun p => (readSpecial_advance n p t).trans (h.2 p)⟩
  | special q => exact ⟨h.1, fun p hp => (readSpecial_advance n p t).trans (h.2 p hp)⟩

/-- Everything that a register write followed by the pc's advance does (R32, R35, R46). -/
theorem writesRef_advance (n : Nat) (r : Ref) (v : Word) (s : State) :
    WritesRef n r v s (advance n (writeRef r v s)) := by
  refine ⟨?_, onlyRefChanged_advance n (onlyRefChanged_writeRef r v s), ?_, ?_, ?_⟩
  · rw [readRef_advance, readRef_writeRef_same]
  · rw [advance_pc, writeRef_pc]
  · cases r with
    | gpr g => rfl
    | special q => cases q <;> rfl
  · intro a
    rw [peek_advance, peek_writeRef]

/-- Everything that a result written to a view with its flags does (R230, R260). -/
theorem writesView_writeResult (n : Nat) (g : GRef) (r : AluResult g.width.bits) (s : State) :
    WritesView n g r.value.toNat r.flags s (writeResult n g r s) := by
  have hv : readG g (writeResult n g r s) = r.value := readG_writeG_same g r.value s
  exact ⟨by rw [hv], rfl, onlyViewChanged_writeG g r.value s, rfl, rfl, fun a => peek_congr rfl rfl rfl rfl rfl rfl a⟩

/-- Everything that a view written without flags does (R330, R331, R332). -/
theorem writesView_writeG (n : Nat) (g : GRef) (v : BitVec g.width.bits) (s : State) :
    WritesView n g v.toNat s.flags s (advance n (writeG g v s)) := by
  have hv : readG g (advance n (writeG g v s)) = v := readG_writeG_same g v s
  exact ⟨by rw [hv], rfl, onlyViewChanged_writeG g v s, rfl, rfl, fun a => peek_congr rfl rfl rfl rfl rfl rfl a⟩

/-! ## Memory accesses inside which no device step falls -/

theorem Width.bytes_le (w : Width) : w.bytes ≤ 4 := by
  cases w <;> decide

/-- A read whose bytes translate returns their big-endian value and changes nothing (R95). -/
theorem memRead_translates {s : State} {n : Nat} {va : Word} {acc : Access} {ps : List Word}
    (hq : Quiet (bytesAccessed acc va n s) s) (h : Translates acc va n ps s) :
    memRead n va acc s = .ok (beWord (ps.map (peek s))) s := by
  rw [quiet_bytesAccessed h] at hq
  rw [memRead, resolveList_translates hq.1 h, MemResult.bind_ok, physReadList_of_quiet hq.2]

/-- A write whose bytes translate is the writes of its bytes in order (R96). -/
theorem memWrite_translates {s : State} {n : Nat} {va v : Word} {ps : List Word}
    (hq : Quiet (bytesAccessed .write va n s) s) (h : Translates .write va n ps s) :
    memWrite n va v s = .ok () (pokes (ps.zip (beBytes n v)) s) := by
  rw [quiet_bytesAccessed h] at hq
  rw [memWrite, resolveList_translates hq.1 h, MemResult.bind_ok,
    physWriteList_of_quiet (hq.2.mono (map_fst_zip_subset _ _))]

/-- A swap whose bytes translate for both returns their old value and writes the new one (R98, R196). -/
theorem memSwap_translates {s : State} {n : Nat} {va v : Word} {ps : List Word}
    (hq : Quiet (bytesSwapped va n s) s) (hr : Translates .read va n ps s) (hw : Translates .write va n ps s) :
    memSwap n va v s = .ok (beWord (ps.map (peek s))) (pokes (ps.zip (beBytes n v)) s) := by
  rw [quiet_bytesSwapped hr] at hq
  have hp := (quiet_bytesAccessed hw).1 hq.2
  rw [memSwap, resolveList_translates hq.1 hr, MemResult.bind_ok, resolveList_translates hp.1 hw, MemResult.bind_ok,
    memRead_translates ((quiet_bytesAccessed hr).2 ⟨hq.1, hp.2⟩) hr, MemResult.bind_ok, memWrite_translates hq.2 hw,
    MemResult.bind_ok]

theorem memRead_firstFault {s : State} {n : Nat} {va a : Word} {acc : Access}
    (hq : Quiet (bytesAccessed acc va n s) s) (h : FirstFault acc va n a s) : memRead n va acc s = .pageFault a s := by
  rw [bytesAccessed, quiet_append] at hq
  rw [memRead, resolveList_firstFault hq.1 h, MemResult.bind_pageFault]

theorem memWrite_firstFault {s : State} {n : Nat} {va a v : Word} (hq : Quiet (bytesAccessed .write va n s) s)
    (h : FirstFault .write va n a s) : memWrite n va v s = .pageFault a s := by
  rw [bytesAccessed, quiet_append] at hq
  rw [memWrite, resolveList_firstFault hq.1 h, MemResult.bind_pageFault]

theorem memSwap_firstFault_read {s : State} {n : Nat} {va a v : Word} (hq : Quiet (bytesSwapped va n s) s)
    (h : FirstFault .read va n a s) : memSwap n va v s = .pageFault a s := by
  rw [bytesSwapped, quiet_append] at hq
  rw [memSwap, resolveList_firstFault hq.1 h, MemResult.bind_pageFault]

theorem memSwap_firstFault_write {s : State} {n : Nat} {va a v : Word} {ps : List Word}
    (hq : Quiet (bytesSwapped va n s) s) (hr : Translates .read va n ps s) (h : FirstFault .write va n a s) :
    memSwap n va v s = .pageFault a s := by
  rw [quiet_bytesSwapped hr, bytesAccessed, quiet_append] at hq
  rw [memSwap, resolveList_translates hq.1 hr, MemResult.bind_ok, resolveList_firstFault hq.2.1 h,
    MemResult.bind_pageFault]

/-! ## Stores and pushes put together -/

theorem OnlyMemoryChanged.advance {s t : State} (n : Nat) (h : OnlyMemoryChanged s t) :
    OnlyMemoryChanged (s.setPc (advance n t).pc) (Machine.advance n t) :=
  ⟨⟨h.regs, rfl, h.flags, h.uspr, h.kspr, h.pdpr, h.imr, h.pfva, h.mode, h.runState⟩, h.rom, h.keyboard, h.records,
    h.queue, h.irqCapacity, h.hostKeys, h.schedule, h.midStep, h.draws⟩

theorem StoresBytes.congr {ps : List Word} {bs : List Byte} {s s' t t' : State} (h : StoresBytes ps bs s t)
    (hs : ∀ a, peek s a = peek s' a) (ht : ∀ a, peek t' a = peek t a) : StoresBytes ps bs s' t' :=
  ⟨fun c hc hw => (ht _).trans (h.stored c hc hw), fun a ha hx => ((ht _).trans (h.others a ha hx)).trans (hs a)⟩

/-- One store after another to different addresses. -/
theorem StoresBytes.comp {ps qs : List Word} {bs cs : List Byte} {s t u : State} (h : StoresBytes ps bs s t)
    (k : StoresBytes qs cs t u) (hl : qs.length = cs.length) (hd : ∀ a ∈ ps, a ∉ qs) :
    StoresBytes (qs ++ ps) (cs ++ bs) s u := by
  refine ⟨fun c hc hw => ?_, fun a ha hs => ?_⟩
  · rw [List.zip_append hl, List.mem_append] at hc
    rcases hc with hc | hc
    · exact k.stored c hc hw
    · rw [k.others c.1 (hd _ (List.of_mem_zip hc).1) fun d e => absurd hw (e ▸ not_writable_statusAddress d)]
      exact h.stored c hc hw
  · rw [List.mem_append, not_or] at ha
    rw [k.others a ha.1 fun d e hc => hs d e (List.mem_append_left _ hc),
      h.others a ha.2 fun d e hc => hs d e (List.mem_append_right _ hc)]

/-- What a byte write does to memory and devices does not depend on the registers, which keep their values. -/
theorem poke_withRegisters (pa : Word) (b : Byte) (s : State) (m : Mode) (k : Word) :
    poke pa b ((s.setMode m).setKspr k) = ((poke pa b s).setMode m).setKspr k := by
  unfold poke
  split
  · rfl
  · rfl
  · next o _ =>
    unfold displayWrite
    rfl
  · next d o _ => cases d <;> rfl
  · next d o _ => cases d <;> rfl
  · rfl
  · rfl

theorem pokes_withRegisters (cs : List (Word × Byte)) (s : State) (m : Mode) (k : Word) :
    pokes cs ((s.setMode m).setKspr k) = ((pokes cs s).setMode m).setKspr k := by
  induction cs generalizing s with
  | nil => rfl
  | cons c cs ih => rw [pokes_cons, poke_withRegisters, ih, pokes_cons]

/-- Everything that one push on the kernel stack does, where no device step falls inside (R373). -/
theorem pushKernel_of_quiet {s : State} (hq : Quiet (addresses (s.kspr - 4) 4) s) (v : Word) :
    pushKernel v s = (pokes ((addresses (s.kspr - 4) 4).zip (beBytes 4 v)) s).setKspr (s.kspr - 4) := by
  have e : physWrite 4 (s.kspr - 4) v (s.setKspr (s.kspr - 4)) =
      pokes ((addresses (s.kspr - 4) 4).zip (beBytes 4 v)) (s.setKspr (s.kspr - 4)) :=
    physWriteList_of_quiet ((hq.congr (t := s.setKspr (s.kspr - 4)) rfl).mono (map_fst_zip_subset _ _))
  have h := pokes_withRegisters ((addresses (s.kspr - 4) 4).zip (beBytes 4 v)) s s.mode (s.kspr - 4)
  have hm := (onlyMemoryChanged_pokes ((addresses (s.kspr - 4) 4).zip (beBytes 4 v)) s).mode
  rw [pushKernel, e]
  refine (h : _).trans ?_
  rw [← hm]
  rfl

/-- The bytes that one push on the kernel stack stores (R373). -/
theorem storesBytes_pushKernel {s : State} (hi : Inv s) (hq : Quiet (addresses (s.kspr - 4) 4) s) (v : Word) :
    StoresBytes (addresses (s.kspr - 4) 4) (beBytes 4 v) s (pushKernel v s) := by
  rw [pushKernel_of_quiet hq]
  exact (storesBytes_pokes hi (nodup_addresses _ (n := 4) (by decide))).congr (fun _ => rfl)
    fun a => peek_congr rfl rfl rfl rfl rfl rfl a

/-- The status word that entry pushes is the number of R374. -/
theorem statusWord_eq (s : State) : statusWord s = BitVec.ofNat 32 (savedStatus s) := by
  have hm := s.imr.isLt
  have hf : s.flags.c.toNat + 2 * s.flags.z.toNat + 4 * s.flags.o.toNat + 8 * s.flags.n.toNat < 16 := by
    cases s.flags.c <;> cases s.flags.z <;> cases s.flags.o <;> cases s.flags.n <;> decide
  have hu : (if s.mode = .user then (0x100 : Word) else 0).toNat = 2 ^ 8 * (if s.mode = .user then 1 else 0) := by
    split <;> rfl
  have hU : (if s.mode = .user then 2 ^ 8 else 0) = 2 ^ 8 * (if s.mode = .user then 1 else 0) := by split <;> rfl
  have hl : (if s.mode = .user then 1 else 0) < 2 := by split <;> decide
  unfold statusWord savedStatus Flags.toWord
  apply BitVec.eq_of_toNat_eq
  rw [BitVec.toNat_or, BitVec.toNat_or, BitVec.toNat_shiftLeft, BitVec.toNat_setWidth, BitVec.toNat_ofNat,
    BitVec.toNat_ofNat, Nat.shiftLeft_eq, hu, hU]
  generalize s.imr.toNat = m at *
  generalize hF : s.flags.c.toNat + 2 * s.flags.z.toNat + 4 * s.flags.o.toNat + 8 * s.flags.n.toNat = F at *
  generalize (if s.mode = .user then 1 else 0) = U at *
  rw [show m % 2 ^ 32 * 2 ^ 16 % 2 ^ 32 = 2 ^ 16 * m by omega, ← Nat.two_pow_add_eq_or_of_lt (by omega : 2 ^ 8 * U < 2 ^ 16),
    show 2 ^ 16 * m + 2 ^ 8 * U = 2 ^ 8 * (2 ^ 8 * m + U) by ring, Nat.mod_eq_of_lt (by omega : F < 2 ^ 32),
    ← Nat.two_pow_add_eq_or_of_lt (by omega : F < 2 ^ 8)]
  omega

/-- The addresses of a frame, word by word (R373). -/
theorem addresses_frame (k : Word) :
    addresses (k - 12) 4 ++ (addresses (k - 8) 4 ++ addresses (k - 4) 4) = addresses (k - 12) 12 := by
  simp only [addresses, List.range_succ, List.range_zero, List.map_cons, List.map_nil, List.nil_append, List.cons_append,
    List.cons.injEq, and_true]
  refine ⟨?_, ?_, ?_, ?_, ?_, ?_, ?_, ?_, ?_, ?_, ?_, ?_⟩ <;> bv_omega

/-- Everything that the three pushes of a frame do, where no device step falls inside (R373). -/
theorem pushFrame_of_quiet {s : State} (hq : Quiet (frameAddresses s) s) (ret : Word) :
    pushFrame ret s = ((pokes (frameBytes ret s) s).setMode .kernel).setKspr (s.kspr - 12) := by
  have e1 : s.kspr - 4 - 4 = s.kspr - 8 := by bv_omega
  have e2 : s.kspr - 8 - 4 = s.kspr - 12 := by bv_omega
  rw [frameAddresses, ← addresses_frame, quiet_append, quiet_append] at hq
  -- each push, from the state that the ones before it leave
  have push (u : State) (k v : Word) (h : Quiet (addresses (k - 4) 4) u) :
      pushKernel v ((u.setMode .kernel).setKspr k) =
        ((pokes ((addresses (k - 4) 4).zip (beBytes 4 v)) u).setMode .kernel).setKspr (k - 4) := by
    have h' : Quiet (addresses (((u.setMode .kernel).setKspr k).kspr - 4) 4) ((u.setMode .kernel).setKspr k) := h.congr rfl
    rw [pushKernel_of_quiet h', pokes_withRegisters]
    rfl
  have o1 := onlyMemoryChanged_pokes ((addresses (s.kspr - 4) 4).zip (beBytes 4 (statusWord s))) s
  have p1 : pushKernel (statusWord s) (s.setMode .kernel) = _ := push s s.kspr (statusWord s) hq.2.2
  have o2 := o1.trans (onlyMemoryChanged_pokes ((addresses (s.kspr - 8) 4).zip (beBytes 4 ret)) _)
  rw [frameBytes, pokes_append, pokes_append, ← statusWord_eq, pushFrame]
  simp only [p1]
  generalize pokes ((addresses (s.kspr - 4) 4).zip (beBytes 4 (statusWord s))) s = a at *
  have p2 := push a (s.kspr - 4) ret (by rw [e1]; exact hq.2.1.congr o1.midStep)
  simp only [p2, e1]
  generalize pokes ((addresses (s.kspr - 8) 4).zip (beBytes 4 ret)) a = b at *
  have p3 := push b (s.kspr - 8) s.uspr (by rw [e2]; exact hq.1.congr o2.midStep)
  rw [e2] at p3
  rw [← p3]
  exact congrArg (fun v => pushKernel v _) o2.uspr

/-- The entries of the vector are no device (R350). -/
theorem quiet_vector (k : Interrupt) (s : State) : Quiet (addresses (vectorAddress k) 4) s := by
  have hk : k.number < 16 := by
    cases k <;> simp only [Interrupt.number] <;> omega
  refine .inr fun p hp => ?_
  obtain ⟨i, hi, rfl⟩ := List.mem_map.1 hp
  rw [List.mem_range] at hi
  have h : (vectorAddress k + BitVec.ofNat 32 i).toNat < 0x40 := by
    rw [vectorAddress, BitVec.toNat_add, BitVec.toNat_ofNat, BitVec.toNat_ofNat]
    omega
  unfold regionOf
  rw [if_pos h]
  rfl

/-! ## Accesses of one byte, and the loops of them -/

theorem addresses_one (a : Word) : addresses a 1 = [a] := by simp [addresses]

/-- A translation in kernel mode reads nothing (R94). -/
theorem walkReads_kernel {s : State} (h : s.mode = .kernel) (va : Word) : walkReads va s = [] := by
  rw [walkReads, h]

theorem quiet_walksRead_one {acc : Access} {va : Word} {s t : State} :
    Quiet (walksRead acc [va] s) t ↔ Quiet (walkReads va s) t := by
  rw [walksRead, quiet_append]
  refine ⟨fun h => h.1, fun h => ⟨h, ?_⟩⟩
  split <;> exact quiet_nil t

theorem translates_one {acc : Access} {va p : Word} {s : State} (h : (resolve va acc s).1 = some p) :
    Translates acc va 1 [p] s := by
  unfold Translates
  rw [addresses_one]
  exact congrArg (fun x => [x]) h

theorem firstFault_one {acc : Access} {va : Word} {s : State} (h : (resolve va acc s).1 = none) :
    FirstFault acc va 1 va s :=
  ⟨0, by decide, by simp, h, fun j hj => absurd hj (by omega)⟩

/-- What `Quiet` says of an access of one byte that translates. -/
theorem quiet_byte {acc : Access} {va p : Word} {s t : State} (h : (resolve va acc s).1 = some p) :
    Quiet (bytesAccessed acc va 1 s) t ↔ Quiet (walkReads va s) t ∧ Quiet [p] t := by
  rw [quiet_bytesAccessed (translates_one h), addresses_one, quiet_walksRead_one]

/-- What `Quiet` says of an access of one byte that does not translate. -/
theorem quiet_byte_fault {acc : Access} {va : Word} {s t : State} (h : (resolve va acc s).1 = none) :
    Quiet (bytesAccessed acc va 1 s) t ↔ Quiet (walkReads va s) t := by
  rw [bytesAccessed, addresses_one, quiet_append, quiet_walksRead_one]
  refine ⟨fun k => k.1, fun k => ⟨k, ?_⟩⟩
  have e : allTranslate acc [va] s = false := by simp [allTranslate, h]
  rw [e]
  exact quiet_nil t

/-- A read of one byte that translates (R95). -/
theorem memRead_byte {va p : Word} {acc : Access} {s : State} (h : (resolve va acc s).1 = some p)
    (hq : Quiet (walkReads va s) s) (hp : Quiet [p] s) : memRead 1 va acc s = .ok ((peek s p).setWidth 32) s := by
  rw [memRead_translates ((quiet_byte h).2 ⟨hq, hp⟩) (translates_one h)]
  congr 1
  simp [beWord]

/-- A write of one byte that translates writes the low byte of its value (R96). -/
theorem memWrite_byte {va p : Word} {s : State} (h : (resolve va .write s).1 = some p) (hq : Quiet (walkReads va s) s)
    (hp : Quiet [p] s) (v : Word) : memWrite 1 va v s = .ok () (poke p (v.setWidth 8) s) := by
  have e : beBytes 1 v = [v.setWidth 8] := by
    simp only [beBytes, List.range_one, List.map_cons, List.map_nil, List.cons.injEq, and_true]
    refine BitVec.eq_of_getLsbD_eq fun k hk => ?_
    simp [hk]
  rw [memWrite_translates ((quiet_byte h).2 ⟨hq, hp⟩) (translates_one h), e]
  rfl

theorem addresses_succ (a : Word) (n : Nat) : addresses a (n + 1) = a :: addresses (a + 1) n := by
  unfold addresses
  rw [List.range_succ_eq_map, List.map_cons, List.map_map]
  congr 1
  · simp
  · refine List.map_congr_left fun i _ => ?_
    rw [Function.comp_apply, Nat.succ_eq_add_one, Nat.add_comm, BitVec.ofNat_add, ← BitVec.add_assoc]
    rfl

/-- Everything that the loop of a block set does in kernel mode, where no device step falls inside (R204). -/
theorem blockSetLoop_kernel {n : Nat} {d v : Word} {s : State} (hk : s.mode = .kernel) (hq : Quiet (addresses d n) s) :
    blockSetLoop n d v s = .ok () (pokes ((addresses d n).zip (List.replicate n (v.setWidth 8))) s) := by
  induction n generalizing d s with
  | zero => rfl
  | succ n ih =>
    have o := onlyMemoryChanged_poke d (v.setWidth 8) s
    rw [addresses_succ, ← List.singleton_append, quiet_append] at hq
    rw [blockSetLoop, memWrite_byte (by rw [resolve_kernel hk]) (by rw [walkReads_kernel hk]; exact quiet_nil s) hq.1,
      MemResult.bind_ok, ih (o.mode.trans hk) (hq.2.congr o.midStep), addresses_succ]
    rfl

/-- The bytes that a copy from `k` on leaves, after those before `k` (R203). -/
theorem blockCopyLoop_kernel_from {n : Nat} {d x : Word} {s : State} (hk : s.mode = .kernel)
    (hq : Quiet (addresses x n ++ addresses d n) s) (m k : Nat) (e : k + m = n) :
    blockCopyLoop m (d + BitVec.ofNat 32 k) (x + BitVec.ofNat 32 k) (copyPokes d x k s) =
      .ok () (copyPokes d x n s) := by
  induction m generalizing k with
  | zero => rw [← e]; rfl
  | succ m ih =>
    have ho := onlyMemoryChanged_copyPokes d x k s
    have hku := ho.mode.trans hk
    have member (a : Word) : a + BitVec.ofNat 32 k ∈ addresses a n :=
      List.mem_map.2 ⟨k, List.mem_range.2 (by omega), rfl⟩
    have hqu : Quiet [x + BitVec.ofNat 32 k] (copyPokes d x k s) ∧ Quiet [d + BitVec.ofNat 32 k] (copyPokes d x k s) := by
      rw [quiet_append] at hq
      exact ⟨(hq.1.mono fun p hp => List.mem_singleton.1 hp ▸ member x).congr ho.midStep,
        (hq.2.mono fun p hp => List.mem_singleton.1 hp ▸ member d).congr ho.midStep⟩
    have hw (va : Word) : Quiet (walkReads va (copyPokes d x k s)) (copyPokes d x k s) := by
      rw [walkReads_kernel hku]
      exact quiet_nil _
    have next (a : Word) : a + BitVec.ofNat 32 k + 1 = a + BitVec.ofNat 32 (k + 1) := by
      rw [BitVec.ofNat_add, ← BitVec.add_assoc]
      rfl
    have low (b : Byte) : (b.setWidth 32 : Word).setWidth 8 = b := by
      refine BitVec.eq_of_getLsbD_eq fun j hj => ?_
      simp [hj]
    rw [blockCopyLoop, memRead_byte (by rw [resolve_kernel hku]) (hw _) hqu.1, MemResult.bind_ok,
      memWrite_byte (by rw [resolve_kernel hku]) (hw _) hqu.2, MemResult.bind_ok, low, next, next]
    exact ih (k + 1) (by omega)

/-- Everything that the loop of a block copy does in kernel mode, where no device step falls inside (R203). -/
theorem blockCopyLoop_kernel {n : Nat} {d x : Word} {s : State} (hk : s.mode = .kernel)
    (hq : Quiet (addresses x n ++ addresses d n) s) : blockCopyLoop n d x s = .ok () (copyPokes d x n s) := by
  have h := blockCopyLoop_kernel_from hk hq n 0 (Nat.zero_add n)
  simpa only [BitVec.ofNat_eq_ofNat, BitVec.add_zero, copyPokes] using h

end Sys2Proof.Machine
end

