-- ==== Sys2Proof/Laws/PerInstr.lean ====
section
/-! SUPPORT. Statements made per instruction, one lemma for each constructor of `Instr`. -/

namespace Sys2Proof.Laws.EncodedLength

/-- R136: the bytes of an instruction are its opcode byte and at most five more. -/
def Statement (i : Instr) : Prop :=
  (encode i).head? = some (BitVec.ofNat 8 i.opcode) ∧ 1 ≤ (encode i).length ∧ (encode i).length ≤ maxInstrBytes

/-- A literal is at most four bytes long (R132). -/
theorem length_literal_le (w : Width) (v : Word) : (encodeLit w v).length ≤ 4 := by
  rw [length_encodeLit]
  cases w <;> decide

theorem halt : Statement .halt :=
  ⟨rfl, by simp [encode], by simp [encode, encodeOperands, maxInstrBytes]⟩

theorem pause : Statement .pause :=
  ⟨rfl, by simp [encode], by simp [encode, encodeOperands, maxInstrBytes]⟩

theorem nop : Statement .nop :=
  ⟨rfl, by simp [encode], by simp [encode, encodeOperands, maxInstrBytes]⟩

theorem ireturn : Statement .ireturn :=
  ⟨rfl, by simp [encode], by simp [encode, encodeOperands, maxInstrBytes]⟩

theorem syscall : Statement .syscall :=
  ⟨rfl, by simp [encode], by simp [encode, encodeOperands, maxInstrBytes]⟩

theorem loadA (dst : Ref) (addr : Word) : Statement (.loadA dst addr) :=
  ⟨rfl, by simp [encode], by simp [encode, encodeOperands, maxInstrBytes]⟩

theorem loadR (dst : Ref) (src : Fin 8) : Statement (.loadR dst src) :=
  ⟨rfl, by simp [encode], by simp [encode, encodeOperands, maxInstrBytes]⟩

theorem storeR (addr : Fin 8) (src : Ref) : Statement (.storeR addr src) :=
  ⟨rfl, by simp [encode], by simp [encode, encodeOperands, maxInstrBytes]⟩

theorem storeA (addr : Word) (src : Ref) : Statement (.storeA addr src) :=
  ⟨rfl, by simp [encode], by simp [encode, encodeOperands, maxInstrBytes]⟩

theorem copyR (dst : Ref) (src : Ref) : Statement (.copyR dst src) :=
  ⟨rfl, by simp [encode], by simp [encode, encodeOperands, maxInstrBytes]⟩

theorem copyI (dst : Ref) (lit : Word) : Statement (.copyI dst lit) :=
  ⟨rfl, by simp [encode], by
    have h := length_literal_le dst.width lit
    simp only [encode, encodeOperands, List.length_cons, List.length_append, List.length_nil, maxInstrBytes]
    omega⟩

theorem swapA (reg : Ref) (addr : Word) : Statement (.swapA reg addr) :=
  ⟨rfl, by simp [encode], by simp [encode, encodeOperands, maxInstrBytes]⟩

theorem swapR (reg : Ref) (addr : Fin 8) : Statement (.swapR reg addr) :=
  ⟨rfl, by simp [encode], by simp [encode, encodeOperands, maxInstrBytes]⟩

theorem swapRR (a : Ref) (b : Ref) : Statement (.swapRR a b) :=
  ⟨rfl, by simp [encode], by simp [encode, encodeOperands, maxInstrBytes]⟩

theorem push (src : Ref) : Statement (.push src) :=
  ⟨rfl, by simp [encode], by simp [encode, encodeOperands, maxInstrBytes]⟩

theorem pop (dst : Ref) : Statement (.pop dst) :=
  ⟨rfl, by simp [encode], by simp [encode, encodeOperands, maxInstrBytes]⟩

theorem blockcopy (count : Fin 8) (dst : Fin 8) (src : Fin 8) : Statement (.blockcopy count dst src) :=
  ⟨rfl, by simp [encode], by simp [encode, encodeOperands, maxInstrBytes]⟩

theorem blockset (count : Fin 8) (dst : Fin 8) (value : Fin 8) : Statement (.blockset count dst value) :=
  ⟨rfl, by simp [encode], by simp [encode, encodeOperands, maxInstrBytes]⟩

theorem addR (dst : GRef) (src : GRef) : Statement (.addR dst src) :=
  ⟨rfl, by simp [encode], by simp [encode, encodeOperands, maxInstrBytes]⟩

theorem addI (dst : GRef) (lit : Word) : Statement (.addI dst lit) :=
  ⟨rfl, by simp [encode], by
    have h := length_literal_le dst.width lit
    simp only [encode, encodeOperands, List.length_cons, List.length_append, List.length_nil, maxInstrBytes]
    omega⟩

theorem subR (dst : GRef) (src : GRef) : Statement (.subR dst src) :=
  ⟨rfl, by simp [encode], by simp [encode, encodeOperands, maxInstrBytes]⟩

theorem subI (dst : GRef) (lit : Word) : Statement (.subI dst lit) :=
  ⟨rfl, by simp [encode], by
    have h := length_literal_le dst.width lit
    simp only [encode, encodeOperands, List.length_cons, List.length_append, List.length_nil, maxInstrBytes]
    omega⟩

theorem mulR (dst : GRef) (src : GRef) : Statement (.mulR dst src) :=
  ⟨rfl, by simp [encode], by simp [encode, encodeOperands, maxInstrBytes]⟩

theorem mulI (dst : GRef) (lit : Word) : Statement (.mulI dst lit) :=
  ⟨rfl, by simp [encode], by
    have h := length_literal_le dst.width lit
    simp only [encode, encodeOperands, List.length_cons, List.length_append, List.length_nil, maxInstrBytes]
    omega⟩

theorem udivR (dst : GRef) (src : GRef) : Statement (.udivR dst src) :=
  ⟨rfl, by simp [encode], by simp [encode, encodeOperands, maxInstrBytes]⟩

theorem udivI (dst : GRef) (lit : Word) : Statement (.udivI dst lit) :=
  ⟨rfl, by simp [encode], by
    have h := length_literal_le dst.width lit
    simp only [encode, encodeOperands, List.length_cons, List.length_append, List.length_nil, maxInstrBytes]
    omega⟩

theorem sdivR (dst : GRef) (src : GRef) : Statement (.sdivR dst src) :=
  ⟨rfl, by simp [encode], by simp [encode, encodeOperands, maxInstrBytes]⟩

theorem sdivI (dst : GRef) (lit : Word) : Statement (.sdivI dst lit) :=
  ⟨rfl, by simp [encode], by
    have h := length_literal_le dst.width lit
    simp only [encode, encodeOperands, List.length_cons, List.length_append, List.length_nil, maxInstrBytes]
    omega⟩

theorem neg (dst : GRef) : Statement (.neg dst) :=
  ⟨rfl, by simp [encode], by simp [encode, encodeOperands, maxInstrBytes]⟩

theorem andR (dst : GRef) (src : GRef) : Statement (.andR dst src) :=
  ⟨rfl, by simp [encode], by simp [encode, encodeOperands, maxInstrBytes]⟩

theorem andI (dst : GRef) (lit : Word) : Statement (.andI dst lit) :=
  ⟨rfl, by simp [encode], by
    have h := length_literal_le dst.width lit
    simp only [encode, encodeOperands, List.length_cons, List.length_append, List.length_nil, maxInstrBytes]
    omega⟩

theorem orR (dst : GRef) (src : GRef) : Statement (.orR dst src) :=
  ⟨rfl, by simp [encode], by simp [encode, encodeOperands, maxInstrBytes]⟩

theorem orI (dst : GRef) (lit : Word) : Statement (.orI dst lit) :=
  ⟨rfl, by simp [encode], by
    have h := length_literal_le dst.width lit
    simp only [encode, encodeOperands, List.length_cons, List.length_append, List.length_nil, maxInstrBytes]
    omega⟩

theorem xorR (dst : GRef) (src : GRef) : Statement (.xorR dst src) :=
  ⟨rfl, by simp [encode], by simp [encode, encodeOperands, maxInstrBytes]⟩

theorem xorI (dst : GRef) (lit : Word) : Statement (.xorI dst lit) :=
  ⟨rfl, by simp [encode], by
    have h := length_literal_le dst.width lit
    simp only [encode, encodeOperands, List.length_cons, List.length_append, List.length_nil, maxInstrBytes]
    omega⟩

theorem notR (dst : GRef) : Statement (.notR dst) :=
  ⟨rfl, by simp [encode], by simp [encode, encodeOperands, maxInstrBytes]⟩

theorem shlR (dst : GRef) (count : GRef) : Statement (.shlR dst count) :=
  ⟨rfl, by simp [encode], by simp [encode, encodeOperands, maxInstrBytes]⟩

theorem shlI (dst : GRef) (lit : Word) : Statement (.shlI dst lit) :=
  ⟨rfl, by simp [encode], by
    have h := length_literal_le dst.width lit
    simp only [encode, encodeOperands, List.length_cons, List.length_append, List.length_nil, maxInstrBytes]
    omega⟩

theorem shrR (dst : GRef) (count : GRef) : Statement (.shrR dst count) :=
  ⟨rfl, by simp [encode], by simp [encode, encodeOperands, maxInstrBytes]⟩

theorem shrI (dst : GRef) (lit : Word) : Statement (.shrI dst lit) :=
  ⟨rfl, by simp [encode], by
    have h := length_literal_le dst.width lit
    simp only [encode, encodeOperands, List.length_cons, List.length_append, List.length_nil, maxInstrBytes]
    omega⟩

theorem sarR (dst : GRef) (count : GRef) : Statement (.sarR dst count) :=
  ⟨rfl, by simp [encode], by simp [encode, encodeOperands, maxInstrBytes]⟩

theorem sarI (dst : GRef) (lit : Word) : Statement (.sarI dst lit) :=
  ⟨rfl, by simp [encode], by
    have h := length_literal_le dst.width lit
    simp only [encode, encodeOperands, List.length_cons, List.length_append, List.length_nil, maxInstrBytes]
    omega⟩

theorem rolR (dst : GRef) (count : GRef) : Statement (.rolR dst count) :=
  ⟨rfl, by simp [encode], by simp [encode, encodeOperands, maxInstrBytes]⟩

theorem rolI (dst : GRef) (lit : Word) : Statement (.rolI dst lit) :=
  ⟨rfl, by simp [encode], by
    have h := length_literal_le dst.width lit
    simp only [encode, encodeOperands, List.length_cons, List.length_append, List.length_nil, maxInstrBytes]
    omega⟩

theorem rorR (dst : GRef) (count : GRef) : Statement (.rorR dst count) :=
  ⟨rfl, by simp [encode], by simp [encode, encodeOperands, maxInstrBytes]⟩

theorem rorI (dst : GRef) (lit : Word) : Statement (.rorI dst lit) :=
  ⟨rfl, by simp [encode], by
    have h := length_literal_le dst.width lit
    simp only [encode, encodeOperands, List.length_cons, List.length_append, List.length_nil, maxInstrBytes]
    omega⟩

theorem rclR (dst : GRef) (count : GRef) : Statement (.rclR dst count) :=
  ⟨rfl, by simp [encode], by simp [encode, encodeOperands, maxInstrBytes]⟩

theorem rclI (dst : GRef) (lit : Word) : Statement (.rclI dst lit) :=
  ⟨rfl, by simp [encode], by
    have h := length_literal_le dst.width lit
    simp only [encode, encodeOperands, List.length_cons, List.length_append, List.length_nil, maxInstrBytes]
    omega⟩

theorem rcrR (dst : GRef) (count : GRef) : Statement (.rcrR dst count) :=
  ⟨rfl, by simp [encode], by simp [encode, encodeOperands, maxInstrBytes]⟩

theorem rcrI (dst : GRef) (lit : Word) : Statement (.rcrI dst lit) :=
  ⟨rfl, by simp [encode], by
    have h := length_literal_le dst.width lit
    simp only [encode, encodeOperands, List.length_cons, List.length_append, List.length_nil, maxInstrBytes]
    omega⟩

theorem cmpR (a : GRef) (b : GRef) : Statement (.cmpR a b) :=
  ⟨rfl, by simp [encode], by simp [encode, encodeOperands, maxInstrBytes]⟩

theorem cmpI (a : GRef) (lit : Word) : Statement (.cmpI a lit) :=
  ⟨rfl, by simp [encode], by
    have h := length_literal_le a.width lit
    simp only [encode, encodeOperands, List.length_cons, List.length_append, List.length_nil, maxInstrBytes]
    omega⟩

theorem bA (target : Word) : Statement (.bA target) :=
  ⟨rfl, by simp [encode], by simp [encode, encodeOperands, maxInstrBytes]⟩

theorem bR (target : Fin 8) : Statement (.bR target) :=
  ⟨rfl, by simp [encode], by simp [encode, encodeOperands, maxInstrBytes]⟩

theorem beqA (target : Word) : Statement (.beqA target) :=
  ⟨rfl, by simp [encode], by simp [encode, encodeOperands, maxInstrBytes]⟩

theorem beqR (target : Fin 8) : Statement (.beqR target) :=
  ⟨rfl, by simp [encode], by simp [encode, encodeOperands, maxInstrBytes]⟩

theorem bneqA (target : Word) : Statement (.bneqA target) :=
  ⟨rfl, by simp [encode], by simp [encode, encodeOperands, maxInstrBytes]⟩

theorem bneqR (target : Fin 8) : Statement (.bneqR target) :=
  ⟨rfl, by simp [encode], by simp [encode, encodeOperands, maxInstrBytes]⟩

theorem bltA (target : Word) : Statement (.bltA target) :=
  ⟨rfl, by simp [encode], by simp [encode, encodeOperands, maxInstrBytes]⟩

theorem bltR (target : Fin 8) : Statement (.bltR target) :=
  ⟨rfl, by simp [encode], by simp [encode, encodeOperands, maxInstrBytes]⟩

theorem bltuA (target : Word) : Statement (.bltuA target) :=
  ⟨rfl, by simp [encode], by simp [encode, encodeOperands, maxInstrBytes]⟩

theorem bltuR (target : Fin 8) : Statement (.bltuR target) :=
  ⟨rfl, by simp [encode], by simp [encode, encodeOperands, maxInstrBytes]⟩

theorem bgtA (target : Word) : Statement (.bgtA target) :=
  ⟨rfl, by simp [encode], by simp [encode, encodeOperands, maxInstrBytes]⟩

theorem bgtR (target : Fin 8) : Statement (.bgtR target) :=
  ⟨rfl, by simp [encode], by simp [encode, encodeOperands, maxInstrBytes]⟩

theorem bgtuA (target : Word) : Statement (.bgtuA target) :=
  ⟨rfl, by simp [encode], by simp [encode, encodeOperands, maxInstrBytes]⟩

theorem bgtuR (target : Fin 8) : Statement (.bgtuR target) :=
  ⟨rfl, by simp [encode], by simp [encode, encodeOperands, maxInstrBytes]⟩

theorem bleA (target : Word) : Statement (.bleA target) :=
  ⟨rfl, by simp [encode], by simp [encode, encodeOperands, maxInstrBytes]⟩

theorem bleR (target : Fin 8) : Statement (.bleR target) :=
  ⟨rfl, by simp [encode], by simp [encode, encodeOperands, maxInstrBytes]⟩

theorem bleuA (target : Word) : Statement (.bleuA target) :=
  ⟨rfl, by simp [encode], by simp [encode, encodeOperands, maxInstrBytes]⟩

theorem bleuR (target : Fin 8) : Statement (.bleuR target) :=
  ⟨rfl, by simp [encode], by simp [encode, encodeOperands, maxInstrBytes]⟩

theorem bgeA (target : Word) : Statement (.bgeA target) :=
  ⟨rfl, by simp [encode], by simp [encode, encodeOperands, maxInstrBytes]⟩

theorem bgeR (target : Fin 8) : Statement (.bgeR target) :=
  ⟨rfl, by simp [encode], by simp [encode, encodeOperands, maxInstrBytes]⟩

theorem bgeuA (target : Word) : Statement (.bgeuA target) :=
  ⟨rfl, by simp [encode], by simp [encode, encodeOperands, maxInstrBytes]⟩

theorem bgeuR (target : Fin 8) : Statement (.bgeuR target) :=
  ⟨rfl, by simp [encode], by simp [encode, encodeOperands, maxInstrBytes]⟩

theorem zext (dst : GRef) (src : GRef) : Statement (.zext dst src) :=
  ⟨rfl, by simp [encode], by simp [encode, encodeOperands, maxInstrBytes]⟩

theorem sext (dst : GRef) (src : GRef) : Statement (.sext dst src) :=
  ⟨rfl, by simp [encode], by simp [encode, encodeOperands, maxInstrBytes]⟩

theorem trunc (dst : GRef) (src : GRef) : Statement (.trunc dst src) :=
  ⟨rfl, by simp [encode], by simp [encode, encodeOperands, maxInstrBytes]⟩

theorem itof (dst : Fin 8) (src : Fin 8) : Statement (.itof dst src) :=
  ⟨rfl, by simp [encode], by simp [encode, encodeOperands, maxInstrBytes]⟩

theorem utof (dst : Fin 8) (src : Fin 8) : Statement (.utof dst src) :=
  ⟨rfl, by simp [encode], by simp [encode, encodeOperands, maxInstrBytes]⟩

theorem ftoi (dst : Fin 8) (src : Fin 8) : Statement (.ftoi dst src) :=
  ⟨rfl, by simp [encode], by simp [encode, encodeOperands, maxInstrBytes]⟩

theorem ftou (dst : Fin 8) (src : Fin 8) : Statement (.ftou dst src) :=
  ⟨rfl, by simp [encode], by simp [encode, encodeOperands, maxInstrBytes]⟩

theorem fcmp (a : Fin 8) (b : Fin 8) : Statement (.fcmp a b) :=
  ⟨rfl, by simp [encode], by simp [encode, encodeOperands, maxInstrBytes]⟩

end Sys2Proof.Laws.EncodedLength
end

