-- ==== Sys2Proof/Laws/Step.lean ====
section
/-! SUPPORT. What a fetch, a CPU step and a step of the machine can do, said once for each; and the stores that reset leaves. -/

namespace Sys2Proof.Machine

/-- The state in which a fetch ends. -/
def FetchResult.state : FetchResult → State
  | .ok _ s => s
  | .illegal _ s => s
  | .pageFault _ s => s

/-- A fetch changes nothing outside the devices (R150, R81). -/
theorem sameOutsideDevices_fetchLoop (fuel : Nat) (got : List Byte) (s : State) :
    SameOutsideDevices s (fetchLoop fuel got s).state := by
  induction fuel generalizing got s with
  | zero => exact SameOutsideDevices.refl s
  | succ fuel ih =>
    have h := sameOutsideDevices_memRead 1 (s.pc + BitVec.ofNat 32 got.length) .fetch s
    rw [fetchLoop]
    split
    · next e => rw [e] at h; exact h
    · next b s1 e =>
      rw [e] at h
      split
      · exact h
      · exact h
      · exact h.trans (ih _ s1)

theorem sameOutsideDevices_fetch (s : State) : SameOutsideDevices s (fetch s).state :=
  sameOutsideDevices_fetchLoop _ _ s

/-- A fetch reads each of the bytes that are fetchable at the pc, where no device step falls inside (R150). -/
theorem memRead_fetched {s : State} {bs : List Byte} (hf : FetchableAtPc bs s)
    (hq : Quiet (bytesAccessed .fetch s.pc bs.length s) s) {j : Nat} (hj : j < bs.length) :
    memRead 1 (s.pc + BitVec.ofNat 32 j) .fetch s = .ok (bs[j].setWidth 32) s := by
  obtain ⟨ps, ht, rfl⟩ := hf
  rw [quiet_bytesAccessed ht] at hq
  have hp : j < ps.length := by simpa using hj
  have ha : s.pc + BitVec.ofNat 32 j ∈ addresses s.pc (ps.map (peek s)).length :=
    List.mem_map.2 ⟨j, List.mem_range.2 hj, rfl⟩
  rw [memRead_byte (resolve_of_translates ht hp) (quiet_walkReads_of_mem hq.1 (allTranslate_of_translates ht) ha)
    (hq.2.mono fun p h => List.mem_singleton.1 h ▸ List.getElem_mem hp), List.getElem_map]

theorem Inv.fetchLoop {s : State} (h : Inv s) (fuel : Nat) (got : List Byte) : Inv (fetchLoop fuel got s).state := by
  induction fuel generalizing got s with
  | zero => exact h
  | succ fuel ih =>
    have h1 := h.memRead 1 (s.pc + BitVec.ofNat 32 got.length) .fetch
    rw [Machine.fetchLoop]
    split
    · next e => rw [e] at h1; exact h1
    · next b s1 e =>
      rw [e] at h1
      split
      · exact h1
      · exact h1
      · exact ih h1 _

/-- Everything that one instruction step can be (R150). -/
theorem runInstruction_cases {s t : State} (h : runInstruction s = .next t) :
    (∃ i u, fetch s = .ok i u ∧ exec i u = .next t) ∨ (∃ e u, fetch s = .illegal e u ∧ t = raiseIllegal u) ∨
      ∃ va u, fetch s = .pageFault va u ∧ t = raisePageFault va u := by
  unfold runInstruction at h
  split at h
  · next i u e => exact .inl ⟨i, u, e, h⟩
  · next e' u e => exact .inr (.inl ⟨e', u, e, (Host.Outcome.next.inj h).symm⟩)
  · next va u e => exact .inr (.inr ⟨va, u, e, (Host.Outcome.next.inj h).symm⟩)

/-- Everything that a CPU step can be (R371). -/
theorem cpuStep_cases {s t : State} (h : cpuStep s = .next t) :
    t = s ∨
      (s.runState ≠ .stopped ∧ ∃ k rest, takeEnabled s.imr s.queue = some (k, rest) ∧
        t = takeInterrupt k.kind s.pc (s.setQueue rest)) ∨
      (s.runState = .running ∧ takeEnabled s.imr s.queue = none ∧ runInstruction s = .next t) := by
  unfold cpuStep at h
  split at h
  · exact .inl (Host.Outcome.next.inj h).symm
  · next hr =>
    split at h
    · next k rest e => exact .inr (.inl ⟨by rw [hr]; decide, k, rest, e, (Host.Outcome.next.inj h).symm⟩)
    · next e => exact .inr (.inr ⟨hr, e, h⟩)
  · next hr =>
    split at h
    · next k rest e => exact .inr (.inl ⟨by rw [hr]; decide, k, rest, e, (Host.Outcome.next.inj h).symm⟩)
    · exact .inl (Host.Outcome.next.inj h).symm

/-- Everything that a step of the machine can be (R15): the CPU's, in the state with its turn taken off the schedule, or the
turn of another agent. -/
theorem step_cases {s t : State} (h : step s = .next t) :
    (∃ u, CpuTurn s u ∧ cpuStep u = .next t) ∨
      (∃ d rest, s.schedule = .device d :: rest ∧ t = deviceStep d (s.setSchedule rest)) ∨
      (∃ m rest, s.schedule = .hostKey m :: rest ∧ t = hostKey m (s.setSchedule rest)) ∨
      (∃ rest, s.schedule = .hostStop :: rest ∧ t = hostStop (s.setSchedule rest)) ∨
      ∃ i rest, s.schedule = .hostStart i :: rest ∧ t = hostStart i (s.setSchedule rest) := by
  unfold step scheduledStep at h
  split at h
  · next e => exact .inl ⟨s, .inl ⟨e, rfl⟩, h⟩
  · next a rest e =>
    cases a with
    | cpu => exact .inl ⟨_, .inr ⟨rest, e, rfl⟩, h⟩
    | device d => exact .inr (.inl ⟨d, rest, e, (Host.Outcome.next.inj h).symm⟩)
    | hostKey m => exact .inr (.inr (.inl ⟨m, rest, e, (Host.Outcome.next.inj h).symm⟩))
    | hostStop => exact .inr (.inr (.inr (.inl ⟨rest, e, (Host.Outcome.next.inj h).symm⟩)))
    | hostStart i => exact .inr (.inr (.inr (.inr ⟨i, rest, e, (Host.Outcome.next.inj h).symm⟩)))

/-- The stores that reset leaves are in canonical form. -/
theorem wf_reset : State.reset.ram.wf = true ∧ State.reset.rom.wf = true ∧ State.reset.display.wf = true := by
  decide

/-- The ROM that a start loads is in canonical form and inside its row, whatever the image (R74). -/
theorem wf_start_rom (capacity : QueueCapacity) (i : StartInput) :
    (State.start capacity i).rom.wf = true ∧ (State.start capacity i).rom.below romBytes = true :=
  ⟨Memory.wf_ofBytes _, Memory.below_ofBytes (by simp)⟩

/-- The buffer and the image that a start gives a controller are in canonical form and of their sizes (R410, R450). -/
theorem wf_start_disk (d : DiskStart) :
    (Disk.start d).buffer.wf = true ∧ (Disk.start d).buffer.below blockBytes = true ∧
      ∀ i, (Disk.start d).image = some i → i.bytes.wf = true ∧ i.bytes.below (blockBytes * i.blocks.toNat) = true := by
  refine ⟨Memory.wf_ofBytes _, Memory.below_ofBytes (by simp), fun i h => ?_⟩
  simp only [Disk.start, Option.map_eq_some_iff] at h
  obtain ⟨src, _, rfl⟩ := h
  exact ⟨Memory.wf_ofBytes _, Memory.below_ofBytes (by simp [DiskImage.ofSource])⟩

end Sys2Proof.Machine
end

