-- ==== Sys2Proof/Tests/Slice0.lean ====
section
/-! SUPPORT. Tests of one step or one operation on small states, with expected results from spec 95_test_vectors.md or worked
by hand from the rules named, and a witness for every statement that has hypotheses. -/

namespace Sys2Proof.Tests

open Sys2Proof Sys2Proof.Machine

/-! ## Ill-formed terms are refused -/

/-- R134 "same width", references of class `S`. -/
theorem test_copy_width_mismatch : (Instr.copyR (.gpr ⟨0, .word⟩) (.gpr ⟨1, .byte⟩)).wellFormed = false := by decide

/-- R134 "same width": a special register is a word (R46). -/
theorem test_swap_width_mismatch : (Instr.swapRR (.special .flags) (.gpr ⟨1, .half⟩)).wellFormed = false := by decide

/-- R134 "same width", references of class `G`: spec 95 section 3, `add r0, r1b`. -/
theorem test_add_width_mismatch : (Instr.addR ⟨0, .word⟩ ⟨1, .byte⟩).wellFormed = false := by decide

/-- R132: a literal has the width of the reference before it, so 256 is no literal of a byte. -/
theorem test_literal_too_wide : (Instr.addI ⟨0, .byte⟩ 256).wellFormed = false := by decide

/-- R132, for a reference of class `S`. -/
theorem test_copy_literal_too_wide : (Instr.copyI (.gpr ⟨0, .half⟩) 0x10000).wellFormed = false := by decide

/-- R134: spec 95 section 6, `zext r2b, r1b`. -/
theorem test_zext_not_wider : (Instr.zext ⟨2, .byte⟩ ⟨1, .byte⟩).wellFormed = false := by decide

/-- R134, for `SEXT`. -/
theorem test_sext_not_wider : (Instr.sext ⟨2, .half⟩ ⟨1, .word⟩).wellFormed = false := by decide

/-- R134: spec 95 section 6, `trunc r2, r1b`. -/
theorem test_trunc_not_narrower : (Instr.trunc ⟨2, .word⟩ ⟨1, .byte⟩).wellFormed = false := by decide

/-! ## Decoding: bytes written out from the opcode map (R140) and the reference bytes (R130, R34) -/

/-- The bytes decode to the instruction, with nothing left. -/
def reads (bs : List Nat) (i : Instr) : Bool := decide (decode (bs.map (BitVec.ofNat 8)) = .ok i [])

theorem test_decode_control :
    reads [0x00] (.halt) ∧
    reads [0x01] (.pause) ∧
    reads [0x02] (.nop) ∧
    reads [0x03] (.ireturn) ∧
    reads [0x04] (.syscall) := by
  decide

theorem test_decode_data_movement :
    reads [0x05, 0x21, 0x00, 0x00, 0x50, 0x00] (.loadA (.gpr ⟨1, .half⟩) 0x5000) ∧
    reads [0x06, 0x0D, 0x02] (.loadR (.special .pfva) 2) ∧
    reads [0x07, 0x03, 0x04] (.storeR 3 (.gpr ⟨4, .word⟩)) ∧
    reads [0x08, 0x12, 0x34, 0x56, 0x78, 0x11] (.storeA 0x12345678 (.gpr ⟨1, .byte⟩)) ∧
    reads [0x09, 0x26, 0x25] (.copyR (.gpr ⟨6, .half⟩) (.gpr ⟨5, .half⟩)) ∧
    reads [0x0A, 0x0C, 0x00, 0x01, 0x00, 0x60] (.copyI (.special .imr) 0x10060) ∧
    reads [0x0B, 0x01, 0x00, 0x00, 0x70, 0x00] (.swapA (.gpr ⟨1, .word⟩) 0x7000) ∧
    reads [0x0C, 0x17, 0x06] (.swapR (.gpr ⟨7, .byte⟩) 6) ∧
    reads [0x0D, 0x10, 0x11] (.swapRR (.gpr ⟨0, .byte⟩) (.gpr ⟨1, .byte⟩)) ∧
    reads [0x0E, 0x09] (.push (.special .uspr)) ∧
    reads [0x0F, 0x23] (.pop (.gpr ⟨3, .half⟩)) ∧
    reads [0x10, 0x00, 0x01, 0x02] (.blockcopy 0 1 2) ∧
    reads [0x11, 0x00, 0x01, 0x12] (.blockset 0 1 2) := by
  decide

theorem test_decode_arithmetic :
    reads [0x12, 0x20, 0x21] (.addR ⟨0, .half⟩ ⟨1, .half⟩) ∧
    reads [0x13, 0x12, 0x80] (.addI ⟨2, .byte⟩ 0x80) ∧
    reads [0x14, 0x20, 0x21] (.subR ⟨0, .half⟩ ⟨1, .half⟩) ∧
    reads [0x15, 0x12, 0x80] (.subI ⟨2, .byte⟩ 0x80) ∧
    reads [0x16, 0x20, 0x21] (.mulR ⟨0, .half⟩ ⟨1, .half⟩) ∧
    reads [0x17, 0x12, 0x80] (.mulI ⟨2, .byte⟩ 0x80) ∧
    reads [0x18, 0x20, 0x21] (.udivR ⟨0, .half⟩ ⟨1, .half⟩) ∧
    reads [0x19, 0x12, 0x80] (.udivI ⟨2, .byte⟩ 0x80) ∧
    reads [0x1A, 0x20, 0x21] (.sdivR ⟨0, .half⟩ ⟨1, .half⟩) ∧
    reads [0x1B, 0x12, 0x80] (.sdivI ⟨2, .byte⟩ 0x80) ∧
    reads [0x1C, 0x10] (.neg ⟨0, .byte⟩) := by
  decide

theorem test_decode_bitwise :
    reads [0x1D, 0x07, 0x06] (.andR ⟨7, .word⟩ ⟨6, .word⟩) ∧
    reads [0x1E, 0x23, 0x12, 0x34] (.andI ⟨3, .half⟩ 0x1234) ∧
    reads [0x1F, 0x07, 0x06] (.orR ⟨7, .word⟩ ⟨6, .word⟩) ∧
    reads [0x20, 0x23, 0x12, 0x34] (.orI ⟨3, .half⟩ 0x1234) ∧
    reads [0x21, 0x07, 0x06] (.xorR ⟨7, .word⟩ ⟨6, .word⟩) ∧
    reads [0x22, 0x23, 0x12, 0x34] (.xorI ⟨3, .half⟩ 0x1234) ∧
    reads [0x23, 0x25] (.notR ⟨5, .half⟩) ∧
    reads [0x24, 0x10, 0x11] (.shlR ⟨0, .byte⟩ ⟨1, .byte⟩) ∧
    reads [0x25, 0x04, 0x80, 0x00, 0x00, 0x1F] (.shlI ⟨4, .word⟩ 0x8000001F) ∧
    reads [0x26, 0x10, 0x11] (.shrR ⟨0, .byte⟩ ⟨1, .byte⟩) ∧
    reads [0x27, 0x04, 0x80, 0x00, 0x00, 0x1F] (.shrI ⟨4, .word⟩ 0x8000001F) ∧
    reads [0x28, 0x10, 0x11] (.sarR ⟨0, .byte⟩ ⟨1, .byte⟩) ∧
    reads [0x29, 0x04, 0x80, 0x00, 0x00, 0x1F] (.sarI ⟨4, .word⟩ 0x8000001F) ∧
    reads [0x2A, 0x10, 0x11] (.rolR ⟨0, .byte⟩ ⟨1, .byte⟩) ∧
    reads [0x2B, 0x04, 0x80, 0x00, 0x00, 0x1F] (.rolI ⟨4, .word⟩ 0x8000001F) ∧
    reads [0x2C, 0x10, 0x11] (.rorR ⟨0, .byte⟩ ⟨1, .byte⟩) ∧
    reads [0x2D, 0x04, 0x80, 0x00, 0x00, 0x1F] (.rorI ⟨4, .word⟩ 0x8000001F) ∧
    reads [0x2E, 0x10, 0x11] (.rclR ⟨0, .byte⟩ ⟨1, .byte⟩) ∧
    reads [0x2F, 0x04, 0x80, 0x00, 0x00, 0x1F] (.rclI ⟨4, .word⟩ 0x8000001F) ∧
    reads [0x30, 0x10, 0x11] (.rcrR ⟨0, .byte⟩ ⟨1, .byte⟩) ∧
    reads [0x31, 0x04, 0x80, 0x00, 0x00, 0x1F] (.rcrI ⟨4, .word⟩ 0x8000001F) := by
  decide

theorem test_decode_compare_branch :
    reads [0x32, 0x13, 0x14] (.cmpR ⟨3, .byte⟩ ⟨4, .byte⟩) ∧
    reads [0x33, 0x20, 0xFF, 0xFE] (.cmpI ⟨0, .half⟩ 0xFFFE) ∧
    reads [0x34, 0x00, 0x01, 0x02, 0x03] (.bA 0x10203) ∧
    reads [0x35, 0x03] (.bR 3) ∧
    reads [0x36, 0x00, 0x01, 0x02, 0x03] (.beqA 0x10203) ∧
    reads [0x37, 0x03] (.beqR 3) ∧
    reads [0x38, 0x00, 0x01, 0x02, 0x03] (.bneqA 0x10203) ∧
    reads [0x39, 0x03] (.bneqR 3) ∧
    reads [0x3A, 0x00, 0x01, 0x02, 0x03] (.bltA 0x10203) ∧
    reads [0x3B, 0x03] (.bltR 3) ∧
    reads [0x3C, 0x00, 0x01, 0x02, 0x03] (.bltuA 0x10203) ∧
    reads [0x3D, 0x03] (.bltuR 3) ∧
    reads [0x3E, 0x00, 0x01, 0x02, 0x03] (.bgtA 0x10203) ∧
    reads [0x3F, 0x03] (.bgtR 3) ∧
    reads [0x40, 0x00, 0x01, 0x02, 0x03] (.bgtuA 0x10203) ∧
    reads [0x41, 0x03] (.bgtuR 3) ∧
    reads [0x42, 0x00, 0x01, 0x02, 0x03] (.bleA 0x10203) ∧
    reads [0x43, 0x03] (.bleR 3) ∧
    reads [0x44, 0x00, 0x01, 0x02, 0x03] (.bleuA 0x10203) ∧
    reads [0x45, 0x03] (.bleuR 3) ∧
    reads [0x46, 0x00, 0x01, 0x02, 0x03] (.bgeA 0x10203) ∧
    reads [0x47, 0x03] (.bgeR 3) ∧
    reads [0x48, 0x00, 0x01, 0x02, 0x03] (.bgeuA 0x10203) ∧
    reads [0x49, 0x03] (.bgeuR 3) := by
  decide

theorem test_decode_conversion :
    reads [0x4A, 0x22, 0x11] (.zext ⟨2, .half⟩ ⟨1, .byte⟩) ∧
    reads [0x4B, 0x02, 0x11] (.sext ⟨2, .word⟩ ⟨1, .byte⟩) ∧
    reads [0x4C, 0x12, 0x01] (.trunc ⟨2, .byte⟩ ⟨1, .word⟩) ∧
    reads [0x4D, 0x01, 0x02] (.itof 1 2) ∧
    reads [0x4E, 0x03, 0x04] (.utof 3 4) ∧
    reads [0x4F, 0x05, 0x06] (.ftoi 5 6) ∧
    reads [0x50, 0x07, 0x00] (.ftou 7 0) ∧
    reads [0x51, 0x06, 0x05] (.fcmp 6 5) := by
  decide

/-- The encodings of spec 95 section 8 and section 3 that are illegal, each with the check that fails. -/
theorem test_decode_illegal :
    decode [0x52] = .illegal .reservedOpcode ∧ decode [0xFF] = .illegal .reservedOpcode ∧
    decode [0x09, 0x0E, 0x00] = .illegal .badRegisterNumber ∧ decode [0x09, 0x30, 0x00] = .illegal .badWidthCode ∧
    decode [0x09, 0x18, 0x10] = .illegal .specialPartWidth ∧ decode [0x09, 0x00, 0x11] = .illegal .widthMismatch ∧
    decode [0x12, 0x08, 0x00] = .illegal .outsideClass ∧ decode [0x35, 0x13] = .illegal .outsideClass ∧
    decode [0x11, 0x00, 0x01, 0x02] = .illegal .outsideClass ∧ decode [0x4A, 0x12, 0x11] = .illegal .notWider ∧
    decode [0x4C, 0x02, 0x11] = .illegal .notNarrower := by
  decide

/-- A check fails as soon as its bytes are there, before the rest is fetched (R150). -/
theorem test_decode_early : decode [0x09, 0x0E] = .illegal .badRegisterNumber ∧ decode [0x09, 0x00] = .more ∧
    decode [0x13, 0x00, 0x00, 0x00, 0x00] = .more := by
  decide

/-- The table's word numbering: the first byte is bits 7:0 (`add r0b, 5`). -/
theorem test_table_word : decodeTableWord 24 0x051013 = some (.addI ⟨0, .byte⟩ 5) ∧ decodeTableWord 8 0x52 = none := by
  decide

/-! ## One step on a small state -/

/-- A machine with `r0` to `r3` and the flags given, in kernel mode at 0x4000. -/
def machine (r0 r1 r2 r3 flags : Word) : State :=
  { State.reset with regs := #v[r0, r1, r2, r3, 0, 0, 0, 0], pc := 0x4000, flags := Flags.ofWord flags, kspr := 0x8000 }

/-- The state that a step ends in. -/
def ended (r : Result) : Option State :=
  match r with
  | .next s => some s
  | _ => none

/-- The state after one step that runs the bytes given at the pc. -/
def after (bs : List Nat) (s : State) : Option State :=
  ended (step (placeInstr (bs.map (BitVec.ofNat 8)) s.pc s))

/-- Register `i`, the flags and the pc after one step that runs the bytes. -/
def result (i : Fin 8) (bs : List Nat) (s : State) : Option (Nat × Nat × Nat) :=
  (after bs s).map fun t => ((readReg i t).toNat, t.flags.toWord.toNat, t.pc.toNat)

/-- Word at `a` after one step that runs the bytes. -/
def wordAfter (a : Word) (bs : List Nat) (s : State) : Option Nat := (after bs s).map fun t => (wordAt t a).toNat

/-! ### Arithmetic and bitwise: the bits above the view stay (R32) -/

/-- Spec 95 section 3. -/
theorem test_addR : result 0 [0x12, 0x20, 0x21] (machine 0xAABB8000 0x8000 0 0 0) = some (0xAABB0000, 0x7, 0x4003) := by
  decide

/-- Spec 95 section 3. -/
theorem test_addI : result 0 [0x13, 0x10, 0x01] (machine 0xAABBCCFF 0x0 0 0 0) = some (0xAABBCC00, 0x3, 0x4003) := by
  decide

/-- Spec 95 section 3. -/
theorem test_subR : result 0 [0x14, 0x20, 0x21] (machine 0xAABB7FFF 0xFFFF 0 0 0) = some (0xAABB8000, 0xD, 0x4003) := by
  decide

/-- Spec 95 section 3. -/
theorem test_subI : result 0 [0x15, 0x10, 0x01] (machine 0xAABB0080 0x0 0 0 0) = some (0xAABB007F, 0x4, 0x4003) := by
  decide

/-- Spec 95 section 3. -/
theorem test_mulR : result 0 [0x16, 0x10, 0x11] (machine 0xAABB00FF 0x2 0 0 0) = some (0xAABB00FE, 0x9, 0x4003) := by
  decide

/-- Spec 95 section 3. -/
theorem test_mulI : result 0 [0x17, 0x20, 0x00, 0x80] (machine 0xAABB0100 0x0 0 0 0) = some (0xAABB8000, 0xC, 0x4004) := by
  decide

/-- Spec 95 section 3. -/
theorem test_udivR : result 0 [0x18, 0x20, 0x21] (machine 0xAABBFFFF 0x10 0 0 0) = some (0xAABB0FFF, 0x0, 0x4003) := by
  decide

/-- Spec 95 section 3. -/
theorem test_udivI : result 0 [0x19, 0x10, 0x09] (machine 0xAABB0007 0x0 0 0 0) = some (0xAABB0000, 0x2, 0x4003) := by
  decide

/-- Spec 95 section 3. -/
theorem test_sdivR : result 0 [0x1A, 0x10, 0x11] (machine 0xAABB00F9 0x2 0 0 0) = some (0xAABB00FD, 0x8, 0x4003) := by
  decide

/-- Spec 95 section 3. -/
theorem test_sdivI : result 0 [0x1B, 0x00, 0xFF, 0xFF, 0xFF, 0xFF] (machine 0x80000000 0x0 0 0 0) = some (0x80000000, 0xC, 0x4006) := by
  decide

/-- Spec 95 section 3. -/
theorem test_neg_byte : result 0 [0x1C, 0x10] (machine 0xAABB0080 0x0 0 0 0) = some (0xAABB0080, 0xD, 0x4002) := by
  decide

/-- Spec 95 section 3. -/
theorem test_neg_half : result 0 [0x1C, 0x20] (machine 0xAABBFFFF 0x0 0 0 0) = some (0xAABB0001, 0x1, 0x4002) := by
  decide

/-- Spec 95 section 4. -/
theorem test_andR : result 0 [0x1D, 0x10, 0x11] (machine 0xAABB00F0 0x3C 0 0 15) = some (0xAABB0030, 0x0, 0x4003) := by
  decide

/-- R261 by hand. -/
theorem test_andI : result 0 [0x1E, 0x20, 0x8F, 0x0F] (machine 0xAABBFF00 0x0 0 0 0) = some (0xAABB8F00, 0x8, 0x4004) := by
  decide

/-- Spec 95 section 4. -/
theorem test_orR : result 0 [0x1F, 0x10, 0x11] (machine 0xAABB00F0 0xC 0 0 15) = some (0xAABB00FC, 0x8, 0x4003) := by
  decide

/-- R262 by hand. -/
theorem test_orI : result 0 [0x20, 0x10, 0x00] (machine 0xAABB0000 0x0 0 0 0) = some (0xAABB0000, 0x2, 0x4003) := by
  decide

/-- Spec 95 section 4. -/
theorem test_xorR : result 0 [0x21, 0x00, 0x01] (machine 0x12345678 0x12345678 0 0 15) = some (0x0, 0x2, 0x4003) := by
  decide

/-- Spec 95 section 4. -/
theorem test_xorI : result 0 [0x22, 0x20, 0x00, 0xFF] (machine 0xAABBFFFF 0x0 0 0 0) = some (0xAABBFF00, 0x8, 0x4004) := by
  decide

/-- Spec 95 section 4. -/
theorem test_not_byte : result 0 [0x23, 0x10] (machine 0xAABB000F 0x0 0 0 15) = some (0xAABB00F0, 0x8, 0x4002) := by
  decide

/-- R264 by hand. -/
theorem test_not_half : result 0 [0x23, 0x20] (machine 0xAABBFFFF 0x0 0 0 0) = some (0xAABB0000, 0x2, 0x4002) := by
  decide

/-- Spec 95 section 4. -/
theorem test_shlR : result 0 [0x24, 0x10, 0x11] (machine 0xAABB0081 0x9 0 0 0) = some (0xAABB0000, 0x2, 0x4003) := by
  decide

/-- Spec 95 section 4. -/
theorem test_shlI : result 0 [0x25, 0x00, 0x00, 0x00, 0x00, 0x1F] (machine 0x1 0x0 0 0 0) = some (0x80000000, 0x8, 0x4006) := by
  decide

/-- Spec 95 section 4. -/
theorem test_shrR : result 0 [0x26, 0x10, 0x11] (machine 0xAABB0081 0xC8 0 0 0) = some (0xAABB0000, 0x2, 0x4003) := by
  decide

/-- Spec 95 section 4. -/
theorem test_shrI : result 0 [0x27, 0x10, 0x08] (machine 0xAABB0081 0x0 0 0 0) = some (0xAABB0000, 0x3, 0x4003) := by
  decide

/-- Spec 95 section 4. -/
theorem test_sarR : result 0 [0x28, 0x10, 0x11] (machine 0xAABB0081 0x9 0 0 0) = some (0xAABB00FF, 0x9, 0x4003) := by
  decide

/-- Spec 95 section 4. -/
theorem test_sarI : result 0 [0x29, 0x10, 0x07] (machine 0xAABB0081 0x0 0 0 0) = some (0xAABB00FF, 0x8, 0x4003) := by
  decide

/-- Spec 95 section 4. -/
theorem test_rolR : result 0 [0x2A, 0x20, 0x21] (machine 0xAABB8001 0x4 0 0 15) = some (0xAABB0018, 0x0, 0x4003) := by
  decide

/-- Spec 95 section 4. -/
theorem test_rolI : result 0 [0x2B, 0x10, 0x08] (machine 0xAABB0081 0x0 0 0 0) = some (0xAABB0081, 0x9, 0x4003) := by
  decide

/-- Spec 95 section 4. -/
theorem test_rorR : result 0 [0x2C, 0x10, 0x11] (machine 0xAABB0080 0x8 0 0 0) = some (0xAABB0080, 0x9, 0x4003) := by
  decide

/-- Spec 95 section 4. -/
theorem test_rorI : result 0 [0x2D, 0x00, 0x00, 0x00, 0x00, 0x01] (machine 0x1 0x0 0 0 0) = some (0x80000000, 0x9, 0x4006) := by
  decide

/-- Spec 95 section 4. -/
theorem test_rclR : result 0 [0x2E, 0x10, 0x11] (machine 0xAABB0081 0xA 0 0 0) = some (0xAABB0002, 0x1, 0x4003) := by
  decide

/-- Spec 95 S3 and section 4. -/
theorem test_rclI : result 0 [0x2F, 0x10, 0x01] (machine 0xAABB0081 0x0 0 0 1) = some (0xAABB0003, 0x1, 0x4003) := by
  decide

/-- Spec 95 section 4. -/
theorem test_rcrR : result 0 [0x30, 0x20, 0x21] (machine 0xAABB0001 0x11 0 0 0) = some (0xAABB0001, 0x0, 0x4003) := by
  decide

/-- Spec 95 S3. -/
theorem test_rcrI : result 0 [0x31, 0x10, 0x01] (machine 0xAABB0003 0x0 0 0 1) = some (0xAABB0081, 0x9, 0x4003) := by
  decide

/-! ### Compare, branch and conversion -/

/-- Spec 95 section 5: the operands stay. -/
theorem test_cmpR : result 0 [0x32, 0x10, 0x11] (machine 0xAABB0080 0x7F 0 0 0) = some (0xAABB0080, 0x4, 0x4003) := by
  decide

/-- Spec 95 section 5: the operands stay. -/
theorem test_cmpI : result 0 [0x33, 0x00, 0x00, 0x00, 0x00, 0x05] (machine 0x3 0x0 0 0 0) = some (0x3, 0x9, 0x4006) := by
  decide

/-- The pcs after a branch to 0x2000 in its literal form (opcode `op`) and in its register form, with the flags of the five
comparisons of spec 95 section 5 in turn. -/
def branchPcs (op : Nat) : List (Option Nat × Option Nat) :=
  [0x9, 0x2, 0x4, 0xD, 0x8].map fun f =>
    ((after [op, 0x00, 0x00, 0x20, 0x00] (machine 0 0 0 0x2000 f)).map (·.pc.toNat),
      (after [op + 1, 0x03] (machine 0 0 0 0x2000 f)).map (·.pc.toNat))

/-- The pcs that `branchPcs` gives where the branch is taken as listed. -/
def taken (l : List Bool) : List (Option Nat × Option Nat) :=
  l.map fun t => if t then (some 0x2000, some 0x2000) else (some 0x4005, some 0x4002)

/-- Spec 95 section 5. -/
theorem test_b : branchPcs 0x34 = taken [true, true, true, true, true] := by decide

/-- Spec 95 section 5. -/
theorem test_beq : branchPcs 0x36 = taken [false, true, false, false, false] := by decide

/-- Spec 95 section 5. -/
theorem test_bneq : branchPcs 0x38 = taken [true, false, true, true, true] := by decide

/-- Spec 95 section 5. -/
theorem test_blt : branchPcs 0x3A = taken [true, false, true, false, true] := by decide

/-- Spec 95 section 5. -/
theorem test_bltu : branchPcs 0x3C = taken [true, false, false, true, false] := by decide

/-- Spec 95 section 5. -/
theorem test_bgt : branchPcs 0x3E = taken [false, false, false, true, false] := by decide

/-- Spec 95 section 5. -/
theorem test_bgtu : branchPcs 0x40 = taken [false, false, true, false, true] := by decide

/-- Spec 95 section 5. -/
theorem test_ble : branchPcs 0x42 = taken [true, true, true, false, true] := by decide

/-- Spec 95 section 5. -/
theorem test_bleu : branchPcs 0x44 = taken [true, true, false, true, false] := by decide

/-- Spec 95 section 5. -/
theorem test_bge : branchPcs 0x46 = taken [false, true, false, true, false] := by decide

/-- Spec 95 section 5. -/
theorem test_bgeu : branchPcs 0x48 = taken [false, true, true, false, true] := by decide

/-- Spec 95 section 6. -/
theorem test_zext : result 2 [0x4A, 0x22, 0x11] (machine 0 0x80 0xAABBCCDD 0 0xF) = some (0xAABB0080, 0xF, 0x4003) := by
  decide

/-- Spec 95 section 6. -/
theorem test_sext_word : result 2 [0x4B, 0x02, 0x11] (machine 0 0x80 0xAABBCCDD 0 0xF) = some (0xFFFFFF80, 0xF, 0x4003) := by
  decide

/-- Spec 95 section 6. -/
theorem test_sext_half : result 2 [0x4B, 0x22, 0x11] (machine 0 0x7F 0xAABBCCDD 0 0xF) = some (0xAABB007F, 0xF, 0x4003) := by
  decide

/-- Spec 95 section 6. -/
theorem test_trunc : result 2 [0x4C, 0x12, 0x01] (machine 0 0x12345678 0xAABBCCDD 0 0xF) = some (0xAABBCC78, 0xF, 0x4003) := by
  decide

/-- Spec 95 section 6. -/
theorem test_itof_tie : result 2 [0x4D, 0x02, 0x01] (machine 0 0x1000001 0xAABBCCDD 0 0xF) = some (0x4B800000, 0xF, 0x4003) := by
  decide

/-- Spec 95 section 6. -/
theorem test_itof_negative : result 2 [0x4D, 0x02, 0x01] (machine 0 0xFFFFFFFF 0xAABBCCDD 0 0xF) = some (0xBF800000, 0xF, 0x4003) := by
  decide

/-- Spec 95 section 6. -/
theorem test_utof : result 2 [0x4E, 0x02, 0x01] (machine 0 0xFFFFFFFF 0xAABBCCDD 0 0xF) = some (0x4F800000, 0xF, 0x4003) := by
  decide

/-- Spec 95 section 6. -/
theorem test_utof_three : result 2 [0x4E, 0x02, 0x01] (machine 0 0x3 0xAABBCCDD 0 0xF) = some (0x40400000, 0xF, 0x4003) := by
  decide

/-- Spec 95 section 6. -/
theorem test_ftoi : result 2 [0x4F, 0x02, 0x01] (machine 0 0xC0200000 0xAABBCCDD 0 0xF) = some (0xFFFFFFFE, 0xF, 0x4003) := by
  decide

/-- Spec 95 section 6. -/
theorem test_ftoi_saturates : result 2 [0x4F, 0x02, 0x01] (machine 0 0x4F000000 0xAABBCCDD 0 0xF) = some (0x7FFFFFFF, 0xF, 0x4003) := by
  decide

/-- Spec 95 section 6. -/
theorem test_ftou : result 2 [0x50, 0x02, 0x01] (machine 0 0x3FC00000 0xAABBCCDD 0 0xF) = some (0x1, 0xF, 0x4003) := by
  decide

/-- Spec 95 section 6. -/
theorem test_ftou_nan : result 2 [0x50, 0x02, 0x01] (machine 0 0x7FC00000 0xAABBCCDD 0 0xF) = some (0x0, 0xF, 0x4003) := by
  decide

/-- Spec 95 section 6. -/
theorem test_fcmp_less : result 0 [0x51, 0x00, 0x01] (machine 0xBF800000 0x3F800000 0 0 0xF) = some (0xBF800000, 0x9, 0x4003) := by
  decide

/-- Spec 95 section 6. -/
theorem test_fcmp_zeros : result 0 [0x51, 0x00, 0x01] (machine 0x80000000 0x0 0 0 0xF) = some (0x80000000, 0x2, 0x4003) := by
  decide

/-! ### Control and exceptions -/

/-- Spec 95 section 1. -/
theorem test_halt : (after [0x00] (machine 0 0 0 0 0)).map (fun t => (t.runState, t.pc)) = some (.stopped, 0x4001) := by
  decide

/-- Spec 95 section 1: with `imr = 0` a queued entry does not wake the CPU. -/
theorem test_pause : (after [0x01] { machine 0 0 0 0 0 with queue := [.keyboard] }).map
    (fun t => (t.runState, t.pc, t.queue, decide (ended (step t) = some t))) = some (.paused, 0x4001, [.keyboard], true) := by
  decide

/-- Spec 95 section 1. -/
theorem test_nop : (after [0x02] (machine 1 2 3 4 5)).map (fun t => t.setRam []) =
    some ((machine 1 2 3 4 5).setPc 0x4001) := by
  decide

/-- A user-mode machine at 0x5000 with the page tables of spec 95 section 7 (table M), and a page 9 (frame 0x50000) that may
be read and written. -/
def userMachine (r0 r1 : Word) : State :=
  { State.reset with
    regs := #v[r0, r1, 0, 0, 0, 0, 0, 0], pc := 0x5000, mode := .user, kspr := 0x8000, uspr := 0x5800,
    flags := Flags.ofWord 0x2, imr := 0x60, pdpr := 0x10000
    ram := [(0xA, 0x03), (0x10001, 0x01), (0x10002, 0x10), (0x10003, 0x01), (0x11015, 0x02), (0x11017, 0x0B),
      (0x11019, 0x03), (0x1101B, 0x05), (0x1101D, 0x04), (0x1101F, 0x03), (0x11025, 0x05), (0x11027, 0x07)] }

/-- Spec 95 section 9: `sdiv r0, r1` with a zero divisor. -/
theorem test_divide_by_zero : (after [0x1A, 0x00, 0x01] (userMachine 7 0)).map
    (fun t => ((wordAt t 0x7FF4, wordAt t 0x7FF8, wordAt t 0x7FFC), t.kspr, t.mode, t.imr, t.pc, readReg 0 t)) =
    some ((0x5800, 0x5000, 0x00600102), 0x7FF4, .kernel, 0, 0x300, 7) := by
  decide

/-- Spec 95 section 1, with the flags and the mask of `userMachine`. -/
theorem test_syscall : (after [0x04] (userMachine 0 0)).map
    (fun t => ((wordAt t 0x7FF4, wordAt t 0x7FF8, wordAt t 0x7FFC), t.kspr, t.mode, t.imr, t.pc)) =
    some ((0x5800, 0x5001, 0x00600102), 0x7FF4, .kernel, 0, 0) := by
  decide

/-- A kernel machine whose stack pointer 0xFFF4 points at the three words of spec 95 section 1. -/
def returning : State :=
  { State.reset with
    pc := 0x100, kspr := 0xFFF4
    ram := [(0xFFF6, 0x10), (0xFFFB, 0x50), (0xFFFD, 0x20), (0xFFFE, 0x01), (0xFFFF, 0x02)] }

/-- Spec 95 section 1. -/
theorem test_ireturn : (after [0x03] returning).map (fun t => (t.uspr, t.pc, t.flags.toWord, t.mode, t.imr, t.kspr)) =
    some (0x1000, 0x50, 0x2, .user, 0x0020, 0x10000) := by
  decide

/-- Spec 95 section 1: the privileged instructions in user mode take interrupt 1. -/
theorem test_privileged_in_user_mode : ([[0x00], [0x01], [0x03], [0x09, 0x00, 0x0A]].map fun bs =>
    (after bs (userMachine 0 0)).map fun t => (wordAt t 0x7FF8, t.mode, t.runState, t.kspr)) =
    List.replicate 4 (some (0x5000, .kernel, .running, 0x7FF4)) := by
  decide

/-- Spec 95 section 9: 6 is masked, so 5 is taken; with 6 enabled it is taken, in arrival order. -/
theorem test_interrupt_order :
    (ended (step { machine 0 0 0 0 0 with pc := 0x200, imr := 0x20, queue := [.diskA, .keyboard] })).map
      (fun t => (t.queue, wordAt t 0x7FF8, wordAt t 0x7FFC)) = some ([.diskA], 0x200, 0x00200000) ∧
    (ended (step { machine 0 0 0 0 0 with pc := 0x200, imr := 0x60, queue := [.diskA, .keyboard] })).map
      (fun t => t.queue) = some [.keyboard] := by
  decide

/-- Spec 95 section 8: an illegal encoding at the end of an executable page, and one cut off by a page that is not. -/
theorem test_fetch_at_page_end :
    (after [0xFF] ((userMachine 0 0).setPc 0x5FFF)).map (fun t => (wordAt t 0x7FF8, t.pfva)) = some (0x5FFF, 0) ∧
    (after [0x09] ((userMachine 0 0).setPc 0x5FFF)).map (fun t => (wordAt t 0x7FF8, t.pfva)) = some (0x5FFF, 0x6000) := by
  decide

/-! ### Data movement -/

/-- The machine with the bytes `12 34 56 78` at 0x5000. -/
def loading : State := { machine 0 0xAAAAAAAA 0x5002 0 0 with ram := [(0x5000, 0x12), (0x5001, 0x34), (0x5002, 0x56), (0x5003, 0x78)] }

/-- Spec 95 section 2. -/
theorem test_loadA : result 1 [0x05, 0x21, 0x00, 0x00, 0x50, 0x00] loading = some (0xAAAA1234, 0, 0x4006) := by
  decide

/-- Spec 95 section 2. The address is read before the register is written. -/
theorem test_loadR : result 2 [0x06, 0x22, 0x02] loading = some (0x5678, 0, 0x4003) := by
  decide

/-- Spec 95 section 2. -/
theorem test_storeR : wordAfter 0x6000 [0x07, 0x03, 0x01] (machine 0 0xCAFEBABE 0 0x6000 0) = some 0xCAFEBABE := by
  decide

/-- Spec 95 section 2. -/
theorem test_storeA_rom : wordAfter 0x40 [0x08, 0x00, 0x00, 0x00, 0x40, 0x00] (machine 0x11223344 0 0 0 0) = some 0 := by
  decide

/-- Spec 95 S6. -/
theorem test_storeA : wordAfter 0x12345678 [0x08, 0x12, 0x34, 0x56, 0x78, 0x11] (machine 0 0xAB 0 0 0) = some 0xAB000000 := by
  decide

/-- Spec 95 section 2. -/
theorem test_copyR_flags : result 1 [0x09, 0x08, 0x01] (machine 0 0xFFFFFFF5 0 0 0) = some (0xFFFFFFF5, 0x5, 0x4003) := by
  decide

/-- Spec 95 section 2. With other registers. -/
theorem test_copyR_half : result 0 [0x09, 0x20, 0x21] (machine 0xAABBCCDD 0x12345678 0 0 0xF) = some (0xAABB5678, 0xF, 0x4003) := by
  decide

/-- Spec 95 section 2. -/
theorem test_copyI_imr : (after [0x0A, 0x0C, 0x00, 0x01, 0x00, 0x60] (machine 0 0 0 0 0)).map (fun t => (t.imr, t.pc)) = some (0x0060, 0x4006) := by
  decide

/-- Spec 95 section 2. -/
theorem test_swapA : (after [0x0B, 0x01, 0x00, 0x00, 0x70, 0x00] { machine 0 9 0 0 0 with ram := [(0x7003, 7)] }).map
    (fun t => (readReg 1 t, wordAt t 0x7000, t.pc)) = some (7, 9, 0x4006) := by
  decide

/-- R197 by hand: a byte. -/
theorem test_swapR : (after [0x0C, 0x11, 0x02] { machine 0 0xAABBCC09 0x7003 0 0 with ram := [(0x7003, 7)] }).map
    (fun t => (readReg 1 t, wordAt t 0x7000, t.pc)) = some (0xAABBCC07, 9, 0x4003) := by
  decide

/-- Spec 95 section 2. Only the low bytes are exchanged. -/
theorem test_swapRR : (after [0x0D, 0x10, 0x11] (machine 0xAA01 0xBB02 0 0 0)).map (fun t => (readReg 0 t, readReg 1 t, t.pc)) =
    some (0xAA02, 0xBB01, 0x4003) := by
  decide

/-- Spec 95 section 2. The address wraps round. -/
theorem test_push_wraps : (after [0x0E, 0x00] { machine 0xDEADBEEF 0 0 0 0 with kspr := 0x2 }).map
    (fun t => (wordAt t 0xFFFFFFFE, t.ram.read 0, t.ram.read 1, t.kspr)) = some (0xDEADBEEF, 0xBE, 0xEF, 0xFFFFFFFE) := by
  decide

/-- Spec 95 section 2. -/
theorem test_push_byte : (after [0x0E, 0x12] { machine 0 0 0xEF 0 0 with kspr := 0x10000 }).map (fun t => (t.ram.read 0xFFFF, t.kspr, t.pc)) =
    some (0xEF, 0xFFFF, 0x4002) := by
  decide

/-- Spec 95 section 2. -/
theorem test_pop : (after [0x0F, 0x23] { machine 0 0 0 0xAAAAAAAA 0 with kspr := 0xFFFC, ram := [(0xFFFC, 0xDE), (0xFFFD, 0xAD)] }).map
    (fun t => (readReg 3 t, t.kspr, t.pc)) = some (0xAAAADEAD, 0xFFFE, 0x4002) := by
  decide

/-- R200 by hand: the popped value wins over the stack pointer moved. -/
theorem test_pop_kspr : (after [0x0F, 0x0A] { machine 0 0 0 0 0 with kspr := 0xFFFC, ram := [(0xFFFE, 0x90)] }).map (fun t => t.kspr) = some 0x9000 := by
  decide

/-- `AA BB CC DD` at 0x8000. -/
def blocks (dst src : Word) : State :=
  { machine 3 dst src 0 0 with ram := [(0x8000, 0xAA), (0x8001, 0xBB), (0x8002, 0xCC), (0x8003, 0xDD)] }

/-- Spec 95 section 2. -/
theorem test_blockcopy_forward : wordAfter 0x8000 [0x10, 0x00, 0x01, 0x02] (blocks 0x8001 0x8000) = some 0xAAAAAAAA := by
  decide

/-- Spec 95 section 2. -/
theorem test_blockcopy_backward : wordAfter 0x8000 [0x10, 0x00, 0x01, 0x02] (blocks 0x8000 0x8001) = some 0xBBCCDDDD := by
  decide

/-- Spec 95 section 2. With a count of 2. -/
theorem test_blockset : (after [0x11, 0x00, 0x01, 0x12] (machine 2 0x240 0x5541 0 0)).map (fun t => (t.display, t.records, t.pc)) =
    some ([(0, 0x41), (1, 0x41)], [.setChar 0 0 'A', .setChar 0 1 'A'], 0x4004) := by
  decide

/-! ### Memory and translation -/

/-- Spec 95 section 7, table M: reads and writes in user mode. -/
theorem test_translation :
    (resolve 0x5004 .read (userMachine 0 0)).1 = some 0x20004 ∧ (resolve 0x5000 .write (userMachine 0 0)).1 = none ∧
    (resolve 0x6000 .read (userMachine 0 0)).1 = none ∧ (resolve 0x6FFF .write (userMachine 0 0)).1 = some 0x30FFF ∧
    (resolve 0x7000 .fetch (userMachine 0 0)).1 = none ∧ (resolve 0x400000 .read (userMachine 0 0)).1 = none ∧
    (resolve 0x8000 .read (userMachine 0 0)).1 = none := by
  decide

/-- Spec 95 section 7: a word that crosses into a page that may not be written, and `swap` with a page that is only read. -/
theorem test_page_faults :
    (after [0x08, 0x00, 0x00, 0x6F, 0xFE, 0x00] (userMachine 0x11223344 0)).map
      (fun t => (t.pfva, t.ram.read 0x30FFE, t.ram.read 0x30FFF)) = some (0x7000, 0, 0) ∧
    (after [0x0B, 0x00, 0x00, 0x00, 0x70, 0x00] (userMachine 5 0)).map
      (fun t => (t.pfva, readReg 0 t)) = some (0x7000, 5) := by
  decide

/-- Spec 95 section 2: a push in user mode to a page that may not be written leaves `uspr`. -/
theorem test_push_page_fault : (after [0x0E, 0x00] ((userMachine 0 0).setUspr 0x5004)).map (fun t => (t.pfva, t.uspr)) =
    some (0x5000, 0x5004) := by
  decide

/-- R71: the rows at their first and last addresses. -/
theorem test_regions :
    ([0x3F, 0x40, 0x23F, 0x240, 0x19AF, 0x19B0, 0x19B9, 0x19BA, 0x29B9, 0x29BA, 0x29C3, 0x29C4, 0x39C3, 0x39C4, 0x39C5,
      0x39C6].map fun a => regionOf (BitVec.ofNat 32 a)) =
    [.vector, .rom 0, .rom 511, .display 0, .display 5999, .diskRegister .a 0, .diskRegister .a 9, .diskBuffer .a 0,
      .diskBuffer .a 4095, .diskRegister .b 0, .diskRegister .b 9, .diskBuffer .b 0, .diskBuffer .b 4095, .keyboard 0,
      .keyboard 1, .ram] := by
  decide

/-! ### Devices -/

/-- Spec 95 section 10: characters, with no record for a byte that has none. -/
theorem test_display_characters :
    ((poke 0x291 0x41 State.reset).records, (poke 0x240 0x1F State.reset).records, (poke 0x240 0x7F State.reset).records,
      (poke 0x240 0x80 State.reset).records, peek (poke 0x240 0x80 State.reset) 0x240) =
    ([.setChar 1 1 'A'], [.setChar 0 0 '£'], [.setChar 0 0 '¬'], [], 0x80) := by
  decide

/-- Spec 95 section 10: colours, bits 7:6 ignored. -/
theorem test_display_colours :
    ((poke 0xA10 0xE4 State.reset).records, (poke 0x19AF 0x03 State.reset).records) =
    ([.setFg 0 0 ⟨170, 85, 0⟩], [.setBg 24 79 ⟨0, 0, 255⟩]) := by
  decide

/-- Spec 95 section 10. -/
theorem test_keyboard :
    (fun t => (t.keyboard, t.queue, peek t 0x39C4, peek (poke 0x39C4 0x42 t) 0x39C4))
      (deviceStep .keyboard { State.reset with irqCapacity := .unbounded, hostKeys := [⟨0x61, true, false⟩] }) =
    (⟨0x61, 0x01⟩, [.keyboard], 0x61, 0x61) := by
  decide

/-- Spec 95 section 9: with a capacity of 1 and a full queue the keyboard waits. -/
theorem test_keyboard_waits :
    (deviceStep .keyboard { State.reset with
      irqCapacity := .bounded 0, queue := [.diskA], hostKeys := [⟨0x61, true, true⟩] }).hostKeys = [⟨0x61, true, true⟩] := by
  decide

/-- A machine with a disk A of 2 blocks, block 1 beginning `11 22`, and `DA` as given (spec 95 S4). -/
def withDisk (da : Word) : State :=
  { State.reset with
    irqCapacity := .unbounded
    diskA := { Disk.unattached with image := some ⟨2, [(4096, 0x11), (4097, 0x22)]⟩, da := da } }

/-- Spec 95 section 10: `STATUS`, `NBA` and `CMD` read, and the disconnected disk B. -/
theorem test_disk_registers :
    (peek (withDisk 0) 0x19B0, wordAt (withDisk 0) 0x19B1, peek (withDisk 0) 0x19B9, peek (withDisk 0) 0x29BA,
      wordAt (withDisk 0) 0x29BB) = (0x01, 2, 0, 0, 0) := by
  decide

/-- Spec 95 S4: a read of block 1. -/
theorem test_disk_read :
    (fun s => (s.diskA.status, s.diskA.busy))  (poke 0x19B9 1 (poke 0x19B8 1 (withDisk 0))) = (0x01, true) ∧
    (fun s => (s.diskA.status, s.diskA.busy, s.diskA.da, s.queue, peek s 0x19BA, peek s 0x19BB))
      (deviceStep (.disk .a true) (poke 0x19B9 1 (poke 0x19B8 1 (withDisk 0)))) =
    (0x07, false, 1, [.diskA], 0x11, 0x22) := by
  decide

/-- Spec 95 section 10: a contiguous write of block 1. -/
theorem test_disk_contiguous_write :
    (fun s => (s.diskA.image, s.diskA.status, s.diskA.da))
      (deviceStep (.disk .a true) (poke 0x19B9 4 (poke 0x19BA 0x77 (withDisk 1)))) =
      (some ⟨2, [(4096, 0x77)]⟩, 0x07, 2) := by
  decide +kernel

/-- Spec 95 section 10: a contiguous transfer that fails leaves `DA`. -/
theorem test_disk_failed_transfer :
    (fun d => (d.status, d.da, d.busy)) ((poke 0x19B9 4 (withDisk 1)).diskA.complete false [(0, 0x55)]) =
      (0x03, 1, false) := by
  decide

/-- Spec 95 section 10: a block address and a command byte out of range. -/
theorem test_disk_bad_command :
    (fun s => (s.diskA.status, s.queue)) (deviceStep (.disk .a true) (poke 0x19B9 1 (withDisk 2))) = (0x0B, [.diskA]) ∧
    (deviceStep (.disk .a true) (poke 0x19B9 5 (withDisk 0))).diskA.status = 0x0B := by
  decide

/-- Spec 95 section 10: a busy disk ignores `DA` and `CMD`. -/
theorem test_disk_busy : poke 0x19B9 2 (poke 0x19B8 0 (poke 0x19B9 1 (withDisk 1))) = poke 0x19B9 1 (withDisk 1) := by
  decide

/-- R450, R451 with an image: the ROM is loaded at 0x40 and the pc is there. -/
theorem test_start :
    (fun s => (peek s 0x40, peek s 0x41, s.pc, s.diskB.status))
      (State.start .unbounded { StartInput.bare with
        rom := [0x01, 0x02], diskB := { DiskStart.unattached with image := some ⟨1, []⟩ } }) = (0x01, 0x02, 0x40, 0x01) := by
  decide

/-! ## Witnesses: for each statement with hypotheses, a state and operands that meet them together -/

/-- A step or an instruction ends in a next state with a property. -/
def endsIn (r : Result) (q : State → Bool) : Bool :=
  match r with
  | .next t => q t
  | _ => false

theorem exists_next {r : Result} {q : State → Bool} (h : endsIn r q = true) : ∃ t, r = .next t ∧ q t = true := by
  cases r with
  | next t => exact ⟨t, rfl, h⟩
  | fault _ => cases h
  | refused _ => cases h

theorem inv_unattached : Disk.Inv Disk.unattached :=
  ⟨rfl, rfl, fun _ h => (nomatch h), fun _ => ⟨rfl, rfl⟩, fun h => (nomatch h), fun h => (nomatch h),
    fun h => (nomatch h)⟩

/-- The invariant of a state whose stores other than RAM are empty. -/
theorem inv_of_ram {s : State} (h1 : s.ram.wf = true) (h2 : s.ram.below (2 ^ 32) = true)
    (h3 : (s.rom, s.display, s.diskA, s.diskB, s.queue) = ([], [], Disk.unattached, Disk.unattached, [])) : Inv s := by
  simp only [Prod.mk.injEq] at h3
  obtain ⟨e1, e2, e3, e4, e5⟩ := h3
  refine ⟨h1, h2, ?_, ?_, ?_, ?_, ?_, ?_, fun n _ => ?_⟩
  · rw [e1]; rfl
  · rw [e1]; rfl
  · rw [e2]; rfl
  · rw [e2]; rfl
  · rw [e3]; exact inv_unattached
  · rw [e4]; exact inv_unattached
  · rw [e5]; exact Nat.zero_le n

theorem inv_machine (r0 r1 r2 r3 f : Word) : Inv (machine r0 r1 r2 r3 f) := inv_of_ram rfl rfl rfl

theorem inv_userMachine (r0 r1 : Word) : Inv (userMachine r0 r1) := inv_of_ram rfl rfl rfl

theorem inv_withDisk (da : Word) : Inv (withDisk da) := by
  refine ⟨rfl, rfl, rfl, rfl, rfl, rfl, ?_, inv_unattached, fun n _ => Nat.zero_le n⟩
  refine ⟨rfl, rfl, fun i h => ?_, fun h => ?_, fun h => ?_, fun h => ?_, fun h => ?_⟩
  · cases h
    decide
  all_goals cases h

/-- The bytes given placed at the pc. -/
def placed (bs : List Nat) (s : State) : State := placeInstr (bs.map (BitVec.ofNat 8)) s.pc s

/-- No address of the list is in a device window. -/
theorem quiet_of_all {ps : List Word} {s : State} (h : (ps.all fun p => !(regionOf p).isDevice) = true) : Quiet ps s :=
  .inr fun p hp => by simpa using List.all_eq_true.mp h p hp

/-- `userMachine` with device steps planned for the next accesses to device windows. -/
def busyUser (r0 : Word) : State := (userMachine r0 0).setMidStep [[.keyboard]]

/-- `machine` with device steps planned for the next accesses to device windows. -/
def busyMachine (r0 r1 r2 : Word) : State := (machine r0 r1 r2 0 0).setMidStep [[.keyboard]]

/-! ### Encoding -/

theorem witness_DecodeEncode : (Instr.addI ⟨0, .byte⟩ 255).wellFormed = true ∧
    (Instr.trunc ⟨7, .byte⟩ ⟨0, .half⟩).wellFormed = true := by
  decide

theorem witness_EncodeDecode : decode [0x13, 0x10, 0xFF, 0x02] = .ok (.addI ⟨0, .byte⟩ 0xFF) [0x02] := by decide

theorem witness_ReferenceBytes :
    parseRef 0x27 = .ok (.gpr ⟨7, .half⟩) ∧ parseRef 0x0D = .ok (.special .pfva) ∧
    parseRef 0x28 = .error .specialPartWidth ∧ parseRef 0x0E = .error .badRegisterNumber ∧
    parseRef 0x30 = .error .badWidthCode := by
  decide

/-! ### The step -/

/-- A running machine whose schedule is empty fetches next. -/
theorem fetchesNext_of {s : State} (h : (s.schedule, s.queue, s.runState) = ([], [], .running)) : FetchesNext s s := by
  simp only [Prod.mk.injEq] at h
  exact ⟨.inl ⟨h.1, rfl⟩, h.2.2, fun k hk => by rw [h.2.1] at hk; cases hk⟩

theorem witness_StepRunsDecodedInstruction :
    FetchesNext (placed [0x12, 0x10, 0x11] (userMachine 1 2)) (placed [0x12, 0x10, 0x11] (userMachine 1 2)) ∧
    (Instr.addR ⟨0, .byte⟩ ⟨1, .byte⟩).wellFormed = true ∧
    FetchableAtPc (encode (.addR ⟨0, .byte⟩ ⟨1, .byte⟩)) (placed [0x12, 0x10, 0x11] (userMachine 1 2)) ∧
    Quiet (bytesAccessed .fetch (placed [0x12, 0x10, 0x11] (userMachine 1 2)).pc 3
      (placed [0x12, 0x10, 0x11] (userMachine 1 2))) (placed [0x12, 0x10, 0x11] (userMachine 1 2)) :=
  ⟨fetchesNext_of (by decide), by decide, ⟨[0x20000, 0x20001, 0x20002], by unfold Translates; decide, by decide⟩,
    .inl (by decide)⟩

/-- Device steps are planned, and the fetch reads RAM only. -/
theorem witness_StepRunsDecodedInstruction_planned :
    (placed [0x12, 0x10, 0x11] (busyUser 1)).midStep = [[.keyboard]] ∧
    FetchableAtPc (encode (.addR ⟨0, .byte⟩ ⟨1, .byte⟩)) (placed [0x12, 0x10, 0x11] (busyUser 1)) ∧
    Quiet (bytesAccessed .fetch (placed [0x12, 0x10, 0x11] (busyUser 1)).pc 3 (placed [0x12, 0x10, 0x11] (busyUser 1)))
      (placed [0x12, 0x10, 0x11] (busyUser 1)) :=
  ⟨by decide, ⟨[0x20000, 0x20001, 0x20002], by unfold Translates; decide, by decide⟩, quiet_of_all (by decide)⟩

/-- The CPU's turn stands in the schedule, and an entry that is masked waits in the queue. -/
theorem witness_StepRunsDecodedInstruction_scheduled :
    FetchesNext { machine 0 0 0 0 0 with schedule := [.cpu, .hostStop], queue := [.diskB] }
      { machine 0 0 0 0 0 with schedule := [.hostStop], queue := [.diskB] } ∧
    FetchableAtPc (encode .halt) { machine 0 0 0 0 0 with schedule := [.cpu, .hostStop], queue := [.diskB] } :=
  ⟨⟨.inr ⟨[.hostStop], rfl, rfl⟩, rfl, by decide⟩, [0x4000], by unfold Translates; decide, by decide⟩

theorem witness_IllegalEncodingRaises :
    FetchesNext (placed [0x52] (machine 0 0 0 0 0)) (placed [0x52] (machine 0 0 0 0 0)) ∧
    FetchableAtPc [0x52] (placed [0x52] (machine 0 0 0 0 0)) ∧
    Quiet (bytesAccessed .fetch (placed [0x52] (machine 0 0 0 0 0)).pc 1 (placed [0x52] (machine 0 0 0 0 0)))
      (placed [0x52] (machine 0 0 0 0 0)) ∧
    decode [0x52] = .illegal .reservedOpcode ∧ 0x52 ≤ (0x52 : Byte).toNat :=
  ⟨fetchesNext_of (by decide), ⟨[0x4000], by unfold Translates; decide, by decide⟩, .inl (by decide), by decide, by decide⟩

theorem witness_FetchFaultRaises :
    FetchesNext (placed [0x09] ((userMachine 0 0).setPc 0x5FFF)) (placed [0x09] ((userMachine 0 0).setPc 0x5FFF)) ∧
    FetchableAtPc [0x09] (placed [0x09] ((userMachine 0 0).setPc 0x5FFF)) ∧ decode [0x09] = .more ∧
    (resolve ((placed [0x09] ((userMachine 0 0).setPc 0x5FFF)).pc + BitVec.ofNat 32 [(0x09 : Byte)].length) .fetch
      (placed [0x09] ((userMachine 0 0).setPc 0x5FFF))).1 = none ∧
    Quiet (bytesAccessed .fetch 0x5FFF 1 (placed [0x09] ((userMachine 0 0).setPc 0x5FFF)) ++
      walkReads 0x6000 (placed [0x09] ((userMachine 0 0).setPc 0x5FFF))) (placed [0x09] ((userMachine 0 0).setPc 0x5FFF)) :=
  ⟨fetchesNext_of (by decide), ⟨[0x20FFF], by unfold Translates; decide, by decide⟩, by decide, by decide,
    quiet_of_all (by decide)⟩

/-- The first byte of an instruction faults: no byte has been fetched. -/
theorem witness_FetchFaultRaises_at_once : decode [] = .more ∧
    (resolve 0x7000 .fetch ((userMachine 0 0).setPc 0x7000)).1 = none ∧ FetchableAtPc [] ((userMachine 0 0).setPc 0x7000) :=
  ⟨by decide, by decide, [], by unfold Translates; decide, by decide⟩

theorem witness_QueuedInterruptTaken :
    CpuTurn { machine 0 0 0 0 0 with imr := 0x20, queue := [.diskA, .keyboard, .diskB], runState := .paused }
      { machine 0 0 0 0 0 with imr := 0x20, queue := [.diskA, .keyboard, .diskB], runState := .paused } ∧
    RunState.paused ≠ .stopped ∧ [DeviceIrq.diskA, .keyboard, .diskB] = [.diskA] ++ .keyboard :: [.diskB] ∧
    (∀ j ∈ [DeviceIrq.diskA], (0x20 : BitVec 16).getLsbD j.kind.number = false) ∧
    (0x20 : BitVec 16).getLsbD (DeviceIrq.kind .keyboard).number = true :=
  ⟨.inl ⟨rfl, rfl⟩, by decide, rfl, by decide, by decide⟩

theorem witness_AgentTurns_stopped : CpuTurn ((machine 0 0 0 0 0).setRunState .stopped)
    ((machine 0 0 0 0 0).setRunState .stopped) ∧ ((machine 0 0 0 0 0).setRunState .stopped).runState = .stopped :=
  ⟨.inl ⟨rfl, rfl⟩, rfl⟩

theorem witness_AgentTurns_paused : CpuTurn ((machine 0 0 0 0 0).setRunState .paused)
    ((machine 0 0 0 0 0).setRunState .paused) ∧ ∀ k ∈ [DeviceIrq.diskA], (0 : BitVec 16).getLsbD k.kind.number = false :=
  ⟨.inl ⟨rfl, rfl⟩, by decide⟩

/-- A schedule with each of the other agents' turns first. -/
theorem witness_AgentTurns_others :
    (State.reset.setSchedule [.device .keyboard]).schedule = .device .keyboard :: [] ∧
    (State.reset.setSchedule [.hostKey ⟨1, true, true⟩, .cpu]).schedule = .hostKey ⟨1, true, true⟩ :: [.cpu] ∧
    (State.reset.setSchedule [.hostStop]).schedule = .hostStop :: [] ∧
    (State.reset.setSchedule [.hostStart .bare]).schedule = .hostStart .bare :: [] :=
  ⟨rfl, rfl, rfl, rfl⟩

/-- Steps planned and an access to each kind of device window; and a kernel-mode state for the accesses of two bytes. -/
theorem witness_AgentTurns_inside :
    (regionOf 0x240).isDevice = true ∧ (regionOf 0x19B0).isDevice = true ∧ (regionOf 0x19BA).isDevice = true ∧
    (regionOf 0x39C5).isDevice = true ∧ (busyMachine 0 0 0).midStep = [.keyboard] :: [] ∧
    (regionOf 0x39C6).isDevice = false ∧ (busyMachine 0 0 0).mode = .kernel := by
  decide

/-- A torn read (R120): the keyboard consumes a message between the two bytes of a half-word load. -/
theorem test_torn_read :
    endsIn (exec (.loadA (.gpr ⟨0, .half⟩) 0x39C4)
      { machine 0 0 0 0 0 with
        irqCapacity := .unbounded, hostKeys := [⟨0x61, true, false⟩], midStep := [[.keyboard]] })
      (fun t => decide (readReg 0 t = 0x0001 ∧ t.keyboard.key = 0x61 ∧ t.queue = [.keyboard])) = true := by
  decide

/-! ### Exceptions and privilege -/

theorem witness_InterruptEntry : Inv (userMachine 0 0) ∧ Quiet (frameAddresses (userMachine 0 0)) (userMachine 0 0) :=
  ⟨inv_userMachine 0 0, .inl rfl⟩

/-- Device steps are planned, and the frame falls on RAM. -/
theorem witness_InterruptEntry_planned : Inv (busyUser 0) ∧ (busyUser 0).midStep = [[.keyboard]] ∧
    Quiet (frameAddresses (busyUser 0)) (busyUser 0) :=
  ⟨inv_of_ram rfl rfl rfl, rfl, quiet_of_all (by decide)⟩

theorem witness_IreturnPops : returning.mode = .kernel ∧ Quiet (accessesOf .ireturn returning) returning :=
  ⟨by decide, .inl (by decide)⟩

theorem witness_IreturnPops_planned :
    (returning.setMidStep [[.keyboard]]).mode = .kernel ∧
    Quiet (accessesOf .ireturn (returning.setMidStep [[.keyboard]])) (returning.setMidStep [[.keyboard]]) :=
  ⟨by decide, quiet_of_all (by decide)⟩

/-- Every address of the list is in the RAM array. -/
def allInRam (l : List Word) : Bool := l.all fun a => decide (regionOf a = .vector ∨ regionOf a = .ram)

theorem inRamArray_of_all {l : List Word} (h : allInRam l = true) : ∀ a ∈ l, InRamArray a := fun a ha =>
  show regionOf a = .vector ∨ regionOf a = .ram from of_decide_eq_true (List.all_eq_true.mp h a ha)

theorem writable_of_all {l : List Word} (h : allInRam l = true) : ∀ a ∈ l, Writable a := by
  intro a ha
  unfold Writable
  rcases inRamArray_of_all h a ha with e | e <;> rw [e] <;> trivial

/-- The state at the end of a handler that has written the flags and `uspr`. -/
def handled : State :=
  ((takeInterrupt .systemCall 0x5001 (userMachine 0 0)).setFlags ⟨true, true, true, true⟩).setUspr 7

theorem peek_setFlags_setUspr (s : State) (f : Flags) (v a : Word) : peek ((s.setFlags f).setUspr v) a = peek s a :=
  peek_congr rfl rfl rfl rfl rfl rfl a

theorem witness_ReturnUndoesEntry :
    Inv (userMachine 0 0) ∧ Quiet (frameAddresses (userMachine 0 0)) (userMachine 0 0) ∧
    (∀ a ∈ frameAddresses (userMachine 0 0), Writable a) ∧
    (handled.mode = .kernel ∧ handled.kspr = (userMachine 0 0).kspr - 12) ∧ Quiet (accessesOf .ireturn handled) handled ∧
    ∀ a ∈ frameAddresses (userMachine 0 0), peek handled a = peek (takeInterrupt .systemCall 0x5001 (userMachine 0 0)) a :=
  ⟨inv_userMachine 0 0, .inl rfl, writable_of_all (by decide), by decide, .inl (by decide),
    fun a _ => peek_setFlags_setUspr _ _ _ a⟩

theorem witness_UserModePrivilege : (userMachine 0 0).mode = .user ∧ .special .imr ∈ (Instr.copyI (.special .imr) 0).refs ∧
    .special .kspr ∈ (Instr.push (.special .kspr)).refs ∧
    .special .pdpr ∈ (Instr.swapRR (.gpr ⟨0, .word⟩) (.special .pdpr)).refs ∧
    .special .pfva ∈ (Instr.loadR (.special .pfva) 0).refs := by
  decide

theorem witness_ControlResults : (machine 0 0 0 0 0).mode = .kernel := rfl

/-- Each kind of access, with the first byte or a later one at fault. -/
theorem witness_DataPageFaults_read : Permitted (.gpr ⟨0, .word⟩) (userMachine 0x6000 0) ∧
    FirstFault .read 0x5FFE 4 0x6000 (userMachine 0x6000 0) ∧
    FirstFault .read (readReg 0 (userMachine 0x6000 0)) 4 0x6000 (userMachine 0x6000 0) ∧
    Quiet (accessesOf (.loadR (.gpr ⟨0, .word⟩) 0) (userMachine 0x6000 0)) (userMachine 0x6000 0) :=
  ⟨.inr rfl, ⟨2, by decide, by decide, by decide, by decide⟩, ⟨0, by decide, by decide, by decide, by decide⟩, .inl rfl⟩

/-- Device steps are planned, and the accesses before the fault read RAM only. -/
theorem witness_DataPageFaults_planned : FirstFault .read 0x5FFE 4 0x6000 (busyUser 0) ∧
    Quiet (accessesOf (.loadA (.gpr ⟨0, .word⟩) 0x5FFE) (busyUser 0)) (busyUser 0) ∧
    FirstFault .write 0x7000 1 0x7000 (busyUser 0) ∧ Translates .read 0x7000 1 [0x40000] (busyUser 0) ∧
    Quiet (accessesOf (.swapA (.gpr ⟨0, .byte⟩) 0x7000) (busyUser 0)) (busyUser 0) :=
  ⟨⟨2, by decide, by decide, by decide, by decide⟩, quiet_of_all (by decide),
    ⟨0, by decide, by decide, by decide, by decide⟩, by unfold Translates; decide, quiet_of_all (by decide)⟩

theorem witness_DataPageFaults_write : Permitted (.gpr ⟨1, .half⟩) (userMachine 0x6FFF 0) ∧
    FirstFault .write 0x7000 2 0x7000 (userMachine 0x6FFF 0) ∧
    Translates .read 0x7000 2 [0x40000, 0x40001] (userMachine 0x6FFF 0) ∧
    FirstFault .write (readReg 0 (userMachine 0x6FFF 0)) 2 0x7000 (userMachine 0x6FFF 0) :=
  ⟨.inr rfl, ⟨0, by decide, by decide, by decide, by decide⟩, by unfold Translates; decide, 1, by decide, by decide,
    by decide, by decide⟩

theorem witness_DataPageFaults_swapR :
    FirstFault .write (readReg 0 (userMachine 0x7000 0)) 1 0x7000 (userMachine 0x7000 0) ∧
    Translates .read (readReg 0 (userMachine 0x7000 0)) 1 [0x40000] (userMachine 0x7000 0) :=
  ⟨⟨0, by decide, by decide, by decide, by decide⟩, by unfold Translates; decide⟩

theorem witness_DataPageFaults_stack :
    FirstFault .read (activeSp ((userMachine 0 0).setUspr 0x5FFE)) 4 0x6000 ((userMachine 0 0).setUspr 0x5FFE) ∧
    FirstFault .write (activeSp ((userMachine 0 0).setUspr 0x7002) - BitVec.ofNat 32 4) 4 0x7000
      ((userMachine 0 0).setUspr 0x7002) :=
  ⟨⟨2, by decide, by decide, by decide, by decide⟩, 2, by decide, by decide, by decide, by decide⟩

/-- A step from user to kernel mode, and one back. -/
theorem witness_ModeChanges :
    (∃ t, step (placed [0x04] (userMachine 0 0)) = .next t ∧ t.mode = .kernel) ∧
    ∃ t, step (placed [0x03] returning) = .next t ∧ t.mode = .user := by
  obtain ⟨t, h, e⟩ := exists_next (r := step (placed [0x04] (userMachine 0 0))) (q := fun t => t.mode = .kernel) (by decide)
  obtain ⟨u, k, f⟩ := exists_next (r := step (placed [0x03] returning)) (q := fun t => t.mode = .user) (by decide)
  exact ⟨⟨t, h, of_decide_eq_true e⟩, u, k, of_decide_eq_true f⟩

theorem witness_ModeChanges_modes : (placed [0x04] (userMachine 0 0)).mode = .user ∧
    (placed [0x03] returning).mode = .kernel ∧
    Quiet (accessesOf .ireturn (placed [0x03] returning)) (placed [0x03] returning) :=
  ⟨by decide, by decide, .inl (by decide)⟩

/-- A step that stays in user mode, one that takes an exception, and the host's start of a machine stopped in user mode. -/
theorem witness_UserKeepsPrivileged :
    (∃ t, step (placed [0x02] (userMachine 0 0)) = .next t ∧ t.mode = .user) ∧
    (∃ t, step (placed [0x00] (userMachine 0 0)) = .next t ∧ t.mode = .kernel) ∧
    ∃ t, step (((userMachine 0 0).setRunState .stopped).setSchedule [.hostStart .bare]) = .next t ∧ t.mode = .kernel := by
  obtain ⟨t, h, e⟩ := exists_next (r := step (placed [0x02] (userMachine 0 0))) (q := fun t => t.mode = .user) (by decide)
  obtain ⟨u, k, f⟩ := exists_next (r := step (placed [0x00] (userMachine 0 0))) (q := fun t => t.mode = .kernel) (by decide)
  exact ⟨⟨t, h, of_decide_eq_true e⟩, ⟨u, k, of_decide_eq_true f⟩, _, rfl, rfl⟩

theorem witness_UserCannotObserve : ∃ t, exec (.push (.gpr ⟨0, .word⟩)) ((userMachine 9 0).setUspr 0x9004) = .next t ∧
    t.mode = .user := by
  obtain ⟨t, h, e⟩ := exists_next (r := exec (.push (.gpr ⟨0, .word⟩)) ((userMachine 9 0).setUspr 0x9004))
    (q := fun t => t.mode = .user) (by decide)
  exact ⟨t, h, of_decide_eq_true e⟩

theorem witness_FlagsWriters : ∃ t, exec (.neg ⟨0, .byte⟩) (machine 0 0 0 0 0) = .next t ∧
    t.flags ≠ (machine 0 0 0 0 0).flags := by
  obtain ⟨t, h, e⟩ := exists_next (r := exec (.neg ⟨0, .byte⟩) (machine 0 0 0 0 0))
    (q := fun t => t.flags ≠ (machine 0 0 0 0 0).flags) (by decide)
  exact ⟨t, h, of_decide_eq_true e⟩

theorem witness_RegisterFrame :
    (∃ t, exec (.copyI (.gpr ⟨3, .half⟩) 7) (machine 0 0 0 0 0) = .next t ∧ readReg 3 t ≠ 0) ∧
    (∃ t, exec (.pop (.special .uspr)) (machine 0 0 0 0 0) = .next t ∧ t.kspr = 0x8004) ∧
    ∃ t, exec (.loadA (.gpr ⟨0, .byte⟩) 0x8000) (userMachine 0 0) = .next t ∧ t.pfva = 0x8000 := by
  obtain ⟨t, h, e⟩ := exists_next (r := exec (.copyI (.gpr ⟨3, .half⟩) 7) (machine 0 0 0 0 0))
    (q := fun t => readReg 3 t ≠ 0) (by decide)
  obtain ⟨u, k, f⟩ := exists_next (r := exec (.pop (.special .uspr)) (machine 0 0 0 0 0))
    (q := fun t => t.kspr = 0x8004) (by decide)
  obtain ⟨v, l, g⟩ := exists_next (r := exec (.loadA (.gpr ⟨0, .byte⟩) 0x8000) (userMachine 0 0))
    (q := fun t => t.pfva = 0x8000) (by decide)
  exact ⟨⟨t, h, of_decide_eq_true e⟩, ⟨u, k, of_decide_eq_true f⟩, v, l, of_decide_eq_true g⟩

/-- A step in which an entry leaves the queue, and one in which an entry joins it. -/
theorem witness_QueueFifo :
    (∃ t, step { machine 0 0 0 0 0 with imr := 0x20, queue := [.diskA, .keyboard, .diskB] } = .next t ∧
      t.queue = [.diskA, .diskB]) ∧
    ∃ t, step { withDisk 0 with
        diskA := { (withDisk 0).diskA with busy := true }, queue := [.diskB], schedule := [.device (.disk .a true)] } =
      .next t ∧ t.queue = [.diskB, .diskA] :=
  ⟨⟨_, rfl, rfl⟩, _, rfl, rfl⟩

theorem witness_InvPreserved : Inv (machine 5 6 0 0 0) ∧ ∃ t, step (machine 5 6 0 0 0) = .next t :=
  ⟨inv_machine 5 6 0 0 0, _, rfl⟩

/-! ### Reset, memory and translation -/

/-- Addresses at the ends of the RAM array, and the ends of the other ranges. -/
theorem witness_ResetValues : InRamArray 0 ∧ InRamArray 0x3F ∧ InRamArray 0x39C6 ∧ InRamArray 0xFFFFFFFF ∧
    State.start .unbounded .bare = State.start .unbounded .bare ∧ (0 : Nat) < 512 ∧ 511 < 512 ∧ 5999 < 6000 ∧ 4095 < 4096 ∧
    (⟨some ⟨1, []⟩, 0, [], 0, 0⟩ : DiskStart).image = some ⟨1, []⟩ ∧ 4095 < 4096 * (1 : Word).toNat ∧
    DiskStart.unattached.image = none :=
  ⟨.inl (by decide), .inl (by decide), .inr (by decide), .inr (by decide), rfl, by decide, by decide, by decide, by decide,
    rfl, by decide, rfl⟩

/-- The walk with every entry it needs, and with each of them missing in turn. -/
theorem witness_TranslateWalk : (userMachine 0 0).mode = .user ∧
    wordAt (userMachine 0 0) ((userMachine 0 0).pdpr + BitVec.ofNat 32 (4 * ((0x5FFF : Word).toNat / 2 ^ 22))) = 0x11001 ∧
    wordAt (userMachine 0 0) (BitVec.ofNat 32 (0x11001 / 2 ^ 12 * 2 ^ 12 + 4 * ((0x5FFF : Word).toNat / 2 ^ 12 % 2 ^ 10))) =
      0x2000B ∧
    bit 0x11001 0 = true ∧ bit 0x2000B 0 = true ∧ bit 0x2000B 2 = false ∧ bit 0x30005 1 = false ∧ bit 0x40003 3 = false := by
  decide

theorem witness_TranslateWalk_quiet : Quiet (walkReads 0x5FFF (userMachine 0 0)) (userMachine 0 0) ∧
    (busyUser 0).midStep = [[.keyboard]] ∧ Quiet (walkReads 0x5FFF (busyUser 0)) (busyUser 0) :=
  ⟨.inl rfl, rfl, quiet_of_all (by decide)⟩

theorem witness_KernelNeverFaults : ∃ t, exec (.copyI (.special .pfva) 3) (machine 0 0 0 0 0) = .next t ∧
    t.pfva ≠ (machine 0 0 0 0 0).pfva := by
  obtain ⟨t, h, e⟩ := exists_next (r := exec (.copyI (.special .pfva) 3) (machine 0 0 0 0 0))
    (q := fun t => t.pfva ≠ (machine 0 0 0 0 0).pfva) (by decide)
  exact ⟨t, h, of_decide_eq_true e⟩

theorem witness_PhysicalMap : 0x40 ≤ (0x40 : Word).toNat ∧ (0x23F : Word).toNat ≤ 0x23F := by decide

/-- A word that wraps round the top of the address space. -/
theorem witness_MixedWidthReads : Inv (machine 0 0 0 0 0) ∧ Quiet (addresses 0xFFFFFFFE 4) (machine 0 0 0 0 0) ∧
    (∀ p ∈ addresses 0xFFFFFFFE 4, Writable p) ∧ Inv (busyMachine 0 0 0) ∧
    Quiet (addresses 0xFFFFFFFE 4) (busyMachine 0 0 0) :=
  ⟨inv_machine 0 0 0 0 0, .inl rfl, writable_of_all (by decide), inv_of_ram rfl rfl rfl, quiet_of_all (by decide)⟩

theorem witness_UserStoresOnlyWritable : (userMachine 7 0).mode = .user ∧
    Quiet (accessesOf (.storeA 0x6FFF (.gpr ⟨0, .byte⟩)) (userMachine 7 0)) (userMachine 7 0) ∧
    ¬ (Instr.storeA 0x6FFF (.gpr ⟨0, .byte⟩)).isBlock ∧
    ∃ t, exec (.storeA 0x6FFF (.gpr ⟨0, .byte⟩)) (userMachine 7 0) = .next t ∧ t.mode = .user ∧
      peek t 0x30FFF ≠ peek (userMachine 7 0) 0x30FFF := by
  refine ⟨rfl, .inl rfl, ?_, ?_⟩
  · rintro (⟨_, _, _, h⟩ | ⟨_, _, _, h⟩) <;> cases h
  · obtain ⟨t, h, e⟩ := exists_next (r := exec (.storeA 0x6FFF (.gpr ⟨0, .byte⟩)) (userMachine 7 0))
      (q := fun t => t.mode = .user ∧ peek t 0x30FFF ≠ peek (userMachine 7 0) 0x30FFF) (by decide)
    exact ⟨t, h, of_decide_eq_true e⟩

/-! ### Data movement -/

/-- A load that crosses from one page to another in user mode, and one to a privileged register in kernel mode. -/
theorem witness_LoadResult : Permitted (.gpr ⟨0, .byte⟩) (userMachine 0x5FFF 0) ∧
    Quiet (accessesOf (.loadA (.gpr ⟨0, .byte⟩) 0x7FFF) (userMachine 0x5FFF 0)) (userMachine 0x5FFF 0) ∧
    Translates .read 0x7FFF 1 [0x40FFF] (userMachine 0x5FFF 0) ∧
    Translates .read (readReg 0 (userMachine 0x5FFF 0)) 1 [0x20FFF] (userMachine 0x5FFF 0) ∧
    Permitted (.special .imr) (machine 0 0 0 0 0) ∧
    Translates .read 0xFFFFFFFE 4 [0xFFFFFFFE, 0xFFFFFFFF, 0, 1] (machine 0 0 0 0 0) :=
  ⟨.inr rfl, .inl rfl, by unfold Translates; decide, by unfold Translates; decide, .inl rfl, by unfold Translates; decide⟩

/-- Device steps are planned, and the load reads RAM only, its page tables among it. -/
theorem witness_LoadResult_planned : Permitted (.gpr ⟨0, .byte⟩) (busyUser 0x5FFF) ∧
    Translates .read (readReg 0 (busyUser 0x5FFF)) 1 [0x20FFF] (busyUser 0x5FFF) ∧
    (busyUser 0x5FFF).midStep = [[.keyboard]] ∧
    Quiet (accessesOf (.loadR (.gpr ⟨0, .byte⟩) 0) (busyUser 0x5FFF)) (busyUser 0x5FFF) :=
  ⟨.inr rfl, by unfold Translates; decide, rfl, quiet_of_all (by decide)⟩

/-- Device steps are planned, and the store writes RAM only; and a store to a disk's `CMD`, with none planned. -/
theorem witness_StoreResult_planned : Inv (busyMachine 0x4000 5 0) ∧ Permitted (.gpr ⟨1, .word⟩) (busyMachine 0x4000 5 0) ∧
    Translates .write (readReg 0 (busyMachine 0x4000 5 0)) 4 [0x4000, 0x4001, 0x4002, 0x4003] (busyMachine 0x4000 5 0) ∧
    Quiet (accessesOf (.storeR 0 (.gpr ⟨1, .word⟩)) (busyMachine 0x4000 5 0)) (busyMachine 0x4000 5 0) ∧
    Inv (withDisk 1) ∧ Translates .write 0x19B9 1 [0x19B9] (withDisk 1) ∧
    Quiet (accessesOf (.storeA 0x19B9 (.gpr ⟨1, .byte⟩)) (withDisk 1)) (withDisk 1) :=
  ⟨inv_of_ram rfl rfl rfl, .inl rfl, by unfold Translates; decide, quiet_of_all (by decide), inv_withDisk 1,
    by unfold Translates; decide, .inl rfl⟩

theorem witness_StoreResult : Inv (userMachine 0x9FFC 0) ∧ Permitted (.special .uspr) (userMachine 0x9FFC 0) ∧
    Quiet (accessesOf (.storeA 0x6FFC (.special .uspr)) (userMachine 0x9FFC 0)) (userMachine 0x9FFC 0) ∧
    Translates .write 0x6FFC 4 [0x30FFC, 0x30FFD, 0x30FFE, 0x30FFF] (userMachine 0x9FFC 0) ∧
    Translates .write (readReg 0 (userMachine 0x9FFC 0)) 4 [0x50FFC, 0x50FFD, 0x50FFE, 0x50FFF] (userMachine 0x9FFC 0) :=
  ⟨inv_userMachine _ _, .inr rfl, .inl rfl, by unfold Translates; decide, by unfold Translates; decide⟩

theorem witness_CopyResult : SameWidth (Ref.special .flags).width (Ref.gpr ⟨0, .word⟩).width ∧
    Permitted (.special .flags) (userMachine 0 0) ∧ Permitted (.gpr ⟨0, .word⟩) (userMachine 0 0) ∧
    LitFits (Ref.gpr ⟨0, .byte⟩).width 255 ∧ LitFits (Ref.gpr ⟨0, .half⟩).width 65535 ∧
    LitFits (Ref.special .kspr).width 0xFFFFFFFF ∧ Permitted (.special .kspr) (machine 0 0 0 0 0) :=
  ⟨rfl, .inr rfl, .inr rfl, by decide, by decide, by decide, .inl rfl⟩

/-- Two registers, and one register with itself. -/
theorem witness_SwapRegisters : SameWidth (Ref.special .kspr).width (Ref.special .uspr).width ∧
    Permitted (.special .kspr) (machine 0 0 0 0 0) ∧ Permitted (.special .uspr) (machine 0 0 0 0 0) ∧
    SameWidth (Ref.gpr ⟨3, .byte⟩).width (Ref.gpr ⟨3, .byte⟩).width ∧
    Permitted (.gpr ⟨3, .byte⟩) (machine 0 0 0 0 0) :=
  ⟨rfl, .inl rfl, .inl rfl, rfl, .inl rfl⟩

theorem witness_SwapMemory : Inv (userMachine 0x9FFF 0) ∧ Permitted (.gpr ⟨0, .byte⟩) (userMachine 0x9FFF 0) ∧
    Quiet (accessesOf (.swapA (.gpr ⟨0, .byte⟩) 0x9000) (userMachine 0x9FFF 0)) (userMachine 0x9FFF 0) ∧
    Translates .read 0x9000 1 [0x50000] (userMachine 0x9FFF 0) ∧
    Translates .write 0x9000 1 [0x50000] (userMachine 0x9FFF 0) ∧
    Translates .read (readReg 0 (userMachine 0x9FFF 0)) 1 [0x50FFF] (userMachine 0x9FFF 0) ∧
    Translates .write (readReg 0 (userMachine 0x9FFF 0)) 1 [0x50FFF] (userMachine 0x9FFF 0) :=
  ⟨inv_userMachine _ _, .inr rfl, .inl rfl, by unfold Translates; decide, by unfold Translates; decide,
    by unfold Translates; decide, by unfold Translates; decide⟩

theorem witness_SwapMemory_planned : Inv (busyUser 0x9FFF) ∧ Permitted (.gpr ⟨0, .byte⟩) (busyUser 0x9FFF) ∧
    Translates .read 0x9000 1 [0x50000] (busyUser 0x9FFF) ∧ Translates .write 0x9000 1 [0x50000] (busyUser 0x9FFF) ∧
    Quiet (accessesOf (.swapA (.gpr ⟨0, .byte⟩) 0x9000) (busyUser 0x9FFF)) (busyUser 0x9FFF) :=
  ⟨inv_of_ram rfl rfl rfl, .inr rfl, by unfold Translates; decide, by unfold Translates; decide, quiet_of_all (by decide)⟩

theorem witness_StackResults : Permitted (.gpr ⟨0, .word⟩) ((userMachine 0 0).setUspr 0x9004) ∧
    Quiet (accessesOf (.push (.gpr ⟨0, .word⟩)) ((userMachine 0 0).setUspr 0x9004)) ((userMachine 0 0).setUspr 0x9004) ∧
    Quiet (accessesOf (.pop (.gpr ⟨0, .word⟩)) ((userMachine 0 0).setUspr 0x9004)) ((userMachine 0 0).setUspr 0x9004) ∧
    Inv ((userMachine 0 0).setUspr 0x9004) ∧
    Translates .write (activeSp ((userMachine 0 0).setUspr 0x9004) - BitVec.ofNat 32 4) 4 [0x50000, 0x50001, 0x50002, 0x50003]
      ((userMachine 0 0).setUspr 0x9004) ∧
    Translates .read (activeSp ((userMachine 0 0).setUspr 0x9004)) 4 [0x50004, 0x50005, 0x50006, 0x50007]
      ((userMachine 0 0).setUspr 0x9004) ∧
    Translates .write (activeSp ((machine 0 0 0 0 0).setKspr 2) - BitVec.ofNat 32 4) 4 [0xFFFFFFFE, 0xFFFFFFFF, 0, 1]
      ((machine 0 0 0 0 0).setKspr 2) :=
  ⟨.inr rfl, .inl rfl, .inl rfl, inv_of_ram rfl rfl rfl, by unfold Translates; decide, by unfold Translates; decide,
    by unfold Translates; decide⟩

theorem witness_StackResults_planned : Permitted (.gpr ⟨0, .word⟩) (busyMachine 0 0 0) ∧ Inv (busyMachine 0 0 0) ∧
    Translates .write (activeSp (busyMachine 0 0 0) - BitVec.ofNat 32 4) 4 [0x7FFC, 0x7FFD, 0x7FFE, 0x7FFF]
      (busyMachine 0 0 0) ∧
    Translates .read (activeSp (busyMachine 0 0 0)) 4 [0x8000, 0x8001, 0x8002, 0x8003] (busyMachine 0 0 0) ∧
    Quiet (accessesOf (.push (.gpr ⟨0, .word⟩)) (busyMachine 0 0 0)) (busyMachine 0 0 0) ∧
    Quiet (accessesOf (.pop (.gpr ⟨0, .word⟩)) (busyMachine 0 0 0)) (busyMachine 0 0 0) :=
  ⟨.inl rfl, inv_of_ram rfl rfl rfl, by unfold Translates; decide, by unfold Translates; decide, quiet_of_all (by decide),
    quiet_of_all (by decide)⟩

theorem witness_BlockInstructions : (blocks 0x8001 0x8000).mode = .kernel := rfl

/-- A byte step of each kind in user mode: both addresses translate, the source does not, the destination does not. -/
theorem witness_BlockInstructions_steps :
    (resolve 0x5000 .read (busyUser 0)).1 = some 0x20000 ∧ (resolve 0x9000 .write (busyUser 0)).1 = some 0x50000 ∧
    Quiet (walkReads 0x5000 (busyUser 0) ++ 0x20000 :: walkReads 0x9000 (busyUser 0) ++ [0x50000]) (busyUser 0) ∧
    (resolve 0x6000 .read (busyUser 0)).1 = none ∧ Quiet (walkReads 0x6000 (busyUser 0)) (busyUser 0) ∧
    (resolve 0x7000 .write (busyUser 0)).1 = none ∧
    Quiet (walkReads 0x5000 (busyUser 0) ++ 0x20000 :: walkReads 0x7000 (busyUser 0)) (busyUser 0) ∧
    Quiet (walkReads 0x9000 (busyUser 0) ++ [0x50000]) (busyUser 0) ∧ Quiet (walkReads 0x7000 (busyUser 0)) (busyUser 0) :=
  ⟨by decide, by decide, quiet_of_all (by decide), by decide, quiet_of_all (by decide), by decide, quiet_of_all (by decide),
    quiet_of_all (by decide), quiet_of_all (by decide)⟩

/-- An overlapping copy, and a copy of no byte. -/
theorem witness_BlockCopyInRam : (blocks 0x8001 0x8000).mode = .kernel ∧ Inv (blocks 0x8001 0x8000) ∧
    Quiet (accessesOf (.blockcopy 0 1 2) (blocks 0x8001 0x8000)) (blocks 0x8001 0x8000) ∧
    (∀ a ∈ addresses (readReg 1 (blocks 0x8001 0x8000)) (readReg 0 (blocks 0x8001 0x8000)).toNat, InRamArray a) ∧
    ∀ a ∈ addresses (readReg 1 (machine 0 0 0 0 0)) (readReg 0 (machine 0 0 0 0 0)).toNat, InRamArray a :=
  ⟨rfl, inv_of_ram rfl rfl rfl, .inl rfl, inRamArray_of_all (l := addresses 0x8001 3) (by decide), fun a ha => (nomatch ha)⟩

theorem witness_BlockSetKernel : (machine 4 0x240 0x41 0 0).mode = .kernel ∧ Inv (machine 4 0x240 0x41 0 0) ∧
    Quiet (accessesOf (.blockset 0 1 2) (machine 4 0x240 0x41 0 0)) (machine 4 0x240 0x41 0 0) :=
  ⟨rfl, inv_machine _ _ _ _ _, .inl rfl⟩

/-- Device steps are planned, and the blocks are in RAM. -/
theorem witness_BlockInstructions_planned : (busyMachine 4 0x8000 0x9000).mode = .kernel ∧ Inv (busyMachine 4 0x8000 0x9000) ∧
    Quiet (accessesOf (.blockcopy 0 1 2) (busyMachine 4 0x8000 0x9000)) (busyMachine 4 0x8000 0x9000) ∧
    Quiet (accessesOf (.blockset 0 1 2) (busyMachine 4 0x8000 0x9000)) (busyMachine 4 0x8000 0x9000) :=
  ⟨rfl, inv_of_ram rfl rfl rfl, quiet_of_all (by decide), quiet_of_all (by decide)⟩

/-! ### Arithmetic, compare and conversion -/

/-- The operands that `TwoOperand` asks for: two views of one width, and a literal at the top of its range. -/
theorem witness_ArithmeticResults : SameWidth (⟨0, .half⟩ : GRef).width (⟨0, .half⟩ : GRef).width ∧
    LitFits (⟨0, .byte⟩ : GRef).width 255 ∧ LitFits (⟨0, .word⟩ : GRef).width 0xFFFFFFFF := by
  decide

theorem witness_LogicResults : SameWidth (⟨1, .byte⟩ : GRef).width (⟨2, .byte⟩ : GRef).width ∧
    LitFits (⟨0, .half⟩ : GRef).width 65535 := by
  decide

/-- A count of 0, and the largest count of a byte. -/
theorem witness_ShiftResults : SameWidth (⟨1, .byte⟩ : GRef).width (⟨2, .byte⟩ : GRef).width ∧
    LitFits (⟨0, .byte⟩ : GRef).width 0 ∧ LitFits (⟨0, .byte⟩ : GRef).width 255 := by
  decide

theorem witness_RotateResults : SameWidth (⟨1, .half⟩ : GRef).width (⟨1, .half⟩ : GRef).width ∧
    LitFits (⟨0, .half⟩ : GRef).width 65535 := by
  decide

theorem witness_RotateCarryResults : SameWidth (⟨1, .word⟩ : GRef).width (⟨2, .word⟩ : GRef).width ∧
    LitFits (⟨0, .word⟩ : GRef).width 33 := by
  decide

/-- Divisors at the edge of the guard, the overflow, and a zero divisor. -/
theorem witness_DivisionResults : SameWidth (⟨0, .byte⟩ : GRef).width (⟨1, .byte⟩ : GRef).width ∧
    (readG ⟨1, .byte⟩ (machine 0 0x101 0 0 0)).toNat ≠ 0 ∧ LitFits (⟨0, .byte⟩ : GRef).width 255 ∧ (255 : Word).toNat ≠ 0 ∧
    signed 8 0x80 = -(2 ^ (8 - 1)) ∧ signed 8 255 = -1 ∧ ¬ (signed 8 0x80 = -(2 ^ (8 - 1)) ∧ signed 8 1 = -1) ∧
    readG ⟨1, .byte⟩ (machine 0 0x100 0 0 0) = 0 := by
  decide

theorem witness_RclRcrInverse : 0 < 1 := by decide

theorem witness_CmpResult : SameWidth (⟨0, .byte⟩ : GRef).width (⟨1, .byte⟩ : GRef).width ∧
    LitFits (⟨0, .half⟩ : GRef).width 65535 := by
  decide

/-- A comparison of each form that completes, and targets that the branches after it can tell apart. -/
theorem witness_CompareThenBranch :
    (∃ t, exec (.cmpR ⟨0, .byte⟩ ⟨1, .byte⟩) (machine 0x80 0x7F 0 0x2000 0) = .next t ∧ (0x2000 : Word) ≠ t.pc + 5 ∧
      readReg 3 t ≠ t.pc + 2) ∧
    SameWidth (⟨0, .byte⟩ : GRef).width (⟨1, .byte⟩ : GRef).width ∧ LitFits (⟨0, .byte⟩ : GRef).width 255 ∧
    ∃ t, exec (.cmpI ⟨0, .byte⟩ 255) (machine 0x80 0 0 0 0) = .next t :=
  ⟨⟨_, rfl, by decide, by decide⟩, by decide, by decide, _, rfl⟩

theorem witness_WidenNarrow : Wider (⟨2, .half⟩ : GRef).width (⟨1, .byte⟩ : GRef).width ∧
    Wider (⟨2, .word⟩ : GRef).width (⟨2, .half⟩ : GRef).width ∧
    Narrower (⟨2, .half⟩ : GRef).width (⟨1, .word⟩ : GRef).width := by
  decide

/-- Patterns at the edge of each clause: NaN, the infinities, 2^31, the number below it, -2^31, the number below it, 2^32, the
number below it, -1 and the number above it. -/
theorem witness_FloatToInt :
    IsNan 0x7F800001 ∧ IsPlusInf 0x7F800000 ∧ IsMinusInf 0xFF800000 ∧
    (IsFinite 0x4F000000 ∧ 2 ^ 31 ≤ binary32 0x4F000000) ∧
    (IsFinite 0x4EFFFFFF ∧ -2 ^ 31 ≤ binary32 0x4EFFFFFF ∧ binary32 0x4EFFFFFF < 2 ^ 31) ∧
    (IsFinite 0xCF000000 ∧ -2 ^ 31 ≤ binary32 0xCF000000 ∧ binary32 0xCF000000 < 2 ^ 31) ∧
    (IsFinite 0xCF000001 ∧ binary32 0xCF000001 < -2 ^ 31) ∧ (IsFinite 0x4F800000 ∧ 2 ^ 32 ≤ binary32 0x4F800000) ∧
    (IsFinite 0x4F7FFFFF ∧ -1 < binary32 0x4F7FFFFF ∧ binary32 0x4F7FFFFF < 2 ^ 32) ∧
    (IsFinite 0xBF800000 ∧ binary32 0xBF800000 ≤ -1) ∧ IsFinite 0xBF7FFFFF ∧ -1 < binary32 0xBF7FFFFF := by
  simp only [IsNan, IsPlusInf, IsMinusInf, IsFinite, binary32, BitVec.reduceToNat]
  norm_num

/-- Each relation: unordered, equal with different signs of zero, equal infinities, less, and greater. -/
theorem witness_FcmpResult :
    IsNan 0x7FC00000 ∧
    (¬ IsNan 0x80000000 ∧ ¬ IsNan 0 ∧ FloatEq 0x80000000 0) ∧ FloatEq 0x7F800000 0x7F800000 ∧
    (¬ IsNan 0xBF800000 ∧ ¬ IsNan 0x3F800000 ∧ FloatLt 0xBF800000 0x3F800000) ∧ FloatLt 0xFF800000 0x7F800000 ∧
    (¬ FloatEq 0x40000000 0x3F800000 ∧ ¬ FloatLt 0x40000000 0x3F800000) := by
  simp only [IsNan, FloatEq, FloatLt, IsPlusInf, IsMinusInf, IsFinite, binary32, BitVec.reduceToNat]
  norm_num

/-! ### Devices -/

/-- The first and last offset of each matrix, and the bytes at the edges of the character set. -/
theorem witness_DisplayWrite : Inv State.reset ∧ (5999 : Nat) < 6000 ∧
    poke (BitVec.ofNat 32 (0x240 + 1999)) 32 State.reset = poke (BitVec.ofNat 32 (0x240 + 1999)) 32 State.reset ∧
    (0 : Nat) < 2000 ∧ 1999 < 2000 ∧ 32 ≤ (32 : Byte).toNat ∧ (126 : Byte).toNat ≤ 126 ∧ (30 : Byte).toNat < 31 ∧
    127 < (128 : Byte).toNat ∧ 3999 < 4000 ∧ 4000 ≤ 5999 :=
  ⟨inv_of_ram rfl rfl rfl, by decide, rfl, by decide, by decide, by decide, by decide, by decide, by decide, by decide,
    by decide⟩

/-- A queue of one entry that has room, and one that has none. -/
theorem witness_KeyboardEvent :
    HasRoom { State.reset with irqCapacity := .bounded 0, hostKeys := [⟨0x61, true, false⟩] } ∧
    ¬ HasRoom { State.reset with irqCapacity := .bounded 0, hostKeys := [⟨0x61, true, false⟩], queue := [.diskA] } ∧
    HasRoom { State.reset with irqCapacity := .unbounded, hostKeys := [⟨0x61, true, false⟩], queue := [.diskA] } := by
  refine ⟨fun n h => ?_, fun h => ?_, fun n h => ?_⟩
  · cases h
    decide
  · exact absurd (h 1 rfl) (by decide)
  · cases h

/-- Connected and idle, connected and busy, and disconnected; the offsets at the ends of each clause. -/
theorem witness_DiskWindow : ((withDisk 1).disk .a).image ≠ none ∧ ((withDisk 1).disk .a).busy = false ∧
    ((poke 0x19B9 1 (withDisk 1)).disk .a).busy = true ∧ ((withDisk 1).disk .b).image = none ∧ (4 : Nat) ≤ 4 ∧ 5 ≤ 5 ∧
    5 ≤ 8 ∧ 8 ≤ 8 := by
  decide

/-- The first and the last byte of each buffer, and a pending `WRITE`. -/
theorem witness_DiskWindow_buffer :
    (0 : Nat) < 4096 ∧ 4095 < 4096 ∧ bufferAddress .a + BitVec.ofNat 32 4095 = 0x29B9 ∧
    bufferAddress .b + BitVec.ofNat 32 4095 = 0x39C3 ∧ Inv (poke 0x19B9 2 (withDisk 1)) ∧
    ((poke 0x19B9 2 (withDisk 1)).disk .a).image = some ⟨2, [(4096, 0x11), (4097, 0x22)]⟩ ∧
    ((poke 0x19B9 2 (withDisk 1)).disk .a).busy = true ∧ HasRoom (poke 0x19B9 2 (withDisk 1)) ∧
    ((poke 0x19B9 2 (withDisk 1)).disk .a).lcmd.toNat = 2 ∧ ((poke 0x19B9 2 (withDisk 1)).disk .a).lda.toNat < 2 := by
  refine ⟨by decide, by decide, by decide, by decide, (inv_withDisk 1).poke _ _, by decide, by decide, fun n h => ?_,
    by decide, by decide⟩
  cases h

/-- The commands at the ends of the valid range and beside them, the last block and the one after it, and the two ways to
wait. -/
theorem witness_DiskCompletion :
    ((withDisk 1).disk .a).image = some ⟨2, [(4096, 0x11), (4097, 0x22)]⟩ ∧ ((withDisk 1).disk .a).busy = false ∧
    ((poke 0x19B9 4 (withDisk 1)).disk .a).busy = true ∧ HasRoom (poke 0x19B9 4 (withDisk 1)) ∧
    ((poke 0x19B9 4 (withDisk 1)).disk .a).lcmd.toNat ≤ 4 ∧ ((poke 0x19B9 4 (withDisk 1)).disk .a).lda.toNat < 2 ∧
    1 ≤ ((poke 0x19B9 1 (withDisk 1)).disk .a).lcmd.toNat ∧ ((poke 0x19B9 0 (withDisk 1)).disk .a).lcmd.toNat < 1 ∧
    4 < ((poke 0x19B9 5 (withDisk 1)).disk .a).lcmd.toNat ∧ 2 ≤ ((poke 0x19B9 4 (withDisk 2)).disk .a).lda.toNat ∧
    ¬ HasRoom { poke 0x19B9 4 (withDisk 1) with irqCapacity := .bounded 0, queue := [.diskB] } := by
  refine ⟨by decide, by decide, by decide, fun n h => ?_, by decide, by decide, by decide, by decide, by decide, by decide,
    fun h => absurd (h 1 rfl) (by decide)⟩
  cases h

theorem witness_DisconnectedDisk : Inv (withDisk 0) ∧ ((withDisk 0).disk .b).image = none ∧
    (∃ t, step ((withDisk 0).setSchedule [.device .keyboard]) = .next t) ∧
    ¬ Restarted ((withDisk 0).setSchedule [.device .keyboard]) (withDisk 0) :=
  ⟨inv_withDisk 0, rfl, ⟨_, rfl⟩, fun h => by cases h.1⟩

/-- Writes outside every window of a device, writes outside the RAM array, and writes inside it. -/
theorem witness_WritesStayInTheirRow :
    (∀ c ∈ [((0x4000 : Word), (7 : Byte)), (0x240, 8)], ∀ o, regionOf c.1 ≠ .diskRegister .a o ∧ regionOf c.1 ≠ .diskBuffer .a o) ∧
    (∀ c ∈ [((0x19B9 : Word), (1 : Byte)), (0x4000, 7)], ∀ o, regionOf c.1 ≠ .display o) ∧
    (∀ c ∈ [((0x19B9 : Word), (1 : Byte)), (0x240, 8)], ¬ InRamArray c.1) ∧
    (∀ c ∈ [((0x3F : Word), (1 : Byte)), (0x39C6, 8)], InRamArray c.1) := by
  simp [InRamArray, regionOf]

end Sys2Proof.Tests
end

section
/-! PROOF. The turns of the agents and the byte accesses of a half-word, said once each; and the statement `AgentTurns`
(spec 00_scope.md R15, 60_exceptions.md R371 and R420, 20_memory.md R72, R77 and R120). -/

namespace Sys2Proof.Machine

/-! ## The turn of the CPU -/

/-- At its turn the CPU sees the machine as it is: only the schedule has moved on. -/
theorem CpuTurn.eq_setSchedule {s u : State} (h : CpuTurn s u) : u = s.setSchedule u.schedule := by
  rcases h with ⟨_, rfl⟩ | ⟨rest, _, rfl⟩
  · rfl
  · rfl

theorem CpuTurn.runState_eq {s u : State} (h : CpuTurn s u) : u.runState = s.runState := by
  rw [h.eq_setSchedule, State.setSchedule_runState]

theorem CpuTurn.imr_eq {s u : State} (h : CpuTurn s u) : u.imr = s.imr := by
  rw [h.eq_setSchedule, State.setSchedule_imr]

theorem CpuTurn.queue_eq {s u : State} (h : CpuTurn s u) : u.queue = s.queue := by
  rw [h.eq_setSchedule, State.setSchedule_queue]

/-- At the CPU's turn the machine's step is the CPU's (R15). -/
theorem step_of_cpuTurn {s u : State} (h : CpuTurn s u) : step s = cpuStep u := by
  unfold step scheduledStep
  rcases h with ⟨hs, rfl⟩ | ⟨rest, hs, rfl⟩
  · rw [hs]
  · rw [hs]
    rfl

/-- A stopped CPU takes no step (R371). -/
theorem cpuStep_of_stopped {s : State} (h : s.runState = .stopped) : cpuStep s = .next s := by
  unfold cpuStep
  rw [h]

/-- A paused CPU waits while no entry of the queue is enabled (R371, R363). -/
theorem cpuStep_of_paused {s : State} (h : s.runState = .paused) (hq : takeEnabled s.imr s.queue = none) :
    cpuStep s = .next s := by
  unfold cpuStep
  rw [h, hq]

theorem step_of_stopped {s u : State} (h : CpuTurn s u) (hr : s.runState = .stopped) : step s = .next u :=
  (step_of_cpuTurn h).trans (cpuStep_of_stopped (h.runState_eq.trans hr))

theorem step_of_paused {s u : State} (h : CpuTurn s u) (hr : s.runState = .paused)
    (hq : ∀ k ∈ s.queue, s.imr.getLsbD k.kind.number = false) : step s = .next u := by
  have hnone : takeEnabled u.imr u.queue = none := by
    rw [h.imr_eq, h.queue_eq]
    exact takeEnabled_eq_none.2 hq
  exact (step_of_cpuTurn h).trans (cpuStep_of_paused (h.runState_eq.trans hr) hnone)

/-! ## The turns of the other agents -/

/-- The first turn of the schedule is taken off it, and its agent takes it (R15). -/
theorem step_of_schedule_cons {s : State} {a : Agent} {rest : List Agent} (h : s.schedule = a :: rest) :
    step s = agentStep a (s.setSchedule rest) := by
  unfold step scheduledStep
  rw [h]

/-- A start is a reset of a stopped machine, which keeps the queue's capacity and the turns to come, and nothing else
(R420, R452). -/
theorem hostStart_eq (i : StartInput) (s : State) :
    hostStart i s =
      if s.runState = .stopped then ((State.start s.irqCapacity i).setSchedule s.schedule).setMidStep s.midStep
      else s := by
  unfold hostStart
  split
  · next h => rw [if_pos h]
  · next h => rw [if_neg (by rw [h]; decide)]
  · next h => rw [if_neg (by rw [h]; decide)]

theorem step_of_hostStart {s : State} {i : StartInput} {rest : List Agent} (h : s.schedule = .hostStart i :: rest) :
    step s = .next (if s.runState = .stopped then
      ((State.start s.irqCapacity i).setSchedule rest).setMidStep s.midStep else s.setSchedule rest) := by
  rw [step_of_schedule_cons h]
  exact congrArg Host.Outcome.next (hostStart_eq i (s.setSchedule rest))

/-! ## Device steps round one byte access -/

theorem poke_midStep (pa : Word) (b : Byte) (s : State) : (poke pa b s).midStep = s.midStep :=
  (onlyMemoryChanged_poke pa b s).midStep

theorem quiet_singleton {pa : Word} {s : State} : Quiet [pa] s ↔ (regionOf pa).isDevice = false ∨ s.midStep = [] := by
  rw [Quiet, List.forall_mem_singleton, or_comm]

theorem physRead8_of_quiet {pa : Word} {s : State} (h : Quiet [pa] s) : physRead8 pa s = (peek s pa, s) := by
  rw [physRead8, afterAccess_of_quiet h List.mem_cons_self]

theorem physWrite8_of_quiet {pa : Word} {s : State} (h : Quiet [pa] s) (b : Byte) :
    physWrite8 pa b s = poke pa b s :=
  afterAccess_of_quiet (h.congr (poke_midStep pa b s)) List.mem_cons_self

/-- A byte read from a device window is followed by the next planned device steps (R120). -/
theorem physRead8_of_planned {pa : Word} {s : State} {ts : List DeviceStep} {rest : List (List DeviceStep)}
    (h : (regionOf pa).isDevice = true) (hm : s.midStep = ts :: rest) :
    physRead8 pa s = (peek s pa, deviceSteps ts (s.setMidStep rest)) := by
  rw [physRead8, afterAccess_of_planned h hm]

/-- A byte written to a device window is followed by the next planned device steps (R120). -/
theorem physWrite8_of_planned {pa : Word} {s : State} {ts : List DeviceStep} {rest : List (List DeviceStep)}
    (h : (regionOf pa).isDevice = true) (hm : s.midStep = ts :: rest) (b : Byte) :
    physWrite8 pa b s = deviceSteps ts ((poke pa b s).setMidStep rest) :=
  afterAccess_of_planned h ((poke_midStep pa b s).trans hm)

/-! ## The two byte accesses of a half-word -/

theorem addresses_two (a : Word) : addresses a 2 = [a, a + 1] := by
  rw [addresses_succ, addresses_one]

/-- The two bytes of a half-word, the high one first (R77). -/
theorem beBytes_two (v : Word) : beBytes 2 v = [v.extractLsb' 8 8, v.extractLsb' 0 8] := rfl

/-- A half-word is read one byte after the other, the second in the state that the first access leaves (R77, R94, R120). -/
theorem memRead_half_kernel {s : State} (hm : s.mode = .kernel) (pa : Word) (acc : Access) :
    memRead 2 pa acc s =
      .ok (beWord [peek s pa, peek (physRead8 pa s).2 (pa + 1)]) (physRead8 (pa + 1) (physRead8 pa s).2).2 := by
  rw [memRead_kernel hm, addresses_two]
  rfl

/-- A half-word is written one byte after the other, the second in the state that the first access leaves (R77, R94, R120). -/
theorem memWrite_half_kernel {s : State} (hm : s.mode = .kernel) (pa v : Word) :
    memWrite 2 pa v s =
      .ok () (physWrite8 (pa + 1) (v.extractLsb' 0 8) (physWrite8 pa (v.extractLsb' 8 8) s)) := by
  rw [memWrite_kernel hm, physWrite, addresses_two, beBytes_two]
  rfl

theorem exec_loadA (dst : Ref) (addr : Word) (s : State) : exec (.loadA dst addr) s = loadFrom 6 dst addr s := rfl

theorem exec_storeA (addr : Word) (src : Ref) (s : State) : exec (.storeA addr src) s = storeTo 6 addr src s := rfl

/-- `LOAD` of a half-word in kernel mode is its two byte reads (R190, R77). -/
theorem exec_loadA_half_kernel {s : State} (hm : s.mode = .kernel) (i : Fin 8) (pa : Word) :
    exec (.loadA (.gpr ⟨i, .half⟩) pa) s =
      .next ((writeRef (.gpr ⟨i, .half⟩) (beWord [peek s pa, peek (physRead8 pa s).2 (pa + 1)])
        (physRead8 (pa + 1) (physRead8 pa s).2).2).setPc (s.pc + 6)) := by
  have hpc : (physRead8 (pa + 1) (physRead8 pa s).2).2.pc = s.pc :=
    ((sameOutsideDevices_afterAccess pa s).trans (sameOutsideDevices_afterAccess (pa + 1) _)).pc
  have hread : memRead (Ref.gpr ⟨i, .half⟩).width.bytes pa .read s = _ := memRead_half_kernel hm pa .read
  rw [exec_loadA, loadFrom, guardPrivilege_permitted (.inl hm), hread, MemResult.finish_ok, advance, writeRef_pc, hpc]
  rfl

/-- `STORE` of a half-word in kernel mode is its two byte writes (R192, R77). -/
theorem exec_storeA_half_kernel {s : State} (hm : s.mode = .kernel) (i : Fin 8) (pa : Word) :
    exec (.storeA pa (.gpr ⟨i, .half⟩)) s =
      .next ((physWrite8 (pa + 1) ((readReg i s).extractLsb' 0 8)
        (physWrite8 pa ((readReg i s).extractLsb' 8 8) s)).setPc (s.pc + 6)) := by
  have hpc (b c : Byte) : (physWrite8 (pa + 1) c (physWrite8 pa b s)).pc = s.pc :=
    ((keepsCpu_physWrite8 pa b s).trans (keepsCpu_physWrite8 (pa + 1) c _)).pc
  have hwrite : memWrite (Ref.gpr ⟨i, .half⟩).width.bytes pa (readRef (.gpr ⟨i, .half⟩) s) s = _ :=
    memWrite_half_kernel hm pa (((readReg i s).setWidth 16).setWidth 32)
  simp (disch := decide) only [BitVec.extractLsb'_setWidth_of_le] at hwrite
  rw [exec_storeA, storeTo, guardPrivilege_permitted (.inl hm), hwrite, MemResult.finish_ok, advance, hpc]
  rfl

/-- Settles O9: each turn by the equation of its agent, each byte access by whether device steps are planned for it, and
the half-word accesses as two byte accesses in order. -/
theorem agentTurns : Obligations.AgentTurns := by
  refine ⟨fun _ _ => step_of_stopped, fun _ _ => step_of_paused, fun _ _ _ => step_of_schedule_cons,
    fun _ _ _ => step_of_schedule_cons, fun _ _ => step_of_schedule_cons, fun _ _ _ => step_of_hostStart,
    fun s pa b => ⟨fun h => ?_, fun ts rest hd hm => ?_⟩, fun i pa s u v hk => ⟨?_, ?_⟩⟩
  · have hq := quiet_singleton.2 h
    exact ⟨physRead8_of_quiet hq, physWrite8_of_quiet hq b⟩
  · exact ⟨physRead8_of_planned hd hm, physWrite8_of_planned hd hm b⟩
  · rintro rfl rfl
    exact exec_loadA_half_kernel hk i pa
  · rintro rfl rfl
    exact exec_storeA_half_kernel hk i pa

end Sys2Proof.Machine
end

section
/-! PROOF. The privileged registers that no memory access reads: every shared operation, run on a state with other values of
`kspr`, `imr` and `pfva`, does the same and leaves those values as they were (spec 10_state.md R45, 20_memory.md R90 to R98). -/

namespace Sys2Proof.Machine

/-- `s` with other values of the privileged registers that translation does not use. -/
def withPrivileged (k : Word) (m : BitVec 16) (f : Word) (s : State) : State := ((s.setKspr k).setImr m).setPfva f

@[simp] theorem withPrivileged_mode (k : Word) (m : BitVec 16) (f : Word) (s : State) :
    (withPrivileged k m f s).mode = s.mode := rfl

/-! ## Device steps -/

/-- The operation does the same whatever `kspr`, `imr` and `pfva` hold, and leaves them as they were. -/
def Blind (g : State → State) : Prop :=
  ∀ (k : Word) (m : BitVec 16) (f : Word) (s : State), g (withPrivileged k m f s) = withPrivileged k m f (g s)

theorem Blind.comp {g h : State → State} (hg : Blind g) (hh : Blind h) : Blind fun s => g (h s) :=
  fun k m f s => (congrArg g (hh k m f s)).trans (hg k m f (h s))

theorem blind_setDisk (d : DiskId) (v : Disk) : Blind fun s => s.setDisk d v := by
  intro k m f s
  cases d <;> rfl

@[simp] theorem disk_withPrivileged (k : Word) (m : BitVec 16) (f : Word) (s : State) (d : DiskId) :
    (withPrivileged k m f s).disk d = s.disk d := by
  cases d <;> rfl

@[simp] theorem queueHasRoom_withPrivileged (k : Word) (m : BitVec 16) (f : Word) (s : State) :
    queueHasRoom (withPrivileged k m f s) = queueHasRoom s := rfl

theorem blind_keyboardStep : Blind keyboardStep := by
  intro k m f s
  have hkeys : (withPrivileged k m f s).hostKeys = s.hostKeys := rfl
  unfold keyboardStep
  rw [hkeys, queueHasRoom_withPrivileged]
  cases s.hostKeys with
  | nil => rfl
  | cons key rest =>
    cases queueHasRoom s
    · rfl
    · rfl

theorem blind_diskStep (d : DiskId) (ok : Bool) : Blind (diskStep d ok) := by
  intro k m f s
  unfold diskStep
  rw [disk_withPrivileged, queueHasRoom_withPrivileged]
  split
  · exact congrArg (fun u => enqueue d.irq (u.setDraws (s.draws + 1))) (blind_setDisk d _ k m f s)
  · rfl

theorem blind_deviceStep (t : DeviceStep) : Blind (deviceStep t) := by
  cases t with
  | keyboard => exact blind_keyboardStep
  | disk d ok => exact blind_diskStep d ok

theorem blind_deviceSteps (ts : List DeviceStep) : Blind (deviceSteps ts) := by
  induction ts with
  | nil => exact fun _ _ _ _ => rfl
  | cons t ts ih => exact ih.comp (blind_deviceStep t)

/-! ## Bytes of the physical space -/

@[simp] theorem peek_withPrivileged (k : Word) (m : BitVec 16) (f : Word) (s : State) (pa : Word) :
    peek (withPrivileged k m f s) pa = peek s pa :=
  peek_congr rfl rfl rfl rfl rfl rfl pa

theorem blind_poke (pa : Word) (b : Byte) : Blind (poke pa b) := by
  intro k m f s
  unfold poke
  cases regionOf pa with
  | vector => rfl
  | rom o => rfl
  | display o => rfl
  | diskRegister d o => cases d <;> rfl
  | diskBuffer d o => cases d <;> rfl
  | keyboard o => rfl
  | ram => rfl

theorem blind_afterAccess (pa : Word) : Blind (afterAccess pa) := by
  intro k m f s
  have hmid : (withPrivileged k m f s).midStep = s.midStep := rfl
  unfold afterAccess
  rw [hmid]
  cases (regionOf pa).isDevice with
  | false => rfl
  | true =>
    cases s.midStep with
    | nil => rfl
    | cons ts rest => exact blind_deviceSteps ts k m f (s.setMidStep rest)

/-- An operation that answers a value, too, answers the same whatever `kspr`, `imr` and `pfva` hold. -/
def BlindRead {α : Type} (g : State → α × State) : Prop :=
  ∀ (k : Word) (m : BitVec 16) (f : Word) (s : State),
    g (withPrivileged k m f s) = ((g s).1, withPrivileged k m f (g s).2)

theorem blindRead_physReadList (ps : List Word) : BlindRead (physReadList ps) := by
  intro k m f s
  induction ps generalizing s with
  | nil => rfl
  | cons p ps ih =>
    simp only [physReadList, physRead8, peek_withPrivileged, blind_afterAccess p k m f s, ih]

theorem blind_physWriteList (cs : List (Word × Byte)) : Blind (physWriteList cs) := by
  induction cs with
  | nil => exact fun _ _ _ _ => rfl
  | cons c cs ih => exact ih.comp ((blind_afterAccess c.1).comp (blind_poke c.1 c.2))

theorem blindRead_physRead (n : Nat) (pa : Word) : BlindRead (physRead n pa) := by
  intro k m f s
  simp only [physRead, blindRead_physReadList (addresses pa n) k m f s]

/-- A table walk uses `pdpr` and no other privileged register (R90). -/
theorem blindRead_translate (va : Word) (acc : Access) : BlindRead (translate va acc) := by
  intro k m f s
  have hpdpr : (withPrivileged k m f s).pdpr = s.pdpr := rfl
  unfold translate
  simp only [hpdpr, blindRead_physRead 4 _ k m f]
  repeat' split
  all_goals rfl

theorem blindRead_resolve (va : Word) (acc : Access) : BlindRead (resolve va acc) := by
  intro k m f s
  unfold resolve
  rw [withPrivileged_mode]
  cases s.mode with
  | kernel => rfl
  | user => exact blindRead_translate va acc k m f s

/-! ## Memory accesses -/

/-- The end of a memory access with another state in place of its own. -/
def MemResult.mapState {α : Type} (g : State → State) : MemResult α → MemResult α
  | .ok v s => .ok v (g s)
  | .pageFault va s => .pageFault va (g s)

@[simp] theorem MemResult.mapState_ok {α : Type} (g : State → State) (v : α) (s : State) :
    (MemResult.ok v s).mapState g = .ok v (g s) := rfl

@[simp] theorem MemResult.mapState_pageFault {α : Type} (g : State → State) (va : Word) (s : State) :
    (MemResult.pageFault va s : MemResult α).mapState g = .pageFault va (g s) := rfl

/-- What every memory access satisfies: it keeps the registers, it faults in user mode only (R94), and it does the same
whatever `kspr`, `imr` and `pfva` hold. -/
structure AccessLaws {α : Type} (a : State → MemResult α) : Prop where
  keeps : ∀ s, KeepsCpu s (a s).state
  faults : ∀ s va u, a s = .pageFault va u → s.mode = .user
  blind : ∀ (k : Word) (m : BitVec 16) (f : Word) (s : State),
    a (withPrivileged k m f s) = (a s).mapState (withPrivileged k m f)

/-- One access after another is an access. -/
theorem AccessLaws.bind {α β : Type} {a : State → MemResult α} {b : α → State → MemResult β} (ha : AccessLaws a)
    (hb : ∀ v, AccessLaws (b v)) : AccessLaws fun s => (a s).bind b where
  keeps s := MemResult.state_bind (R := KeepsCpu s) (ha.keeps s) fun v u hu => hu.trans ((hb v).keeps u)
  faults s va u h := by
    have hkeeps := ha.keeps s
    cases e : a s with
    | ok v s1 =>
      rw [e] at h hkeeps
      exact hkeeps.mode.symm.trans ((hb v).faults s1 va u h)
    | pageFault va1 s1 => exact ha.faults s va1 s1 e
  blind k m f s := by
    simp only [ha.blind k m f s]
    cases a s with
    | ok v s1 => exact (hb v).blind k m f s1
    | pageFault va s1 => rfl

theorem accessLaws_ok {α : Type} (v : α) : AccessLaws fun s => .ok v s where
  keeps := KeepsCpu.refl
  faults _ _ _ h := nomatch h
  blind _ _ _ _ := rfl

theorem accessLaws_resolveList (acc : Access) (as : List Word) : AccessLaws (resolveList acc as) where
  keeps s := (sameOutsideDevices_resolveList acc as s).keepsCpu
  faults s va u h := by
    cases hm : s.mode with
    | kernel =>
      rw [resolveList_kernel hm] at h
      cases h
    | user => rfl
  blind k m f s := by
    induction as generalizing s with
    | nil => rfl
    | cons a as ih =>
      rw [resolveList, resolveList, blindRead_resolve a acc k m f s]
      obtain ⟨_ | p, s1⟩ := resolve a acc s
      · rfl
      · simp only [ih]
        cases resolveList acc as s1 <;> rfl

theorem accessLaws_physReadList (ps : List Word) :
    AccessLaws fun s => .ok (beWord (physReadList ps s).1) (physReadList ps s).2 where
  keeps s := (sameOutsideDevices_physReadList ps s).keepsCpu
  faults _ _ _ h := nomatch h
  blind k m f s := by
    simp only [blindRead_physReadList ps k m f s, MemResult.mapState_ok]

theorem accessLaws_physWriteList (cs : List (Word × Byte)) : AccessLaws fun s => .ok () (physWriteList cs s) where
  keeps := keepsCpu_physWriteList cs
  faults _ _ _ h := nomatch h
  blind k m f s := congrArg (MemResult.ok ()) (blind_physWriteList cs k m f s)

theorem accessLaws_memRead (n : Nat) (va : Word) (acc : Access) : AccessLaws (memRead n va acc) :=
  (accessLaws_resolveList acc _).bind accessLaws_physReadList

theorem accessLaws_memWrite (n : Nat) (va v : Word) : AccessLaws (memWrite n va v) :=
  (accessLaws_resolveList .write _).bind fun ps => accessLaws_physWriteList (ps.zip (beBytes n v))

theorem accessLaws_memSwap (n : Nat) (va v : Word) : AccessLaws (memSwap n va v) :=
  (accessLaws_resolveList .read _).bind fun _ => (accessLaws_resolveList .write _).bind fun _ =>
    (accessLaws_memRead n va .read).bind fun old => (accessLaws_memWrite n va v).bind fun _ => accessLaws_ok old

theorem accessLaws_blockCopyLoop (n : Nat) (d src : Word) : AccessLaws (blockCopyLoop n d src) := by
  induction n generalizing d src with
  | zero => exact accessLaws_ok ()
  | succ n ih =>
    exact (accessLaws_memRead 1 src .read).bind fun b => (accessLaws_memWrite 1 d b).bind fun _ => ih (d + 1) (src + 1)

theorem accessLaws_blockSetLoop (n : Nat) (d v : Word) : AccessLaws (blockSetLoop n d v) := by
  induction n generalizing d with
  | zero => exact accessLaws_ok ()
  | succ n ih => exact (accessLaws_memWrite 1 d v).bind fun _ => ih (d + 1)

end Sys2Proof.Machine
end

section
/-! PROOF. The phases of an instruction: it raises an exception, or reads its operands, accesses memory and updates the
registers that it names. Every instruction but `IRETURN` has such phases (`hasPhases_of_ne_ireturn`); what they can change of
the registers is said once for all of them (spec 10_state.md R30 to R47). -/

namespace Sys2Proof.Machine

/-- The instructions that take interrupt 1 in user mode (R45, R175). -/
def IsPrivileged (i : Instr) : Prop :=
  i = .halt ∨ i = .pause ∨ i = .ireturn ∨ ∃ r ∈ i.refs, refPrivileged r = true

/-! ## The registers that an update names -/

/-- `t` is `s` after an update of registers that the instruction names, of the active stack pointer by `PUSH` and `POP`, of the
flags by an instruction that computes them, of the run state by `HALT` and `PAUSE`, and of the pc. -/
structure ChangesNamed (i : Instr) (s t : State) : Prop where
  regs : ∀ j : Fin 8, readReg j t = readReg j s ∨
    ∃ g, .gpr g ∈ i.writes ∧ g.index = j ∧ readReg j t >>> g.width.bits = readReg j s >>> g.width.bits
  specials : ∀ p : SpecialReg, readSpecial p t = readSpecial p s ∨ .special p ∈ i.writes ∨
    (p = .flags ∧ i.computesFlags) ∨ (p = .uspr ∧ i.usesStack ∧ s.mode = .user) ∨
    (p = .kspr ∧ i.usesStack ∧ s.mode = .kernel)
  runState : t.runState = s.runState ∨ i = .halt ∨ i = .pause
  elsewhere : t = (withRegistersOf t s).setRunState t.runState

theorem ChangesNamed.mode {i : Instr} {s t : State} (h : ChangesNamed i s t) : t.mode = s.mode := by
  rw [h.elsewhere]
  rfl

/-- Bits that agree above one width agree above every larger one. -/
theorem shiftRight_eq_of_le {a b : Word} {m n : Nat} (h : a >>> m = b >>> m) (hmn : m ≤ n) : a >>> n = b >>> n := by
  rw [← Nat.add_sub_cancel' hmn, BitVec.shiftRight_add, BitVec.shiftRight_add, h]

/-- Two updates of views of one register leave the bits outside the wider view. -/
theorem ChangesNamed.trans {i : Instr} {s t u : State} (h : ChangesNamed i s t) (k : ChangesNamed i t u) :
    ChangesNamed i s u where
  regs j := by
    rcases h.regs j with hj | ⟨g, hg, hgj, hj⟩
    · exact hj ▸ k.regs j
    · rcases k.regs j with kj | ⟨g', hg', hgj', kj⟩
      · exact .inr ⟨g, hg, hgj, kj ▸ hj⟩
      · rcases Nat.le_total g.width.bits g'.width.bits with hle | hle
        · exact .inr ⟨g', hg', hgj', kj.trans (shiftRight_eq_of_le hj hle)⟩
        · exact .inr ⟨g, hg, hgj, (shiftRight_eq_of_le kj hle).trans hj⟩
  specials p := by
    rcases h.specials p with hp | hp
    · exact hp ▸ h.mode ▸ k.specials p
    · exact .inr hp
  runState := by
    rcases h.runState with hr | hr
    · exact hr ▸ k.runState
    · exact .inr hr
  elsewhere := by
    have hu : (withRegistersOf u t).setRunState u.runState = (withRegistersOf u s).setRunState u.runState := by
      rw [h.elsewhere]
      rfl
    exact k.elsewhere.trans hu

theorem changesNamed_setPc (i : Instr) (v : Word) (s : State) : ChangesNamed i s (s.setPc v) where
  regs _ := .inl rfl
  specials p := .inl (by cases p <;> rfl)
  runState := .inl rfl
  elsewhere := rfl

theorem changesNamed_advance (i : Instr) (n : Nat) (s : State) : ChangesNamed i s (advance n s) :=
  changesNamed_setPc i _ s

theorem changesNamed_setFlags {i : Instr} (h : i.computesFlags) (v : Flags) (s : State) :
    ChangesNamed i s (s.setFlags v) where
  regs _ := .inl rfl
  specials p := by
    cases p with
    | flags => exact .inr (.inr (.inl ⟨rfl, h⟩))
    | uspr | kspr | pdpr | imr | pfva => exact .inl rfl
  runState := .inl rfl
  elsewhere := rfl

theorem changesNamed_setActiveSp {i : Instr} (h : i.usesStack) (v : Word) (s : State) :
    ChangesNamed i s (setActiveSp v s) := by
  unfold setActiveSp
  split
  · next hm =>
    refine ⟨fun _ => .inl rfl, fun p => ?_, .inl rfl, rfl⟩
    cases p with
    | kspr => exact .inr (.inr (.inr (.inr ⟨rfl, h, hm⟩)))
    | flags | uspr | pdpr | imr | pfva => exact .inl rfl
  · next hm =>
    refine ⟨fun _ => .inl rfl, fun p => ?_, .inl rfl, rfl⟩
    cases p with
    | uspr => exact .inr (.inr (.inr (.inl ⟨rfl, h, hm⟩)))
    | flags | kspr | pdpr | imr | pfva => exact .inl rfl

theorem changesNamed_setRunState {i : Instr} (h : i = .halt ∨ i = .pause) (v : RunState) (s : State) :
    ChangesNamed i s (s.setRunState v) where
  regs _ := .inl rfl
  specials p := .inl (by cases p <;> rfl)
  runState := .inr h
  elsewhere := rfl

theorem changesNamed_writeG {i : Instr} {g : GRef} (h : .gpr g ∈ i.writes) (v : BitVec g.width.bits) (s : State) :
    ChangesNamed i s (writeG g v s) where
  regs j := by
    obtain ⟨hothers, hview⟩ := onlyViewChanged_writeG g v s
    by_cases hj : j = g.index
    · subst hj
      exact .inr ⟨g, h, rfl, hview⟩
    · exact .inl (hothers j hj)
  specials p := .inl (readSpecial_writeG p g v s)
  runState := .inl rfl
  elsewhere := rfl

theorem changesNamed_writeRef {i : Instr} {r : Ref} (h : r ∈ i.writes) (v : Word) (s : State) :
    ChangesNamed i s (writeRef r v s) := by
  cases r with
  | gpr g => exact changesNamed_writeG h _ s
  | special q =>
    have hregs : (writeRef (.special q) v s).regs = s.regs := writeSpecial_regs q v s
    refine ⟨fun j => .inl (by rw [readReg, readReg, hregs]), fun p => ?_, .inl ?_, ?_⟩
    · by_cases hp : p = q
      · exact .inr (.inl (hp ▸ h))
      · exact .inl (readSpecial_writeSpecial_other v s hp)
    · cases q <;> rfl
    · cases q <;> rfl

/-! ## The privileged registers, out of sight in user mode -/

/-- In user mode the value does not depend on `kspr`, `imr` and `pfva`. -/
def Visible {α : Type} (x : State → α) : Prop :=
  ∀ (k : Word) (m : BitVec 16) (f : Word) (s : State), s.mode = .user → x (withPrivileged k m f s) = x s

/-- In user mode the update does the same whatever `kspr`, `imr` and `pfva` hold, and leaves them as they were. -/
def UserBlind (g : State → State) : Prop :=
  ∀ (k : Word) (m : BitVec 16) (f : Word) (s : State), s.mode = .user →
    g (withPrivileged k m f s) = withPrivileged k m f (g s)

/-- The update of an instruction: it changes what the instruction names, and does so blindly where that is not privileged. -/
structure UpdateLaws (i : Instr) (g : State → State) : Prop where
  changes : ∀ s, ChangesNamed i s (g s)
  blind : ¬ IsPrivileged i → UserBlind g

theorem UpdateLaws.comp {i : Instr} {g h : State → State} (hg : UpdateLaws i g) (hh : UpdateLaws i h) :
    UpdateLaws i fun s => g (h s) where
  changes s := (hh.changes s).trans (hg.changes (h s))
  blind hp k m f s hm :=
    (congrArg g (hh.blind hp k m f s hm)).trans (hg.blind hp k m f (h s) ((hh.changes s).mode.trans hm))

theorem visible_readRef {r : Ref} (h : refPrivileged r = false) : Visible (readRef r) := by
  intro k m f s _
  cases r with
  | gpr g => rfl
  | special p =>
    cases p with
    | flags | uspr => rfl
    | kspr | pdpr | imr | pfva => cases h

theorem visible_activeSp : Visible activeSp := by
  intro k m f s hm
  unfold activeSp
  rw [withPrivileged_mode, hm]
  rfl

theorem userBlind_writeRef {r : Ref} (h : refPrivileged r = false) (v : Word) : UserBlind (writeRef r v) := by
  intro k m f s _
  cases r with
  | gpr g => rfl
  | special p =>
    cases p with
    | flags | uspr => rfl
    | kspr | pdpr | imr | pfva => cases h

theorem userBlind_setActiveSp (v : Word) : UserBlind (setActiveSp v) := by
  intro k m f s hm
  unfold setActiveSp
  rw [withPrivileged_mode, hm]
  rfl

/-- A special register named as a destination is an operand of the instruction. -/
theorem special_mem_refs {i : Instr} {p : SpecialReg} (h : .special p ∈ i.writes) : .special p ∈ i.refs := by
  cases i with
  | loadA | loadR | copyI | swapA | swapR | swapRR | pop => exact h
  | copyR dst src => exact List.mem_cons.2 (.inl (List.mem_singleton.1 h))
  | _ => simp only [Instr.writes, List.mem_cons, List.not_mem_nil, reduceCtorEq, or_self] at h

theorem refPrivileged_of_mem_refs {i : Instr} {r : Ref} (hi : ¬ IsPrivileged i) (h : r ∈ i.refs) :
    refPrivileged r = false :=
  eq_false_of_ne_true fun hr => hi (.inr (.inr (.inr ⟨r, h, hr⟩)))

theorem refPrivileged_of_mem_writes {i : Instr} {r : Ref} (hi : ¬ IsPrivileged i) (h : r ∈ i.writes) :
    refPrivileged r = false := by
  cases r with
  | gpr g => rfl
  | special p => exact refPrivileged_of_mem_refs hi (special_mem_refs h)

theorem updateLaws_setPc (i : Instr) (v : Word) : UpdateLaws i fun s => s.setPc v :=
  ⟨changesNamed_setPc i v, fun _ _ _ _ _ _ => rfl⟩

theorem updateLaws_advance (i : Instr) (n : Nat) : UpdateLaws i (advance n) :=
  ⟨changesNamed_advance i n, fun _ _ _ _ _ _ => rfl⟩

theorem updateLaws_setFlags {i : Instr} (h : i.computesFlags) (v : Flags) : UpdateLaws i fun s => s.setFlags v :=
  ⟨changesNamed_setFlags h v, fun _ _ _ _ _ _ => rfl⟩

theorem updateLaws_setRunState {i : Instr} (h : i = .halt ∨ i = .pause) (v : RunState) :
    UpdateLaws i fun s => s.setRunState v :=
  ⟨changesNamed_setRunState h v, fun _ _ _ _ _ _ => rfl⟩

theorem updateLaws_writeG {i : Instr} {g : GRef} (h : .gpr g ∈ i.writes) (v : BitVec g.width.bits) :
    UpdateLaws i (writeG g v) :=
  ⟨changesNamed_writeG h v, fun _ _ _ _ _ _ => rfl⟩

theorem updateLaws_writeRef {i : Instr} {r : Ref} (h : r ∈ i.writes) (v : Word) : UpdateLaws i (writeRef r v) :=
  ⟨changesNamed_writeRef h v, fun hi => userBlind_writeRef (refPrivileged_of_mem_writes hi h) v⟩

theorem updateLaws_setActiveSp {i : Instr} (h : i.usesStack) (v : Word) : UpdateLaws i (setActiveSp v) :=
  ⟨changesNamed_setActiveSp h v, fun _ => userBlind_setActiveSp v⟩

/-! ## Phases -/

/-- The phases of an instruction: the exception that it raises at once, if any, with its return address; the operands that it
reads; its memory access; and the update of registers with the value accessed. -/
structure Phases (X α : Type) where
  trap : State → Option (Interrupt × Word)
  operands : State → X
  access : X → State → MemResult α
  update : X → α → State → State

/-- The phases one after another (R97, R372). -/
def Phases.run {X α : Type} (a : Phases X α) (s : State) : Result :=
  match a.trap s with
  | some (k, ret) => .next (takeInterrupt k ret s)
  | none => (a.access (a.operands s) s).finish (a.update (a.operands s))

/-- The phases are those of the instruction, and each keeps to its part. -/
structure Phases.Lawful {X α : Type} (a : Phases X α) (i : Instr) : Prop where
  meaning : ∀ s, exec i s = a.run s
  privileged : IsPrivileged i → ∀ s, s.mode = .user → a.trap s = some (.illegalOperation, s.pc)
  trapVisible : Visible a.trap
  operandsVisible : ¬ IsPrivileged i → Visible a.operands
  access : ∀ x, AccessLaws (a.access x)
  update : ∀ x v, UpdateLaws i (a.update x v)

/-- The instruction is one of lawful phases. -/
def HasPhases (i : Instr) : Prop := ∃ (X α : Type) (a : Phases X α), a.Lawful i

/-- The exception of the privilege guard (R150, R175). -/
def privilegeTrap (p : Bool) (s : State) : Option (Interrupt × Word) :=
  if p = true ∧ s.mode = .user then some (.illegalOperation, s.pc) else none

/-- An instruction that reads operands, accesses memory and updates registers, behind the privilege guard where `p` is set. -/
theorem hasPhases_of_access {i : Instr} {X α : Type} (p : Bool) {operands : State → X} {access : X → State → MemResult α}
    {update : X → α → State → State}
    (meaning : ∀ s, exec i s = guardPrivilege p s ((access (operands s) s).finish (update (operands s))))
    (privileged : IsPrivileged i → p = true) (operandsVisible : ¬ IsPrivileged i → Visible operands)
    (haccess : ∀ x, AccessLaws (access x)) (hupdate : ∀ x v, UpdateLaws i (update x v)) : HasPhases i := by
  refine ⟨X, α, ⟨privilegeTrap p, operands, access, update⟩, fun s => ?_, fun hi s hm => ?_, fun _ _ _ _ _ => rfl,
    operandsVisible, haccess, hupdate⟩
  · by_cases h : p = true ∧ s.mode = .user
    · have htrap : privilegeTrap p s = some (.illegalOperation, s.pc) := if_pos h
      simp only [meaning, guardPrivilege, Phases.run, if_pos h, htrap, raiseIllegal]
    · have htrap : privilegeTrap p s = none := if_neg h
      simp only [meaning, guardPrivilege, Phases.run, if_neg h, htrap]
  · exact if_pos ⟨privileged hi, hm⟩

/-- An instruction that updates registers and accesses no memory. -/
theorem hasPhases_of_update {i : Instr} {X : Type} (p : Bool) {operands : State → X} {update : X → State → State}
    (meaning : ∀ s, exec i s = guardPrivilege p s (.next (update (operands s) s)))
    (privileged : IsPrivileged i → p = true) (operandsVisible : ¬ IsPrivileged i → Visible operands)
    (hupdate : ∀ x, UpdateLaws i (update x)) : HasPhases i :=
  hasPhases_of_access (access := fun _ s => .ok () s) (update := fun x _ s => update x s) p meaning privileged
    operandsVisible (fun _ => accessLaws_ok ()) fun x _ => hupdate x

end Sys2Proof.Machine
end

section
/-! PROOF. Every instruction but `IRETURN` runs in phases, one lemma for each shape of instruction. -/

namespace Sys2Proof.Machine

/-! ## Instructions that access no memory -/

/-- A result written to a view with its flags (R230, R260). -/
theorem hasPhases_of_writeResult {i : Instr} {g : GRef} {n : Nat} {f : State → AluResult g.width.bits}
    (meaning : ∀ s, exec i s = .next (writeResult n g (f s) s)) (visible : Visible f := by exact fun _ _ _ _ _ => rfl)
    (unprivileged : ¬ IsPrivileged i := by simp [IsPrivileged, Instr.refs])
    (dest : .gpr g ∈ i.writes := by simp [Instr.writes])
    (flags : i.computesFlags := by simp [Instr.computesFlags, Instr.opcode]) : HasPhases i :=
  hasPhases_of_update (update := writeResult n g) false meaning (fun h => absurd h unprivileged) (fun _ => visible)
    fun r => (updateLaws_advance i n).comp ((updateLaws_setFlags flags r.flags).comp (updateLaws_writeG dest r.value))

/-- A view written without flags (R330 to R332). -/
theorem hasPhases_of_writeG {i : Instr} {g : GRef} {n : Nat} {f : State → BitVec g.width.bits}
    (meaning : ∀ s, exec i s = .next (advance n (writeG g (f s) s)))
    (visible : Visible f := by exact fun _ _ _ _ _ => rfl)
    (unprivileged : ¬ IsPrivileged i := by simp [IsPrivileged, Instr.refs])
    (dest : .gpr g ∈ i.writes := by simp [Instr.writes]) : HasPhases i :=
  hasPhases_of_update (update := fun v s => advance n (writeG g v s)) false meaning (fun h => absurd h unprivileged)
    (fun _ => visible) fun v => (updateLaws_advance i n).comp (updateLaws_writeG dest v)

/-- Flags and no register (R300, R338). -/
theorem hasPhases_of_setFlags {i : Instr} {n : Nat} {f : State → Flags}
    (meaning : ∀ s, exec i s = .next (advance n (s.setFlags (f s))))
    (visible : Visible f := by exact fun _ _ _ _ _ => rfl)
    (unprivileged : ¬ IsPrivileged i := by simp [IsPrivileged, Instr.refs])
    (flags : i.computesFlags := by simp [Instr.computesFlags, Instr.opcode]) : HasPhases i :=
  hasPhases_of_update (update := fun v s => advance n (s.setFlags v)) false meaning (fun h => absurd h unprivileged)
    (fun _ => visible) fun v => (updateLaws_advance i n).comp (updateLaws_setFlags flags v)

/-- A branch sets the pc and nothing else (R302). -/
theorem branch_eq_setPc (cc : Cond) (n : Nat) (target : Word) (s : State) :
    branch cc n target s = .next (s.setPc (if cc.holds s.flags then target else s.pc + BitVec.ofNat 32 n)) := by
  rw [branch]
  split
  · rfl
  · rfl

/-- The branches (R303 to R305). -/
theorem hasPhases_of_branch {i : Instr} {cc : Cond} {n : Nat} {target : State → Word}
    (meaning : ∀ s, exec i s = branch cc n (target s) s) (visible : Visible target := by exact fun _ _ _ _ _ => rfl)
    (unprivileged : ¬ IsPrivileged i := by simp [IsPrivileged, Instr.refs]) : HasPhases i :=
  hasPhases_of_update (operands := fun s => if cc.holds s.flags then target s else s.pc + BitVec.ofNat 32 n)
    (update := fun v s => s.setPc v) false (fun s => (meaning s).trans (branch_eq_setPc cc n (target s) s))
    (fun h => absurd h unprivileged)
    (fun _ k m f s hm => by
      simp only [visible k m f s hm]
      rfl)
    fun v => updateLaws_setPc i v

theorem writeReg_eq_writeG (j : Fin 8) (v : Word) (s : State) : writeReg j v s = writeG ⟨j, .word⟩ v s := by
  rw [writeG, mergeLow, BitVec.setWidth_eq]

/-- A word written to a whole register (R334 to R337). -/
theorem hasPhases_of_writeReg {i : Instr} {j : Fin 8} {n : Nat} {f : State → Word}
    (meaning : ∀ s, exec i s = .next (advance n (writeReg j (f s) s)))
    (visible : Visible f := by exact fun _ _ _ _ _ => rfl)
    (unprivileged : ¬ IsPrivileged i := by simp [IsPrivileged, Instr.refs])
    (dest : .gpr ⟨j, .word⟩ ∈ i.writes := by simp [Instr.writes]) : HasPhases i :=
  hasPhases_of_writeG (g := ⟨j, .word⟩) (f := f) (fun s => by rw [meaning, writeReg_eq_writeG]) visible unprivileged dest

/-- A division by zero raises interrupt 2 before any write (R234, R235, R354). -/
theorem hasPhases_of_divide {i : Instr} {g : GRef} {n : Nat}
    {f : (w : Nat) → BitVec w → BitVec w → AluResult w} {divisor : State → BitVec g.width.bits}
    (meaning : ∀ s, exec i s = divide n f g (divisor s) s)
    (visible : Visible divisor := by exact fun _ _ _ _ _ => rfl)
    (unprivileged : ¬ IsPrivileged i := by simp [IsPrivileged, Instr.refs])
    (dest : .gpr g ∈ i.writes := by simp [Instr.writes])
    (flags : i.computesFlags := by simp [Instr.computesFlags, Instr.opcode]) : HasPhases i := by
  refine ⟨_, _, ⟨fun s => if divisor s = 0 then some (.divideByZero, s.pc) else none,
    fun s => f g.width.bits (readG g s) (divisor s), fun _ s => .ok () s, fun r _ s => writeResult n g r s⟩,
    fun s => ?_, fun h => absurd h unprivileged, fun k m v s hm => ?_, fun _ k m v s hm => ?_, fun _ => accessLaws_ok (),
    fun r _ => (updateLaws_advance i n).comp ((updateLaws_setFlags flags r.flags).comp (updateLaws_writeG dest r.value))⟩
  · by_cases h : divisor s = 0
    · simp only [meaning, divide, Phases.run, if_pos h, raiseDivideByZero]
    · simp only [meaning, divide, Phases.run, if_neg h, MemResult.finish_ok]
  · simp only [visible k m v s hm]
    rfl
  · simp only [visible k m v s hm]
    rfl

/-! ## Instructions that access memory or name registers that may be privileged -/

theorem Visible.pair {α β : Type} {x : State → α} {y : State → β} (hx : Visible x) (hy : Visible y) :
    Visible fun s => (x s, y s) :=
  fun k m f s hm => Prod.ext (hx k m f s hm) (hy k m f s hm)

theorem visible_operand {i : Instr} {r : Ref} (hi : ¬ IsPrivileged i) (h : r ∈ i.refs) : Visible (readRef r) :=
  visible_readRef (refPrivileged_of_mem_refs hi h)

theorem hasPhases_of_loadFrom {i : Instr} {n : Nat} {dst : Ref} {addr : State → Word}
    (meaning : ∀ s, exec i s = loadFrom n dst (addr s) s)
    (visible : Visible addr := by exact fun _ _ _ _ _ => rfl)
    (privileged : IsPrivileged i → refPrivileged dst = true := by simp [IsPrivileged, Instr.refs])
    (dest : dst ∈ i.writes := by simp [Instr.writes]) : HasPhases i :=
  hasPhases_of_access (access := fun a => memRead dst.width.bytes a .read)
    (update := fun _ v s => advance n (writeRef dst v s)) (refPrivileged dst) meaning privileged (fun _ => visible)
    (fun a => accessLaws_memRead _ a .read) fun _ v => (updateLaws_advance i n).comp (updateLaws_writeRef dest v)

theorem hasPhases_of_storeTo {i : Instr} {n : Nat} {src : Ref} {addr : State → Word}
    (meaning : ∀ s, exec i s = storeTo n (addr s) src s)
    (visible : Visible addr := by exact fun _ _ _ _ _ => rfl)
    (privileged : IsPrivileged i → refPrivileged src = true := by simp [IsPrivileged, Instr.refs])
    (operand : src ∈ i.refs := by simp [Instr.refs]) : HasPhases i :=
  hasPhases_of_access (operands := fun s => (addr s, readRef src s))
    (access := fun x => memWrite src.width.bytes x.1 x.2) (update := fun _ _ => advance n) (refPrivileged src) meaning
    privileged (fun hi => visible.pair (visible_operand hi operand)) (fun x => accessLaws_memWrite _ x.1 x.2)
    fun _ _ => updateLaws_advance i n

theorem hasPhases_of_swapWith {i : Instr} {n : Nat} {reg : Ref} {addr : State → Word}
    (meaning : ∀ s, exec i s = swapWith n reg (addr s) s)
    (visible : Visible addr := by exact fun _ _ _ _ _ => rfl)
    (privileged : IsPrivileged i → refPrivileged reg = true := by simp [IsPrivileged, Instr.refs])
    (operand : reg ∈ i.refs := by simp [Instr.refs])
    (dest : reg ∈ i.writes := by simp [Instr.writes]) : HasPhases i :=
  hasPhases_of_access (operands := fun s => (addr s, readRef reg s))
    (access := fun x => memSwap reg.width.bytes x.1 x.2) (update := fun _ old s => advance n (writeRef reg old s))
    (refPrivileged reg) meaning privileged (fun hi => visible.pair (visible_operand hi operand))
    (fun x => accessLaws_memSwap _ x.1 x.2) fun _ old => (updateLaws_advance i n).comp (updateLaws_writeRef dest old)

theorem hasPhases_push (src : Ref) : HasPhases (.push src) :=
  hasPhases_of_access (operands := fun s => (activeSp s - BitVec.ofNat 32 src.width.bytes, readRef src s))
    (access := fun x => memWrite src.width.bytes x.1 x.2) (update := fun x _ s => advance 2 (setActiveSp x.1 s))
    (refPrivileged src) (fun _ => rfl) (by simp [IsPrivileged, Instr.refs])
    (fun hi => Visible.pair (fun k m f s hm => by rw [visible_activeSp k m f s hm])
      (visible_operand hi (by simp [Instr.refs])))
    (fun x => accessLaws_memWrite _ x.1 x.2)
    fun x _ => (updateLaws_advance _ 2).comp (updateLaws_setActiveSp (.inl ⟨src, rfl⟩) x.1)

theorem hasPhases_pop (dst : Ref) : HasPhases (.pop dst) :=
  hasPhases_of_access (operands := activeSp) (access := fun a => memRead dst.width.bytes a .read)
    (update := fun a v s => advance 2 (writeRef dst v (setActiveSp (a + BitVec.ofNat 32 dst.width.bytes) s)))
    (refPrivileged dst) (fun _ => rfl) (by simp [IsPrivileged, Instr.refs]) (fun _ => visible_activeSp)
    (fun a => accessLaws_memRead _ a .read)
    fun _ v => (updateLaws_advance _ 2).comp ((updateLaws_writeRef (by simp [Instr.writes]) v).comp
      (updateLaws_setActiveSp (.inr ⟨dst, rfl⟩) _))

theorem hasPhases_copyR (dst src : Ref) : HasPhases (.copyR dst src) :=
  hasPhases_of_update (operands := readRef src) (update := fun v s => advance 3 (writeRef dst v s))
    (refPrivileged dst || refPrivileged src) (fun _ => rfl) (by simp [IsPrivileged, Instr.refs])
    (fun hi => visible_operand hi (by simp [Instr.refs]))
    fun v => (updateLaws_advance _ 3).comp (updateLaws_writeRef (by simp [Instr.writes]) v)

theorem hasPhases_copyI (dst : Ref) (lit : Word) : HasPhases (.copyI dst lit) :=
  hasPhases_of_update (operands := fun _ => lit)
    (update := fun v s => advance (2 + dst.width.bytes) (writeRef dst v s)) (refPrivileged dst) (fun _ => rfl)
    (by simp [IsPrivileged, Instr.refs]) (fun _ _ _ _ _ _ => rfl)
    fun v => (updateLaws_advance _ _).comp (updateLaws_writeRef (by simp [Instr.writes]) v)

theorem hasPhases_swapRR (a b : Ref) : HasPhases (.swapRR a b) :=
  hasPhases_of_update (operands := fun s => (readRef a s, readRef b s))
    (update := fun x s => advance 3 (writeRef b x.1 (writeRef a x.2 s))) (refPrivileged a || refPrivileged b)
    (fun _ => rfl) (by simp [IsPrivileged, Instr.refs])
    (fun hi => (visible_operand hi (by simp [Instr.refs])).pair (visible_operand hi (by simp [Instr.refs])))
    fun x => (updateLaws_advance _ 3).comp ((updateLaws_writeRef (by simp [Instr.writes]) x.1).comp
      (updateLaws_writeRef (by simp [Instr.writes]) x.2))

theorem hasPhases_blockcopy (count dst src : Fin 8) : HasPhases (.blockcopy count dst src) :=
  hasPhases_of_access (operands := fun s => ((readReg count s).toNat, readReg dst s, readReg src s))
    (access := fun x => blockCopyLoop x.1 x.2.1 x.2.2) (update := fun _ _ => advance 4) false (fun _ => rfl)
    (by simp [IsPrivileged, Instr.refs]) (fun _ _ _ _ _ _ => rfl) (fun x => accessLaws_blockCopyLoop x.1 x.2.1 x.2.2)
    fun _ _ => updateLaws_advance _ 4

theorem hasPhases_blockset (count dst value : Fin 8) : HasPhases (.blockset count dst value) :=
  hasPhases_of_access (operands := fun s => ((readReg count s).toNat, readReg dst s, readReg value s))
    (access := fun x => blockSetLoop x.1 x.2.1 x.2.2) (update := fun _ _ => advance 4) false (fun _ => rfl)
    (by simp [IsPrivileged, Instr.refs]) (fun _ _ _ _ _ _ => rfl) (fun x => accessLaws_blockSetLoop x.1 x.2.1 x.2.2)
    fun _ _ => updateLaws_advance _ 4

/-! ## Control -/

theorem hasPhases_halt : HasPhases .halt :=
  hasPhases_of_update (operands := fun _ => ()) (update := fun _ s => (advance 1 s).setRunState .stopped) true
    (fun _ => rfl) (fun _ => rfl) (fun _ _ _ _ _ _ => rfl)
    fun _ => (updateLaws_setRunState (.inl rfl) .stopped).comp (updateLaws_advance _ 1)

theorem hasPhases_pause : HasPhases .pause :=
  hasPhases_of_update (operands := fun _ => ()) (update := fun _ s => (advance 1 s).setRunState .paused) true
    (fun _ => rfl) (fun _ => rfl) (fun _ _ _ _ _ _ => rfl)
    fun _ => (updateLaws_setRunState (.inr rfl) .paused).comp (updateLaws_advance _ 1)

theorem hasPhases_nop : HasPhases .nop :=
  hasPhases_of_update (operands := fun _ => ()) (update := fun _ => advance 1) false (fun _ => rfl)
    (by simp [IsPrivileged, Instr.refs]) (fun _ _ _ _ _ _ => rfl) fun _ => updateLaws_advance _ 1

/-- `SYSCALL` raises interrupt 8 in both modes (R174): its other phases are never reached. -/
theorem hasPhases_syscall : HasPhases .syscall :=
  ⟨Unit, Unit, ⟨fun s => some (.systemCall, s.pc + 1), fun _ => (), fun _ s => .ok () s, fun _ _ => advance 1⟩,
    fun _ => rfl, fun h => absurd h (by simp [IsPrivileged, Instr.refs]), fun _ _ _ _ _ => rfl, fun _ _ _ _ _ _ => rfl,
    fun _ => accessLaws_ok (), fun _ _ => updateLaws_advance _ 1⟩

/-! ## Every instruction -/

theorem hasPhases_of_ne_ireturn {i : Instr} (h : i ≠ .ireturn) : HasPhases i := by
  cases i with
  | ireturn => exact absurd rfl h
  | halt => exact hasPhases_halt
  | pause => exact hasPhases_pause
  | nop => exact hasPhases_nop
  | syscall => exact hasPhases_syscall
  | loadA | loadR => exact hasPhases_of_loadFrom fun _ => rfl
  | storeR | storeA => exact hasPhases_of_storeTo fun _ => rfl
  | swapA | swapR => exact hasPhases_of_swapWith fun _ => rfl
  | copyR dst src => exact hasPhases_copyR dst src
  | copyI dst lit => exact hasPhases_copyI dst lit
  | swapRR a b => exact hasPhases_swapRR a b
  | push src => exact hasPhases_push src
  | pop dst => exact hasPhases_pop dst
  | blockcopy count dst src => exact hasPhases_blockcopy count dst src
  | blockset count dst value => exact hasPhases_blockset count dst value
  | udivR | udivI | sdivR | sdivI => exact hasPhases_of_divide fun _ => rfl
  | cmpR | cmpI | fcmp => exact hasPhases_of_setFlags fun _ => rfl
  | zext | sext | trunc => exact hasPhases_of_writeG fun _ => rfl
  | itof | utof | ftoi | ftou => exact hasPhases_of_writeReg fun _ => rfl
  | bA | bR | beqA | beqR | bneqA | bneqR | bltA | bltR | bltuA | bltuR | bgtA | bgtR | bgtuA | bgtuR | bleA | bleR
  | bleuA | bleuR | bgeA | bgeR | bgeuA | bgeuR => exact hasPhases_of_branch fun _ => rfl
  | addR | addI | subR | subI | mulR | mulI | neg | andR | andI | orR | orI | xorR | xorI | notR | shlR | shlI | shrR
  | shrI | sarR | sarI | rolR | rolI | rorR | rorI | rclR | rclI | rcrR | rcrI =>
    exact hasPhases_of_writeResult fun _ => rfl

end Sys2Proof.Machine
end

section
/-! PROOF. What an instruction and a step can do to the registers, said once from the phases; and the statements
`UserModePrivilege`, `FlagsWriters`, `RegisterFrame`, `UserCannotObserve` and `UserKeepsPrivileged` (spec 10_state.md R30 to
R47, 40_control.md R175, 60_exceptions.md R372, R385, R386). -/

namespace Sys2Proof.Machine

/-! ## Exceptions -/

/-- `t` is `s` after an exception, raised at once or after accesses to memory: besides what every entry sets, only `pfva` can
have changed, and that in user mode only (R97, R373). -/
structure Raises (s t : State) : Prop where
  took : TookException s t
  regs : t.regs = s.regs
  flags : t.flags = s.flags
  uspr : t.uspr = s.uspr
  pdpr : t.pdpr = s.pdpr
  pfva : t.pfva = s.pfva ∨ s.mode = .user
  rom : t.rom = s.rom
  irqCapacity : t.irqCapacity = s.irqCapacity
  schedule : t.schedule = s.schedule
  records : s.records <+: t.records

theorem raises_takeInterrupt {s u : State} (h : KeepsCpu s u) (k : Interrupt) (ret : Word) :
    Raises s (takeInterrupt k ret u) := by
  have e := keepsCpu_takeInterrupt k ret u
  have hkspr : (takeInterrupt k ret u).kspr = s.kspr - 12 := e.kspr.trans (congrArg (· - 12) h.kspr)
  exact ⟨⟨e.mode, hkspr, e.imr, e.runState⟩, e.regs.trans h.regs, e.flags.trans h.flags, e.uspr.trans h.uspr,
    e.pdpr.trans h.pdpr, .inl (e.pfva.trans h.pfva), e.rom.trans h.rom, e.irqCapacity.trans h.irqCapacity,
    e.schedule.trans h.schedule, h.records.trans e.records⟩

theorem raises_raiseIllegal {s u : State} (h : KeepsCpu s u) : Raises s (raiseIllegal u) :=
  raises_takeInterrupt h .illegalOperation u.pc

theorem raises_raisePageFault {s u : State} (h : KeepsCpu s u) (hm : s.mode = .user) (va : Word) :
    Raises s (raisePageFault va u) := by
  have e := raises_takeInterrupt (KeepsCpu.refl (u.setPfva va)) .pageFault u.pc
  obtain ⟨hmode, hkspr, himr, hrun⟩ := e.took
  exact ⟨⟨hmode, hkspr.trans (congrArg (· - 12) h.kspr), himr, hrun⟩, e.regs.trans h.regs, e.flags.trans h.flags,
    e.uspr.trans h.uspr, e.pdpr.trans h.pdpr, .inr hm, e.rom.trans h.rom, e.irqCapacity.trans h.irqCapacity,
    e.schedule.trans h.schedule, h.records.trans e.records⟩

/-! ## The registers after an update -/

theorem readReg_congr {s t : State} (h : t.regs = s.regs) (j : Fin 8) : readReg j t = readReg j s :=
  congrArg (fun v : Vector Word 8 => v[j]) h

theorem SameRegisters.readSpecial_eq {s t : State} (h : SameRegisters s t) (p : SpecialReg) :
    readSpecial p t = readSpecial p s := by
  cases p with
  | flags => exact congrArg Flags.toWord h.flags
  | uspr => exact h.uspr
  | kspr => exact h.kspr
  | pdpr => exact h.pdpr
  | imr => exact congrArg (BitVec.setWidth 32) h.imr
  | pfva => exact h.pfva

theorem flags_eq_of_readSpecial {s t : State} (h : readSpecial .flags t = readSpecial .flags s) : t.flags = s.flags := by
  rw [← flags_ofWord_toWord t.flags, ← flags_ofWord_toWord s.flags]
  exact congrArg Flags.ofWord h

theorem imr_eq_of_readSpecial {s t : State} (h : readSpecial .imr t = readSpecial .imr s) : t.imr = s.imr := by
  have e := congrArg (BitVec.setWidth 16) h
  simpa only [readSpecial, BitVec.setWidth_setWidth_of_le t.imr (by decide : 16 ≤ 32),
    BitVec.setWidth_setWidth_of_le s.imr (by decide : 16 ≤ 32), BitVec.setWidth_eq] using e

/-- `t` is `s` after accesses to memory and an update of registers that the instruction names (R30, R32, R37, R39 to R43, R47). -/
structure UpdatesNamed (i : Instr) (s t : State) : Prop where
  regs : ∀ j : Fin 8, readReg j t = readReg j s ∨
    ∃ g, .gpr g ∈ i.writes ∧ g.index = j ∧ readReg j t >>> g.width.bits = readReg j s >>> g.width.bits
  flags : t.flags = s.flags ∨ .special .flags ∈ i.writes ∨ i.computesFlags
  uspr : t.uspr = s.uspr ∨ .special .uspr ∈ i.writes ∨ (i.usesStack ∧ s.mode = .user)
  kspr : t.kspr = s.kspr ∨ .special .kspr ∈ i.writes ∨ (i.usesStack ∧ s.mode = .kernel)
  pdpr : t.pdpr = s.pdpr ∨ .special .pdpr ∈ i.writes
  imr : t.imr = s.imr ∨ .special .imr ∈ i.writes
  pfva : t.pfva = s.pfva ∨ .special .pfva ∈ i.writes
  mode : t.mode = s.mode
  runState : t.runState = s.runState ∨ i = .halt ∨ i = .pause
  rom : t.rom = s.rom
  irqCapacity : t.irqCapacity = s.irqCapacity
  schedule : t.schedule = s.schedule
  records : s.records <+: t.records

theorem ChangesNamed.updatesNamed {i : Instr} {s u t : State} (h : ChangesNamed i u t) (hk : KeepsCpu s u) :
    UpdatesNamed i s t := by
  have hspecial (p : SpecialReg) := hk.readSpecial_eq p ▸ hk.mode ▸ h.specials p
  have hrecords : t.records = u.records := by
    rw [h.elsewhere]
    rfl
  constructor
  case regs => exact fun j => readReg_congr hk.regs j ▸ h.regs j
  case flags => simpa [or_comm] using (hspecial .flags).imp_left flags_eq_of_readSpecial
  case uspr => simpa [readSpecial] using hspecial .uspr
  case kspr => simpa [readSpecial] using hspecial .kspr
  case pdpr => simpa [readSpecial] using hspecial .pdpr
  case imr => simpa using (hspecial .imr).imp_left imr_eq_of_readSpecial
  case pfva => simpa [readSpecial] using hspecial .pfva
  case mode => exact h.mode.trans hk.mode
  case runState => exact hk.runState ▸ h.runState
  case rom => exact (congrArg State.rom h.elsewhere).trans hk.rom
  case irqCapacity => exact (congrArg State.irqCapacity h.elsewhere).trans hk.irqCapacity
  case schedule => exact (congrArg State.schedule h.elsewhere).trans hk.schedule
  case records => exact hrecords ▸ hk.records

/-! ## Instructions -/

/-- Everything that an instruction of phases can do: it raises an exception, or updates registers that it names after an
access that keeps them; in user mode a privileged one raises. -/
theorem exec_cases_of_ne_ireturn {i : Instr} {s t : State} (hi : i ≠ .ireturn) (h : exec i s = .next t) :
    Raises s t ∨ ((s.mode = .user → ¬ IsPrivileged i) ∧ UpdatesNamed i s t) := by
  obtain ⟨X, α, a, ha⟩ := hasPhases_of_ne_ireturn hi
  rw [ha.meaning, Phases.run] at h
  cases htrap : a.trap s with
  | some e =>
    rw [htrap] at h
    cases h
    exact .inl (raises_takeInterrupt (KeepsCpu.refl s) e.1 e.2)
  | none =>
    rw [htrap] at h
    have hkeeps := (ha.access (a.operands s)).keeps s
    rcases MemResult.finish_cases h with ⟨v, u, hok, rfl⟩ | ⟨va, u, hfault, rfl⟩
    · rw [hok] at hkeeps
      refine .inr ⟨fun hm hp => ?_, ((ha.update (a.operands s) v).changes u).updatesNamed hkeeps⟩
      rw [ha.privileged hp s hm] at htrap
      cases htrap
    · rw [hfault] at hkeeps
      exact .inl (raises_raisePageFault hkeeps ((ha.access _).faults s va u hfault) va)

theorem exec_ireturn_user {s : State} (hm : s.mode = .user) : exec .ireturn s = .next (raiseIllegal s) :=
  if_pos ⟨rfl, hm⟩

theorem exec_ireturn_kernel {s : State} (hm : s.mode = .kernel) :
    exec .ireturn s = .next (returnFromInterrupt s) :=
  if_neg fun h => by
    rw [hm] at h
    cases h.2

/-- R45, R175: in user mode a privileged instruction is exactly the entry of interrupt 1. -/
theorem exec_of_privileged {i : Instr} {s : State} (hm : s.mode = .user) (hi : IsPrivileged i) :
    exec i s = .next (raiseIllegal s) := by
  by_cases h : i = .ireturn
  · rw [h, exec_ireturn_user hm]
  · obtain ⟨X, α, a, ha⟩ := hasPhases_of_ne_ireturn h
    rw [ha.meaning, Phases.run, ha.privileged hi s hm]
    rfl

/-- Settles O15: each instruction of the list is a privileged one. -/
theorem userModePrivilege : Obligations.UserModePrivilege := by
  intro i s hm hi
  refine exec_of_privileged hm ?_
  rcases hi with h | h | h | h | h | h | h
  · exact .inl h
  · exact .inr (.inl h)
  · exact .inr (.inr (.inl h))
  all_goals exact .inr (.inr (.inr ⟨_, h, rfl⟩))

/-- R173: what a return leaves as it was. -/
structure Returns (s t : State) : Prop where
  regs : t.regs = s.regs
  pdpr : t.pdpr = s.pdpr
  pfva : t.pfva = s.pfva
  runState : t.runState = s.runState
  rom : t.rom = s.rom
  irqCapacity : t.irqCapacity = s.irqCapacity
  schedule : t.schedule = s.schedule
  records : t.records = s.records

theorem returns_returnFromInterrupt (s : State) : Returns s (returnFromInterrupt s) := by
  have h := sameOutsideDevices_frameReads s
  rw [returnFromInterrupt]
  generalize physRead 4 (s.kspr + 8) _ = popped at h ⊢
  exact ⟨h.regs, h.pdpr, h.pfva, h.runState, h.rom, h.irqCapacity, h.schedule, h.records⟩

/-- Everything that an instruction can do: it raises an exception, is a return in kernel mode, or updates registers that it
names; in user mode a privileged one raises. -/
theorem exec_cases {i : Instr} {s t : State} (h : exec i s = .next t) :
    Raises s t ∨ (i = .ireturn ∧ s.mode = .kernel ∧ Returns s t) ∨
      ((s.mode = .user → ¬ IsPrivileged i) ∧ UpdatesNamed i s t) := by
  by_cases hi : i ≠ .ireturn
  · exact (exec_cases_of_ne_ireturn hi h).imp_right .inr
  obtain rfl := not_ne_iff.1 hi
  cases hm : s.mode with
  | user =>
    rw [exec_ireturn_user hm] at h
    obtain rfl := Host.Outcome.next.inj h
    exact .inl (raises_raiseIllegal (KeepsCpu.refl s))
  | kernel =>
    rw [exec_ireturn_kernel hm] at h
    obtain rfl := Host.Outcome.next.inj h
    exact .inr (.inl ⟨rfl, rfl, returns_returnFromInterrupt s⟩)

/-- Settles O21: an update changes only flags that the instruction names or computes; an exception changes none. -/
theorem flagsWriters : Obligations.FlagsWriters := by
  refine ⟨fun i s t h hne => ?_, fun k ret s => (keepsCpu_takeInterrupt k ret s).flags⟩
  rcases exec_cases h with hraise | ⟨hi, _, _⟩ | ⟨_, hupdate⟩
  · exact absurd hraise.flags hne
  · exact .inr (.inr hi)
  · rcases hupdate.flags.resolve_left hne with hnamed | hcomputes
    · exact .inr (.inl hnamed)
    · exact .inl hcomputes

/-- Settles O22: an exception, a return and an update of named registers each keep to their part of the frame. -/
theorem registerFrame : Obligations.RegisterFrame := by
  intro i s t h
  rcases exec_cases h with hraise | ⟨hi, _, hreturn⟩ | ⟨_, hupdate⟩
  · exact ⟨fun j => .inl (readReg_congr hraise.regs j), fun hne => absurd hraise.uspr hne,
      fun _ => .inr (.inr (.inr hraise.took)), fun hne => absurd hraise.pdpr hne, fun _ => .inr (.inr hraise.took),
      fun hne => .inr ⟨hraise.pfva.resolve_left hne, hraise.took⟩, fun _ => .inr (.inr hraise.took), hraise.rom,
      hraise.irqCapacity, hraise.schedule, hraise.records⟩
  · exact ⟨fun j => .inl (readReg_congr hreturn.regs j), fun _ => .inr (.inr hi), fun _ => .inr (.inr (.inl hi)),
      fun hne => absurd hreturn.pdpr hne, fun _ => .inr (.inl hi), fun hne => absurd hreturn.pfva hne,
      fun hne => absurd hreturn.runState hne, hreturn.rom, hreturn.irqCapacity, hreturn.schedule,
      hreturn.records ▸ List.prefix_rfl⟩
  · exact ⟨hupdate.regs, fun hne => (hupdate.uspr.resolve_left hne).imp_right .inl,
      fun hne => (hupdate.kspr.resolve_left hne).imp_right .inl, hupdate.pdpr.resolve_left,
      fun hne => .inl (hupdate.imr.resolve_left hne), fun hne => .inl (hupdate.pfva.resolve_left hne),
      fun hne => (hupdate.runState.resolve_left hne).imp_right .inl, hupdate.rom, hupdate.irqCapacity,
      hupdate.schedule, hupdate.records⟩

/-! ## User mode -/

/-- Settles O20: in user mode an exception ends in kernel mode; otherwise the instruction is not privileged, and its operands,
its access and its update are blind to the three registers. -/
theorem userCannotObserve : Obligations.UserCannotObserve := by
  intro i s t k f m hm h ht
  have not_raises (hraise : Raises s t) : False := nomatch hraise.took.1.symm.trans ht
  have hp : ¬ IsPrivileged i := fun hp => not_raises <| by
    rw [exec_of_privileged hm hp] at h
    exact Host.Outcome.next.inj h ▸ raises_raiseIllegal (KeepsCpu.refl s)
  obtain ⟨X, α, a, ha⟩ := hasPhases_of_ne_ireturn fun hi => hp (.inr (.inr (.inl hi)))
  change exec i (withPrivileged k m f s) = .next (withPrivileged k m f t)
  rw [ha.meaning, Phases.run] at h ⊢
  rw [ha.trapVisible k m f s hm, ha.operandsVisible hp k m f s hm, (ha.access _).blind]
  cases htrap : a.trap s with
  | some e =>
    rw [htrap] at h
    exact (not_raises (Host.Outcome.next.inj h ▸ raises_takeInterrupt (KeepsCpu.refl s) e.1 e.2)).elim
  | none =>
    rw [htrap] at h
    have hkeeps := (ha.access (a.operands s)).keeps s
    rcases MemResult.finish_cases h with ⟨v, u, hok, rfl⟩ | ⟨va, u, hfault, rfl⟩
    · rw [hok] at hkeeps ⊢
      exact congrArg Host.Outcome.next ((ha.update (a.operands s) v).blind hp k m f u (hkeeps.mode.trans hm))
    · rw [hfault] at hkeeps
      exact (not_raises (raises_raisePageFault hkeeps hm va)).elim

/-- What a step from user mode that is no start of the machine does to the mode and the privileged registers. -/
def UserOutcome (s t : State) : Prop :=
  (t.mode = .user ∧ t.kspr = s.kspr ∧ t.pdpr = s.pdpr ∧ t.imr = s.imr ∧ t.pfva = s.pfva) ∨
    (TookException s t ∧ t.pdpr = s.pdpr)

theorem Raises.userOutcome {s t : State} (h : Raises s t) : UserOutcome s t := .inr ⟨h.took, h.pdpr⟩

theorem SameRegisters.userOutcome {s t : State} (h : SameRegisters s t) (hm : s.mode = .user) : UserOutcome s t :=
  .inl ⟨h.mode.trans hm, h.kspr, h.pdpr, h.imr, h.pfva⟩

/-- What comes before with the same registers does not matter. -/
theorem UserOutcome.of_sameRegisters {s u t : State} (h : UserOutcome u t) (hs : SameRegisters s u) : UserOutcome s t := by
  rcases h with ⟨hmode, hkspr, hpdpr, himr, hpfva⟩ | ⟨⟨hmode, hkspr, himr, hrun⟩, hpdpr⟩
  · exact .inl ⟨hmode, hkspr.trans hs.kspr, hpdpr.trans hs.pdpr, himr.trans hs.imr, hpfva.trans hs.pfva⟩
  · exact .inr ⟨⟨hmode, hs.kspr ▸ hkspr, himr, hrun⟩, hpdpr.trans hs.pdpr⟩

/-- An unprivileged instruction names no privileged register. -/
theorem not_mem_writes_of_unprivileged {i : Instr} {p : SpecialReg} (hi : ¬ IsPrivileged i)
    (hp : specialPrivileged p = true) : .special p ∉ i.writes :=
  fun h => Bool.false_ne_true ((refPrivileged_of_mem_writes hi h).symm.trans hp)

theorem exec_user_outcome {i : Instr} {s t : State} (hm : s.mode = .user) (h : exec i s = .next t) :
    UserOutcome s t := by
  rcases exec_cases h with hraise | ⟨_, hk, _⟩ | ⟨hi, hupdate⟩
  · exact hraise.userOutcome
  · cases hm.symm.trans hk
  · have unnamed {p : SpecialReg} (hp : specialPrivileged p = true) := not_mem_writes_of_unprivileged (hi hm) hp
    refine .inl ⟨hupdate.mode.trans hm, hupdate.kspr.resolve_right ?_, hupdate.pdpr.resolve_right (unnamed rfl),
      hupdate.imr.resolve_right (unnamed rfl), hupdate.pfva.resolve_right (unnamed rfl)⟩
    rintro (hnamed | ⟨_, hk⟩)
    · exact unnamed rfl hnamed
    · cases hm.symm.trans hk

theorem runInstruction_user_outcome {s t : State} (hm : s.mode = .user) (h : runInstruction s = .next t) :
    UserOutcome s t := by
  have hfetch := sameOutsideDevices_fetch s
  rcases runInstruction_cases h with ⟨i, u, e, hexec⟩ | ⟨err, u, e, rfl⟩ | ⟨va, u, e, rfl⟩
  · rw [e] at hfetch
    exact (exec_user_outcome (hfetch.mode.trans hm) hexec).of_sameRegisters hfetch.toSameRegisters
  · rw [e] at hfetch
    exact (raises_raiseIllegal hfetch.keepsCpu).userOutcome
  · rw [e] at hfetch
    exact (raises_raisePageFault hfetch.keepsCpu hm va).userOutcome

theorem cpuStep_user_outcome {s t : State} (hm : s.mode = .user) (h : cpuStep s = .next t) : UserOutcome s t := by
  rcases cpuStep_cases h with rfl | ⟨_, k, rest, _, rfl⟩ | ⟨_, _, hrun⟩
  · exact (SameRegisters.refl t).userOutcome hm
  · have hqueue : KeepsCpu s (s.setQueue rest) :=
      ⟨⟨rfl, rfl, rfl, rfl, rfl, rfl, rfl, rfl, rfl, rfl⟩, rfl, rfl, rfl, List.prefix_rfl⟩
    exact (raises_takeInterrupt hqueue k.kind s.pc).userOutcome
  · exact runInstruction_user_outcome hm hrun

theorem sameRegisters_setSchedule (s : State) (rest : List Agent) : SameRegisters s (s.setSchedule rest) :=
  ⟨rfl, rfl, rfl, rfl, rfl, rfl, rfl, rfl, rfl, rfl⟩

/-- Settles O19, by the agent whose turn it is: the CPU's outcome in user mode is `UserOutcome`, and of the others only a start
changes a privileged register. -/
theorem userKeepsPrivileged : Obligations.UserKeepsPrivileged := by
  intro s t hm h
  suffices UserOutcome s t ∨ Restarted s t from or_assoc.1 this
  rcases step_cases h with ⟨u, hturn, hcpu⟩ | ⟨d, rest, _, rfl⟩ | ⟨key, rest, _, rfl⟩ | ⟨rest, _, rfl⟩ |
    ⟨start, rest, hs, rfl⟩
  · have hu : SameRegisters s u := hturn.eq_setSchedule ▸ sameRegisters_setSchedule s u.schedule
    exact .inl ((cpuStep_user_outcome (hu.mode.trans hm) hcpu).of_sameRegisters hu)
  · have hd := (sameOutsideDevices_deviceStep d (s.setSchedule rest)).toSameRegisters
    exact .inl (((sameRegisters_setSchedule s rest).trans hd).userOutcome hm)
  · exact .inl (.inl ⟨hm, rfl, rfl, rfl, rfl⟩)
  · exact .inl (.inl ⟨hm, rfl, rfl, rfl, rfl⟩)
  · by_cases hr : s.runState = .stopped
    · exact .inr ⟨hr, start, rest, hs, rfl⟩
    · rw [hostStart_eq, State.setSchedule_runState, if_neg hr]
      exact .inl ((sameRegisters_setSchedule s rest).userOutcome hm)

end Sys2Proof.Machine
end

section
/-! PROOF. The memory phase of an instruction: it accesses memory at most once, and then takes an exception or updates
registers only. So what an instruction does to memory and devices is what its access and the entry do; that each keeps the
machine's invariant gives the statement `InvPreserved` (spec 20_memory.md R71, R73, R97, 60_exceptions.md R361, R411 to R418). -/

namespace Sys2Proof.Machine

/-! ## Updates of registers -/

/-- Nothing changed but the registers that an instruction can name, the pc and the run state. -/
def OnlyRegistersChanged (s t : State) : Prop := t = (withRegistersOf t s).setRunState t.runState

theorem OnlyRegistersChanged.refl (s : State) : OnlyRegistersChanged s s := rfl

theorem OnlyRegistersChanged.trans {s t u : State} (h : OnlyRegistersChanged s t) (k : OnlyRegistersChanged t u) :
    OnlyRegistersChanged s u := by
  have hu : (withRegistersOf u t).setRunState u.runState = (withRegistersOf u s).setRunState u.runState := by
    rw [h]
    rfl
  exact Eq.trans k hu

theorem OnlyRegistersChanged.peek {s t : State} (h : OnlyRegistersChanged s t) (a : Word) : peek t a = peek s a := by
  rw [h]
  exact peek_congr rfl rfl rfl rfl rfl rfl a

theorem onlyRegistersChanged_advance (n : Nat) (s : State) : OnlyRegistersChanged s (advance n s) := rfl

theorem onlyRegistersChanged_writeRef (r : Ref) (v : Word) (s : State) : OnlyRegistersChanged s (writeRef r v s) := by
  cases r with
  | gpr g => rfl
  | special p => cases p <;> rfl

theorem onlyRegistersChanged_setActiveSp (v : Word) (s : State) : OnlyRegistersChanged s (setActiveSp v s) := by
  unfold setActiveSp
  split
  · rfl
  · rfl

theorem onlyRegistersChanged_advance_writeRef (n : Nat) (r : Ref) (v : Word) (s : State) :
    OnlyRegistersChanged s (advance n (writeRef r v s)) :=
  (onlyRegistersChanged_writeRef r v s).trans (onlyRegistersChanged_advance n _)

/-! ## The end of an instruction -/

/-- From `u`, in which the access of an instruction has ended, the instruction ends in `t`: by the entry of an interrupt, or by
an update of registers. -/
inductive EndsFrom (u : State) : State → Prop
  | entry {v : State} (k : Interrupt) (ret : Word) (h : OnlyRegistersChanged u v) : EndsFrom u (takeInterrupt k ret v)
  | update {t : State} (h : OnlyRegistersChanged u t) : EndsFrom u t

theorem endsFrom_raiseIllegal (s : State) : EndsFrom s (raiseIllegal s) := .entry .illegalOperation s.pc rfl

theorem endsFrom_raisePageFault (va : Word) (s : State) : EndsFrom s (raisePageFault va s) :=
  .entry (v := s.setPfva va) .pageFault s.pc rfl

/-- After its access an instruction updates registers, or takes the page fault in which the access ends (R97). -/
theorem endsFrom_finish {α : Type} {r : MemResult α} {k : α → State → State} {t : State} (h : r.finish k = .next t)
    (hk : ∀ v u, OnlyRegistersChanged u (k v u)) : EndsFrom r.state t := by
  rcases MemResult.finish_cases h with ⟨v, u, rfl, rfl⟩ | ⟨va, u, rfl, rfl⟩
  · exact .update (hk v u)
  · exact endsFrom_raisePageFault va u

/-- An instruction that ends in user mode has updated registers: an entry ends in kernel mode (R373). -/
theorem EndsFrom.onlyRegistersChanged {u t : State} (h : EndsFrom u t) (hm : t.mode = .user) : OnlyRegistersChanged u t := by
  cases h with
  | entry k ret h =>
    rw [(keepsCpu_takeInterrupt k ret _).mode] at hm
    cases hm
  | update h => exact h

/-! ## The access of an instruction -/

/-- From `s` the access of the instruction `i`, if it makes one, ends in the third state, completed or faulted. What it reads
and writes are the addresses that `accessesOf` names. -/
inductive Accesses (i : Instr) (s : State) : State → Prop
  | none : Accesses i s s
  | read (n : Nat) (va : Word) (h : accessesOf i s = bytesAccessed .read va n s) :
    Accesses i s (memRead n va .read s).state
  | write (n : Nat) (va v : Word) (h : accessesOf i s = bytesAccessed .write va n s) :
    Accesses i s (memWrite n va v s).state
  | swap (n : Nat) (va v : Word) (h : accessesOf i s = bytesSwapped va n s) : Accesses i s (memSwap n va v s).state
  | blockCopy (n : Nat) (d x : Word) (h : i.isBlock) : Accesses i s (blockCopyLoop n d x s).state
  | blockSet (n : Nat) (d v : Word) (h : i.isBlock) : Accesses i s (blockSetLoop n d v s).state

/-- The instruction leads from `s` to `t` by at most one access and what follows it. -/
def AccessesThenEnds (i : Instr) (s t : State) : Prop := ∃ u, Accesses i s u ∧ EndsFrom u t

theorem EndsFrom.withoutAccess {i : Instr} {s t : State} (h : EndsFrom s t) : AccessesThenEnds i s t := ⟨s, .none, h⟩

theorem accessesThenEnds_of_update {i : Instr} {s v t : State} (h : (.next v : Result) = .next t)
    (hv : OnlyRegistersChanged s v) : AccessesThenEnds i s t :=
  Host.Outcome.next.inj h ▸ (EndsFrom.update hv).withoutAccess

theorem accessesThenEnds_of_entry {i : Instr} {s t : State} {k : Interrupt} {ret : Word}
    (h : (.next (takeInterrupt k ret s) : Result) = .next t) : AccessesThenEnds i s t :=
  Host.Outcome.next.inj h ▸ (EndsFrom.entry k ret (OnlyRegistersChanged.refl s)).withoutAccess

theorem accessesThenEnds_of_guard {i : Instr} {p : Bool} {s t : State} {k : Result} (h : guardPrivilege p s k = .next t)
    (hk : k = .next t → AccessesThenEnds i s t) : AccessesThenEnds i s t := by
  rcases guardPrivilege_cases h with ⟨_, _, rfl⟩ | ⟨_, hnext⟩
  · exact (endsFrom_raiseIllegal s).withoutAccess
  · exact hk hnext

theorem accessesThenEnds_loadFrom {i : Instr} {n : Nat} {dst : Ref} {addr : Word} {s t : State}
    (ha : accessesOf i s = bytesAccessed .read addr dst.width.bytes s) (h : loadFrom n dst addr s = .next t) :
    AccessesThenEnds i s t :=
  accessesThenEnds_of_guard h fun h =>
    ⟨_, .read _ _ ha, endsFrom_finish h fun v u => onlyRegistersChanged_advance_writeRef n dst v u⟩

theorem accessesThenEnds_storeTo {i : Instr} {n : Nat} {src : Ref} {addr : Word} {s t : State}
    (ha : accessesOf i s = bytesAccessed .write addr src.width.bytes s) (h : storeTo n addr src s = .next t) :
    AccessesThenEnds i s t :=
  accessesThenEnds_of_guard h fun h =>
    ⟨_, .write _ _ _ ha, endsFrom_finish h fun _ u => onlyRegistersChanged_advance n u⟩

theorem accessesThenEnds_swapWith {i : Instr} {n : Nat} {reg : Ref} {addr : Word} {s t : State}
    (ha : accessesOf i s = bytesSwapped addr reg.width.bytes s) (h : swapWith n reg addr s = .next t) :
    AccessesThenEnds i s t :=
  accessesThenEnds_of_guard h fun h =>
    ⟨_, .swap _ _ _ ha, endsFrom_finish h fun v u => onlyRegistersChanged_advance_writeRef n reg v u⟩

theorem accessesThenEnds_push {src : Ref} {s t : State} (h : exec (.push src) s = .next t) :
    AccessesThenEnds (.push src) s t :=
  accessesThenEnds_of_guard h fun h => ⟨_, .write _ _ _ rfl, endsFrom_finish h fun _ u =>
    (onlyRegistersChanged_setActiveSp _ u).trans (onlyRegistersChanged_advance 2 _)⟩

theorem accessesThenEnds_pop {dst : Ref} {s t : State} (h : exec (.pop dst) s = .next t) :
    AccessesThenEnds (.pop dst) s t :=
  accessesThenEnds_of_guard h fun h => ⟨_, .read _ _ rfl, endsFrom_finish h fun v u =>
    (onlyRegistersChanged_setActiveSp _ u).trans (onlyRegistersChanged_advance_writeRef 2 dst v _)⟩

theorem accessesThenEnds_divide {i : Instr} {g : GRef} {n : Nat} {f : (w : Nat) → BitVec w → BitVec w → AluResult w}
    {b : BitVec g.width.bits} {s t : State} (h : divide n f g b s = .next t) : AccessesThenEnds i s t := by
  unfold divide at h
  split at h
  · exact accessesThenEnds_of_entry h
  · exact accessesThenEnds_of_update h rfl

/-- Every instruction but `IRETURN`, by its shape: what it does to memory and devices is its access and an exception's entry. -/
theorem exec_accessesThenEnds {i : Instr} {s t : State} (hi : i ≠ .ireturn) (h : exec i s = .next t) :
    AccessesThenEnds i s t := by
  cases i with
  | ireturn => exact absurd rfl hi
  | halt | pause => exact accessesThenEnds_of_guard h fun h => accessesThenEnds_of_update h rfl
  | syscall => exact accessesThenEnds_of_entry h
  | loadA | loadR => exact accessesThenEnds_loadFrom rfl h
  | storeR | storeA => exact accessesThenEnds_storeTo rfl h
  | swapA | swapR => exact accessesThenEnds_swapWith rfl h
  | push => exact accessesThenEnds_push h
  | pop => exact accessesThenEnds_pop h
  | copyR | copyI =>
    exact accessesThenEnds_of_guard h fun h =>
      accessesThenEnds_of_update h (onlyRegistersChanged_advance_writeRef _ _ _ s)
  | swapRR a b =>
    exact accessesThenEnds_of_guard h fun h => accessesThenEnds_of_update h
      ((onlyRegistersChanged_writeRef a _ s).trans (onlyRegistersChanged_advance_writeRef 3 b _ _))
  | blockcopy c d x =>
    exact ⟨_, .blockCopy _ _ _ (.inl ⟨c, d, x, rfl⟩), endsFrom_finish h fun _ u => onlyRegistersChanged_advance 4 u⟩
  | blockset c d v =>
    exact ⟨_, .blockSet _ _ _ (.inr ⟨c, d, v, rfl⟩), endsFrom_finish h fun _ u => onlyRegistersChanged_advance 4 u⟩
  | udivR | udivI | sdivR | sdivI => exact accessesThenEnds_divide h
  | bA | bR | beqA | beqR | bneqA | bneqR | bltA | bltR | bltuA | bltuR | bgtA | bgtR | bgtuA | bgtuR | bleA | bleR
  | bleuA | bleuR | bgeA | bgeR | bgeuA | bgeuR =>
    exact accessesThenEnds_of_update ((branch_eq_setPc _ _ _ s).symm.trans h) rfl
  | nop | cmpR | cmpI | fcmp | zext | sext | trunc | itof | utof | ftoi | ftou | addR | addI | subR | subI | mulR | mulI
  | neg | andR | andI | orR | orI | xorR | xorI | notR | shlR | shlI | shrR | shrI | sarR | sarI | rolR | rolI | rorR
  | rorI | rclR | rclI | rcrR | rcrI => exact accessesThenEnds_of_update h rfl

/-! ## The invariant -/

/-- The invariant speaks of the stores, the disks, the queue and its capacity only. -/
theorem Inv.congr {s t : State} (h : Inv s) (hram : t.ram = s.ram) (hrom : t.rom = s.rom)
    (hdisplay : t.display = s.display) (hA : t.diskA = s.diskA) (hB : t.diskB = s.diskB) (hqueue : t.queue = s.queue)
    (hcapacity : t.irqCapacity = s.irqCapacity) : Inv t where
  ramForm := hram ▸ h.ramForm
  ramSize := hram ▸ h.ramSize
  romForm := hrom ▸ h.romForm
  romSize := hrom ▸ h.romSize
  displayForm := hdisplay ▸ h.displayForm
  displaySize := hdisplay ▸ h.displaySize
  diskA := hA ▸ h.diskA
  diskB := hB ▸ h.diskB
  queueFits := by
    rw [hqueue, hcapacity]
    exact h.queueFits

theorem Inv.onlyRegistersChanged {s t : State} (h : Inv s) (hr : OnlyRegistersChanged s t) : Inv t := by
  rw [hr]
  exact h.congr rfl rfl rfl rfl rfl rfl rfl

theorem Inv.endsFrom {u t : State} (h : Inv u) (he : EndsFrom u t) : Inv t := by
  cases he with
  | entry k ret hr => exact (h.onlyRegistersChanged hr).takeInterrupt k ret
  | update hr => exact h.onlyRegistersChanged hr

theorem Inv.accesses {i : Instr} {s u : State} (h : Inv s) (ha : Accesses i s u) : Inv u := by
  cases ha with
  | none => exact h
  | read n va _ => exact h.memRead n va .read
  | write n va v _ => exact h.memWrite n va v
  | swap n va v _ => exact h.memSwap n va v
  | blockCopy n d x _ => exact h.blockCopyLoop n d x
  | blockSet n d v _ => exact h.blockSetLoop n d v

theorem Inv.returnFromInterrupt {s : State} (h : Inv s) : Inv (returnFromInterrupt s) := by
  have hreads := ((h.physRead 4 s.kspr).physRead 4 (s.kspr + 4)).physRead 4 (s.kspr + 8)
  rw [Machine.returnFromInterrupt]
  generalize Machine.physRead 4 (s.kspr + 8) _ = popped at hreads ⊢
  exact hreads.congr rfl rfl rfl rfl rfl rfl rfl

theorem Inv.exec {i : Instr} {s t : State} (h : Inv s) (he : exec i s = .next t) : Inv t := by
  by_cases hi : i = .ireturn
  · subst hi
    rcases guardPrivilege_cases he with ⟨_, _, rfl⟩ | ⟨_, hnext⟩
    · exact h.endsFrom (endsFrom_raiseIllegal s)
    · cases hnext
      exact h.returnFromInterrupt
  · obtain ⟨u, haccess, hend⟩ := exec_accessesThenEnds hi he
    exact (h.accesses haccess).endsFrom hend

theorem Inv.runInstruction {s t : State} (h : Inv s) (hr : runInstruction s = .next t) : Inv t := by
  have hfetch : Inv (fetch s).state := h.fetchLoop _ _
  rcases runInstruction_cases hr with ⟨i, u, e, hexec⟩ | ⟨err, u, e, rfl⟩ | ⟨va, u, e, rfl⟩
  · rw [e] at hfetch
    exact Inv.exec hfetch hexec
  · rw [e] at hfetch
    exact Inv.endsFrom hfetch (endsFrom_raiseIllegal u)
  · rw [e] at hfetch
    exact Inv.endsFrom hfetch (endsFrom_raisePageFault va u)

/-- Taking an entry off the queue keeps the invariant (R361, R363). -/
theorem Inv.setQueue_of_takeEnabled {s : State} (h : Inv s) {k : DeviceIrq} {rest : List DeviceIrq}
    (e : takeEnabled s.imr s.queue = some (k, rest)) : Inv (s.setQueue rest) := by
  refine ⟨h.ramForm, h.ramSize, h.romForm, h.romSize, h.displayForm, h.displaySize, h.diskA, h.diskB, fun n hn => ?_⟩
  obtain ⟨pre, post, hq, rfl, _, _⟩ := takeEnabled_eq_some e
  have hfits := h.queueFits n hn
  rw [hq, List.length_append, List.length_cons] at hfits
  rw [State.setQueue_queue, List.length_append]
  omega

theorem Inv.cpuStep {s t : State} (h : Inv s) (hc : cpuStep s = .next t) : Inv t := by
  rcases cpuStep_cases hc with rfl | ⟨_, k, rest, e, rfl⟩ | ⟨_, _, hrun⟩
  · exact h
  · exact (h.setQueue_of_takeEnabled e).takeInterrupt k.kind s.pc
  · exact h.runInstruction hrun

theorem Disk.inv_start (d : DiskStart) : (Disk.start d).Inv := by
  obtain ⟨hform, hsize, himage⟩ := wf_start_disk d
  exact ⟨hform, hsize, himage, fun _ => ⟨rfl, rfl⟩, fun _ => rfl, fun e => absurd e Bool.false_ne_true,
    fun e => absurd e Bool.false_ne_true⟩

/-- The machine right after a start meets the invariant (R450). -/
theorem inv_start (capacity : QueueCapacity) (i : StartInput) : Inv (State.start capacity i) := by
  obtain ⟨hform, hsize⟩ := wf_start_rom capacity i
  exact ⟨rfl, rfl, hform, hsize, rfl, rfl, Disk.inv_start i.diskA, Disk.inv_start i.diskB, fun _ _ => Nat.zero_le _⟩

theorem Inv.hostStart {s : State} (h : Inv s) (i : StartInput) : Inv (hostStart i s) := by
  rw [hostStart_eq]
  split
  · exact (inv_start s.irqCapacity i).congr rfl rfl rfl rfl rfl rfl rfl
  · exact h

theorem Inv.setSchedule {s : State} (h : Inv s) (v : List Agent) : Inv (s.setSchedule v) :=
  h.congr rfl rfl rfl rfl rfl rfl rfl

/-- Settles O24, by the agent whose turn it is. -/
theorem invPreserved : Obligations.InvPreserved := by
  intro s t h hs
  rcases step_cases hs with ⟨u, hturn, hcpu⟩ | ⟨d, rest, _, rfl⟩ | ⟨m, rest, _, rfl⟩ | ⟨rest, _, rfl⟩ | ⟨i, rest, _, rfl⟩
  · have hu : Inv u := hturn.eq_setSchedule ▸ h.setSchedule u.schedule
    exact hu.cpuStep hcpu
  · exact (h.setSchedule rest).deviceStep d
  · exact (h.setSchedule rest).congr rfl rfl rfl rfl rfl rfl rfl
  · exact (h.setSchedule rest).setRunState .stopped
  · exact (h.setSchedule rest).hostStart i

end Sys2Proof.Machine
end

section
/-! PROOF. What an access of memory leaves of bytes that it does not name, where no device step falls inside it: only addresses
to which a virtual address translates for writing are stored to, which gives the statement `UserStoresOnlyWritable`; and the
accesses that fault, which give the statement `DataPageFaults` (spec 20_memory.md R92 to R98, 60_exceptions.md R414). -/

namespace Sys2Proof.Machine

/-! ## Bytes stored -/

/-- A byte that byte writes do not name reads as before, but for the `STATUS` of a disk whose `CMD` is written (R72, R414). -/
theorem peek_pokes_other {cs : List (Word × Byte)} {s : State} {a : Word} (ha : a ∉ cs.map Prod.fst)
    (hc : ∀ d, a = statusAddress d → cmdAddress d ∉ cs.map Prod.fst) : peek (pokes cs s) a = peek s a := by
  induction cs generalizing s with
  | nil => rfl
  | cons c cs ih =>
    rw [List.map_cons, List.mem_cons, not_or] at ha
    have hrest := ih (s := poke c.1 c.2 s) ha.2 fun d hd hmem => hc d hd (List.mem_cons_of_mem _ hmem)
    exact hrest.trans (peek_poke_other ha.1 fun d hd hcmd => hc d hd (hcmd ▸ List.mem_cons_self))

/-! ## Accesses that translate or fault -/

/-- Either every byte of an access translates, or one is the first that does not (R95, R96). -/
theorem translates_or_firstFault (acc : Access) (va : Word) (n : Nat) (s : State) :
    (∃ ps, Translates acc va n ps s) ∨ ∃ a, FirstFault acc va n a s := by
  induction n with
  | zero => exact .inl ⟨[], rfl⟩
  | succ n ih =>
    rcases ih with ⟨ps, hps⟩ | ⟨a, i, hi, hfault⟩
    · cases hr : (resolve (va + BitVec.ofNat 32 n) acc s).1 with
      | some p =>
        refine .inl ⟨ps ++ [p], ?_⟩
        unfold Translates addresses at hps ⊢
        simp only [List.range_succ, List.map_append, hps, List.map_cons, List.map_nil, hr]
      | none =>
        refine .inr ⟨_, n, Nat.lt_succ_self n, rfl, hr, fun j hj => ?_⟩
        have hlt : j < ps.length := length_of_translates hps ▸ hj
        rw [resolve_of_translates hps hlt]
        exact Option.some_ne_none _
    · exact .inr ⟨a, i, Nat.lt_succ_of_lt hi, hfault⟩

/-- The address that an access translates to does not depend on the kind of the access (R90): the kind only decides whether it
is permitted. -/
theorem resolve_eq_of_some {va p q : Word} {acc acc' : Access} {s : State} (h : (resolve va acc s).1 = some p)
    (h' : (resolve va acc' s).1 = some q) : p = q := by
  cases hm : s.mode with
  | kernel =>
    rw [resolve_kernel hm] at h h'
    exact (Option.some.inj h).symm.trans (Option.some.inj h')
  | user =>
    have walk {acc : Access} {r : Word} (hr : (resolve va acc s).1 = some r) :
        r = (physRead 4 (pteAddress (physRead 4 (pdeAddress s.pdpr va) s).1 va)
          (physRead 4 (pdeAddress s.pdpr va) s).2).1.extractLsb' 12 20 ++ va.extractLsb' 0 12 := by
      unfold resolve at hr
      rw [hm] at hr
      unfold translate at hr
      simp only at hr
      repeat' split at hr
      · cases hr
      · cases hr
      · cases hr
      · exact (Option.some.inj hr).symm
    exact (walk h).trans (walk h').symm

/-- An access that translates for two kinds translates to the same addresses. -/
theorem translates_unique {va : Word} {n : Nat} {ps qs : List Word} {acc acc' : Access} {s : State}
    (h : Translates acc va n ps s) (h' : Translates acc' va n qs s) : ps = qs := by
  have hl : ps.length = qs.length := (length_of_translates h).trans (length_of_translates h').symm
  exact List.ext_getElem hl fun i hi hi' => resolve_eq_of_some (resolve_of_translates h hi) (resolve_of_translates h' hi')

/-- An address that an access translates to is the translation of some virtual address. -/
theorem exists_resolve_of_mem {acc : Access} {va p : Word} {n : Nat} {ps : List Word} {s : State}
    (h : Translates acc va n ps s) (hp : p ∈ ps) : ∃ a, (resolve a acc s).1 = some p := by
  obtain ⟨i, hi, rfl⟩ := List.getElem_of_mem hp
  exact ⟨_, resolve_of_translates h hi⟩

/-! ## What an access stores -/

/-- From `s` to `u` nothing changed but bytes stored where an access for writing translates (R96). -/
def StoresTranslated (s u : State) : Prop :=
  u = s ∨ ∃ va n ps bs, Translates .write va n ps s ∧ u = pokes (ps.zip bs) s

theorem memRead_state_of_quiet {n : Nat} {va : Word} {acc : Access} {s : State}
    (hq : Quiet (bytesAccessed acc va n s) s) : (memRead n va acc s).state = s := by
  rcases translates_or_firstFault acc va n s with ⟨ps, hps⟩ | ⟨a, hfault⟩
  · rw [memRead_translates hq hps, MemResult.state_ok]
  · rw [memRead_firstFault hq hfault, MemResult.state_pageFault]

theorem storesTranslated_memWrite {n : Nat} {va v : Word} {s : State} (hq : Quiet (bytesAccessed .write va n s) s) :
    StoresTranslated s (memWrite n va v s).state := by
  rcases translates_or_firstFault .write va n s with ⟨ps, hps⟩ | ⟨a, hfault⟩
  · rw [memWrite_translates hq hps]
    exact .inr ⟨va, n, ps, _, hps, rfl⟩
  · rw [memWrite_firstFault hq hfault]
    exact .inl rfl

theorem storesTranslated_memSwap {n : Nat} {va v : Word} {s : State} (hq : Quiet (bytesSwapped va n s) s) :
    StoresTranslated s (memSwap n va v s).state := by
  rcases translates_or_firstFault .read va n s with ⟨ps, hread⟩ | ⟨a, hfault⟩
  · rcases translates_or_firstFault .write va n s with ⟨qs, hwrite⟩ | ⟨a, hfault⟩
    · obtain rfl := translates_unique hread hwrite
      rw [memSwap_translates hq hread hwrite]
      exact .inr ⟨va, n, ps, _, hwrite, rfl⟩
    · rw [memSwap_firstFault_write hq hread hfault]
      exact .inl rfl
  · rw [memSwap_firstFault_read hq hfault]
    exact .inl rfl

theorem Accesses.storesTranslated {i : Instr} {s u : State} (h : Accesses i s u) (hq : Quiet (accessesOf i s) s)
    (hb : ¬ i.isBlock) : StoresTranslated s u := by
  cases h with
  | none => exact .inl rfl
  | read n va ha => exact .inl (memRead_state_of_quiet (ha ▸ hq))
  | write n va v ha => exact storesTranslated_memWrite (ha ▸ hq)
  | swap n va v ha => exact storesTranslated_memSwap (ha ▸ hq)
  | blockCopy n d x hi => exact absurd hi hb
  | blockSet n d v hi => exact absurd hi hb

/-- A byte that changed was stored to, or is the `STATUS` of a disk whose `CMD` was (R96, R414). -/
theorem StoresTranslated.exists_resolve {s u : State} {a : Word} (h : StoresTranslated s u) (ha : peek u a ≠ peek s a) :
    (∃ va, (resolve va .write s).1 = some a) ∨
      ∃ d va, a = statusAddress d ∧ (resolve va .write s).1 = some (cmdAddress d) := by
  rcases h with rfl | ⟨va, n, ps, bs, hps, rfl⟩
  · exact absurd rfl ha
  by_cases hmem : a ∈ (ps.zip bs).map Prod.fst
  · exact .inl (exists_resolve_of_mem hps (map_fst_zip_subset ps bs hmem))
  by_cases hcmd : ∃ d, a = statusAddress d ∧ cmdAddress d ∈ (ps.zip bs).map Prod.fst
  · obtain ⟨d, hd, hc⟩ := hcmd
    obtain ⟨va', hva⟩ := exists_resolve_of_mem hps (map_fst_zip_subset ps bs hc)
    exact .inr ⟨d, va', hd, hva⟩
  · exact absurd (peek_pokes_other hmem fun d hd hc => hcmd ⟨d, hd, hc⟩) ha

/-- Settles O31: the instruction ends without an entry, so it has changed memory by its access only. -/
theorem userStoresOnlyWritable : Obligations.UserStoresOnlyWritable := by
  intro i s t a hm hq hb h ht ha
  have hi : i ≠ .ireturn := by
    rintro rfl
    have hk : (raiseIllegal s).mode = .kernel := (raises_raiseIllegal (KeepsCpu.refl s)).took.1
    rw [Host.Outcome.next.inj ((exec_ireturn_user hm).symm.trans h), ht] at hk
    cases hk
  obtain ⟨u, haccess, hend⟩ := exec_accessesThenEnds hi h
  rw [(hend.onlyRegistersChanged ht).peek] at ha
  exact (haccess.storesTranslated hq hb).exists_resolve ha

/-! ## Page faults -/

/-- An instruction whose access, permitted, ends in a page fault is that page fault (R97). -/
theorem guarded_pageFault {r : Ref} {s : State} {α : Type} {m : MemResult α} {k : α → State → State} {a : Word}
    (hp : Permitted r s) (h : m = .pageFault a s) :
    guardPrivilege (refPrivileged r) s (m.finish k) = .next (takeInterrupt .pageFault s.pc (s.setPfva a)) := by
  rw [guardPrivilege_permitted hp, h, MemResult.finish_pageFault]
  rfl

/-- Settles O17: each access faults at its first byte that does not translate, and the instruction is the entry that follows. -/
theorem dataPageFaults : Obligations.DataPageFaults := by
  intro r s a hp
  have read {n : Nat} {addr : Word} {k : Word → State → State} (h : FirstFault .read addr n a s)
      (hq : Quiet (bytesAccessed .read addr n s) s) := guarded_pageFault (k := k) hp (memRead_firstFault hq h)
  have write {n : Nat} {addr v : Word} {k : Unit → State → State} (h : FirstFault .write addr n a s)
      (hq : Quiet (bytesAccessed .write addr n s) s) := guarded_pageFault (k := k) hp (memWrite_firstFault (v := v) hq h)
  have swapRead {n : Nat} {addr v : Word} {k : Word → State → State} (h : FirstFault .read addr n a s)
      (hq : Quiet (bytesSwapped addr n s) s) := guarded_pageFault (k := k) hp (memSwap_firstFault_read (v := v) hq h)
  have swapWrite {n : Nat} {addr v : Word} {k : Word → State → State} (h : FirstFault .write addr n a s) (ps : List Word)
      (hread : Translates .read addr n ps s) (hq : Quiet (bytesSwapped addr n s) s) :=
    guarded_pageFault (k := k) hp (memSwap_firstFault_write (v := v) hq hread h)
  exact ⟨fun _ h => ⟨read h, swapRead h⟩, fun _ h => ⟨read h, swapRead h⟩, read, fun _ h => ⟨write h, swapWrite h⟩,
    fun _ h => ⟨write h, swapWrite h⟩, write⟩

end Sys2Proof.Machine
end

section
/-! PROOF. The physical map and byte writes: which row holds an address, which part of the machine a byte write leaves alone,
and what narrower reads return of a word written; the statements `PhysicalMap`, `WritesStayInTheirRow` and `MixedWidthReads`
(spec 20_memory.md R71 to R79). -/

namespace Sys2Proof.Machine

/-! ## The rows of the map -/

/-- The range of addresses of each row of the map, with the offset in it (R71). -/
def InRow (pa : Word) : Region → Prop
  | .vector => pa.toNat ≤ 0x3F
  | .rom o => pa.toNat = 0x40 + o ∧ pa.toNat ≤ 0x23F
  | .display o => pa.toNat = 0x240 + o ∧ pa.toNat ≤ 0x19AF
  | .diskRegister .a o => pa.toNat = 0x19B0 + o ∧ pa.toNat ≤ 0x19B9
  | .diskBuffer .a o => pa.toNat = 0x19BA + o ∧ pa.toNat ≤ 0x29B9
  | .diskRegister .b o => pa.toNat = 0x29BA + o ∧ pa.toNat ≤ 0x29C3
  | .diskBuffer .b o => pa.toNat = 0x29C4 + o ∧ pa.toNat ≤ 0x39C3
  | .keyboard o => pa.toNat = 0x39C4 + o ∧ pa.toNat ≤ 0x39C5
  | .ram => 0x39C6 ≤ pa.toNat

theorem inRow_of_regionOf {pa : Word} {r : Region} (e : regionOf pa = r) : InRow pa r := by
  have h := regionOf_address e
  cases r with
  | diskRegister d _ | diskBuffer d _ => cases d <;> dsimp only [InRow] at h ⊢ <;> omega
  | vector | rom _ | display _ | keyboard _ | ram => dsimp only [InRow] at h ⊢; omega

/-- No address is in two rows, and in its row it has one offset. -/
theorem inRow_unique {pa : Word} {r r' : Region} (h : InRow pa r) (h' : InRow pa r') : r = r' := by
  rcases r with _ | o | o | ⟨_ | _, o⟩ | ⟨_ | _, o⟩ | o | _ <;>
    rcases r' with _ | o' | o' | ⟨_ | _, o'⟩ | ⟨_ | _, o'⟩ | o' | _ <;> dsimp only [InRow] at h h'
  -- two different rows do not meet
  all_goals try omega
  -- in one row the address fixes the offset
  all_goals congr 1 <;> omega

theorem regionOf_eq_iff {pa : Word} {r : Region} : regionOf pa = r ↔ InRow pa r :=
  ⟨inRow_of_regionOf, inRow_unique (inRow_of_regionOf rfl)⟩

theorem peek_rom {pa : Word} {o : Nat} (h : regionOf pa = .rom o) (s : State) : peek s pa = s.rom.read o := by
  rw [peek, h]

/-- A write to the ROM is discarded (R74). -/
theorem poke_rom {pa : Word} {o : Nat} (h : regionOf pa = .rom o) (b : Byte) (s : State) : poke pa b s = s := by
  rw [poke, h]

/-- Settles O29: the rows are ranges that do not meet, and the ROM row reads the image and discards writes. -/
theorem physicalMap : Obligations.PhysicalMap := by
  refine ⟨fun pa => ⟨regionOf_eq_iff, fun _ => regionOf_eq_iff, fun _ => regionOf_eq_iff, fun _ => regionOf_eq_iff,
    fun _ => regionOf_eq_iff, fun _ => regionOf_eq_iff, fun _ => regionOf_eq_iff, fun _ => regionOf_eq_iff,
    regionOf_eq_iff⟩, fun s pa hlo hhi => ?_⟩
  have hrow : regionOf pa = .rom (pa.toNat - 0x40) := regionOf_eq_iff.2 ⟨by omega, hhi⟩
  exact ⟨peek_rom hrow s, fun b => poke_rom hrow b s⟩

/-! ## What a byte write leaves alone -/

theorem poke_disk_of_outside {pa : Word} {d : DiskId}
    (h : ∀ o, regionOf pa ≠ .diskRegister d o ∧ regionOf pa ≠ .diskBuffer d o) (b : Byte) (s : State) :
    (poke pa b s).disk d = s.disk d := by
  unfold poke
  cases e : regionOf pa with
  | vector | ram | display _ => cases d <;> rfl
  | rom _ | keyboard _ => rfl
  | diskRegister d' o =>
    obtain ⟨hne, _⟩ := h o
    exact State.disk_setDisk_other s _ fun hd => hne (hd ▸ e)
  | diskBuffer d' o =>
    obtain ⟨_, hne⟩ := h o
    exact State.disk_setDisk_other s _ fun hd => hne (hd ▸ e)

theorem poke_display_of_outside {pa : Word} (h : ∀ o, regionOf pa ≠ .display o) (b : Byte) (s : State) :
    (poke pa b s).display = s.display ∧ (poke pa b s).records = s.records := by
  unfold poke
  cases e : regionOf pa with
  | display o => exact absurd e (h o)
  | vector | ram | rom _ | keyboard _ => exact ⟨rfl, rfl⟩
  | diskRegister d _ | diskBuffer d _ => cases d <;> exact ⟨rfl, rfl⟩

theorem poke_ram_of_outside {pa : Word} (h : ¬ InRamArray pa) (b : Byte) (s : State) : (poke pa b s).ram = s.ram := by
  unfold poke
  cases e : regionOf pa with
  | vector => exact absurd (.inl e) h
  | ram => exact absurd (.inr e) h
  | display _ | rom _ | keyboard _ => rfl
  | diskRegister d _ | diskBuffer d _ => cases d <;> rfl

/-- A write to the RAM array changes one byte of RAM and nothing else (R73). -/
theorem poke_of_inRamArray {pa : Word} (h : InRamArray pa) (b : Byte) (s : State) :
    poke pa b s = s.setRam (s.ram.write pa.toNat b) := by
  unfold poke
  rcases h with h | h
  · rw [h]
  · rw [h]

/-- What each of several byte writes leaves alone, all of them together do. -/
theorem pokes_keeps {α : Type} {f : State → α} {cs : List (Word × Byte)} (h : ∀ c ∈ cs, ∀ u, f (poke c.1 c.2 u) = f u)
    (s : State) : f (pokes cs s) = f s := by
  induction cs generalizing s with
  | nil => rfl
  | cons c cs ih =>
    exact (ih (fun c' hc => h c' (List.mem_cons_of_mem c hc)) (poke c.1 c.2 s)).trans (h c List.mem_cons_self s)

/-- Settles O60: each byte write keeps to its row. -/
theorem writesStayInTheirRow : Obligations.WritesStayInTheirRow := by
  rintro cs s t rfl
  refine ⟨fun d h => ?_, fun h => ⟨?_, ?_⟩, fun h => ?_, fun h => ?_⟩
  · exact pokes_keeps (f := fun u => u.disk d) (fun c hc => poke_disk_of_outside (h c hc) c.2) s
  · exact pokes_keeps (fun c hc u => (poke_display_of_outside (h c hc) c.2 u).1) s
  · exact pokes_keeps (fun c hc u => (poke_display_of_outside (h c hc) c.2 u).2) s
  · exact pokes_keeps (fun c hc => poke_ram_of_outside (h c hc) c.2) s
  · have hkeeps := pokes_keeps (f := fun u => u.setRam (pokes cs s).ram)
      (fun c hc u => by rw [poke_of_inRamArray (h c hc) c.2 u]; rfl) s
    exact hkeeps

/-! ## Reads of a word written -/

/-- One byte more at the end of a big-endian number (R13). -/
theorem beWord_concat (bs : List Byte) (b : Byte) : beWord (bs ++ [b]) = beWord bs <<< 8 ||| b.setWidth 32 := by
  rw [beWord, List.foldl_append]
  rfl

theorem toNat_wordByte (v : Word) (i : Nat) : (wordByte v i).toNat = v.toNat / 2 ^ (8 * (3 - i)) % 2 ^ 8 := by
  rw [wordByte, BitVec.extractLsb'_toNat, Nat.shiftRight_eq_div_pow]

/-- The big-endian value of a slice of a word's bytes is that slice of the word (R76, R77). -/
theorem toNat_beWord_slice (v : Word) {i n : Nat} (h : i + n ≤ 4) :
    (beWord ((List.range n).map fun j => wordByte v (i + j))).toNat = v.toNat / 2 ^ (8 * (4 - (i + n))) % 2 ^ (8 * n) := by
  induction n with
  | zero => simp [beWord, Nat.mod_one]
  | succ n ih =>
    have hlt : (wordByte v (i + n)).toNat < 2 ^ 8 := BitVec.isLt _
    have hfits : 2 ^ (8 * n) ≤ 2 ^ 24 := Nat.pow_le_pow_right (by decide) (by omega)
    have hmod := Nat.mod_lt (v.toNat / 2 ^ (8 * (4 - (i + n)))) (Nat.two_pow_pos (8 * n))
    -- the number of the first `n` bytes moves up by one byte, and the next byte comes below it
    have hsucc : (beWord ((List.range (n + 1)).map fun j => wordByte v (i + j))).toNat =
        2 ^ 8 * (v.toNat / 2 ^ (8 * (4 - (i + n))) % 2 ^ (8 * n)) + v.toNat / 2 ^ (8 * (3 - (i + n))) % 2 ^ 8 := by
      rw [List.range_succ, List.map_append, List.map_singleton, beWord_concat, BitVec.toNat_or, BitVec.toNat_shiftLeft,
        ih (by omega), BitVec.toNat_setWidth_of_le (by decide), Nat.shiftLeft_eq, Nat.mod_eq_of_lt (by omega), Nat.mul_comm,
        ← Nat.two_pow_add_eq_or_of_lt hlt, toNat_wordByte]
    have hhigh : 4 - (i + n) = 3 - (i + n) + 1 := by omega
    have hlow : 4 - (i + (n + 1)) = 3 - (i + n) := by omega
    rw [hsucc, hhigh, hlow, Nat.mul_add 8 _ 1, pow_add, ← Nat.div_div_eq_div_mul, Nat.mul_add 8 n 1, Nat.add_comm (8 * n),
      pow_add, Nat.mod_mul, Nat.add_comm]

theorem mem_addresses (a : Word) {n k : Nat} (h : k < n) : a + BitVec.ofNat 32 k ∈ addresses a n :=
  List.mem_map.2 ⟨k, List.mem_range.2 h, rfl⟩

/-- The addresses of a part of an access. -/
theorem addresses_add (a : Word) (i n : Nat) :
    addresses (a + BitVec.ofNat 32 i) n = (List.range n).map fun j => a + BitVec.ofNat 32 (i + j) :=
  List.map_congr_left fun j _ => by rw [BitVec.add_assoc, BitVec.ofNat_add]

/-- A word written is read back byte by byte, the most significant first (R77). -/
theorem peek_physWrite_word {a v : Word} {s : State} (hi : Inv s) (hq : Quiet (addresses a 4) s)
    (hw : ∀ p ∈ addresses a 4, Writable p) {k : Nat} (hk : k < 4) :
    peek (physWrite 4 a v s) (a + BitVec.ofNat 32 k) = wordByte v k := by
  have hstores := storesBytes_pokes hi (bs := beBytes 4 v) (nodup_addresses a (n := 4) (by decide))
  rw [physWrite, physWriteList_of_quiet (hq.mono (map_fst_zip_subset _ _))]
  refine hstores.stored (a + BitVec.ofNat 32 k, wordByte v k) ?_ (hw _ (mem_addresses a hk))
  rw [addresses, beBytes, List.zip_map']
  exact List.mem_map.2 ⟨k, List.mem_range.2 hk, rfl⟩

theorem quiet_physWrite {ps : List Word} {n : Nat} {a v : Word} {s : State} (hq : Quiet (addresses a n) s)
    (hps : ps ⊆ addresses a n) : Quiet ps (physWrite n a v s) := by
  rw [physWrite, physWriteList_of_quiet (hq.mono (map_fst_zip_subset _ _))]
  exact (hq.mono hps).congr (onlyMemoryChanged_pokes _ s).midStep

/-- A read of some of the four bytes of a word just written returns that part of it (R78). -/
theorem physRead_physWrite_slice {a v : Word} {s : State} (hi : Inv s) (hq : Quiet (addresses a 4) s)
    (hw : ∀ p ∈ addresses a 4, Writable p) {i n : Nat} (h : i + n ≤ 4) :
    (physRead n (a + BitVec.ofNat 32 i) (physWrite 4 a v s)).1.toNat =
      v.toNat / 2 ^ (8 * (4 - (i + n))) % 2 ^ (8 * n) := by
  have hbytes : (addresses (a + BitVec.ofNat 32 i) n).map (peek (physWrite 4 a v s)) =
      (List.range n).map fun j => wordByte v (i + j) := by
    rw [addresses_add, List.map_map]
    exact List.map_congr_left fun j hj => peek_physWrite_word hi hq hw (by rw [List.mem_range] at hj; omega)
  have hsub : addresses (a + BitVec.ofNat 32 i) n ⊆ addresses a 4 := by
    intro p hp
    rw [addresses_add] at hp
    obtain ⟨j, hj, rfl⟩ := List.mem_map.1 hp
    exact mem_addresses a (by rw [List.mem_range] at hj; omega)
  rw [physRead_of_quiet (quiet_physWrite hq hsub), hbytes, toNat_beWord_slice v h]

/-- Settles O30: each read returns a slice of the word written. -/
theorem mixedWidthReads : Obligations.MixedWidthReads := by
  intro a v s hi hq hw
  have slice {i n : Nat} (h : i + n ≤ 4) := physRead_physWrite_slice (v := v) hi hq hw h
  have hv := v.isLt
  have ha : a + BitVec.ofNat 32 0 = a := BitVec.add_zero a
  refine ⟨?_, ?_, ?_, BitVec.eq_of_toNat_eq ?_⟩
  · have := slice (i := 0) (n := 1) (by decide)
    rw [ha] at this
    omega
  · exact (slice (i := 3) (n := 1) (by decide)).trans (by omega)
  · exact slice (i := 1) (n := 2) (by decide)
  · have := slice (i := 0) (n := 4) (by decide)
    rw [ha] at this
    omega

end Sys2Proof.Machine
end

section
/-! PROOF. The translation of an address in each mode: the walk of R90 in numbers, and that kernel mode never faults; the
statements `TranslateWalk` and `KernelNeverFaults` (spec 20_memory.md R90 to R94). -/

namespace Sys2Proof.Machine

/-! ## The walk in numbers -/

theorem bit_toNat {w : Nat} (x : BitVec w) (i : Nat) : bit x.toNat i = x.getLsbD i := by
  rw [bit, BitVec.getLsbD, Nat.testBit_eq_decide_div_mod_eq]

/-- R90: the directory entry is chosen by the top 10 bits of the address. -/
theorem pdeAddress_eq (p va : Word) : pdeAddress p va = p + BitVec.ofNat 32 (4 * (va.toNat / 2 ^ 22)) := by
  have hva := va.isLt
  rw [pdeAddress]
  congr 1
  apply BitVec.eq_of_toNat_eq
  rw [BitVec.toNat_mul, BitVec.toNat_setWidth, BitVec.extractLsb'_toNat, BitVec.toNat_ofNat, Nat.shiftRight_eq_div_pow]
  simp only [BitVec.reduceToNat]
  omega

/-- The number of a page's address with an offset in the page. -/
theorem toNat_page_append (x : Word) (o : BitVec 12) :
    (x.extractLsb' 12 20 ++ o : Word).toNat = x.toNat / 2 ^ 12 * 2 ^ 12 + o.toNat := by
  have hx := x.isLt
  rw [BitVec.toNat_append, ← Nat.shiftLeft_add_eq_or_of_lt o.isLt, BitVec.extractLsb'_toNat, Nat.shiftLeft_eq,
    Nat.shiftRight_eq_div_pow, Nat.mod_eq_of_lt (by omega)]

/-- R90, R91: the table entry is chosen, in the table that the directory entry names, by the next 10 bits. -/
theorem pteAddress_eq (pde va : Word) :
    pteAddress pde va = BitVec.ofNat 32 (pde.toNat / 2 ^ 12 * 2 ^ 12 + 4 * (va.toNat / 2 ^ 12 % 2 ^ 10)) := by
  apply BitVec.eq_of_toNat_eq
  rw [pteAddress, BitVec.toNat_add, toNat_page_append, BitVec.toNat_mul, BitVec.toNat_setWidth, BitVec.extractLsb'_toNat,
    Nat.shiftRight_eq_div_pow]
  simp only [BitVec.reduceToNat, BitVec.toNat_ofNat]
  omega

/-- R90: the frame of the table entry with the address's offset. -/
theorem frameAddress_eq (pte va : Word) :
    (pte.extractLsb' 12 20 ++ va.extractLsb' 0 12 : Word) =
      BitVec.ofNat 32 (pte.toNat / 2 ^ 12 * 2 ^ 12 + va.toNat % 2 ^ 12) := by
  have hpte := pte.isLt
  apply BitVec.eq_of_toNat_eq
  rw [toNat_page_append, BitVec.extractLsb'_toNat, BitVec.toNat_ofNat, Nat.shiftRight_zero,
    Nat.mod_eq_of_lt (b := 2 ^ 32) (by omega)]

/-- R92, R93: the permission bit of the access's kind is clear. -/
theorem permissionBit_clear_iff (acc : Access) (pte : Word) :
    (acc = .read ∧ pte.getLsbD 1 = false) ∨ (acc = .write ∧ pte.getLsbD 2 = false) ∨
      (acc = .fetch ∧ pte.getLsbD 3 = false) ↔ pte.getLsbD acc.permissionBit = false := by
  cases acc <;> simp [Access.permissionBit]

theorem resolve_user {s : State} (h : s.mode = .user) (va : Word) (acc : Access) :
    resolve va acc s = translate va acc s := by
  rw [resolve, h]

/-- Settles O27: with its addresses and bits read as numbers, the walk is that of `translate_of_quiet`. -/
theorem translateWalk : Obligations.TranslateWalk := by
  intro va acc s pde pte hm hq hpde hpte
  rw [← pdeAddress_eq] at hpde
  rw [← pteAddress_eq] at hpte
  subst hpde hpte
  simp only [resolve_user hm, translate_of_quiet hm hq, bit_toNat, permissionBit_clear_iff, ← frameAddress_eq, ite_or]

/-! ## Kernel mode -/

/-- R94: a kernel-mode fetch reads physical addresses, so it never ends in a page fault. -/
theorem fetchLoop_kernel_ne_pageFault {s : State} (hm : s.mode = .kernel) (fuel : Nat) (got : List Byte) (va : Word)
    (t : State) : fetchLoop fuel got s ≠ .pageFault va t := by
  induction fuel generalizing got s with
  | zero => exact fun h => nomatch h
  | succ fuel ih =>
    have hread := memRead_kernel hm 1 (s.pc + BitVec.ofNat 32 got.length) .fetch
    have hmode := (sameOutsideDevices_memRead 1 (s.pc + BitVec.ofNat 32 got.length) .fetch s).mode.trans hm
    rw [hread] at hmode
    rw [fetchLoop, hread]
    dsimp only
    split
    · exact fun h => nomatch h
    · exact fun h => nomatch h
    · exact ih hmode _

/-- Settles O28: translation and fetch by R94; and of the instructions' outcomes only a user-mode fault writes `pfva` unnamed. -/
theorem kernelNeverFaults : Obligations.KernelNeverFaults := by
  intro s hm
  refine ⟨resolve_kernel hm, fun va t => fetchLoop_kernel_ne_pageFault hm _ _ va t, fun i t h hne => ?_⟩
  obtain ⟨_, _, _, _, _, hpfva, _⟩ := registerFrame i s t h
  refine (hpfva hne).resolve_right ?_
  rintro ⟨hu, _⟩
  cases hm.symm.trans hu

end Sys2Proof.Machine
end

section
/-! PROOF. The readers that the decoder's arms are made of, and for each opcode its arm as such a reader: what it has read when
it answers an instruction, that more bytes do not change an answer, and how many bytes it can ask for; the statements
`DecodeEncode` and `EncodeDecode` (spec 30_encoding.md R130 to R142 and R150). -/

namespace Sys2Proof

/-! ## The readers of the opcode map -/

/-- `p` reads operands of the opcode `op` from at most `n` more bytes, the operand bytes `w` having been read: it reads an
operand and goes on, makes a check, answers that the encoding is illegal, or answers the well-formed instruction whose operand
bytes have been read. -/
inductive OperandReader (op : Nat) : Nat → List Byte → (List Byte → Decoded) → Prop
  | done {n : Nat} {w : List Byte} {i : Instr} (hop : i.opcode = op) (hwf : i.wellFormed = true)
      (hw : encodeOperands i = w) : OperandReader op n w (.ok i)
  | illegal {n : Nat} {w : List Byte} (e : DecodeError) : OperandReader op n w fun _ => .illegal e
  | ref {n : Nat} {w : List Byte} {k : Ref → List Byte → Decoded}
      (h : ∀ r, OperandReader op n (w ++ [encodeRef r]) (k r)) : OperandReader op (n + 1) w fun bs => takeRef bs k
  | word {n : Nat} {w : List Byte} {k : Word → List Byte → Decoded}
      (h : ∀ v, OperandReader op n (w ++ encodeWord v) (k v)) : OperandReader op (n + 4) w fun bs => takeWord bs k
  | lit {n : Nat} {w : List Byte} {k : Word → List Byte → Decoded} (wd : Width)
      (h : ∀ v, LitFits wd v → OperandReader op n (w ++ encodeLit wd v) (k v)) :
      OperandReader op (n + 4) w fun bs => takeLit wd bs k
  | check {n : Nat} {w : List Byte} {p : Prop} [Decidable p] {e : DecodeError} {k : List Byte → Decoded}
      (h : p → OperandReader op n w k) : OperandReader op n w fun bs => require p e (k bs)

namespace OperandReader

variable {op n : Nat} {w : List Byte}

/-- R134 class `G`: a special register is outside it. -/
theorem gref {k : GRef → List Byte → Decoded} (h : ∀ g, OperandReader op n (w ++ [encodeGRef g]) (k g)) :
    OperandReader op (n + 1) w fun bs => takeGRef bs k := by
  refine .ref fun r => ?_
  cases r with
  | gpr g => exact h g
  | special p => exact .illegal .outsideClass

/-- R134: a general register at one width. -/
theorem regAt {wd : Width} {k : Fin 8 → List Byte → Decoded}
    (h : ∀ j, OperandReader op n (w ++ [encodeGRef ⟨j, wd⟩]) (k j)) :
    OperandReader op (n + 1) w fun bs => takeRegAt wd bs k :=
  .gref fun ⟨j, _⟩ => .check fun (.refl _) => h j

end OperandReader

/-- R142: every opcode from 0x52 on is reserved. -/
theorem decodeOperands_reserved {op : Nat} (h : 0x52 ≤ op) (bs : List Byte) :
    decodeOperands op bs = .illegal .reservedOpcode := by
  unfold decodeOperands
  split
  case h_83 => rfl
  all_goals omega

/-- The arm of every opcode (R140, R142) is a reader of its operands. -/
theorem operandReader_decodeOperands (op : Nat) : OperandReader op 5 [] (decodeOperands op) := by
  unfold decodeOperands
  match op with
  | 0x00 | 0x01 | 0x02 | 0x03 | 0x04 => exact .done rfl rfl rfl
  | 0x05 | 0x0B => exact .ref fun _ => .word fun _ => .done rfl rfl rfl
  | 0x06 | 0x0C => exact .ref fun _ => .regAt fun _ => .done rfl rfl rfl
  | 0x07 => exact .regAt fun _ => .ref fun _ => .done rfl rfl rfl
  | 0x08 => exact .word fun _ => .ref fun _ => .done rfl rfl rfl
  | 0x09 | 0x0D => exact .ref fun _ => .ref fun _ => .check fun h => .done rfl (decide_eq_true h) rfl
  | 0x0A => exact .ref fun r => .lit r.width fun _ h => .done rfl (decide_eq_true h) rfl
  | 0x0E | 0x0F => exact .ref fun _ => .done rfl rfl rfl
  | 0x10 | 0x11 => exact .regAt fun _ => .regAt fun _ => .regAt fun _ => .done rfl rfl rfl
  | 0x12 | 0x14 | 0x16 | 0x18 | 0x1A | 0x1D | 0x1F | 0x21 | 0x24 | 0x26 | 0x28 | 0x2A | 0x2C | 0x2E | 0x30 | 0x32
  | 0x4A | 0x4B | 0x4C => exact .gref fun _ => .gref fun _ => .check fun h => .done rfl (decide_eq_true h) rfl
  | 0x13 | 0x15 | 0x17 | 0x19 | 0x1B | 0x1E | 0x20 | 0x22 | 0x25 | 0x27 | 0x29 | 0x2B | 0x2D | 0x2F | 0x31 | 0x33 =>
    exact .gref fun g => .lit g.width fun _ h => .done rfl (decide_eq_true h) rfl
  | 0x1C | 0x23 => exact .gref fun _ => .done rfl rfl rfl
  | 0x34 | 0x36 | 0x38 | 0x3A | 0x3C | 0x3E | 0x40 | 0x42 | 0x44 | 0x46 | 0x48 => exact .word fun _ => .done rfl rfl rfl
  | 0x35 | 0x37 | 0x39 | 0x3B | 0x3D | 0x3F | 0x41 | 0x43 | 0x45 | 0x47 | 0x49 => exact .regAt fun _ => .done rfl rfl rfl
  | 0x4D | 0x4E | 0x4F | 0x50 | 0x51 => exact .regAt fun _ => .regAt fun _ => .done rfl rfl rfl
  | n + 0x52 =>
    change OperandReader _ 5 [] (decodeOperands (n + 0x52))
    rw [funext (decodeOperands_reserved (Nat.le_add_left 0x52 n))]
    exact .illegal .reservedOpcode

/-! ## The encoding of an instruction is decoded -/

theorem opcode_lt (i : Instr) : i.opcode < 0x52 := by
  unfold Instr.opcode
  split <;> decide

/-- The arm of an instruction's opcode reads its operands back, each by the lemma on its class (R130 to R134). -/
theorem decodeOperands_encodeOperands {i : Instr} (h : i.wellFormed = true) (rest : List Byte) :
    decodeOperands i.opcode (encodeOperands i ++ rest) = .ok i rest := by
  unfold decodeOperands
  cases i with
  | halt | pause | nop | ireturn | syscall => rfl
  | loadA r a | swapA r a => exact (takeRef_encodeRef _ _ _).trans (takeWord_encodeWord _ _ _)
  | loadR r j | swapR r j => exact (takeRef_encodeRef _ _ _).trans (takeWordReg_encodeGRef _ _ _)
  | storeR j r => exact (takeWordReg_encodeGRef _ _ _).trans (takeRef_encodeRef _ _ _)
  | storeA a r => exact (takeWord_encodeWord a (encodeRef r :: rest) _).trans (takeRef_encodeRef _ _ _)
  | copyR a b | swapRR a b =>
    exact (takeRef_encodeRef _ _ _).trans ((takeRef_encodeRef _ _ _).trans (require_of (of_decide_eq_true h) _ _))
  | copyI r l => exact (takeRef_encodeRef _ _ _).trans (takeLit_encodeLit (of_decide_eq_true h) _ _)
  | push r | pop r => exact takeRef_encodeRef _ _ _
  | blockcopy c d x =>
    exact (takeWordReg_encodeGRef _ _ _).trans ((takeWordReg_encodeGRef _ _ _).trans (takeWordReg_encodeGRef _ _ _))
  | blockset c d v =>
    exact (takeWordReg_encodeGRef _ _ _).trans ((takeWordReg_encodeGRef _ _ _).trans (takeByteReg_encodeGRef _ _ _))
  | addR a b | subR a b | mulR a b | udivR a b | sdivR a b | andR a b | orR a b | xorR a b | shlR a b | shrR a b
  | sarR a b | rolR a b | rorR a b | rclR a b | rcrR a b | cmpR a b | zext a b | sext a b | trunc a b =>
    exact (takeGRef_encodeGRef _ _ _).trans ((takeGRef_encodeGRef _ _ _).trans (require_of (of_decide_eq_true h) _ _))
  | addI g l | subI g l | mulI g l | udivI g l | sdivI g l | andI g l | orI g l | xorI g l | shlI g l | shrI g l
  | sarI g l | rolI g l | rorI g l | rclI g l | rcrI g l | cmpI g l =>
    exact (takeGRef_encodeGRef _ _ _).trans (takeLit_encodeLit (of_decide_eq_true h) _ _)
  | neg g | notR g => exact takeGRef_encodeGRef _ _ _
  | bA a | beqA a | bneqA a | bltA a | bltuA a | bgtA a | bgtuA a | bleA a | bleuA a | bgeA a | bgeuA a =>
    exact takeWord_encodeWord _ _ _
  | bR j | beqR j | bneqR j | bltR j | bltuR j | bgtR j | bgtuR j | bleR j | bleuR j | bgeR j | bgeuR j =>
    exact takeWordReg_encodeGRef _ _ _
  | itof a b | utof a b | ftoi a b | ftou a b | fcmp a b =>
    exact (takeWordReg_encodeGRef _ _ _).trans (takeWordReg_encodeGRef _ _ _)

theorem opcode_toNat (i : Instr) : (BitVec.ofNat 8 i.opcode).toNat = i.opcode := by
  have h := opcode_lt i
  rw [BitVec.toNat_ofNat, Nat.mod_eq_of_lt (by omega)]

/-- An instruction's own bytes decode to it. -/
theorem decode_encode {i : Instr} (h : i.wellFormed = true) (rest : List Byte) : decode (encode i ++ rest) = .ok i rest := by
  rw [encode, List.cons_append, decode, opcode_toNat, decodeOperands_encodeOperands h]

/-- Settles O1: the opcode byte selects the instruction's arm, which reads the operand bytes back. -/
theorem decodeEncode : Obligations.DecodeEncode := by
  intro i rest h
  exact decode_encode h rest

/-! ## Operands and the bytes they are read from -/

/-- A byte is that of a reference or is refused (R131). -/
theorem encodeRef_or_illegal (b : Byte) : (∃ r, b = encodeRef r) ∨ ∃ e, ∀ bs k, takeRef (b :: bs) k = .illegal e := by
  cases h : parseRef b with
  | ok r => exact .inl ⟨r, (encodeRef_of_parseRef h).symm⟩
  | error e => exact .inr ⟨e, fun bs k => by simp only [takeRef, h]⟩

/-- Four bytes are those of a literal address; fewer are not enough (R133). -/
theorem encodeWord_or_short (bs : List Byte) :
    (∃ v bs', bs = encodeWord v ++ bs') ∨ bs.length < 4 ∧ ∀ k, takeWord bs k = .more := by
  match bs with
  | b0 :: b1 :: b2 :: b3 :: bs' => exact .inl ⟨b0 ++ b1 ++ b2 ++ b3, bs', by rw [encodeWord_bytes]; rfl⟩
  | [] | [_] | [_, _] | [_, _, _] => exact .inr ⟨by simp, fun _ => rfl⟩

theorem litFits_setWidth {wd : Width} (x : BitVec wd.bits) : LitFits wd (x.setWidth 32) := by
  have hbits : wd.bits ≤ 32 := by cases wd <;> decide
  rw [LitFits, BitVec.toNat_setWidth_of_le hbits]
  exact x.isLt

theorem encodeLit_byte (b : Byte) : encodeLit .byte (b.setWidth 32) = [b] := by
  have h : (b.setWidth 32).extractLsb' 0 8 = b := by
    apply BitVec.eq_of_toNat_eq
    rw [BitVec.extractLsb'_toNat, BitVec.toNat_setWidth_of_le (by decide), Nat.shiftRight_zero, Nat.mod_eq_of_lt b.isLt]
  rw [encodeLit, h]

theorem encodeLit_half (b0 b1 : Byte) : encodeLit .half ((b0 ++ b1).setWidth 32) = [b0, b1] := by
  have h : ((b0 ++ b1).setWidth 32).toNat = 2 ^ 8 * b0.toNat + b1.toNat := by
    rw [BitVec.toNat_setWidth_of_le (by decide), BitVec.toNat_append, ← Nat.shiftLeft_add_eq_or_of_lt b1.isLt, Nat.shiftLeft_eq,
      Nat.mul_comm]
  have h0 : ((b0 ++ b1).setWidth 32).extractLsb' 8 8 = b0 := by
    apply BitVec.eq_of_toNat_eq
    rw [BitVec.extractLsb'_toNat, h, Nat.shiftRight_eq_div_pow]
    omega
  have h1 : ((b0 ++ b1).setWidth 32).extractLsb' 0 8 = b1 := by
    apply BitVec.eq_of_toNat_eq
    rw [BitVec.extractLsb'_toNat, h, Nat.shiftRight_zero]
    omega
  rw [encodeLit, h0, h1]

/-- As many bytes as the width has are those of a literal that fits it; fewer are not enough (R132). -/
theorem encodeLit_or_short (wd : Width) (bs : List Byte) :
    (∃ v bs', LitFits wd v ∧ bs = encodeLit wd v ++ bs') ∨ bs.length < wd.bytes ∧ ∀ k, takeLit wd bs k = .more := by
  cases wd with
  | byte =>
    match bs with
    | b :: bs' =>
      exact .inl ⟨b.setWidth 32, bs', litFits_setWidth (wd := .byte) b, by rw [encodeLit_byte]; rfl⟩
    | [] => exact .inr ⟨by simp, fun _ => rfl⟩
  | half =>
    match bs with
    | b0 :: b1 :: bs' =>
      exact .inl ⟨(b0 ++ b1).setWidth 32, bs', litFits_setWidth (wd := .half) (b0 ++ b1), by rw [encodeLit_half]; rfl⟩
    | [] | [_] => exact .inr ⟨by simp, fun _ => rfl⟩
  | word =>
    rcases encodeWord_or_short bs with ⟨v, bs', rfl⟩ | hshort
    · exact .inl ⟨v, bs', v.isLt, rfl⟩
    · exact .inr hshort

/-- A literal that is read fits its width, and the bytes are its encoding (R132). -/
theorem takeLit_ok {wd : Width} {bs rest : List Byte} {k : Word → List Byte → Decoded} {i : Instr}
    (h : takeLit wd bs k = .ok i rest) : ∃ v bs', LitFits wd v ∧ bs = encodeLit wd v ++ bs' ∧ k v bs' = .ok i rest := by
  rcases encodeLit_or_short wd bs with ⟨v, bs', hv, rfl⟩ | ⟨_, hmore⟩
  · exact ⟨v, bs', hv, rfl, (takeLit_encodeLit hv bs' k).symm.trans h⟩
  · rw [hmore] at h
    cases h

/-! ## What a reader has read when it answers an instruction -/

/-- Where a reader answers an instruction, it is a well-formed one of the opcode, and the bytes read are its operand bytes. -/
theorem OperandReader.ok_encodes {op n : Nat} {w : List Byte} {p : List Byte → Decoded} (hp : OperandReader op n w p)
    {bs rest : List Byte} {i : Instr} (h : p bs = .ok i rest) :
    i.opcode = op ∧ i.wellFormed = true ∧ w ++ bs = encodeOperands i ++ rest := by
  induction hp generalizing bs with
  | done hop hwf hw =>
    cases h
    exact ⟨hop, hwf, by rw [hw]⟩
  | illegal e => cases h
  | ref _ ih =>
    obtain ⟨r, bs', rfl, hk⟩ := takeRef_ok h
    simpa using ih r hk
  | word _ ih =>
    obtain ⟨v, bs', rfl, hk⟩ := takeWord_ok h
    simpa using ih v hk
  | lit wd _ ih =>
    obtain ⟨v, bs', hv, rfl, hk⟩ := takeLit_ok h
    simpa using ih v hv hk
  | check _ ih =>
    obtain ⟨hc, hk⟩ := require_ok h
    exact ih hc hk

/-- Settles O2: every arm of the opcode map is a reader of its operands. -/
theorem encodeDecode : Obligations.EncodeDecode := by
  intro bs rest i h
  cases bs with
  | nil => cases h
  | cons b bs =>
    obtain ⟨hop, hwf, hbytes⟩ := (operandReader_decodeOperands b.toNat).ok_encodes h
    refine ⟨hwf, ?_⟩
    rw [encode, hop, BitVec.ofNat_toNat, BitVec.setWidth_eq, List.cons_append, ← hbytes, List.nil_append]

/-! ## More bytes -/

/-- An answer with further bytes after those that are left over. -/
def Decoded.followedBy (x : List Byte) : Decoded → Decoded
  | .ok i rest => .ok i (rest ++ x)
  | .illegal e => .illegal e
  | .more => .more

theorem Decoded.followedBy_eq_ok {d : Decoded} {x rest : List Byte} {i : Instr} (h : d.followedBy x = .ok i rest) :
    ∃ rest', d = .ok i rest' := by
  cases d with
  | ok j rest' => cases h; exact ⟨rest', rfl⟩
  | illegal e => cases h
  | more => cases h

theorem Decoded.followedBy_eq_illegal {d : Decoded} {x : List Byte} {e : DecodeError} (h : d.followedBy x = .illegal e) :
    d = .illegal e := by
  cases d with
  | ok j rest' => cases h
  | illegal e' => exact h
  | more => cases h

theorem Decoded.followedBy_eq_more {d : Decoded} {x : List Byte} (h : d.followedBy x = .more) : d = .more := by
  cases d with
  | ok j rest' => cases h
  | illegal e => cases h
  | more => rfl

/-- Each check is made as soon as its bytes are there (R150): more bytes do not change an answer. -/
theorem OperandReader.append {op n : Nat} {w : List Byte} {p : List Byte → Decoded} (hp : OperandReader op n w p)
    {bs : List Byte} (h : p bs ≠ .more) (x : List Byte) : p (bs ++ x) = (p bs).followedBy x := by
  induction hp generalizing bs with
  | done | illegal => rfl
  | ref _ ih =>
    cases bs with
    | nil => exact absurd rfl h
    | cons b bs =>
      rcases encodeRef_or_illegal b with ⟨r, rfl⟩ | ⟨e, he⟩
      · simp only [List.cons_append, takeRef_encodeRef] at h ⊢
        exact ih r h
      · simp only [List.cons_append, he, Decoded.followedBy]
  | word _ ih =>
    rcases encodeWord_or_short bs with ⟨v, bs', rfl⟩ | ⟨_, hmore⟩
    · simp only [List.append_assoc, takeWord_encodeWord] at h ⊢
      exact ih v h
    · exact absurd (hmore _) h
  | lit wd _ ih =>
    rcases encodeLit_or_short wd bs with ⟨v, bs', hv, rfl⟩ | ⟨_, hmore⟩
    · simp only [List.append_assoc, takeLit_encodeLit hv] at h ⊢
      exact ih v hv h
    · exact absurd (hmore _) h
  | @check _ _ p _ _ _ _ ih =>
    by_cases hc : p
    · simp only [require, if_pos hc] at h ⊢
      exact ih hc h
    · simp only [require, if_neg hc, Decoded.followedBy]

/-- A reader asks for no more bytes than it can read. -/
theorem OperandReader.length_lt {op n : Nat} {w : List Byte} {p : List Byte → Decoded} (hp : OperandReader op n w p)
    {bs : List Byte} (h : p bs = .more) : bs.length < n := by
  induction hp generalizing bs with
  | done | illegal => cases h
  | ref _ ih =>
    cases bs with
    | nil => exact Nat.succ_pos _
    | cons b bs =>
      rcases encodeRef_or_illegal b with ⟨r, rfl⟩ | ⟨e, he⟩
      · exact Nat.succ_lt_succ (ih r ((takeRef_encodeRef r bs _).symm.trans h))
      · cases (he bs _).symm.trans h
  | word _ ih =>
    rcases encodeWord_or_short bs with ⟨v, bs', rfl⟩ | ⟨hlen, _⟩
    · have := ih v ((takeWord_encodeWord v bs' _).symm.trans h)
      rw [List.length_append, length_encodeWord]
      omega
    · omega
  | lit wd _ ih =>
    have hwd := Machine.Width.bytes_le wd
    rcases encodeLit_or_short wd bs with ⟨v, bs', hv, rfl⟩ | ⟨hlen, _⟩
    · have := ih v hv ((takeLit_encodeLit hv bs' _).symm.trans h)
      rw [List.length_append, length_encodeLit]
      omega
    · omega
  | @check _ _ p _ _ _ _ ih =>
    by_cases hc : p
    · exact ih hc ((require_of hc _ _).symm.trans h)
    · cases (if_neg hc).symm.trans h

/-! ## Decoding the first bytes -/

/-- Bytes that follow those of an answer do not change it, but are left over (R150). -/
theorem decode_append {bs : List Byte} (h : decode bs ≠ .more) (x : List Byte) :
    decode (bs ++ x) = (decode bs).followedBy x := by
  cases bs with
  | nil => exact absurd rfl h
  | cons b bs => exact (operandReader_decodeOperands b.toNat).append h x

theorem decode_more_of_append {bs x : List Byte} (h : decode (bs ++ x) = .more) : decode bs = .more := by
  by_contra hbs
  rw [decode_append hbs] at h
  exact hbs (Decoded.followedBy_eq_more h)

/-- An unfinished instruction has fewer bytes than the longest (R136). -/
theorem length_lt_of_decode_more {bs : List Byte} (h : decode bs = .more) : bs.length < maxInstrBytes := by
  cases bs with
  | nil => decide
  | cons b bs => exact Nat.succ_lt_succ ((operandReader_decodeOperands b.toNat).length_lt h)

/-- Among the bytes of an answer there is one at which the decoder comes to it; those before it leave the instruction
unfinished (R150). -/
theorem exists_deciding_byte {bs : List Byte} (h : decode bs ≠ .more) :
    ∃ p b q, bs = p ++ b :: q ∧ decode p = .more ∧ decode bs = (decode (p ++ [b])).followedBy q := by
  induction bs using List.reverseRecOn with
  | nil => exact absurd rfl h
  | append_singleton xs b ih =>
    by_cases hxs : decode xs = .more
    · exact ⟨xs, b, [], rfl, hxs, by rw [← decode_append h, List.append_nil]⟩
    · obtain ⟨p, c, q, rfl, hp, hc⟩ := ih hxs
      have hpc : decode (p ++ [c]) ≠ .more := fun e => hxs (by rw [hc, e]; rfl)
      exact ⟨p, c, q ++ [b], by simp, hp, by rw [← decode_append hpc]; simp⟩

end Sys2Proof
end

section
/-! PROOF. Register references: which bytes are legal, and what the legal ones name; and the encodings written out in the spec;
the statements `ReferenceBytes` and `SpecWordsDecode` (spec 30_encoding.md R130, R131 and R140, 10_state.md R34). -/

namespace Sys2Proof

/-! ## Width codes and register numbers -/

theorem widthOfCode_eq_some {c : Nat} {w : Width} (h : widthOfCode c = some w) : codeOfWidth w = c := by
  unfold widthOfCode at h
  split at h <;> cases h <;> rfl

theorem widthOfCode_eq_none {c : Nat} (h : widthOfCode c = none) : 3 ≤ c := by
  by_contra hc
  have hlt : c < 3 := Nat.not_le.1 hc
  interval_cases c <;> cases h

theorem bits_eq_codeOfWidth (w : Width) :
    codeOfWidth w < 3 ∧ w.bits = if codeOfWidth w = 0 then 32 else 8 * codeOfWidth w := by
  cases w <;> decide

theorem codeOfWidth_eq_zero {w : Width} : codeOfWidth w = 0 ↔ w = .word := by
  cases w <;> decide

theorem specialOfNumber_eq_some {n : Nat} {p : SpecialReg} (h : specialOfNumber n = some p) : numberOfSpecial p = n := by
  unfold specialOfNumber at h
  split at h <;> cases h <;> rfl

theorem specialOfNumber_eq_none {n : Nat} (h : specialOfNumber n = none) (h8 : 8 ≤ n) : 14 ≤ n := by
  by_contra hc
  have hlt : n < 14 := Nat.not_le.1 hc
  interval_cases n <;> cases h

theorem numberOfSpecial_bounds (p : SpecialReg) : 8 ≤ numberOfSpecial p ∧ numberOfSpecial p < 14 := by
  cases p <;> decide

/-! ## Reference bytes -/

/-- Everything that a reference byte can be read as (R130, R131). -/
theorem parseRef_cases (b : Byte) :
    (∃ g, parseRef b = .ok (.gpr g) ∧ g.index.val = b.toNat % 16 ∧ codeOfWidth g.width = b.toNat / 16) ∨
      (∃ p, parseRef b = .ok (.special p) ∧ numberOfSpecial p = b.toNat % 16 ∧ b.toNat / 16 = 0) ∨
      (∃ e, parseRef b = .error e) ∧
        (3 ≤ b.toNat / 16 ∨ 14 ≤ b.toNat % 16 ∨ (8 ≤ b.toNat % 16 ∧ b.toNat / 16 ≠ 0)) := by
  unfold parseRef
  cases hw : widthOfCode (b.toNat / 16) with
  | none => exact .inr (.inr ⟨⟨_, rfl⟩, .inl (widthOfCode_eq_none hw)⟩)
  | some w =>
    have hcode := widthOfCode_eq_some hw
    by_cases hn : b.toNat % 16 < 8
    · exact .inl ⟨⟨⟨b.toNat % 16, hn⟩, w⟩, dif_pos hn, rfl, hcode⟩
    · simp only [dif_neg hn]
      cases hp : specialOfNumber (b.toNat % 16) with
      | none => exact .inr (.inr ⟨⟨_, rfl⟩, .inr (.inl (specialOfNumber_eq_none hp (Nat.not_lt.1 hn)))⟩)
      | some p =>
        by_cases hword : w = .word
        · exact .inr (.inl ⟨p, if_pos hword, specialOfNumber_eq_some hp, hcode ▸ codeOfWidth_eq_zero.2 hword⟩)
        · refine .inr (.inr ⟨⟨_, if_neg hword⟩, .inr (.inr ⟨Nat.not_lt.1 hn, fun hzero => hword ?_⟩)⟩)
          exact codeOfWidth_eq_zero.1 (hcode.trans hzero)

/-- Settles O3: the numbers by the table of R34; each byte is one of the three cases of `parseRef_cases`. -/
theorem referenceBytes : Obligations.ReferenceBytes := by
  refine ⟨by decide, fun b => ?_⟩
  rcases parseRef_cases b with ⟨g, hg, hindex, hcode⟩ | ⟨p, hp, hnumber, hcode⟩ | ⟨⟨e, he⟩, hbad⟩
  · obtain ⟨hlt, hbits⟩ := bits_eq_codeOfWidth g.width
    have hindexLt := g.index.isLt
    refine ⟨⟨fun ⟨e, he⟩ => (nomatch hg.symm.trans he), fun hbad => by omega⟩, fun r hr => ?_⟩
    cases hg.symm.trans hr
    exact ⟨hindex, hcode ▸ hbits⟩
  · obtain ⟨_, hlt⟩ := numberOfSpecial_bounds p
    refine ⟨⟨fun ⟨e, he⟩ => (nomatch hp.symm.trans he), fun hbad => by omega⟩, fun r hr => ?_⟩
    cases hp.symm.trans hr
    exact hnumber
  · exact ⟨⟨fun _ => hbad, fun _ => ⟨e, he⟩⟩, fun r hr => nomatch he.symm.trans hr⟩

/-- Settles O4, by running the decoder on each of the byte strings. -/
theorem specWordsDecode : Obligations.SpecWordsDecode := by
  unfold Obligations.SpecWordsDecode
  decide

end Sys2Proof
end

section
/-! PROOF. A fetch of bytes inside which no device step falls, in the state in which the CPU takes its turn: it decodes what
the bytes are or faults at the first that does not translate; the statements `StepRunsDecodedInstruction`,
`IllegalEncodingRaises` and `FetchFaultRaises` (spec 30_encoding.md R143 and R150, 60_exceptions.md R371). -/

namespace Sys2Proof.Machine

/-! ## The bytes at the pc when the CPU takes its turn -/

theorem peek_setSchedule (s : State) (r : List Agent) : peek (s.setSchedule r) = peek s :=
  funext (peek_congr rfl rfl rfl rfl rfl rfl)

theorem wordAt_setSchedule (s : State) (r : List Agent) (a : Word) : wordAt (s.setSchedule r) a = wordAt s a := by
  rw [wordAt, wordAt, peek_setSchedule]

theorem walkReads_setSchedule (s : State) (r : List Agent) (va : Word) :
    walkReads va (s.setSchedule r) = walkReads va s := by
  simp only [walkReads, State.setSchedule_mode, State.setSchedule_pdpr, wordAt_setSchedule]

theorem quiet_setSchedule {ps : List Word} {s : State} (h : Quiet ps s) (r : List Agent) : Quiet ps (s.setSchedule r) :=
  h.congr (State.setSchedule_midStep s r)

/-- The turns to come have no part in a translation inside which no device step falls. -/
theorem resolve_setSchedule {va : Word} {s : State} (h : Quiet (walkReads va s) s) (acc : Access) (r : List Agent) :
    (resolve va acc (s.setSchedule r)).1 = (resolve va acc s).1 := by
  cases hm : s.mode with
  | kernel => rw [resolve_kernel hm, resolve_kernel ((State.setSchedule_mode s r).trans hm)]
  | user =>
    have hm' : (s.setSchedule r).mode = .user := hm
    have h' : Quiet (walkReads va (s.setSchedule r)) (s.setSchedule r) := by
      rw [walkReads_setSchedule]
      exact quiet_setSchedule h r
    rw [resolve_user hm, resolve_user hm', translate_of_quiet hm h, translate_of_quiet hm' h']
    simp only [wordAt_setSchedule, State.setSchedule_pdpr]

theorem walksRead_setSchedule {acc : Access} {as : List Word} {s : State} (h : Quiet (walksRead acc as s) s)
    (r : List Agent) : walksRead acc as (s.setSchedule r) = walksRead acc as s := by
  induction as with
  | nil => rfl
  | cons a as ih =>
    rw [walksRead, quiet_append] at h
    rw [walksRead, walksRead, walkReads_setSchedule, resolve_setSchedule h.1]
    split
    · rfl
    · next hr =>
      rw [if_neg hr] at h
      rw [ih h.2]

/-- Bytes that are fetchable at the pc are so when the CPU takes its turn. -/
theorem fetchable_setSchedule {bs : List Byte} {s : State} (hf : FetchableAtPc bs s)
    (hq : Quiet (bytesAccessed .fetch s.pc bs.length s) s) (r : List Agent) :
    FetchableAtPc bs (s.setSchedule r) ∧
      Quiet (bytesAccessed .fetch s.pc bs.length (s.setSchedule r)) (s.setSchedule r) := by
  obtain ⟨ps, ht, hb⟩ := hf
  rw [quiet_bytesAccessed ht] at hq
  have ht' : Translates .fetch s.pc bs.length ps (s.setSchedule r) := by
    refine Eq.trans (List.map_congr_left fun a ha => ?_) ht
    exact resolve_setSchedule (quiet_walkReads_of_mem hq.1 (allTranslate_of_translates ht) ha) .fetch r
  refine ⟨⟨ps, ht', by rw [peek_setSchedule, hb]⟩, ?_⟩
  rw [quiet_bytesAccessed ht', walksRead_setSchedule hq.1]
  exact ⟨quiet_setSchedule hq.1 r, quiet_setSchedule hq.2 r⟩

/-! ## One byte of a fetch -/

/-- What a fetch does with the byte that it reads (R150): it ends with an instruction, ends as a check fails, or goes on. -/
theorem fetchLoop_of_byte {fuel : Nat} {got : List Byte} {b : Byte} {s t : State}
    (hr : memRead 1 (s.pc + BitVec.ofNat 32 got.length) .fetch s = .ok (b.setWidth 32) t) :
    (∀ i rest, decode (got ++ [b]) = .ok i rest → fetchLoop (fuel + 1) got s = .ok i t) ∧
      (∀ e, decode (got ++ [b]) = .illegal e → fetchLoop (fuel + 1) got s = .illegal e t) ∧
      (decode (got ++ [b]) = .more → fetchLoop (fuel + 1) got s = fetchLoop fuel (got ++ [b]) t) := by
  have hb : (b.setWidth 32).setWidth 8 = b := by simp
  rw [fetchLoop, hr]
  simp only [hb]
  exact ⟨fun i rest h => by rw [h], fun e h => by rw [h], fun h => by rw [h]⟩

theorem fetchLoop_of_pageFault {fuel : Nat} {got : List Byte} {a : Word} {s t : State}
    (hr : memRead 1 (s.pc + BitVec.ofNat 32 got.length) .fetch s = .pageFault a t) :
    fetchLoop (fuel + 1) got s = .pageFault a t := by
  rw [fetchLoop, hr]

/-! ## A whole fetch -/

section
variable {s : State}

/-- The byte that a fetch reads after the bytes `p`. -/
theorem memRead_after {p q : List Byte} {b : Byte} (hf : FetchableAtPc (p ++ b :: q) s)
    (hq : Quiet (bytesAccessed .fetch s.pc (p ++ b :: q).length s) s) :
    memRead 1 (s.pc + BitVec.ofNat 32 p.length) .fetch s = .ok (b.setWidth 32) s := by
  rw [memRead_fetched hf hq (j := p.length) (by simp), List.getElem_append_right (Nat.le_refl _)]
  simp

/-- A fetch reads on while its bytes leave the instruction unfinished (R150). -/
theorem fetch_of_more {p q : List Byte} (hf : FetchableAtPc (p ++ q) s)
    (hq : Quiet (bytesAccessed .fetch s.pc (p ++ q).length s) s) (hp : decode p = .more) :
    ∃ fuel, fetch s = fetchLoop (fuel + 1) p s := by
  have hlen := length_lt_of_decode_more hp
  suffices h : fetch s = fetchLoop (maxInstrBytes - p.length) p s from
    ⟨maxInstrBytes - p.length - 1, by rw [h]; congr 1; omega⟩
  clear hlen
  induction p using List.reverseRecOn generalizing q with
  | nil => rfl
  | append_singleton xs b ih =>
    rw [List.append_assoc] at hf hq
    have hxs := decode_more_of_append hp
    have hlen := length_lt_of_decode_more hxs
    have hstep : maxInstrBytes - xs.length = maxInstrBytes - (xs ++ [b]).length + 1 := by
      rw [List.length_append, List.length_singleton]
      omega
    obtain ⟨_, _, hmore⟩ := fetchLoop_of_byte (memRead_after hf hq)
    rw [ih hf hq hxs, hstep, hmore hp]

/-- A fetch ends as the bytes at the pc decode: with their instruction, or as the check that they fail (R150). -/
theorem fetch_of_answer {bs : List Byte} (hf : FetchableAtPc bs s)
    (hq : Quiet (bytesAccessed .fetch s.pc bs.length s) s) (h : decode bs ≠ .more) :
    (∀ i rest, decode bs = .ok i rest → fetch s = .ok i s) ∧ ∀ e, decode bs = .illegal e → fetch s = .illegal e s := by
  obtain ⟨p, b, q, rfl, hp, hd⟩ := exists_deciding_byte h
  obtain ⟨fuel, hfetch⟩ := fetch_of_more hf hq hp
  obtain ⟨hok, hillegal, _⟩ := fetchLoop_of_byte (fuel := fuel) (memRead_after hf hq)
  rw [hd, hfetch]
  refine ⟨fun i rest hi => ?_, fun e he => hillegal e (Decoded.followedBy_eq_illegal he)⟩
  obtain ⟨rest', hb⟩ := Decoded.followedBy_eq_ok hi
  exact hok i rest' hb

/-- A fetch that needs a byte whose address does not translate faults there (R150). -/
theorem fetch_of_fault {bs : List Byte} (hf : FetchableAtPc bs s)
    (hq : Quiet (bytesAccessed .fetch s.pc bs.length s) s) (h : decode bs = .more)
    (ha : (resolve (s.pc + BitVec.ofNat 32 bs.length) .fetch s).1 = none)
    (hw : Quiet (walkReads (s.pc + BitVec.ofNat 32 bs.length) s) s) :
    fetch s = .pageFault (s.pc + BitVec.ofNat 32 bs.length) s := by
  rw [← List.append_nil bs] at hf hq
  obtain ⟨fuel, hfetch⟩ := fetch_of_more hf hq h
  rw [hfetch, fetchLoop_of_pageFault (memRead_firstFault ((quiet_byte_fault ha).2 hw) (firstFault_one ha))]

end

/-! ## The step -/

/-- A running CPU that takes no queued interrupt runs one instruction, in the state in which it takes its turn (R371). -/
theorem FetchesNext.step_eq {s u : State} (h : FetchesNext s u) : step s = runInstruction u := by
  have hnone : takeEnabled u.imr u.queue = none := by
    rw [h.turn.imr_eq, h.turn.queue_eq]
    exact takeEnabled_eq_none.2 h.noInterrupt
  rw [step_of_cpuTurn h.turn, cpuStep, h.turn.runState_eq, h.running, hnone]

/-- The state in which the CPU takes its turn, with the bytes at the pc as they were. -/
theorem FetchesNext.fetchable {s u : State} {bs : List Byte} (h : FetchesNext s u) (hf : FetchableAtPc bs s)
    (hq : Quiet (bytesAccessed .fetch s.pc bs.length s) s) :
    u.pc = s.pc ∧ FetchableAtPc bs u ∧ Quiet (bytesAccessed .fetch u.pc bs.length u) u := by
  rw [h.turn.eq_setSchedule]
  exact ⟨rfl, fetchable_setSchedule hf hq u.schedule⟩

/-- Settles O5: the fetch ends with the instruction that the bytes encode. -/
theorem stepRunsDecodedInstruction : Obligations.StepRunsDecodedInstruction := by
  intro s u i hn hwf hf hq
  obtain ⟨_, hfu, hqu⟩ := hn.fetchable hf hq
  have hd : decode (encode i) = .ok i [] := by simpa using decode_encode hwf []
  obtain ⟨hok, _⟩ := fetch_of_answer hfu hqu (by rw [hd]; exact nofun)
  rw [hn.step_eq, runInstruction, hok i [] hd]

/-- Settles O6: the fetch ends as the check fails, and nothing has changed. -/
theorem illegalEncodingRaises : Obligations.IllegalEncodingRaises := by
  refine ⟨fun s u bs e hn hf hq hd => ?_, fun op rest h => decodeOperands_reserved h rest⟩
  obtain ⟨hpc, hfu, hqu⟩ := hn.fetchable hf hq
  obtain ⟨_, hillegal⟩ := fetch_of_answer hfu hqu (by rw [hd]; exact nofun)
  rw [hn.step_eq, runInstruction, hillegal e hd, ← hpc]
  rfl

/-- Settles O7: the fetch ends in a page fault at the missing byte. -/
theorem fetchFaultRaises : Obligations.FetchFaultRaises := by
  intro s u bs hn hf hd ha hq
  obtain ⟨hq, hw⟩ := quiet_append.1 hq
  obtain ⟨hpc, hfu, hqu⟩ := hn.fetchable hf hq
  have hau : (resolve (u.pc + BitVec.ofNat 32 bs.length) .fetch u).1 = none := by
    rw [hpc, hn.turn.eq_setSchedule, resolve_setSchedule hw, ha]
  have hwu : Quiet (walkReads (u.pc + BitVec.ofNat 32 bs.length) u) u := by
    rw [hpc, hn.turn.eq_setSchedule, walkReads_setSchedule]
    exact quiet_setSchedule hw u.schedule
  rw [hn.step_eq, runInstruction, fetch_of_fault hfu hqu hd hau hwu, ← hpc]
  rfl

end Sys2Proof.Machine
end

section
/-! PROOF. The control instructions: what each does where the privilege guard lets it pass, and the three words that a return
from an interrupt reads; the statements `IreturnPops` and `ControlResults` (spec 40_control.md R170 to R174). -/

namespace Sys2Proof.Machine

/-! ## Return from an interrupt -/

/-- The bytes of a part of an access are among those of the access. -/
theorem addresses_slice_subset (a : Word) {i n m : Nat} (h : i + n ≤ m) :
    addresses (a + BitVec.ofNat 32 i) n ⊆ addresses a m := by
  intro p hp
  rw [addresses_add] at hp
  obtain ⟨j, hj, rfl⟩ := List.mem_map.1 hp
  exact mem_addresses a (Nat.lt_of_lt_of_le (Nat.add_lt_add_left (List.mem_range.1 hj) i) h)

/-- A word of a frame, read where no device step falls inside the reads of the frame. -/
theorem physRead_frameWord {s : State} {k : Word} (hq : Quiet (addresses k 12) s) {i : Nat} (hi : i + 4 ≤ 12) :
    physRead 4 (k + BitVec.ofNat 32 i) s = (wordAt s (k + BitVec.ofNat 32 i), s) :=
  physRead_of_quiet (hq.mono (addresses_slice_subset k hi))

/-- R173: what a return restores from the three words at `kspr`, where no device step falls inside its reads. -/
theorem returnFromInterrupt_of_quiet {s : State} (hq : Quiet (addresses s.kspr 12) s) :
    returnFromInterrupt s = { s with
      uspr := wordAt s s.kspr
      pc := wordAt s (s.kspr + 4)
      flags := Flags.ofWord (wordAt s (s.kspr + 8))
      mode := if (wordAt s (s.kspr + 8)).getLsbD 8 then .user else .kernel
      imr := (wordAt s (s.kspr + 8)).extractLsb' 16 16
      kspr := s.kspr + 12 } := by
  have huspr : physRead 4 s.kspr s = (wordAt s s.kspr, s) := by
    simpa using physRead_frameWord hq (i := 0) (by decide)
  have hpc : physRead 4 (s.kspr + 4) s = (wordAt s (s.kspr + 4), s) := physRead_frameWord hq (i := 4) (by decide)
  have hstatus : physRead 4 (s.kspr + 8) s = (wordAt s (s.kspr + 8), s) := physRead_frameWord hq (i := 8) (by decide)
  simp only [returnFromInterrupt, huspr, hpc, hstatus]
  rfl

/-- The flags of a status word, in numbers (R36, R374). -/
theorem flags_ofWord_eq_bits (v : Word) :
    Flags.ofWord v = ⟨bit v.toNat 0, bit v.toNat 1, bit v.toNat 2, bit v.toNat 3⟩ := by
  simp only [Flags.ofWord, bit_toNat]

/-- The interrupt mask of a status word, in numbers (R374). -/
theorem extractLsb'_upperHalf (v : Word) : v.extractLsb' 16 16 = BitVec.ofNat 16 (v.toNat / 2 ^ 16) := by
  rw [BitVec.extractLsb', Nat.shiftRight_eq_div_pow]

/-- Settles O13: in kernel mode the guard lets the return pass, and its reads return the words of the frame. -/
theorem ireturnPops : Obligations.IreturnPops := by
  intro s hm hq
  rw [exec_ireturn_kernel hm, returnFromInterrupt_of_quiet hq, flags_ofWord_eq_bits, ← bit_toNat, extractLsb'_upperHalf]

/-! ## The other control instructions -/

/-- R175: the guard stops nothing in kernel mode. -/
theorem guardPrivilege_kernel {s : State} (hm : s.mode = .kernel) (p : Bool) (k : Result) : guardPrivilege p s k = k :=
  if_neg fun ⟨_, hu⟩ => Mode.noConfusion (hm.symm.trans hu)

/-- R172: `NOP` is the same in both modes. -/
theorem exec_nop (s : State) : exec .nop s = .next (s.setPc (s.pc + 1)) := rfl

/-- R174: `SYSCALL` is the same in both modes, and saves the address after its one byte. -/
theorem exec_syscall (s : State) : exec .syscall s = .next (takeInterrupt .systemCall (s.pc + 1) s) := rfl

/-- R170, with the guard of R175 passed. -/
theorem exec_halt_kernel {s : State} (hm : s.mode = .kernel) :
    exec .halt s = .next ((s.setPc (s.pc + 1)).setRunState .stopped) :=
  guardPrivilege_kernel hm true _

/-- R171, with the guard of R175 passed. -/
theorem exec_pause_kernel {s : State} (hm : s.mode = .kernel) :
    exec .pause s = .next ((s.setPc (s.pc + 1)).setRunState .paused) :=
  guardPrivilege_kernel hm true _

/-- Settles O16: the rules of the four instructions. -/
theorem controlResults : Obligations.ControlResults :=
  ⟨exec_nop, exec_syscall, fun _ => exec_halt_kernel, fun _ => exec_pause_kernel⟩

end Sys2Proof.Machine
end

section
/-! PROOF. Data moved between registers and from memory into a register: the statements `LoadResult`, `CopyResult` and
`SwapRegisters` (spec 41_data_movement.md R190, R191, R194, R195 and R198). -/

namespace Sys2Proof.Machine

/-! ## LOAD and COPY -/

/-- R190, R191: a permitted load whose bytes translate ends in the register written and the pc advanced. -/
theorem loadFrom_translates {n : Nat} {dst : Ref} {addr : Word} {ps : List Word} {s : State} (hp : Permitted dst s)
    (ht : Translates .read addr dst.width.bytes ps s) (hq : Quiet (bytesAccessed .read addr dst.width.bytes s) s) :
    loadFrom n dst addr s = .next (advance n (writeRef dst (beWord (ps.map (peek s))) s)) := by
  rw [loadFrom, guardPrivilege_permitted hp, memRead_translates hq ht, MemResult.finish_ok]

/-- Settles O32: both forms load, from the literal address or from the one that the source register holds. -/
theorem loadResult : Obligations.LoadResult := by
  intro dst s ps hp
  exact ⟨fun _ ht hq => ⟨_, loadFrom_translates hp ht hq, writesRef_advance 6 dst _ s⟩,
    fun _ ht hq => ⟨_, loadFrom_translates hp ht hq, writesRef_advance 3 dst _ s⟩⟩

/-- Settles O34: behind the guard both forms are one register write and the pc's advance. -/
theorem copyResult : Obligations.CopyResult :=
  ⟨fun dst src s _ hdst hsrc =>
      ⟨_, guardPrivilege_permitted_both hdst hsrc, writesRef_advance 3 dst (readRef src s) s⟩,
    fun dst lit s _ hdst => ⟨_, guardPrivilege_permitted hdst, writesRef_advance (2 + dst.width.bytes) dst lit s⟩⟩

/-! ## What a register write leaves of the other registers -/

/-- A general register that the reference does not name keeps its value. -/
theorem readReg_writeRef_other {r : Ref} {j : Fin 8} (h : ∀ g, .gpr g = r → g.index ≠ j) (v : Word) (s : State) :
    readReg j (writeRef r v s) = readReg j s := by
  cases r with
  | gpr g => exact readReg_writeReg_other _ s (h g rfl).symm
  | special p => exact readReg_congr (writeSpecial_regs p v s) j

/-- R32: the bits of a general register above the width written keep their value, whichever register is written. -/
theorem readReg_writeRef_shiftRight (r : Ref) (v : Word) (s : State) (j : Fin 8) :
    readReg j (writeRef r v s) >>> r.width.bits = readReg j s >>> r.width.bits := by
  by_cases h : ∀ g, .gpr g = r → g.index ≠ j
  · rw [readReg_writeRef_other h]
  · push Not at h
    obtain ⟨g, rfl, rfl⟩ := h
    exact (onlyViewChanged_writeG g _ s).2

/-- A special register that the reference does not name keeps its value. -/
theorem readSpecial_writeRef_other {r : Ref} {p : SpecialReg} (h : .special p ≠ r) (v : Word) (s : State) :
    readSpecial p (writeRef r v s) = readSpecial p s := by
  cases r with
  | gpr g => exact readSpecial_writeG p g _ s
  | special q => exact readSpecial_writeSpecial_other v s fun hpq => h (hpq ▸ rfl)

/-- A write of one register leaves what another reference of the same width reads. -/
theorem readRef_writeRef_other {a b : Ref} (hw : a.width = b.width) (hab : a ≠ b) (v : Word) (s : State) :
    readRef a (writeRef b v s) = readRef a s := by
  cases a with
  | gpr g =>
    have hindex : ∀ g', .gpr g' = b → g'.index ≠ g.index := by
      rintro g' rfl hi
      exact hab (congrArg Ref.gpr (GRef.mk.injEq .. ▸ ⟨hi.symm, hw⟩))
    simp only [readRef, readG, readReg_writeRef_other hindex]
  | special p => exact readSpecial_writeRef_other hab v s

/-! ## SWAP of two registers -/

/-- The state after `a` has received the value of `b` and `b` the one that `a` held (R198). -/
def swapRefs (a b : Ref) (s : State) : State := writeRef b (readRef a s) (writeRef a (readRef b s) s)

/-- R198: a permitted swap of registers is their exchange and the pc's advance. -/
theorem exec_swapRR {a b : Ref} {s : State} (ha : Permitted a s) (hb : Permitted b s) :
    exec (.swapRR a b) s = .next (advance 3 (swapRefs a b s)) :=
  guardPrivilege_permitted_both ha hb

/-- The first register holds the other's value: the write of the second leaves it alone, or is a write of the same value. -/
theorem readRef_swapRefs_left {a b : Ref} (hw : a.width = b.width) (s : State) :
    readRef a (swapRefs a b s) = storedValue a (readRef b s) := by
  by_cases hab : a = b
  · subst hab
    exact readRef_writeRef_same a _ _
  · rw [swapRefs, readRef_writeRef_other hw hab, readRef_writeRef_same]

theorem readRef_swapRefs_right (a b : Ref) (s : State) : readRef b (swapRefs a b s) = storedValue b (readRef a s) :=
  readRef_writeRef_same b _ _

theorem readReg_swapRefs_other {a b : Ref} {j : Fin 8} (h : ∀ g, .gpr g = a ∨ .gpr g = b → g.index ≠ j) (s : State) :
    readReg j (swapRefs a b s) = readReg j s := by
  rw [swapRefs, readReg_writeRef_other fun g hg => h g (.inr hg), readReg_writeRef_other fun g hg => h g (.inl hg)]

/-- R32: the bits outside the views exchanged keep their values. -/
theorem readReg_swapRefs_shiftRight {a b : Ref} (hw : a.width = b.width) (s : State) (j : Fin 8) :
    readReg j (swapRefs a b s) >>> a.width.bits = readReg j s >>> a.width.bits := by
  rw [swapRefs, hw, readReg_writeRef_shiftRight, ← hw, readReg_writeRef_shiftRight]

theorem readSpecial_swapRefs_other {a b : Ref} {p : SpecialReg} (ha : .special p ≠ a) (hb : .special p ≠ b) (s : State) :
    readSpecial p (swapRefs a b s) = readSpecial p s := by
  rw [swapRefs, readSpecial_writeRef_other hb, readSpecial_writeRef_other ha]

/-- Registers written in one state after another are registers written. -/
theorem SameOutsideRegisters.trans {s t u : State} (h : SameOutsideRegisters s t) (k : SameOutsideRegisters t u) :
    SameOutsideRegisters s u := by
  have hu : withRegistersOf u t = withRegistersOf u s := by
    rw [h]
    rfl
  exact Eq.trans k hu

theorem SameOutsideRegisters.peek {s t : State} (h : SameOutsideRegisters s t) (a : Word) : peek t a = peek s a := by
  rw [h]
  exact peek_congr rfl rfl rfl rfl rfl rfl a

theorem sameOutsideRegisters_advance (n : Nat) (s : State) : SameOutsideRegisters s (advance n s) := rfl

theorem sameOutsideRegisters_swapRefs (a b : Ref) (s : State) : SameOutsideRegisters s (swapRefs a b s) :=
  (sameOutsideRegisters_writeRef a _ s).trans (sameOutsideRegisters_writeRef b _ _)

/-- Settles O35: the two writes exchange the registers, and neither touches what the other names unless they name the same. -/
theorem swapRegisters : Obligations.SwapRegisters := by
  intro a b s hw ha hb
  have helsewhere := (sameOutsideRegisters_swapRefs a b s).trans (sameOutsideRegisters_advance 3 _)
  refine ⟨_, exec_swapRR ha hb, ?_, ?_, ?_, fun j hj => readReg_swapRefs_other hj s, fun g hg => ?_, fun p hpa hpb => ?_,
    helsewhere, helsewhere.peek⟩
  · rw [advance_pc, swapRefs, writeRef_pc, writeRef_pc]
    rfl
  · rw [readRef_advance, readRef_swapRefs_left hw]
  · rw [readRef_advance, readRef_swapRefs_right]
  · have hview := readReg_swapRefs_shiftRight hw s g.index
    have hg' : g.width = a.width := by
      rcases hg with rfl | rfl
      · rfl
      · exact hw.symm
    rw [readReg_advance, hg', hview]
  · rw [readSpecial_advance, readSpecial_swapRefs_other hpa hpb]

end Sys2Proof.Machine
end

section
/-! PROOF. Registers stored to memory: what the stores of an instruction leave when its register updates follow them, said once;
and the statements `StoreResult`, `SwapMemory` and `StackResults` (spec 41_data_movement.md R192, R193, R196, R197, R199 and
R200). -/

namespace Sys2Proof.Machine

/-! ## Stores followed by register updates -/

/-- Registers updated after a store change no byte. -/
theorem StoresBytes.updateRegisters {ps : List Word} {bs : List Byte} {s u t : State} (h : StoresBytes ps bs s u)
    (k : OnlyRegistersChanged u t) : StoresBytes ps bs s t :=
  h.congr (fun _ => rfl) k.peek

/-- The bytes that an access of a register's width stores, its physical addresses being all different (R90, R96). -/
theorem storesBytes_of_translates {w : Width} {va : Word} {ps : List Word} {bs : List Byte} {s : State} (hi : Inv s)
    (ht : Translates .write va w.bytes ps s) : StoresBytes ps bs s (pokes (ps.zip bs) s) :=
  storesBytes_pokes hi (nodup_translates ht (Width.bytes_le w))

theorem OnlyMemoryChanged.setPc {s t : State} (h : OnlyMemoryChanged s t) (v : Word) :
    OnlyMemoryChanged (s.setPc v) (t.setPc v) :=
  { h with pc := rfl }

theorem OnlyMemoryChanged.setActiveSp {s t : State} (h : OnlyMemoryChanged s t) (v : Word) :
    OnlyMemoryChanged (setActiveSp v s) (setActiveSp v t) := by
  unfold Machine.setActiveSp
  rw [h.mode]
  cases s.mode with
  | kernel => exact { h with kspr := rfl }
  | user => exact { h with uspr := rfl }

/-- Registers updated after a store: with its registers given to the state before, only memory has changed. -/
theorem OnlyMemoryChanged.updateRegisters {s u t : State} (h : OnlyMemoryChanged s u) (k : SameOutsideRegisters u t) :
    OnlyMemoryChanged (withRegistersOf t s) t := by
  rw [k]
  exact { h with regs := rfl, pc := rfl, flags := rfl, uspr := rfl, kspr := rfl, pdpr := rfl, imr := rfl, pfva := rfl }

/-- A state that has the same registers may stand before a register write in place of the one written to. -/
theorem OnlyRefChanged.of_sameRegisters {r : Ref} {s u t : State} (h : OnlyRefChanged r u t) (k : SameRegisters s u) :
    OnlyRefChanged r s t := by
  cases r with
  | gpr g =>
    obtain ⟨⟨hothers, hview⟩, hspecial⟩ := h
    exact ⟨⟨fun j hj => (hothers j hj).trans (readReg_congr k.regs j), readReg_congr k.regs g.index ▸ hview⟩,
      fun p => (hspecial p).trans (k.readSpecial_eq p)⟩
  | special q =>
    obtain ⟨hregs, hspecial⟩ := h
    exact ⟨hregs.trans k.regs, fun p hp => (hspecial p hp).trans (k.readSpecial_eq p)⟩

/-- The pc after byte writes and the pc's advance. -/
theorem advance_pokes (n : Nat) (cs : List (Word × Byte)) (s : State) :
    advance n (pokes cs s) = (pokes cs s).setPc (s.pc + BitVec.ofNat 32 n) := by
  rw [advance, (onlyMemoryChanged_pokes cs s).pc]

/-! ## STORE -/

/-- R192, R193: a permitted store whose bytes translate is the writes of its bytes and the pc's advance. -/
theorem storeTo_translates {n : Nat} {addr : Word} {src : Ref} {ps : List Word} {s : State} (hp : Permitted src s)
    (ht : Translates .write addr src.width.bytes ps s) (hq : Quiet (bytesAccessed .write addr src.width.bytes s) s) :
    storeTo n addr src s =
      .next ((pokes (ps.zip (beBytes src.width.bytes (readRef src s))) s).setPc (s.pc + BitVec.ofNat 32 n)) := by
  rw [storeTo, guardPrivilege_permitted hp, memWrite_translates hq ht, MemResult.finish_ok, advance_pokes]

/-- Settles O33: both forms store, to the literal address or to the one that the address register holds. -/
theorem storeResult : Obligations.StoreResult := by
  intro src s ps hi hp
  have stores {addr : Word} (ht : Translates .write addr src.width.bytes ps s) (pc : Word) :=
    (storesBytes_of_translates (bs := beBytes src.width.bytes (readRef src s)) hi ht).updateRegisters
      (t := (pokes (ps.zip (beBytes src.width.bytes (readRef src s))) s).setPc pc) rfl
  have frame (pc : Word) := (onlyMemoryChanged_pokes (ps.zip (beBytes src.width.bytes (readRef src s))) s).setPc pc
  exact ⟨fun _ ht hq => ⟨_, storeTo_translates hp ht hq, rfl, stores ht _, frame _⟩,
    fun _ ht hq => ⟨_, storeTo_translates hp ht hq, rfl, stores ht _, frame _⟩⟩

/-! ## SWAP with memory -/

/-- R196, R197: a permitted swap whose bytes translate for reading and for writing exchanges them with the register. -/
theorem swapWith_translates {n : Nat} {reg : Ref} {addr : Word} {ps : List Word} {s : State} (hi : Inv s)
    (hp : Permitted reg s) (hread : Translates .read addr reg.width.bytes ps s)
    (hwrite : Translates .write addr reg.width.bytes ps s) (hq : Quiet (bytesSwapped addr reg.width.bytes s) s) :
    ∃ t, swapWith n reg addr s = .next t ∧ t.pc = s.pc + BitVec.ofNat 32 n ∧
      readRef reg t = storedValue reg (beWord (ps.map (peek s))) ∧ OnlyRefChanged reg s t ∧
      t = withRegistersOf t (pokes (ps.zip (beBytes reg.width.bytes (readRef reg s))) s) ∧
      StoresBytes ps (beBytes reg.width.bytes (readRef reg s)) s t ∧ OnlyMemoryChanged (withRegistersOf t s) t := by
  have hmem := onlyMemoryChanged_pokes (ps.zip (beBytes reg.width.bytes (readRef reg s))) s
  have hwrites := writesRef_advance n reg (beWord (ps.map (peek s)))
    (pokes (ps.zip (beBytes reg.width.bytes (readRef reg s))) s)
  refine ⟨_, by rw [swapWith, guardPrivilege_permitted hp, memSwap_translates hq hread hwrite, MemResult.finish_ok], ?_,
    hwrites.value, hwrites.others.of_sameRegisters hmem.toSameRegisters, hwrites.elsewhere, ?_,
    hmem.updateRegisters hwrites.elsewhere⟩
  · rw [hwrites.pc, hmem.pc]
  · exact (storesBytes_of_translates hi hwrite).updateRegisters (onlyRegistersChanged_advance_writeRef n reg _ _)

/-- Settles O36: both forms swap, with the literal address or with the one that the address register holds. -/
theorem swapMemory : Obligations.SwapMemory := by
  intro reg s ps hi hp
  exact ⟨fun _ hread hwrite hq => swapWith_translates hi hp hread hwrite hq,
    fun _ hread hwrite hq => swapWith_translates hi hp hread hwrite hq⟩

/-! ## PUSH and POP -/

@[simp] theorem setActiveSp_pc (v : Word) (s : State) : (setActiveSp v s).pc = s.pc := by
  unfold setActiveSp
  split
  · rfl
  · rfl

/-- R199: a permitted push whose bytes translate is the writes of its bytes, the stack pointer's move and the pc's advance. -/
theorem exec_push_translates {src : Ref} {ps : List Word} {s : State} (hp : Permitted src s)
    (ht : Translates .write (activeSp s - BitVec.ofNat 32 src.width.bytes) src.width.bytes ps s)
    (hq : Quiet (accessesOf (.push src) s) s) :
    exec (.push src) s = .next ((setActiveSp (activeSp s - BitVec.ofNat 32 src.width.bytes)
      (pokes (ps.zip (beBytes src.width.bytes (readRef src s))) s)).setPc (s.pc + 2)) := by
  have hpush : exec (.push src) s = execPush src s := rfl
  rw [hpush, execPush, guardPrivilege_permitted hp, memWrite_translates hq ht, MemResult.finish_ok, advance,
    setActiveSp_pc, (onlyMemoryChanged_pokes _ s).pc]
  rfl

/-- R200: a permitted pop whose bytes translate moves the stack pointer, writes the register and advances the pc. -/
theorem exec_pop_translates {dst : Ref} {ps : List Word} {s : State} (hp : Permitted dst s)
    (ht : Translates .read (activeSp s) dst.width.bytes ps s) (hq : Quiet (accessesOf (.pop dst) s) s) :
    exec (.pop dst) s = .next (advance 2 (writeRef dst (beWord (ps.map (peek s)))
      (setActiveSp (activeSp s + BitVec.ofNat 32 dst.width.bytes) s))) := by
  have hpop : exec (.pop dst) s = execPop dst s := rfl
  rw [hpop, execPop, guardPrivilege_permitted hp, memRead_translates hq ht, MemResult.finish_ok]

/-- Settles O37: the push's updates follow its writes, and the pop's register write follows the stack pointer's move. -/
theorem stackResults : Obligations.StackResults := by
  intro r s ps hp
  refine ⟨fun hi ht hq => ⟨_, exec_push_translates hp ht hq, rfl, ?_, ?_⟩,
    fun ht hq => ⟨_, exec_pop_translates hp ht hq, writesRef_advance 2 r _ _⟩⟩
  · exact (storesBytes_of_translates hi ht).updateRegisters
      ((onlyRegistersChanged_setActiveSp _ _).trans (t := setActiveSp _ _) rfl)
  · exact ((onlyMemoryChanged_pokes _ s).setActiveSp _).setPc _

end Sys2Proof.Machine
end

section
/-! PROOF. The block instructions as runs of byte steps: a loop of steps that keep the registers completes or stops at its first
fault, and the loops of `BLOCKCOPY` and `BLOCKSET` are such loops; the statement `BlockInstructions` (spec 41_data_movement.md
R203 and R204, 20_memory.md R95 to R97). -/

namespace Sys2Proof.Machine

/-! ## Loops of byte steps -/

/-- The byte steps numbered from `k` on, `n` of them, one after another up to the first that faults. -/
def byteLoop (f : Nat → State → MemResult Unit) : Nat → Nat → State → MemResult Unit
  | 0, _, s => .ok () s
  | n + 1, k, s => (f k s).bind fun _ t => byteLoop f n (k + 1) t

/-- Byte steps from `k` on, after those before `k`: all complete, or one of them is the first to fault. -/
theorem byteLoop_cases {f : Nat → State → MemResult Unit} {s u : State} {k : Nat} (n : Nat) (h : ByteRun f k s u) :
    (∃ t, ByteRun f (k + n) s t ∧ byteLoop f n k u = .ok () t) ∨
      ∃ j v a t, j < k + n ∧ ByteRun f j s v ∧ f j v = .pageFault a t ∧ byteLoop f n k u = .pageFault a t := by
  induction n generalizing k u with
  | zero => exact .inl ⟨u, h, rfl⟩
  | succ n ih =>
    cases e : f k u with
    | ok _ t =>
      have hnext : byteLoop f (n + 1) k u = byteLoop f n (k + 1) t := by rw [byteLoop, e, MemResult.bind_ok]
      rw [hnext, ← Nat.succ_add_eq_add_succ]
      exact ih ⟨u, h, e⟩
    | pageFault a t =>
      exact .inr ⟨k, u, a, t, by omega, h, e, by rw [byteLoop, e, MemResult.bind_pageFault]⟩

/-- Byte steps that are accesses of memory keep every register. -/
theorem ByteRun.keepsCpu {f : Nat → State → MemResult Unit} (hf : ∀ k, AccessLaws (f k)) {n : Nat} {s t : State}
    (h : ByteRun f n s t) : KeepsCpu s t := by
  induction n generalizing t with
  | zero => exact h ▸ KeepsCpu.refl s
  | succ n ih =>
    obtain ⟨u, hu, e⟩ := h
    have hstep := (hf n).keeps u
    rw [e] at hstep
    exact (ih hu).trans hstep

/-- An instruction that is a loop of byte steps and then the pc's advance runs them up to the first that faults (R203). -/
theorem blockRuns_of_byteLoop {i : Instr} {c : Nat} {f : Nat → State → MemResult Unit} {s : State}
    (hf : ∀ k, AccessLaws (f k)) (h : exec i s = (byteLoop f c 0 s).finish fun _ u => advance 4 u) :
    BlockRuns i c f s := by
  rw [BlockRuns, h]
  rcases byteLoop_cases (f := f) (k := 0) c rfl with ⟨t, hrun, e⟩ | ⟨j, v, a, t, hj, hrun, hfault, e⟩
  · rw [Nat.zero_add] at hrun
    refine .inl ⟨t, hrun, ?_⟩
    rw [e, MemResult.finish_ok, advance, (hrun.keepsCpu hf).pc]
    rfl
  · exact .inr ⟨j, v, t, a, by omega, hrun, hfault, by rw [e, MemResult.finish_pageFault]⟩

/-- In kernel mode no byte step faults, so the instruction completes (R94). -/
theorem BlockRuns.complete {i : Instr} {c : Nat} {f : Nat → State → MemResult Unit} {s : State}
    (hf : ∀ k, AccessLaws (f k)) (h : BlockRuns i c f s) (hm : s.mode = .kernel) :
    ∃ u, ByteRun f c s u ∧ exec i s = .next (u.setPc (s.pc + 4)) := by
  rcases h with h | ⟨k, u, v, a, _, hrun, hfault, _⟩
  · exact h
  · have huser := (hf k).faults u a v hfault
    rw [(hrun.keepsCpu hf).mode, hm] at huser
    cases huser

/-! ## The loops of the block instructions -/

/-- Byte step `i` of a block copy from `x` to `d` (R203). -/
def copyByte (d x : Word) (i : Nat) (u : State) : MemResult Unit :=
  (memRead 1 (x + BitVec.ofNat 32 i) .read u).bind fun b v => memWrite 1 (d + BitVec.ofNat 32 i) b v

/-- Byte step `i` of a block set of `v` from `d` on (R204). -/
def setByte (d v : Word) (i : Nat) (u : State) : MemResult Unit := memWrite 1 (d + BitVec.ofNat 32 i) v u

theorem accessLaws_copyByte (d x : Word) (i : Nat) : AccessLaws (copyByte d x i) :=
  (accessLaws_memRead 1 _ .read).bind fun b => accessLaws_memWrite 1 _ b

theorem accessLaws_setByte (d v : Word) (i : Nat) : AccessLaws (setByte d v i) := accessLaws_memWrite 1 _ v

theorem add_ofNat_add_one (a : Word) (k : Nat) : a + BitVec.ofNat 32 k + 1 = a + BitVec.ofNat 32 (k + 1) := by
  rw [BitVec.ofNat_add, ← BitVec.add_assoc]
  rfl

theorem MemResult.bind_assoc {α β γ : Type} (r : MemResult α) (f : α → State → MemResult β)
    (g : β → State → MemResult γ) : (r.bind f).bind g = r.bind fun v s => (f v s).bind g := by
  cases r with
  | ok v s => rfl
  | pageFault va s => rfl

theorem blockCopyLoop_eq_byteLoop (d x : Word) (n k : Nat) (s : State) :
    blockCopyLoop n (d + BitVec.ofNat 32 k) (x + BitVec.ofNat 32 k) s = byteLoop (copyByte d x) n k s := by
  induction n generalizing k s with
  | zero => rfl
  | succ n ih => simp only [blockCopyLoop, byteLoop, copyByte, MemResult.bind_assoc, add_ofNat_add_one, ih]

theorem blockSetLoop_eq_byteLoop (d v : Word) (n k : Nat) (s : State) :
    blockSetLoop n (d + BitVec.ofNat 32 k) v s = byteLoop (setByte d v) n k s := by
  induction n generalizing k s with
  | zero => rfl
  | succ n ih => simp only [blockSetLoop, byteLoop, setByte, add_ofNat_add_one, ih]

theorem blockRuns_blockcopy (count dst src : Fin 8) (s : State) :
    BlockRuns (.blockcopy count dst src) (readReg count s).toNat (copyByte (readReg dst s) (readReg src s)) s := by
  refine blockRuns_of_byteLoop (accessLaws_copyByte _ _) ?_
  rw [← blockCopyLoop_eq_byteLoop, BitVec.add_zero, BitVec.add_zero]
  rfl

theorem blockRuns_blockset (count dst value : Fin 8) (s : State) :
    BlockRuns (.blockset count dst value) (readReg count s).toNat (setByte (readReg dst s) (readReg value s)) s := by
  refine blockRuns_of_byteLoop (accessLaws_setByte _ _) ?_
  rw [← blockSetLoop_eq_byteLoop, BitVec.add_zero]
  rfl

/-! ## What one byte step does -/

/-- A read of one byte that does not translate (R95). -/
theorem memRead_byte_fault {va : Word} {acc : Access} {s : State} (h : (resolve va acc s).1 = none)
    (hq : Quiet (walkReads va s) s) : memRead 1 va acc s = .pageFault va s :=
  memRead_firstFault ((quiet_byte_fault h).2 hq) (firstFault_one h)

/-- A write of one byte that does not translate (R96). -/
theorem memWrite_byte_fault {va : Word} {s : State} (h : (resolve va .write s).1 = none) (hq : Quiet (walkReads va s) s)
    (v : Word) : memWrite 1 va v s = .pageFault va s :=
  memWrite_firstFault ((quiet_byte_fault h).2 hq) (firstFault_one h)

/-- The low byte of a byte read is the byte. -/
theorem setWidth_setWidth_byte (b : Byte) : (b.setWidth 32 : Word).setWidth 8 = b := by
  rw [BitVec.setWidth_setWidth_of_le b (by decide), BitVec.setWidth_eq]

theorem copyByte_source_fault {d x : Word} {i : Nat} {u : State}
    (h : (resolve (x + BitVec.ofNat 32 i) .read u).1 = none) (hq : Quiet (walkReads (x + BitVec.ofNat 32 i) u) u) :
    copyByte d x i u = .pageFault (x + BitVec.ofNat 32 i) u := by
  rw [copyByte, memRead_byte_fault h hq, MemResult.bind_pageFault]

/-- The source byte is read, and the write faults. -/
theorem copyByte_destination_fault {d x p : Word} {i : Nat} {u : State}
    (hx : (resolve (x + BitVec.ofNat 32 i) .read u).1 = some p)
    (hd : (resolve (d + BitVec.ofNat 32 i) .write u).1 = none)
    (hq : Quiet (walkReads (x + BitVec.ofNat 32 i) u ++ p :: walkReads (d + BitVec.ofNat 32 i) u) u) :
    copyByte d x i u = .pageFault (d + BitVec.ofNat 32 i) u := by
  rw [← List.singleton_append, quiet_append, quiet_append] at hq
  obtain ⟨hqx, hqp, hqd⟩ := hq
  rw [copyByte, memRead_byte hx hqx hqp, MemResult.bind_ok, memWrite_byte_fault hd hqd]

theorem copyByte_of_resolve {d x p q : Word} {i : Nat} {u : State}
    (hx : (resolve (x + BitVec.ofNat 32 i) .read u).1 = some p)
    (hd : (resolve (d + BitVec.ofNat 32 i) .write u).1 = some q)
    (hq : Quiet (walkReads (x + BitVec.ofNat 32 i) u ++ p :: walkReads (d + BitVec.ofNat 32 i) u ++ [q]) u) :
    copyByte d x i u = .ok () (poke q (peek u p) u) := by
  rw [quiet_append, ← List.singleton_append, quiet_append, quiet_append] at hq
  obtain ⟨⟨hqx, hqp, hqd⟩, hqq⟩ := hq
  rw [copyByte, memRead_byte hx hqx hqp, MemResult.bind_ok, memWrite_byte hd hqd hqq, setWidth_setWidth_byte]

/-- Settles O38: both instructions are loops of their byte steps, which are accesses of one byte. -/
theorem blockInstructions : Obligations.BlockInstructions := by
  intro count dst src s copyStep setStep hcopy hset
  obtain rfl : copyStep = copyByte (readReg dst s) (readReg src s) := hcopy
  obtain rfl : setStep = setByte (readReg dst s) (readReg src s) := hset
  have hcopies := blockRuns_blockcopy count dst src s
  have hsets := blockRuns_blockset count dst src s
  refine ⟨hcopies, hsets, fun hm => ⟨hcopies.complete (accessLaws_copyByte _ _) hm,
    hsets.complete (accessLaws_setByte _ _) hm⟩, ?_⟩
  rintro i u _ _ rfl rfl
  exact ⟨copyByte_source_fault, fun _ hx hd hq => copyByte_destination_fault hx hd hq,
    fun _ _ hx hd hq => copyByte_of_resolve hx hd hq, fun hd hq => memWrite_byte_fault hd hq _,
    fun _ hd hq => memWrite_byte hd (quiet_append.1 hq).1 (quiet_append.1 hq).2 _⟩

end Sys2Proof.Machine
end

section
/-! PROOF. The block instructions in kernel mode: the bytes that a block set stores, and what a block copy into the RAM array
leaves in its destination, whichever way the ranges overlap; the statements `BlockSetKernel` and `BlockCopyInRam` (spec
41_data_movement.md R203 and R204, 20_memory.md R73). -/

namespace Sys2Proof.Machine

/-! ## BLOCKSET -/

/-- R204: in kernel mode a block set is the writes of its bytes and the pc's advance. -/
theorem exec_blockset_kernel {count dst value : Fin 8} {s : State} (hm : s.mode = .kernel)
    (hq : Quiet (accessesOf (.blockset count dst value) s) s) :
    exec (.blockset count dst value) s =
      .next ((pokes ((addresses (readReg dst s) (readReg count s).toNat).zip
        (List.replicate (readReg count s).toNat ((readReg value s).setWidth 8))) s).setPc (s.pc + 4)) := by
  have hset : exec (.blockset count dst value) s = execBlockset count dst value s := rfl
  rw [hset, execBlockset, blockSetLoop_kernel hm hq, MemResult.finish_ok, advance_pokes]
  rfl

/-- Settles O40: the bytes of the destination are all different, so each keeps what is written to it. -/
theorem blockSetKernel : Obligations.BlockSetKernel := by
  rintro count dst value s _ _ hm hi hq rfl rfl
  have hdistinct : (addresses (readReg dst s) (readReg count s).toNat).Nodup :=
    nodup_addresses _ (readReg count s).isLt.le
  exact ⟨_, exec_blockset_kernel hm hq, rfl, (storesBytes_pokes hi hdistinct).updateRegisters rfl,
    (onlyMemoryChanged_pokes _ s).setPc _⟩

/-! ## BLOCKCOPY -/

/-- R203: in kernel mode a block copy is the copies of its bytes and the pc's advance. -/
theorem exec_blockcopy_kernel {count dst src : Fin 8} {s : State} (hm : s.mode = .kernel)
    (hq : Quiet (accessesOf (.blockcopy count dst src) s) s) :
    exec (.blockcopy count dst src) s =
      .next ((copyPokes (readReg dst s) (readReg src s) (readReg count s).toNat s).setPc (s.pc + 4)) := by
  have hcopy : exec (.blockcopy count dst src) s = execBlockcopy count dst src s := rfl
  rw [hcopy, execBlockcopy, blockCopyLoop_kernel hm hq, MemResult.finish_ok, advance,
    (onlyMemoryChanged_copyPokes _ _ _ s).pc]
  rfl

theorem InRamArray.writable {a : Word} (h : InRamArray a) : Writable a := by
  unfold Writable
  rcases h with h | h
  · rw [h]; trivial
  · rw [h]; trivial

theorem Inv.copyPokes {s : State} (h : Inv s) (d x : Word) (n : Nat) : Inv (copyPokes d x n s) := by
  induction n with
  | zero => exact h
  | succ n ih => exact ih.poke _ _

/-- A write to the RAM array leaves every other byte as it reads: no command is among the bytes written (R73, R414). -/
theorem peek_poke_of_inRamArray {pa a : Word} (h : InRamArray pa) (ha : a ≠ pa) (b : Byte) (s : State) :
    peek (poke pa b s) a = peek s a :=
  peek_poke_other ha fun d _ hd => not_writable_cmdAddress d (hd ▸ h.writable)

theorem addresses_mono (a : Word) {m n : Nat} (h : m ≤ n) : addresses a m ⊆ addresses a n :=
  List.map_subset _ (List.range_subset.2 h)

/-- A copy whose destination is in the RAM array changes nothing but RAM (R73). -/
theorem copyPokes_eq_setRam {d x : Word} {n : Nat} {s : State} (h : ∀ a ∈ addresses d n, InRamArray a) :
    copyPokes d x n s = s.setRam (copyPokes d x n s).ram := by
  induction n with
  | zero => rfl
  | succ n ih =>
    have hbefore := ih fun a ha => h a (addresses_mono d (Nat.le_succ n) ha)
    rw [copyPokes, poke_of_inRamArray (h _ (mem_addresses d (Nat.lt_succ_self n))), hbefore]
    rfl

/-- A byte outside the destination reads as before. -/
theorem peek_copyPokes_other {d x a : Word} {n : Nat} {s : State} (h : ∀ a ∈ addresses d n, InRamArray a)
    (ha : a ∉ addresses d n) : peek (copyPokes d x n s) a = peek s a := by
  induction n with
  | zero => rfl
  | succ n ih =>
    have hsub := addresses_mono d (Nat.le_succ n)
    have hlast := mem_addresses d (Nat.lt_succ_self n)
    have hne : a ≠ d + BitVec.ofNat 32 n := fun e => ha (e ▸ hlast)
    rw [copyPokes, peek_poke_of_inRamArray (h _ hlast) hne]
    exact ih (fun b hb => h b (hsub hb)) fun hmem => ha (hsub hmem)

/-- The next source byte is not yet written where the destination starts with the source, or more than `n` bytes after it. -/
theorem source_not_mem_addresses {d x : Word} {n : Nat} (hn : n < 2 ^ 32)
    (h : ¬ (0 < (d - x).toNat ∧ (d - x).toNat ≤ n)) : x + BitVec.ofNat 32 n ∉ addresses d n := by
  intro hmem
  obtain ⟨j, hj, e⟩ := List.mem_map.1 hmem
  have hnat := congrArg BitVec.toNat e
  rw [List.mem_range] at hj
  rw [BitVec.toNat_add, BitVec.toNat_add, BitVec.toNat_ofNat, BitVec.toNat_ofNat] at hnat
  rw [BitVec.toNat_sub] at h
  omega

/-- Else it is the byte of the destination that lies the distance of the two starts further back. -/
theorem source_eq_destination {d x : Word} {n : Nat} (h : (d - x).toNat ≤ n) :
    x + BitVec.ofNat 32 n = d + BitVec.ofNat 32 (n - (d - x).toNat) := by
  apply BitVec.eq_of_toNat_eq
  rw [BitVec.toNat_add, BitVec.toNat_add, BitVec.toNat_ofNat, BitVec.toNat_ofNat]
  rw [BitVec.toNat_sub] at h ⊢
  omega

/-- R203: byte `i` of a destination in the RAM array receives the source byte at `i` modulo the distance of the two starts: a
forward fill where the destination starts inside the source, and a move where it does not. -/
theorem peek_copyPokes {d x : Word} {n : Nat} {s : State} (hi : Inv s) (hn : n ≤ 2 ^ 32)
    (h : ∀ a ∈ addresses d n, InRamArray a) {i : Nat} (hlt : i < n) :
    peek (copyPokes d x n s) (d + BitVec.ofNat 32 i) = peek s (x + BitVec.ofNat 32 (i % (d - x).toNat)) := by
  induction n generalizing i with
  | zero => omega
  | succ n ih =>
    have hlast := h _ (mem_addresses d (Nat.lt_succ_self n))
    have hbefore : ∀ a ∈ addresses d n, InRamArray a := fun a ha => h a (addresses_mono d (Nat.le_succ n) ha)
    rw [copyPokes]
    rcases Nat.lt_succ_iff_lt_or_eq.1 hlt with hin | rfl
    · have hne : d + BitVec.ofNat 32 i ≠ d + BitVec.ofNat 32 n := by
        intro e
        have hnat := congrArg BitVec.toNat e
        rw [BitVec.toNat_add, BitVec.toNat_add, BitVec.toNat_ofNat, BitVec.toNat_ofNat] at hnat
        omega
      rw [peek_poke_of_inRamArray hlast hne]
      exact ih (by omega) hbefore hin
    · rw [peek_poke_same _ (hi.copyPokes d x i) hlast.writable]
      by_cases hover : 0 < (d - x).toNat ∧ (d - x).toNat ≤ i
      · -- the source byte was itself written by this copy
        rw [source_eq_destination hover.2, ih (by omega) hbefore (by omega), ← Nat.mod_eq_sub_mod hover.2]
      · -- the source byte is as it was before the copy
        have hmod : i % (d - x).toNat = i := by
          rcases Nat.eq_zero_or_pos (d - x).toNat with hzero | hpos
          · rw [hzero, Nat.mod_zero]
          · exact Nat.mod_eq_of_lt (by omega)
        rw [peek_copyPokes_other hbefore (source_not_mem_addresses (by omega) hover), hmod]

/-- Settles O39: the copy is its bytes in order, and in the RAM array their reads back are known. -/
theorem blockCopyInRam : Obligations.BlockCopyInRam := by
  rintro count dst src s _ _ _ rfl rfl rfl hm hq
  refine ⟨_, exec_blockcopy_kernel hm hq, rfl, fun hi hram => ⟨fun i hlt => ?_, fun a ha => ?_, ?_⟩⟩
  · exact peek_copyPokes hi (readReg count s).isLt.le hram hlt
  · exact peek_copyPokes_other hram ha
  · rw [copyPokes_eq_setRam hram]
    rfl

end Sys2Proof.Machine
end

section
/-! PROOF. The instructions that write a result with its flags, in numbers: the operands and flags of the model's bit vectors as
the numbers that the rules speak of, and the two shapes `TwoOperand` and `OneOperand` from what an operation computes at every
width (spec 42_arithmetic.md R230, 43_bitwise.md R260). -/

namespace Sys2Proof.Machine

/-! ## Bit vectors as numbers -/

theorem Width.bits_pos (w : Width) : 0 < w.bits := by
  cases w <;> decide

theorem signed_toNat {w : Nat} (hw : 0 < w) (a : BitVec w) : signed w a.toNat = a.toInt := by
  have hpow : 2 ^ w = 2 * 2 ^ (w - 1) := by rw [← Nat.pow_succ', Nat.succ_eq_add_one, Nat.sub_add_cancel hw]
  have hiff : 2 * a.toNat < 2 ^ w ↔ a.toNat < 2 ^ (w - 1) := by omega
  simp only [signed, BitVec.toInt_eq_toNat_cond, hiff, Nat.cast_pow, Nat.cast_ofNat]

theorem eq_zero_iff_toNat {w : Nat} {a : BitVec w} : a = 0 ↔ a.toNat = 0 :=
  BitVec.toNat_inj.symm

theorem natCast_toNat_ofInt (w : Nat) (z : Int) : ((BitVec.ofInt w z).toNat : Int) = z % 2 ^ w := by
  rw [BitVec.toNat_ofInt, Int.toNat_of_nonneg (Int.emod_nonneg _ (by positivity)), Nat.cast_pow, Nat.cast_ofNat]

theorem natCast_toNat_sub {w : Nat} (a b : BitVec w) :
    ((a - b).toNat : Int) = ((a.toNat : Int) - b.toNat) % 2 ^ w := by
  have hb : b.toNat ≤ 2 ^ w := b.isLt.le
  have hshift : (2 : Int) ^ w - b.toNat + a.toNat = a.toNat - b.toNat + 2 ^ w := by ring
  rw [BitVec.toNat_sub, Int.natCast_emod, Nat.cast_add, Nat.cast_sub hb, Nat.cast_pow, Nat.cast_ofNat, hshift,
    Int.add_emod_right]

/-! ## Flags -/

theorem signedOverflow_iff (w : Nat) (v : Int) : signedOverflow w v = true ↔ OutsideSigned w v := by
  simp only [signedOverflow, OutsideSigned, decide_eq_true_eq]

theorem flagsOfResult_eq {w : Nat} (r : BitVec w) (c o : Bool) : flagsOfResult r c o = resultFlags w r.toNat c o := by
  simp only [flagsOfResult, resultFlags, BitVec.msb_eq_decide, eq_zero_iff_toNat]

/-- Everything that a result written with its own flags does, in numbers (R230, R260). -/
theorem writesView_aluResult (len : Nat) (g : GRef) (r : BitVec g.width.bits) (c o : Bool) (s : State) :
    WritesView len g r.toNat (resultFlags g.width.bits r.toNat c o) s (writeResult len g (aluResult r c o) s) := by
  rw [← flagsOfResult_eq]
  exact writesView_writeResult len g (aluResult r c o) s

/-! ## Operands -/

theorem toNat_sourceValue {dst src : GRef} (h : SameWidth dst.width src.width) (s : State) :
    (sourceValue dst src s).toNat = (readG src s).toNat := by
  rw [sourceValue, BitVec.toNat_setWidth, h, Nat.mod_eq_of_lt (readG src s).isLt]

theorem toNat_literalValue {dst : GRef} {lit : Word} (h : LitFits dst.width lit) :
    (literalValue dst lit).toNat = lit.toNat := by
  rw [literalValue, BitVec.toNat_setWidth, Nat.mod_eq_of_lt h]

/-! ## What an operation computes -/

/-- At every width, for operands that the guard allows and either carry before, the operation is a result with its own `Z` and
`N`, and its numbers meet the rule: `TwoOperand` without the machine. -/
def Computes (f : Bool → (w : Nat) → BitVec w → BitVec w → AluResult w) (guard : Nat → Prop)
    (rule : (w a b : Nat) → (carry : Bool) → (r : Nat) → (c o : Bool) → Prop) : Prop :=
  ∀ (w : Nat) (a b : BitVec w) (carry : Bool), 0 < w → guard b.toNat →
    ∃ r c o, f carry w a b = aluResult r c o ∧ rule w a.toNat b.toNat carry r.toNat c o

/-- An instruction whose two forms apply an operation to its two operands does what the operation computes. -/
theorem Computes.twoOperand {f : Bool → (w : Nat) → BitVec w → BitVec w → AluResult w} {guard : Nat → Prop}
    {rule : (w a b : Nat) → (carry : Bool) → (r : Nat) → (c o : Bool) → Prop}
    {regForm : GRef → GRef → Instr} {litForm : GRef → Word → Instr} (h : Computes f guard rule)
    (register : ∀ dst src s, guard (sourceValue dst src s).toNat →
      exec (regForm dst src) s = aluReg (f s.flags.c) dst src s)
    (literal : ∀ dst lit s, guard (literalValue dst lit).toNat →
      exec (litForm dst lit) s = aluLit (f s.flags.c) dst lit s) : TwoOperand regForm litForm guard rule where
  register := by
    intro dst src s hw hg
    rw [← toNat_sourceValue hw] at hg ⊢
    obtain ⟨r, c, o, hf, hrule⟩ := h _ (readG dst s) (sourceValue dst src s) s.flags.c (Width.bits_pos dst.width) hg
    exact ⟨_, r.toNat, c, o, by rw [register dst src s hg, aluReg, hf], hrule, writesView_aluResult 3 dst r c o s⟩
  literal := by
    intro dst lit s hfits hg
    rw [← toNat_literalValue hfits] at hg ⊢
    obtain ⟨r, c, o, hf, hrule⟩ := h _ (readG dst s) (literalValue dst lit) s.flags.c (Width.bits_pos dst.width) hg
    exact ⟨_, r.toNat, c, o, by rw [literal dst lit s hg, aluLit, hf], hrule,
      writesView_aluResult (literalLength dst) dst r c o s⟩

/-- A one-operand instruction does what its operation computes. -/
theorem oneOperand_of_aluOne {f : (w : Nat) → BitVec w → AluResult w} {rule : (w a r : Nat) → (c o : Bool) → Prop}
    {form : GRef → Instr} (meaning : ∀ dst s, exec (form dst) s = aluOne f dst s)
    (computes : ∀ (w : Nat) (a : BitVec w), 0 < w →
      ∃ r c o, f w a = aluResult r c o ∧ rule w a.toNat r.toNat c o) : OneOperand form rule := by
  intro dst s
  obtain ⟨r, c, o, hf, hrule⟩ := computes _ (readG dst s) (Width.bits_pos dst.width)
  exact ⟨_, r.toNat, c, o, by rw [meaning, aluOne, hf], hrule, writesView_aluResult 2 dst r c o s⟩

end Sys2Proof.Machine
end

section
/-! PROOF. The arithmetic instructions: what each operation computes at every width, the two ends of a division, and the
statements `ArithmeticResults` and `DivisionResults` (spec 42_arithmetic.md R230 to R236, 60_exceptions.md R354). -/

namespace Sys2Proof.Machine

/-! ## ADD, SUB, MUL and NEG -/

/-- R231. -/
theorem computes_aluAdd : Computes (fun _ => aluAdd) (fun _ => True) (fun w a b _ r c o =>
    r = (a + b) % 2 ^ w ∧ (c = true ↔ 2 ^ w ≤ a + b) ∧ (o = true ↔ OutsideSigned w (signed w a + signed w b))) := by
  intro w a b _ hw _
  refine ⟨_, _, _, rfl, BitVec.toNat_add a b, decide_eq_true_iff, ?_⟩
  rw [addOverflow, signedOverflow_iff, signed_toNat hw, signed_toNat hw]

/-- R232. -/
theorem computes_aluSub : Computes (fun _ => aluSub) (fun _ => True) (fun w a b _ r c o =>
    (r : Int) = ((a : Int) - b) % 2 ^ w ∧ (c = true ↔ a < b) ∧
      (o = true ↔ OutsideSigned w (signed w a - signed w b))) := by
  intro w a b _ hw _
  refine ⟨_, _, _, rfl, natCast_toNat_sub a b, decide_eq_true_iff, ?_⟩
  rw [subOverflow, signedOverflow_iff, signed_toNat hw, signed_toNat hw]

/-- R233. -/
theorem computes_aluMul : Computes (fun _ => aluMul) (fun _ => True) (fun w a b _ r c o =>
    r = a * b % 2 ^ w ∧ (c = true ↔ 2 ^ w ≤ a * b) ∧ (o = true ↔ OutsideSigned w (signed w a * signed w b))) := by
  intro w a b _ hw _
  refine ⟨_, _, _, rfl, BitVec.toNat_mul a b, decide_eq_true_iff, ?_⟩
  rw [mulOverflow, signedOverflow_iff, signed_toNat hw, signed_toNat hw]

/-- R236. -/
theorem aluNeg_computes (w : Nat) (a : BitVec w) (hw : 0 < w) : ∃ r c o, aluNeg w a = aluResult r c o ∧
    (r.toNat : Int) = (-(a.toNat : Int)) % 2 ^ w ∧ (c = true ↔ a.toNat ≠ 0) ∧ (o = true ↔ a.toNat = 2 ^ (w - 1)) := by
  refine ⟨_, _, _, rfl, ?_, ?_, ?_⟩
  · rw [natCast_toNat_sub, eq_zero_iff_toNat.1 rfl, Nat.cast_zero, Int.zero_sub]
  · rw [decide_eq_true_iff, Ne, eq_zero_iff_toNat]
  · rw [decide_eq_true_iff, ← BitVec.toNat_inj, BitVec.toNat_intMin_of_pos hw]

/-- Settles O41: each instruction applies its operation in both forms, and each operation computes its rule. -/
theorem arithmeticResults : Obligations.ArithmeticResults :=
  ⟨computes_aluAdd.twoOperand (fun _ _ _ _ => rfl) fun _ _ _ _ => rfl,
    computes_aluSub.twoOperand (fun _ _ _ _ => rfl) fun _ _ _ _ => rfl,
    computes_aluMul.twoOperand (fun _ _ _ _ => rfl) fun _ _ _ _ => rfl,
    oneOperand_of_aluOne (fun _ _ => rfl) aluNeg_computes⟩

/-! ## UDIV and SDIV -/

/-- R234: a quotient of numbers is no larger than its dividend, so that it fits. -/
theorem computes_aluUdiv : Computes (fun _ => aluUdiv) (fun b => b ≠ 0) (fun _ a b _ r c o =>
    r = a / b ∧ c = false ∧ o = false) := by
  intro w a b _ _ _
  refine ⟨_, _, _, rfl, ?_, rfl, rfl⟩
  rw [BitVec.toNat_ofNat, Nat.mod_eq_of_lt (lt_of_le_of_lt (Nat.div_le_self _ _) a.isLt)]

/-- R235. -/
theorem computes_aluSdiv : Computes (fun _ => aluSdiv) (fun b => b ≠ 0) (fun w a b _ r c o =>
    c = false ∧
    (signed w a = -(2 ^ (w - 1)) ∧ signed w b = -1 → r = 2 ^ (w - 1) ∧ o = true) ∧
    (¬ (signed w a = -(2 ^ (w - 1)) ∧ signed w b = -1) →
      (r : Int) = (signed w a).tdiv (signed w b) % 2 ^ w ∧ o = false)) := by
  intro w a b _ hw _
  simp only [signed_toNat hw]
  by_cases hover : a.toInt = -(2 ^ (w - 1)) ∧ b.toInt = -1
  · exact ⟨_, _, _, if_pos (decide_eq_true hover), rfl, fun _ => ⟨BitVec.toNat_intMin_of_pos hw, rfl⟩,
      fun hno => absurd hover hno⟩
  · exact ⟨_, _, _, if_neg (by rwa [divOverflow, decide_eq_true_iff]), rfl, fun hyes => absurd hyes hover,
      fun _ => ⟨natCast_toNat_ofInt w _, rfl⟩⟩

section
variable {len : Nat} {f : (w : Nat) → BitVec w → BitVec w → AluResult w} {dst : GRef} {b : BitVec dst.width.bits}
  {s : State}

theorem divide_of_toNat_ne_zero (h : b.toNat ≠ 0) :
    divide len f dst b s = .next (writeResult len dst (f dst.width.bits (readG dst s) b) s) :=
  if_neg (mt eq_zero_iff_toNat.1 h)

theorem divide_of_toNat_eq_zero (h : b.toNat = 0) :
    divide len f dst b s = .next (takeInterrupt .divideByZero s.pc s) :=
  if_pos (eq_zero_iff_toNat.2 h)

end

/-- Settles O42: with a divisor that is not zero a division is its operation, with a zero divisor it is the entry. -/
theorem divisionResults : Obligations.DivisionResults := by
  refine ⟨computes_aluUdiv.twoOperand (fun _ _ _ => divide_of_toNat_ne_zero) fun _ _ _ => divide_of_toNat_ne_zero,
    computes_aluSdiv.twoOperand (fun _ _ _ => divide_of_toNat_ne_zero) fun _ _ _ => divide_of_toNat_ne_zero,
    fun dst src s => ⟨fun hw hsrc => ?_, ?_, ?_⟩⟩
  · have hzero : (sourceValue dst src s).toNat = 0 := (toNat_sourceValue hw s).trans (eq_zero_iff_toNat.1 hsrc)
    exact ⟨divide_of_toNat_eq_zero hzero, divide_of_toNat_eq_zero hzero⟩
  · exact divide_of_toNat_eq_zero (toNat_literalValue dst.width.bits.two_pow_pos)
  · exact divide_of_toNat_eq_zero (toNat_literalValue dst.width.bits.two_pow_pos)

end Sys2Proof.Machine
end

section
/-! PROOF. The logical instructions and the shifts: what each operation computes at every width and, for the shifts, for every
count, and the statements `LogicResults` and `ShiftResults` (spec 43_bitwise.md R261 to R268). -/

namespace Sys2Proof.Machine

/-! ## AND, OR, XOR and NOT -/

/-- R261. -/
theorem computes_aluAnd : Computes (fun _ => aluAnd) (fun _ => True) (fun w a b _ r c o =>
    (∀ i, i < w → bit r i = (bit a i && bit b i)) ∧ c = false ∧ o = false) := by
  intro w a b _ _ _
  refine ⟨_, _, _, rfl, fun i _ => ?_, rfl, rfl⟩
  simp only [bit_toNat, BitVec.getLsbD_and]

/-- R262. -/
theorem computes_aluOr : Computes (fun _ => aluOr) (fun _ => True) (fun w a b _ r c o =>
    (∀ i, i < w → bit r i = (bit a i || bit b i)) ∧ c = false ∧ o = false) := by
  intro w a b _ _ _
  refine ⟨_, _, _, rfl, fun i _ => ?_, rfl, rfl⟩
  simp only [bit_toNat, BitVec.getLsbD_or]

/-- R263. -/
theorem computes_aluXor : Computes (fun _ => aluXor) (fun _ => True) (fun w a b _ r c o =>
    (∀ i, i < w → bit r i = (bit a i ^^ bit b i)) ∧ c = false ∧ o = false) := by
  intro w a b _ _ _
  refine ⟨_, _, _, rfl, fun i _ => ?_, rfl, rfl⟩
  simp only [bit_toNat, BitVec.getLsbD_xor]

/-- R264: an exclusive or with all ones turns every bit of the width. -/
theorem aluNot_computes (w : Nat) (a : BitVec w) (_ : 0 < w) : ∃ r c o, aluNot w a = aluResult r c o ∧
    (∀ i, i < w → bit r.toNat i = !bit a.toNat i) ∧ c = false ∧ o = false := by
  refine ⟨_, _, _, rfl, fun i hi => ?_, rfl, rfl⟩
  simp only [bit_toNat, BitVec.getLsbD_xor, BitVec.getLsbD_allOnes, hi, decide_true, Bool.xor_true]

/-- Settles O43: each instruction applies its operation in both forms, and each operation acts on the bits one by one. -/
theorem logicResults : Obligations.LogicResults :=
  ⟨computes_aluAnd.twoOperand (fun _ _ _ _ => rfl) fun _ _ _ _ => rfl,
    computes_aluOr.twoOperand (fun _ _ _ _ => rfl) fun _ _ _ _ => rfl,
    computes_aluXor.twoOperand (fun _ _ _ _ => rfl) fun _ _ _ _ => rfl,
    oneOperand_of_aluOne (fun _ _ => rfl) aluNot_computes⟩

/-! ## SHL, SHR and SAR -/

/-- R266. -/
theorem computes_aluShl : Computes (fun _ => aluShl) (fun _ => True) (fun w a n _ r c o =>
    r = (if w ≤ n then 0 else a * 2 ^ n % 2 ^ w) ∧ c = (if 1 ≤ n ∧ n ≤ w then bit a (w - n) else false) ∧
      o = false) := by
  intro w a b _ _ _
  refine ⟨_, _, _, rfl, ?_, ?_, rfl⟩
  · split
    · rfl
    · rw [BitVec.toNat_ofNat]
  · rw [bit_toNat, shlCarry]

/-- R267: a shift to the right gives no larger number, so that it fits. -/
theorem computes_aluShr : Computes (fun _ => aluShr) (fun _ => True) (fun w a n _ r c o =>
    r = (if w ≤ n then 0 else a / 2 ^ n) ∧ c = (if 1 ≤ n ∧ n ≤ w then bit a (n - 1) else false) ∧ o = false) := by
  intro w a b _ _ _
  refine ⟨_, _, _, rfl, ?_, ?_, rfl⟩
  · split
    · rfl
    · rw [BitVec.toNat_ofNat, Nat.mod_eq_of_lt (lt_of_le_of_lt (Nat.div_le_self _ _) a.isLt)]
  · rw [bit_toNat, shrCarry]

/-- R268. -/
theorem computes_aluSar : Computes (fun _ => aluSar) (fun _ => True) (fun w a n _ r c o =>
    (w ≤ n → r = if bit a (w - 1) then 2 ^ w - 1 else 0) ∧ (n < w → (r : Int) = signed w a / 2 ^ n % 2 ^ w) ∧
    c = (if n = 0 then false else if n ≤ w then bit a (n - 1) else bit a (w - 1)) ∧ o = false) := by
  intro w a b _ hw _
  refine ⟨_, _, _, rfl, fun hle => ?_, fun hlt => ?_, ?_, rfl⟩
  · rw [if_pos hle, bit_toNat]
    split
    · exact BitVec.toNat_allOnes
    · rfl
  · rw [if_neg (Nat.not_le.2 hlt), natCast_toNat_ofInt, signed_toNat hw, Nat.cast_pow, Nat.cast_ofNat]
  · rw [bit_toNat, bit_toNat, sarCarry]

/-- Settles O44: each instruction applies its shift in both forms, and each shift computes its rule for every count. -/
theorem shiftResults : Obligations.ShiftResults :=
  ⟨computes_aluShl.twoOperand (fun _ _ _ _ => rfl) fun _ _ _ _ => rfl,
    computes_aluShr.twoOperand (fun _ _ _ _ => rfl) fun _ _ _ _ => rfl,
    computes_aluSar.twoOperand (fun _ _ _ _ => rfl) fun _ _ _ _ => rfl⟩

end Sys2Proof.Machine
end

section
/-! PROOF. Rotations of bit vectors: where each bit comes from, how rotations compose, what number results; and the rotates ROL
and ROR, whose values these rotations are, with the statement `RotateResults` (spec 43_bitwise.md R269 and R270). -/

namespace Sys2Proof.Machine

/-! ## Rotations of bit vectors, bit by bit -/

/-- Bit `i` of a rotation to the left comes from `n` places below, round the width. -/
theorem getLsbD_rotateLeft_mod {w i : Nat} (hi : i < w) (a : BitVec w) (n : Nat) :
    (a.rotateLeft n).getLsbD i = a.getLsbD ((i + w - n % w) % w) := by
  have hn : n % w < w := Nat.mod_lt n (Nat.zero_lt_of_lt hi)
  rw [BitVec.getLsbD_rotateLeft]
  by_cases h : i < n % w
  · have hround : (i + w - n % w) % w = w - n % w + i := by
      rw [Nat.mod_eq_of_lt (show i + w - n % w < w by omega)]
      omega
    rw [decide_eq_true h, cond_true, hround]
  · have hround : (i + w - n % w) % w = i - n % w := by
      rw [show i + w - n % w = i - n % w + w by omega, Nat.add_mod_right, Nat.mod_eq_of_lt (show i - n % w < w by omega)]
    rw [decide_eq_false h, cond_false, decide_eq_true hi, Bool.true_and, hround]

/-- Bit `i` of a rotation to the right comes from `n` places above, round the width. -/
theorem getLsbD_rotateRight_mod {w i : Nat} (hi : i < w) (a : BitVec w) (n : Nat) :
    (a.rotateRight n).getLsbD i = a.getLsbD ((i + n % w) % w) := by
  have hn : n % w < w := Nat.mod_lt n (Nat.zero_lt_of_lt hi)
  rw [BitVec.getLsbD_rotateRight]
  by_cases h : i < w - n % w
  · rw [decide_eq_true h, cond_true, Nat.add_comm i, Nat.mod_eq_of_lt (show n % w + i < w by omega)]
  · have hround : (i + n % w) % w = i - (w - n % w) := by
      rw [show i + n % w = i - (w - n % w) + w by omega, Nat.add_mod_right,
        Nat.mod_eq_of_lt (show i - (w - n % w) < w by omega)]
    rw [decide_eq_false h, cond_false, decide_eq_true hi, Bool.true_and, hround]

theorem rotateLeft_zero {w : Nat} (x : BitVec w) : x.rotateLeft 0 = x := by
  simp [BitVec.rotateLeft_def, BitVec.ushiftRight_eq_zero]

theorem rotateRight_zero {w : Nat} (x : BitVec w) : x.rotateRight 0 = x := by
  simp [BitVec.rotateRight_def]

theorem rotateRight_rotateLeft {w : Nat} (x : BitVec w) (n : Nat) : (x.rotateLeft n).rotateRight n = x := by
  apply BitVec.eq_of_getLsbD_eq
  intro i hi
  have hn : n % w < w := Nat.mod_lt n (Nat.zero_lt_of_lt hi)
  have hback : ((i + n % w) % w + w - n % w) % w = i := by
    rw [Nat.add_sub_assoc hn.le, Nat.mod_add_mod, show i + n % w + (w - n % w) = i + w by omega, Nat.add_mod_right,
      Nat.mod_eq_of_lt hi]
  rw [getLsbD_rotateRight_mod hi, getLsbD_rotateLeft_mod (Nat.mod_lt _ (Nat.zero_lt_of_lt hi)), hback]

theorem rotateLeft_rotateRight {w : Nat} (x : BitVec w) (n : Nat) : (x.rotateRight n).rotateLeft n = x := by
  apply BitVec.eq_of_getLsbD_eq
  intro i hi
  have hn : n % w < w := Nat.mod_lt n (Nat.zero_lt_of_lt hi)
  have hback : ((i + w - n % w) % w + n % w) % w = i := by
    rw [Nat.mod_add_mod, show i + w - n % w + n % w = i + w by omega, Nat.add_mod_right, Nat.mod_eq_of_lt hi]
  rw [getLsbD_rotateLeft_mod hi, getLsbD_rotateRight_mod (Nat.mod_lt _ (Nat.zero_lt_of_lt hi)), hback]

theorem rotateLeft_one_rotateLeft {w n : Nat} (h : n + 1 < w) (x : BitVec w) :
    (x.rotateLeft 1).rotateLeft n = x.rotateLeft (n + 1) := by
  apply BitVec.eq_of_getLsbD_eq
  intro i hi
  have hturn : ((i + w - n) % w + w - 1) % w = (i + w - (n + 1)) % w := by
    rw [Nat.add_sub_assoc (show 1 ≤ w by omega), Nat.mod_add_mod,
      show i + w - n + (w - 1) = i + w - (n + 1) + w by omega, Nat.add_mod_right]
  rw [getLsbD_rotateLeft_mod hi, getLsbD_rotateLeft_mod (Nat.mod_lt _ (Nat.zero_lt_of_lt hi)),
    getLsbD_rotateLeft_mod hi, Nat.mod_eq_of_lt h, Nat.mod_eq_of_lt (show n < w by omega),
    Nat.mod_eq_of_lt (show 1 < w by omega), hturn]

theorem rotateRight_one_rotateRight {w : Nat} (x : BitVec w) (n : Nat) :
    (x.rotateRight 1).rotateRight n = x.rotateRight (n + 1) := by
  apply BitVec.eq_of_getLsbD_eq
  intro i hi
  have hturn : ((i + n % w) % w + 1 % w) % w = (i + (n + 1) % w) % w := by
    simp only [Nat.add_mod_mod, Nat.mod_add_mod, Nat.add_assoc]
  rw [getLsbD_rotateRight_mod hi, getLsbD_rotateRight_mod (Nat.mod_lt _ (Nat.zero_lt_of_lt hi)),
    getLsbD_rotateRight_mod hi, hturn]

/-! ## Rotations in numbers -/

/-- Bits shifted up by `k` and a number of `k` bits put in below them do not overlap. -/
theorem mul_two_pow_mod_or {k m b : Nat} (hk : k ≤ m) (hb : b < 2 ^ k) (a : Nat) :
    a * 2 ^ k % 2 ^ m ||| b = a * 2 ^ k % 2 ^ m + b := by
  have hsplit : 2 ^ m = 2 ^ (m - k) * 2 ^ k := by rw [← Nat.pow_add, Nat.sub_add_cancel hk]
  rw [hsplit, Nat.mul_mod_mul_right, ← Nat.shiftLeft_eq, Nat.shiftLeft_add_eq_or_of_lt hb]

theorem toNat_rotateLeft_add {w : Nat} (hw : 0 < w) (x : BitVec w) (n : Nat) :
    (x.rotateLeft n).toNat = x.toNat * 2 ^ (n % w) % 2 ^ w + x.toNat / 2 ^ (w - n % w) := by
  have hn : n % w ≤ w := (Nat.mod_lt n hw).le
  have hlow : x.toNat / 2 ^ (w - n % w) < 2 ^ (n % w) := by
    apply Nat.div_lt_of_lt_mul
    rw [← Nat.pow_add, Nat.sub_add_cancel hn]
    exact x.isLt
  rw [BitVec.toNat_rotateLeft, Nat.shiftLeft_eq, Nat.shiftRight_eq_div_pow, mul_two_pow_mod_or hn hlow]

theorem toNat_rotateRight_add {w : Nat} (hw : 0 < w) (x : BitVec w) (n : Nat) :
    (x.rotateRight n).toNat = x.toNat / 2 ^ (n % w) + x.toNat * 2 ^ (w - n % w) % 2 ^ w := by
  have hn : n % w ≤ w := (Nat.mod_lt n hw).le
  have hlow : x.toNat / 2 ^ (n % w) < 2 ^ (w - n % w) := by
    apply Nat.div_lt_of_lt_mul
    rw [← Nat.pow_add, Nat.add_sub_cancel' hn]
    exact x.isLt
  rw [BitVec.toNat_rotateRight, Nat.shiftLeft_eq, Nat.shiftRight_eq_div_pow, Nat.or_comm,
    mul_two_pow_mod_or (Nat.sub_le _ _) hlow, Nat.add_comm]

/-! ## ROL and ROR -/

theorem rotateLeftValue_eq {w : Nat} (a : BitVec w) (n : Nat) : rotateLeftValue w a (n % w) = a.rotateLeft n := by
  apply BitVec.eq_of_toNat_eq
  rw [rotateLeftValue, BitVec.toNat_ofNat, ← Nat.shiftLeft_eq, ← Nat.shiftRight_eq_div_pow, ← BitVec.toNat_rotateLeft,
    Nat.mod_eq_of_lt (BitVec.isLt _)]

theorem rotateRightValue_eq {w : Nat} (a : BitVec w) (n : Nat) : rotateRightValue w a (n % w) = a.rotateRight n := by
  apply BitVec.eq_of_toNat_eq
  rw [rotateRightValue, BitVec.toNat_ofNat, ← Nat.shiftLeft_eq, ← Nat.shiftRight_eq_div_pow, ← BitVec.toNat_rotateRight,
    Nat.mod_eq_of_lt (BitVec.isLt _)]

/-- R269. -/
theorem computes_aluRol : Computes (fun _ => aluRol) (fun _ => True) (fun w a n _ r c o =>
    (∀ i, i < w → bit r i = bit a ((i + w - n % w) % w)) ∧ c = (decide (n ≠ 0) && bit r 0) ∧ o = false) := by
  intro w a b _ _ _
  refine ⟨_, _, _, rfl, fun i hi => ?_, ?_, rfl⟩
  · rw [bit_toNat, bit_toNat, rotateLeftValue_eq, getLsbD_rotateLeft_mod hi]
  · rw [bit_toNat]

/-- R270. -/
theorem computes_aluRor : Computes (fun _ => aluRor) (fun _ => True) (fun w a n _ r c o =>
    (∀ i, i < w → bit r i = bit a ((i + n % w) % w)) ∧ c = (decide (n ≠ 0) && bit r (w - 1)) ∧ o = false) := by
  intro w a b _ _ _
  refine ⟨_, _, _, rfl, fun i hi => ?_, ?_, rfl⟩
  · rw [bit_toNat, bit_toNat, rotateRightValue_eq, getLsbD_rotateRight_mod hi]
  · rw [bit_toNat]

/-- Settles O45: each instruction applies its rotation in both forms, and each rotation moves the bits round the width. -/
theorem rotateResults : Obligations.RotateResults :=
  ⟨computes_aluRol.twoOperand (fun _ _ _ _ => rfl) fun _ _ _ _ => rfl,
    computes_aluRor.twoOperand (fun _ _ _ _ => rfl) fun _ _ _ _ => rfl⟩

end Sys2Proof.Machine
end

section
/-! PROOF. The rotates through carry: each is a rotation of the vector of `w + 1` bits that the carry tops, so that the rotations
of vectors say what they do; the statements `RclRcrInverse` and `RotateCarryResults` (spec 43_bitwise.md R271 to R273). -/

namespace Sys2Proof.Machine

/-! ## The one-bit rotates through carry, in numbers -/

theorem toNat_setWidth_ofBool {w : Nat} (hw : 0 < w) (c : Bool) : ((BitVec.ofBool c).setWidth w).toNat = c.toNat := by
  have hone : 1 < 2 ^ w := Nat.one_lt_two_pow hw.ne'
  rw [BitVec.toNat_setWidth, BitVec.toNat_ofBool, Nat.mod_eq_of_lt (c.toNat_le.trans_lt hone)]

theorem toNat_rclOnce {w : Nat} (hw : 0 < w) (x : BitVec w) (c : Bool) :
    (rclOnce (x, c)).1.toNat = x.toNat * 2 % 2 ^ w + c.toNat := by
  have hc : c.toNat < 2 ^ 1 := c.toNat_lt
  rw [rclOnce, BitVec.toNat_or, BitVec.toNat_shiftLeft, toNat_setWidth_ofBool hw, Nat.shiftLeft_eq,
    mul_two_pow_mod_or hw hc, Nat.pow_one]

theorem toNat_rcrOnce {w : Nat} (hw : 0 < w) (x : BitVec w) (c : Bool) :
    (rcrOnce (x, c)).1.toNat = x.toNat / 2 + c.toNat * 2 ^ (w - 1) := by
  have hpow : 2 ^ w = 2 * 2 ^ (w - 1) := by rw [← Nat.pow_succ', Nat.succ_eq_add_one, Nat.sub_add_cancel hw]
  have hx := x.isLt
  have hfits : c.toNat * 2 ^ (w - 1) < 2 ^ w := by
    rw [hpow]
    exact Nat.mul_lt_mul_of_pos_right c.toNat_lt (Nat.two_pow_pos _)
  have hor := mul_two_pow_mod_or (Nat.sub_le w 1) (show x.toNat / 2 < 2 ^ (w - 1) by omega) c.toNat
  rw [Nat.mod_eq_of_lt hfits] at hor
  rw [rcrOnce, BitVec.toNat_or, BitVec.toNat_shiftLeft, toNat_setWidth_ofBool hw, BitVec.toNat_ushiftRight,
    Nat.shiftLeft_eq, Nat.mod_eq_of_lt hfits, Nat.shiftRight_eq_div_pow, Nat.pow_one, Nat.or_comm, hor, Nat.add_comm]

/-! ## The vector whose top bit is the carry -/

/-- A value and the carry above it, as one vector (R272, R273). -/
def withCarry {w : Nat} (p : BitVec w × Bool) : BitVec (w + 1) := BitVec.cons p.2 p.1

theorem toNat_withCarry {w : Nat} (p : BitVec w × Bool) : (withCarry p).toNat = p.2.toNat * 2 ^ w + p.1.toNat := by
  rw [withCarry, BitVec.toNat_cons', Nat.shiftLeft_eq]

theorem getLsbD_withCarry {w : Nat} (p : BitVec w × Bool) (i : Nat) :
    (withCarry p).getLsbD i = if i = w then p.2 else p.1.getLsbD i :=
  BitVec.getLsbD_cons p.2 p.1 i

theorem withCarry_injective {w : Nat} : Function.Injective (withCarry (w := w)) := by
  intro p q h
  have hvalue := congrArg (BitVec.setWidth w) h
  have hcarry := congrArg BitVec.msb h
  rw [withCarry, withCarry, BitVec.setWidth_cons, BitVec.setWidth_cons] at hvalue
  rw [withCarry, withCarry, BitVec.msb_cons, BitVec.msb_cons] at hcarry
  exact Prod.ext hvalue hcarry

theorem getLsbD_rclOnce {w i : Nat} (hi : i < w) (p : BitVec w × Bool) :
    (rclOnce p).1.getLsbD i = if i = 0 then p.2 else p.1.getLsbD (i - 1) := by
  rw [rclOnce, BitVec.getLsbD_or, BitVec.getLsbD_shiftLeft, BitVec.getLsbD_setWidth, BitVec.getLsbD_ofBool]
  by_cases h : i = 0
  · simp [h, Nat.zero_lt_of_lt hi]
  · simp [h, hi]

theorem getLsbD_rcrOnce {w i : Nat} (hi : i < w) (p : BitVec w × Bool) :
    (rcrOnce p).1.getLsbD i = if i = w - 1 then p.2 else p.1.getLsbD (i + 1) := by
  rw [rcrOnce, BitVec.getLsbD_or, BitVec.getLsbD_ushiftRight, BitVec.getLsbD_shiftLeft, BitVec.getLsbD_setWidth,
    BitVec.getLsbD_ofBool]
  by_cases h : i = w - 1
  · have hbeyond : p.1.getLsbD (1 + (w - 1)) = false := BitVec.getLsbD_of_ge _ _ (by omega)
    simp [h, hbeyond, Nat.zero_lt_of_lt hi]
  · have hbelow : i < w - 1 := by omega
    simp [hbelow, h, Nat.add_comm]

/-! ## The one-bit rotates through carry, as rotations -/

/-- R271: one step to the left turns the vector with the carry by one place. -/
theorem withCarry_rclOnce {w : Nat} (hw : 0 < w) (p : BitVec w × Bool) :
    withCarry (rclOnce p) = (withCarry p).rotateLeft 1 := by
  apply BitVec.eq_of_getLsbD_eq
  intro i hi
  have hone : 1 % (w + 1) = 1 := Nat.mod_eq_of_lt (Nat.succ_lt_succ hw)
  have hcarry : (rclOnce p).2 = p.1.getLsbD (w - 1) := BitVec.msb_eq_getLsbD_last p.1
  rw [getLsbD_rotateLeft_mod hi, hone, getLsbD_withCarry, getLsbD_withCarry, hcarry]
  rcases Nat.eq_zero_or_pos i with rfl | hpos
  · -- the carry before comes in as bit 0
    have htop : (0 + (w + 1) - 1) % (w + 1) = w := by
      rw [Nat.zero_add, Nat.add_sub_cancel, Nat.mod_eq_of_lt w.lt_succ_self]
    rw [if_neg hw.ne, getLsbD_rclOnce hw, if_pos rfl, if_pos htop]
  · have hbelow : (i + (w + 1) - 1) % (w + 1) = i - 1 := by
      rw [show i + (w + 1) - 1 = i - 1 + (w + 1) by omega, Nat.add_mod_right, Nat.mod_eq_of_lt (by omega)]
    rw [hbelow, if_neg (show i - 1 ≠ w by omega)]
    split
    · next htop => rw [htop]
    · rw [getLsbD_rclOnce (by omega), if_neg hpos.ne']

/-- R271: one step to the right turns it by one place the other way. -/
theorem withCarry_rcrOnce {w : Nat} (hw : 0 < w) (p : BitVec w × Bool) :
    withCarry (rcrOnce p) = (withCarry p).rotateRight 1 := by
  apply BitVec.eq_of_getLsbD_eq
  intro i hi
  have hone : 1 % (w + 1) = 1 := Nat.mod_eq_of_lt (Nat.succ_lt_succ hw)
  have hcarry : (rcrOnce p).2 = p.1.getLsbD 0 := rfl
  rw [getLsbD_rotateRight_mod hi, hone, getLsbD_withCarry, getLsbD_withCarry, hcarry]
  rcases Nat.lt_succ_iff_lt_or_eq.1 hi with hlt | rfl
  · rw [if_neg hlt.ne, getLsbD_rcrOnce hlt, Nat.mod_eq_of_lt (Nat.succ_lt_succ hlt)]
    exact if_congr (by omega) rfl rfl
  · rw [if_pos rfl, Nat.mod_self, if_neg hw.ne]

/-- Settles O47: the numbers are those of the shifts, and a turn to one side is undone by the turn to the other. -/
theorem rclRcrInverse : Obligations.RclRcrInverse := by
  intro w x c hw
  have hmsb : x.msb = bit x.toNat (w - 1) := by rw [bit_toNat, BitVec.msb_eq_getLsbD_last]
  refine ⟨toNat_rclOnce hw x c, hmsb, toNat_rcrOnce hw x c, (bit_toNat x 0).symm, ?_, ?_⟩
  · apply withCarry_injective
    rw [withCarry_rcrOnce hw, withCarry_rclOnce hw, rotateRight_rotateLeft]
  · apply withCarry_injective
    rw [withCarry_rclOnce hw, withCarry_rcrOnce hw, rotateLeft_rotateRight]

/-! ## RCL and RCR -/

/-- Steps that each turn the vector with the carry by one place turn it by their number (R272). -/
theorem withCarry_iterate {w n : Nat} {f : BitVec w × Bool → BitVec w × Bool}
    {turn : BitVec (w + 1) → Nat → BitVec (w + 1)} (hstep : ∀ p, withCarry (f p) = turn (withCarry p) 1)
    (hzero : ∀ x, turn x 0 = x) (hsucc : ∀ x k, k + 1 < w + 1 → turn (turn x 1) k = turn x (k + 1)) (hn : n < w + 1)
    (p : BitVec w × Bool) : withCarry (iterate f n p) = turn (withCarry p) n := by
  induction n generalizing p with
  | zero => exact (hzero _).symm
  | succ n ih => rw [iterate, ih (by omega), hstep, hsucc _ n hn]

theorem withCarry_iterate_rclOnce {w : Nat} (hw : 0 < w) (n : Nat) (p : BitVec w × Bool) :
    withCarry (iterate rclOnce (n % (w + 1)) p) = (withCarry p).rotateLeft n := by
  rw [withCarry_iterate (withCarry_rclOnce hw) rotateLeft_zero (fun x _ h => rotateLeft_one_rotateLeft h x)
    (Nat.mod_lt _ w.succ_pos), BitVec.rotateLeft_mod_eq_rotateLeft]

theorem withCarry_iterate_rcrOnce {w : Nat} (hw : 0 < w) (n : Nat) (p : BitVec w × Bool) :
    withCarry (iterate rcrOnce (n % (w + 1)) p) = (withCarry p).rotateRight n := by
  rw [withCarry_iterate (withCarry_rcrOnce hw) rotateRight_zero (fun x k _ => rotateRight_one_rotateRight x k)
    (Nat.mod_lt _ w.succ_pos), BitVec.rotateRight_mod_eq_rotateRight]

/-- R272. -/
theorem computes_aluRcl : Computes aluRcl (fun _ => True) (fun w a n carry r c o =>
    carry.toNat * 2 ^ w + a < 2 ^ (w + 1) ∧
    c.toNat * 2 ^ w + r = (carry.toNat * 2 ^ w + a) * 2 ^ (n % (w + 1)) % 2 ^ (w + 1)
      + (carry.toNat * 2 ^ w + a) / 2 ^ (w + 1 - n % (w + 1)) ∧ o = false) := by
  intro w a b carry hw _
  refine ⟨_, _, _, rfl, ?_, ?_, rfl⟩
  · exact toNat_withCarry (a, carry) ▸ (withCarry (a, carry)).isLt
  · rw [← toNat_withCarry, withCarry_iterate_rclOnce hw, toNat_rotateLeft_add w.succ_pos, toNat_withCarry]

/-- R273. -/
theorem computes_aluRcr : Computes aluRcr (fun _ => True) (fun w a n carry r c o =>
    carry.toNat * 2 ^ w + a < 2 ^ (w + 1) ∧
    c.toNat * 2 ^ w + r = (carry.toNat * 2 ^ w + a) / 2 ^ (n % (w + 1))
      + (carry.toNat * 2 ^ w + a) * 2 ^ (w + 1 - n % (w + 1)) % 2 ^ (w + 1) ∧ o = false) := by
  intro w a b carry hw _
  refine ⟨_, _, _, rfl, ?_, ?_, rfl⟩
  · exact toNat_withCarry (a, carry) ▸ (withCarry (a, carry)).isLt
  · rw [← toNat_withCarry, withCarry_iterate_rcrOnce hw, toNat_rotateRight_add w.succ_pos, toNat_withCarry]

/-- Settles O46: each instruction turns the vector with the carry in both forms, and a turn of that vector has these numbers. -/
theorem rotateCarryResults : Obligations.RotateCarryResults :=
  ⟨computes_aluRcl.twoOperand (fun _ _ _ _ => rfl) fun _ _ _ _ => rfl,
    computes_aluRcr.twoOperand (fun _ _ _ _ => rfl) fun _ _ _ _ => rfl⟩

end Sys2Proof.Machine
end

section
/-! PROOF. The compare and branch instructions: where each branch goes on the flags, what the flags of a difference say of
the two values compared, and the statements `BranchResults`, `CmpResult` and `CompareThenBranch` (spec
44_compare_branch.md R300 to R305). -/

namespace Sys2Proof.Machine

/-! ## Branches -/

/-- A branch goes to its target where its condition holds and past itself where it does not (R302). -/
theorem branch_destination {cc : Cond} {holds : Flags → Prop} (hcc : ∀ f, cc.holds f = true ↔ holds f) (len : Nat)
    (target : Word) (s : State) : ∃ t, branch cc len target s = .next t ∧ t = s.setPc t.pc ∧
      (holds s.flags → t.pc = target) ∧ (¬ holds s.flags → t.pc = s.pc + BitVec.ofNat 32 len) :=
  ⟨_, branch_eq_setPc cc len target s, rfl, fun h => if_pos ((hcc s.flags).2 h),
    fun h => if_neg (mt (hcc s.flags).1 h)⟩

/-- The two forms of a branch, from the condition that they share (R304, R305). -/
theorem branches_of_branch {litForm : Word → Instr} {regForm : Fin 8 → Instr} {holds : Flags → Prop} (cc : Cond)
    (literal : ∀ target s, exec (litForm target) s = branch cc 5 target s := by exact fun _ _ => rfl)
    (register : ∀ target s, exec (regForm target) s = branch cc 2 (readReg target s) s := by exact fun _ _ => rfl)
    (hcc : ∀ f, cc.holds f = true ↔ holds f := by simp [Cond.holds]) : Branches litForm regForm holds where
  literal target s := literal target s ▸ branch_destination hcc 5 target s
  register target s := register target s ▸ branch_destination hcc 2 (readReg target s) s

/-- Settles O49: each branch tests its own condition in both forms (R303). -/
theorem branchResults : Obligations.BranchResults :=
  ⟨branches_of_branch .always, branches_of_branch .eq, branches_of_branch .neq, branches_of_branch .lt,
    branches_of_branch .ltu, branches_of_branch .gt, branches_of_branch .gtu, branches_of_branch .le,
    branches_of_branch .leu, branches_of_branch .ge, branches_of_branch .geu⟩

/-- Where the target is not the address past the branch, to end at the target is to have taken the branch. -/
theorem taken_iff {i : Instr} {t : State} {target past : Word} {taken : Prop}
    (h : ∃ u, exec i t = .next u ∧ u = t.setPc u.pc ∧ (taken → u.pc = target) ∧ (¬ taken → u.pc = past))
    (hne : target ≠ past) : taken ↔ ∃ u, exec i t = .next u ∧ u.pc = target := by
  obtain ⟨u, hexec, -, htaken, hpast⟩ := h
  constructor
  · exact fun ht => ⟨u, hexec, htaken ht⟩
  · rintro ⟨v, hv, hpc⟩
    obtain rfl : u = v := Host.Outcome.next.inj (hexec.symm.trans hv)
    exact by_contra fun hn => hne (hpc.symm.trans (hpast hn))

/-- A branch in both forms is taken exactly when what its condition says of the flags holds. -/
theorem Branches.takenExactlyWhen {litForm : Word → Instr} {regForm : Fin 8 → Instr} {holds : Flags → Prop}
    (h : Branches litForm regForm holds) {t : State} {meaning : Prop} (hm : meaning ↔ holds t.flags) :
    TakenExactlyWhen litForm regForm t meaning :=
  ⟨fun target hne => hm.trans (taken_iff (h.literal target t) hne),
    fun target hne => hm.trans (taken_iff (h.register target t) hne)⟩

/-! ## The flags of a difference -/

theorem aluSub_z_iff {w : Nat} (a b : BitVec w) : (aluSub w a b).flags.z = true ↔ a.toNat = b.toNat := by
  rw [BitVec.toNat_inj, ← sub_eq_zero (a := a)]
  exact decide_eq_true_iff

theorem aluSub_c_iff {w : Nat} (a b : BitVec w) : (aluSub w a b).flags.c = true ↔ a.toNat < b.toNat :=
  decide_eq_true_iff

theorem aluSub_n_iff {w : Nat} (a b : BitVec w) : (aluSub w a b).flags.n = true ↔ (a - b).toInt < 0 := by
  rw [← decide_eq_true_iff (p := _ < _), ← BitVec.msb_eq_toInt]
  rfl

theorem aluSub_o_iff {w : Nat} (a b : BitVec w) :
    (aluSub w a b).flags.o = true ↔ OutsideSigned w (a.toInt - b.toInt) :=
  signedOverflow_iff w (a.toInt - b.toInt)

/-- R303: a difference that overflows has the wrong sign, one that does not has the right one, so that `N` and `O` agree
exactly when the first value is not the smaller one as a signed number. -/
theorem aluSub_n_eq_o_iff {w : Nat} (a b : BitVec w) :
    (aluSub w a b).flags.n = (aluSub w a b).flags.o ↔ b.toInt ≤ a.toInt := by
  rw [Bool.eq_iff_iff, aluSub_n_iff, aluSub_o_iff, OutsideSigned]
  by_cases hlow : a.toInt - b.toInt < -2 ^ (w - 1)
  · obtain ⟨ha, hb, hsign⟩ := BitVec.toInt_sub_toInt_lt_twoPow_iff.1 hlow
    rw [← BitVec.toInt_sub] at hsign
    omega
  by_cases hhigh : 2 ^ (w - 1) ≤ a.toInt - b.toInt
  · obtain ⟨ha, hb, hsign⟩ := BitVec.twoPow_le_toInt_sub_toInt_iff.1 hhigh
    rw [← BitVec.toInt_sub] at hsign
    omega
  · have hfits : (a - b).toInt = a.toInt - b.toInt :=
      BitVec.toInt_sub_of_not_ssubOverflow (by simp [BitVec.ssubOverflow, hlow, hhigh])
    omega

/-- R303: what each condition says of the flags of a difference is the relation of the two values. -/
theorem branchesCompare_of_flags {w : Nat} (hw : 0 < w) (a b : BitVec w) {t : State}
    (hflags : t.flags = (aluSub w a b).flags) : BranchesCompare w a.toNat b.toNat t := by
  have hz : t.flags.z = true ↔ a.toNat = b.toNat := hflags ▸ aluSub_z_iff a b
  have hc : t.flags.c = true ↔ a.toNat < b.toNat := hflags ▸ aluSub_c_iff a b
  have hno : t.flags.n = t.flags.o ↔ signed w b.toNat ≤ signed w a.toNat := by
    rw [hflags, signed_toNat hw, signed_toNat hw, aluSub_n_eq_o_iff]
  have hinj : signed w a.toNat = signed w b.toNat ↔ a.toNat = b.toNat := by
    rw [signed_toNat hw, signed_toNat hw, BitVec.toInt_inj, BitVec.toNat_inj]
  obtain ⟨-, heq, hneq, hlt, hltu, hgt, hgtu, hle, hleu, hge, hgeu⟩ := branchResults
  exact {
    eq := heq.takenExactlyWhen hz.symm
    neq := hneq.takenExactlyWhen (by rw [← Bool.not_eq_true, hz])
    lt := hlt.takenExactlyWhen (by rw [Ne, hno, Int.not_le])
    ltu := hltu.takenExactlyWhen hc.symm
    gt := hgt.takenExactlyWhen (by rw [← Bool.not_eq_true, hz, hno]; omega)
    gtu := hgtu.takenExactlyWhen (by simp only [← Bool.not_eq_true, hc, hz]; omega)
    le := hle.takenExactlyWhen (by rw [hz, Ne, hno]; omega)
    leu := hleu.takenExactlyWhen (by rw [hc, hz]; omega)
    ge := hge.takenExactlyWhen hno.symm
    geu := hgeu.takenExactlyWhen (by rw [← Bool.not_eq_true, hc, Nat.not_lt]) }

/-! ## CMP -/

/-- R300: an instruction that leaves the flags of a difference and the pc past it does, in numbers, what `CMP` does. -/
theorem compare_result {i : Instr} {s : State} {len w : Nat} {a b : BitVec w} (hw : 0 < w)
    (hexec : exec i s = .next (advance len (s.setFlags (aluSub w a b).flags))) :
    ∃ (r : Nat) (o : Bool), (r : Int) = ((a.toNat : Int) - b.toNat) % 2 ^ w ∧
      (o = true ↔ OutsideSigned w (signed w a.toNat - signed w b.toNat)) ∧
      exec i s = .next
        ((s.setFlags (resultFlags w r (decide (a.toNat < b.toNat)) o)).setPc (s.pc + BitVec.ofNat 32 len)) := by
  obtain ⟨r, c, o, hsub, hr, hc, ho⟩ := computes_aluSub w a b false hw trivial
  have hflags : (aluSub w a b).flags = resultFlags w r.toNat (decide (a.toNat < b.toNat)) o := by
    rw [← flagsOfResult_eq, ← Bool.decide_congr hc, Bool.decide_eq_true]
    exact congrArg AluResult.flags hsub
  exact ⟨r.toNat, o, hr, ho, by rw [hexec, hflags, advance, State.setFlags_pc]⟩

/-- Settles O48: both forms leave the flags of the difference of their operands. -/
theorem cmpResult : Obligations.CmpResult := by
  rintro a s _ _ _ _ _ rfl rfl (⟨b, rfl, hw, rfl, rfl⟩ | ⟨lit, rfl, hfits, rfl, rfl⟩)
  · rw [← toNat_sourceValue hw]
    exact compare_result (Width.bits_pos a.width) rfl
  · rw [← toNat_literalValue hfits]
    exact compare_result (Width.bits_pos a.width) rfl

/-- Settles O50: both forms leave the flags of the difference of their operands, which say what the conditions mean. -/
theorem compareThenBranch : Obligations.CompareThenBranch := by
  refine fun a s t => ⟨fun b hw hexec => ?_, fun lit hfits hexec => ?_⟩
  · obtain rfl := Host.Outcome.next.inj hexec
    rw [← toNat_sourceValue hw]
    exact branchesCompare_of_flags (Width.bits_pos a.width) _ _ rfl
  · obtain rfl := Host.Outcome.next.inj hexec
    rw [← toNat_literalValue hfits]
    exact branchesCompare_of_flags (Width.bits_pos a.width) _ _ rfl

end Sys2Proof.Machine
end

section
/-! PROOF. Binary32 patterns as exact integers: the magnitude of the low 31 bits in units of 2^-149, which grows by one unit in
the last place from each pattern to the next, and what the model's reading of a pattern says in the terms of R333 (spec
45_conversion.md R333). -/

namespace Sys2Proof.Machine

/-! ## Fields of a pattern -/

theorem getLsbD_sign (b : Word) : b.getLsbD 31 = decide (2 ^ 31 ≤ b.toNat) := by
  rw [← BitVec.msb_eq_getLsbD_last, BitVec.msb_eq_decide]

theorem toNat_exponent (b : Word) : (b.extractLsb' 23 8).toNat = b.toNat / 2 ^ 23 % 2 ^ 8 := by
  rw [BitVec.extractLsb'_toNat, Nat.shiftRight_eq_div_pow]

theorem toNat_fraction (b : Word) : (b.extractLsb' 0 23).toNat = b.toNat % 2 ^ 23 := by
  rw [BitVec.extractLsb'_toNat, Nat.shiftRight_zero]

/-- A pattern is finite where its exponent and fraction, read as one number, stay below those of the infinities. -/
theorem isFinite_iff (b : Word) : IsFinite b ↔ b.toNat % 2 ^ 31 < 255 * 2 ^ 23 := by
  unfold IsFinite
  omega

theorem isPlusInf_iff {b : Word} : IsPlusInf b ↔ b = 0x7F800000 := BitVec.toNat_inj (y := 0x7F800000)

theorem isMinusInf_iff {b : Word} : IsMinusInf b ↔ b = 0xFF800000 := BitVec.toNat_inj (y := 0xFF800000)

theorem IsNan.not_isFinite {b : Word} (h : IsNan b) : ¬ IsFinite b := fun hf => hf h.1

theorem IsPlusInf.not_isFinite {b : Word} (h : IsPlusInf b) : ¬ IsFinite b := by
  rw [isFinite_iff, h]
  decide

theorem IsMinusInf.not_isFinite {b : Word} (h : IsMinusInf b) : ¬ IsFinite b := by
  rw [isFinite_iff, h]
  decide

/-! ## Magnitudes -/

/-- The number that a pattern with exponent and fraction bits `n` and sign 0 stands for, in units of 2^-149. -/
def magnitude (n : Nat) : Nat :=
  if n / 2 ^ 23 = 0 then n % 2 ^ 23 else (2 ^ 23 + n % 2 ^ 23) * 2 ^ (n / 2 ^ 23 - 1)

theorem magnitude_zero : magnitude 0 = 0 := rfl

/-- A normal number from its exponent field `e + 1` and its significand with the leading bit. The significand 2^24 carries into
the exponent. -/
theorem magnitude_normal (e : Nat) {m : Nat} (hlow : 2 ^ 23 ≤ m) (hhigh : m ≤ 2 ^ 24) :
    magnitude (e * 2 ^ 23 + m) = m * 2 ^ e := by
  obtain ⟨f, rfl⟩ := Nat.exists_eq_add_of_le hlow
  obtain hf | rfl : f < 2 ^ 23 ∨ f = 2 ^ 23 := by omega
  · have hdiv : (e * 2 ^ 23 + (2 ^ 23 + f)) / 2 ^ 23 = e + 1 := by omega
    have hmod : (e * 2 ^ 23 + (2 ^ 23 + f)) % 2 ^ 23 = f := by omega
    rw [magnitude, hdiv, hmod, if_neg e.succ_ne_zero, Nat.add_sub_cancel]
  · have hdiv : (e * 2 ^ 23 + (2 ^ 23 + 2 ^ 23)) / 2 ^ 23 = e + 2 := by omega
    have hmod : (e * 2 ^ 23 + (2 ^ 23 + 2 ^ 23)) % 2 ^ 23 = 0 := by omega
    rw [magnitude, hdiv, hmod, if_neg (by omega), show e + 2 - 1 = e + 1 from rfl, Nat.pow_succ]
    ring

/-- The next pattern is one unit in the last place further from 0. -/
theorem magnitude_succ (n : Nat) : magnitude (n + 1) = magnitude n + 2 ^ (n / 2 ^ 23 - 1) := by
  by_cases hsub : n < 2 ^ 23
  · have hdiv : n / 2 ^ 23 = 0 := Nat.div_eq_of_lt hsub
    have hself : magnitude n = n := by rw [magnitude, if_pos hdiv, Nat.mod_eq_of_lt hsub]
    rw [hself, hdiv]
    obtain hlt | heq : n + 1 < 2 ^ 23 ∨ n = 2 ^ 23 - 1 := by omega
    · rw [magnitude, if_pos (Nat.div_eq_of_lt hlt), Nat.mod_eq_of_lt hlt]
      rfl
    · rw [heq]
      rfl
  · obtain ⟨e, m, rfl, hlow, hhigh⟩ : ∃ e m, n = e * 2 ^ 23 + m ∧ 2 ^ 23 ≤ m ∧ m < 2 ^ 24 :=
      ⟨n / 2 ^ 23 - 1, n % 2 ^ 23 + 2 ^ 23, by omega, by omega, by omega⟩
    have hexp : (e * 2 ^ 23 + m) / 2 ^ 23 - 1 = e := by omega
    rw [hexp, Nat.add_assoc, magnitude_normal e (by omega) hhigh, magnitude_normal e hlow hhigh.le,
      Nat.add_one_mul]

theorem magnitude_strictMono : StrictMono magnitude :=
  strictMono_nat_of_lt_succ fun n => by
    rw [magnitude_succ]
    exact Nat.lt_add_of_pos_right (Nat.two_pow_pos _)

/-! ## The number that a pattern stands for -/

/-- The number that a finite pattern stands for, in units of 2^-149. -/
def scaledValue (b : Word) : Int := signedValue (b.getLsbD 31) (magnitude (b.toNat % 2 ^ 31))

/-- Every finite number is nearer to 0 than the rank that the model gives to the infinities. -/
theorem abs_scaledValue_lt {b : Word} (h : IsFinite b) : |scaledValue b| < 2 ^ 277 := by
  have hmag : magnitude (b.toNat % 2 ^ 31) < magnitude (255 * 2 ^ 23) :=
    magnitude_strictMono ((isFinite_iff b).1 h)
  have hinf : magnitude (255 * 2 ^ 23) = 2 ^ (23 + 254) := by
    rw [Nat.pow_add]
    exact magnitude_normal 254 le_rfl (by omega)
  have habs : |scaledValue b| = (magnitude (b.toNat % 2 ^ 31) : Int) := by
    unfold scaledValue signedValue
    split <;> simp
  calc |scaledValue b| = (magnitude (b.toNat % 2 ^ 31) : Int) := habs
    _ < ((2 ^ (23 + 254) : Nat) : Int) := Nat.cast_lt.2 (hinf ▸ hmag)
    _ = 2 ^ (23 + 254) := Nat.cast_pow 2 (23 + 254)

theorem binary32_eq (b : Word) : binary32 b = (scaledValue b : ℚ) / 2 ^ 149 := by
  have hexp : b.toNat / 2 ^ 23 % 2 ^ 8 = b.toNat % 2 ^ 31 / 2 ^ 23 := by omega
  have hfrac : b.toNat % 2 ^ 23 = b.toNat % 2 ^ 31 % 2 ^ 23 := by omega
  have hmag : ((magnitude (b.toNat % 2 ^ 31) : Nat) : ℚ) = if b.toNat % 2 ^ 31 / 2 ^ 23 = 0 then
      ((b.toNat % 2 ^ 31 % 2 ^ 23 : Nat) : ℚ) else
      (2 ^ 23 + ((b.toNat % 2 ^ 31 % 2 ^ 23 : Nat) : ℚ)) * 2 ^ (b.toNat % 2 ^ 31 / 2 ^ 23 - 1) := by
    rw [magnitude]
    split <;> push_cast <;> rfl
  rw [binary32, hexp, hfrac, ← hmag, scaledValue, getLsbD_sign]
  by_cases hsign : b.toNat < 2 ^ 31
  · rw [if_pos hsign, decide_eq_false (not_le.2 hsign), one_mul]
    rfl
  · rw [if_neg hsign, decide_eq_true (not_lt.1 hsign), neg_one_mul]
    simp [signedValue]

theorem le_binary32_iff (k : Int) (b : Word) : (k : ℚ) ≤ binary32 b ↔ k * 2 ^ 149 ≤ scaledValue b := by
  rw [binary32_eq, le_div_iff₀ (by positivity)]
  exact_mod_cast Iff.rfl

theorem binary32_le_iff (k : Int) (b : Word) : binary32 b ≤ k ↔ scaledValue b ≤ k * 2 ^ 149 := by
  rw [binary32_eq, div_le_iff₀ (by positivity)]
  exact_mod_cast Iff.rfl

theorem binary32_lt_iff (k : Int) (b : Word) : binary32 b < k ↔ scaledValue b < k * 2 ^ 149 := by
  rw [← not_le, le_binary32_iff, not_le]

theorem lt_binary32_iff (k : Int) (b : Word) : (k : ℚ) < binary32 b ↔ k * 2 ^ 149 < scaledValue b := by
  rw [← not_le, binary32_le_iff, not_le]

theorem binary32_lt_binary32_iff (a b : Word) : binary32 a < binary32 b ↔ scaledValue a < scaledValue b := by
  rw [binary32_eq, binary32_eq, div_lt_div_iff_of_pos_right (by positivity), Int.cast_lt]

theorem binary32_inj (a b : Word) : binary32 a = binary32 b ↔ scaledValue a = scaledValue b := by
  rw [binary32_eq, binary32_eq, div_left_inj' (by positivity), Int.cast_inj]

/-! ## The model's reading of a pattern -/

theorem ofBits_of_isNan {b : Word} (h : IsNan b) : FloatValue.ofBits b = .nan := by
  obtain ⟨hexp, hfrac⟩ := h
  simp only [FloatValue.ofBits, toNat_exponent, toNat_fraction, if_pos hexp, if_neg hfrac]

theorem ofBits_of_isPlusInf {b : Word} (h : IsPlusInf b) : FloatValue.ofBits b = .infinite false := by
  obtain rfl := isPlusInf_iff.1 h
  rfl

theorem ofBits_of_isMinusInf {b : Word} (h : IsMinusInf b) : FloatValue.ofBits b = .infinite true := by
  obtain rfl := isMinusInf_iff.1 h
  rfl

theorem ofBits_of_isFinite {b : Word} (h : IsFinite b) : FloatValue.ofBits b = .finite (scaledValue b) := by
  have hexp : b.toNat % 2 ^ 31 / 2 ^ 23 = b.toNat / 2 ^ 23 % 2 ^ 8 := by omega
  have hfrac : b.toNat % 2 ^ 31 % 2 ^ 23 = b.toNat % 2 ^ 23 := by omega
  simp only [FloatValue.ofBits, toNat_exponent, toNat_fraction, if_neg h, scaledValue, magnitude, hexp, hfrac]
  split <;> rfl

/-- Every pattern is of one of the four kinds. -/
theorem pattern_cases (b : Word) : IsNan b ∨ IsPlusInf b ∨ IsMinusInf b ∨ IsFinite b := by
  have hb : b.toNat < 2 ^ 32 := b.isLt
  unfold IsNan IsPlusInf IsMinusInf IsFinite
  omega

end Sys2Proof.Machine
end

section
/-! PROOF. Rounding an integer to binary32: the magnitude that the model picks is the nearest one, with an even significand on
a tie, and so is the pattern among all patterns of both signs (spec 45_conversion.md R334, R335). -/

namespace Sys2Proof.Machine

/-! ## The nearest magnitude -/

/-- No magnitude is nearer to `x` than that of `n`, and `n` is even where another one is as near. -/
structure NearestMagnitude (x n : Nat) : Prop where
  nearest : ∀ k, ((magnitude n : Int) - x).natAbs ≤ ((magnitude k : Int) - x).natAbs
  tie : ∀ k, ((magnitude k : Int) - x).natAbs = ((magnitude n : Int) - x).natAbs → k ≠ n → n % 2 = 0

theorem magnitude_neighbours {n k : Nat} (h : k ≠ n) : magnitude k < magnitude n ∨ magnitude (n + 1) ≤ magnitude k := by
  rw [magnitude_strictMono.lt_iff_lt, magnitude_strictMono.le_iff_le]
  omega

theorem nearestMagnitude_of_eq {x n : Nat} (h : magnitude n = x) : NearestMagnitude x n where
  nearest := by omega
  tie k hk hne := absurd (magnitude_strictMono.injective (by omega : magnitude k = magnitude n)) hne

/-- A number in the lower half between two neighbouring magnitudes rounds down. -/
theorem nearestMagnitude_low {x n : Nat} (hlow : magnitude n ≤ x) (hmid : 2 * x ≤ magnitude n + magnitude (n + 1))
    (heven : 2 * x = magnitude n + magnitude (n + 1) → n % 2 = 0) : NearestMagnitude x n where
  nearest k := by
    obtain rfl | hne := eq_or_ne k n
    · exact le_rfl
    · have := magnitude_neighbours hne
      omega
  tie k hk hne := by
    have := magnitude_neighbours hne
    omega

/-- A number in the upper half between two neighbouring magnitudes rounds up. -/
theorem nearestMagnitude_high {x n : Nat} (hhigh : x ≤ magnitude (n + 1)) (hmid : magnitude n + magnitude (n + 1) ≤ 2 * x)
    (heven : 2 * x = magnitude n + magnitude (n + 1) → n % 2 = 1) : NearestMagnitude x (n + 1) where
  nearest k := by
    obtain rfl | hne := eq_or_ne k n
    · omega
    · have := magnitude_neighbours hne
      omega
  tie k hk hne := by
    obtain rfl | hne' := eq_or_ne k n
    · omega
    · have hnext : magnitude (n + 1) ≠ magnitude k := magnitude_strictMono.injective.ne hne.symm
      have := magnitude_neighbours hne'
      omega

/-! ## The magnitude that the model picks -/

theorem roundShift_up {m sh : Nat}
    (h : 2 ^ sh < 2 * (m % 2 ^ sh) ∨ (2 * (m % 2 ^ sh) = 2 ^ sh ∧ m / 2 ^ sh % 2 = 1)) :
    roundShift m sh = m / 2 ^ sh + 1 := if_pos h

theorem roundShift_down {m sh : Nat}
    (h : ¬ (2 ^ sh < 2 * (m % 2 ^ sh) ∨ (2 * (m % 2 ^ sh) = 2 ^ sh ∧ m / 2 ^ sh % 2 = 1))) :
    roundShift m sh = m / 2 ^ sh := if_neg h

/-- An integer of more than 24 bits, scaled, lies between the magnitudes of the significands `m / 2 ^ sh` and the next. -/
theorem nearestMagnitude_roundShift {m sh : Nat} (hlow : 2 ^ 23 ≤ m / 2 ^ sh) (hhigh : m / 2 ^ sh < 2 ^ 24) :
    NearestMagnitude (m * 2 ^ 149) ((sh + 149) * 2 ^ 23 + roundShift m sh) := by
  have hfloor := magnitude_normal (sh + 149) hlow hhigh.le
  have hnext : magnitude ((sh + 149) * 2 ^ 23 + m / 2 ^ sh + 1) = (m / 2 ^ sh) * 2 ^ (sh + 149) + 2 ^ (sh + 149) := by
    rw [Nat.add_assoc, magnitude_normal (sh + 149) (by omega) hhigh, Nat.add_one_mul]
  have hunit : 2 ^ (sh + 149) = 2 ^ sh * 2 ^ 149 := Nat.pow_add 2 sh 149
  have hx : m * 2 ^ 149 = (m / 2 ^ sh) * 2 ^ (sh + 149) + m % 2 ^ sh * 2 ^ 149 := by
    rw [hunit, ← Nat.mul_assoc, ← Nat.add_mul, Nat.div_add_mod']
  have hrem : m % 2 ^ sh < 2 ^ sh := Nat.mod_lt _ (Nat.two_pow_pos sh)
  by_cases hup : 2 ^ sh < 2 * (m % 2 ^ sh) ∨ (2 * (m % 2 ^ sh) = 2 ^ sh ∧ m / 2 ^ sh % 2 = 1)
  · rw [roundShift_up hup, ← Nat.add_assoc]
    exact nearestMagnitude_high (by omega) (by omega) (by omega)
  · rw [roundShift_down hup]
    exact nearestMagnitude_low (by omega) (by omega) (by omega)

theorem magnitudeBits_of_le {m : Nat} (hzero : m ≠ 0) (he : m.log2 ≤ 23) :
    magnitudeBits m = (m.log2 + 126) * 2 ^ 23 + m * 2 ^ (23 - m.log2) := by
  simp only [magnitudeBits, if_neg hzero, if_pos he]

theorem magnitudeBits_of_lt {m : Nat} (hzero : m ≠ 0) (he : 23 < m.log2) :
    magnitudeBits m = (m.log2 + 126) * 2 ^ 23 + roundShift m (m.log2 - 23) := by
  simp only [magnitudeBits, if_neg hzero, if_neg (Nat.not_le.2 he)]

/-- An integer of at most 24 bits is a binary32 number. -/
theorem magnitude_magnitudeBits {m : Nat} (hzero : m ≠ 0) (he : m.log2 ≤ 23) :
    magnitude (magnitudeBits m) = m * 2 ^ 149 := by
  have hlow : 2 ^ m.log2 * 2 ^ (23 - m.log2) ≤ m * 2 ^ (23 - m.log2) := Nat.mul_le_mul_right _ (Nat.log2_self_le hzero)
  have hhigh : m * 2 ^ (23 - m.log2) ≤ 2 ^ (m.log2 + 1) * 2 ^ (23 - m.log2) :=
    Nat.mul_le_mul_right _ Nat.lt_log2_self.le
  rw [← Nat.pow_add, show m.log2 + (23 - m.log2) = 23 by omega] at hlow
  rw [← Nat.pow_add, show m.log2 + 1 + (23 - m.log2) = 24 by omega] at hhigh
  rw [magnitudeBits_of_le hzero he, magnitude_normal _ hlow hhigh, Nat.mul_assoc, ← Nat.pow_add,
    show 23 - m.log2 + (m.log2 + 126) = 149 by omega]

theorem nearestMagnitude_magnitudeBits (m : Nat) : NearestMagnitude (m * 2 ^ 149) (magnitudeBits m) := by
  by_cases hzero : m = 0
  · rw [hzero]
    exact nearestMagnitude_of_eq rfl
  by_cases he : m.log2 ≤ 23
  · exact nearestMagnitude_of_eq (magnitude_magnitudeBits hzero he)
  · obtain ⟨sh, hsh⟩ := Nat.exists_eq_add_of_le (Nat.le_of_not_le he)
    have hlow : 2 ^ 23 * 2 ^ sh ≤ m := by
      rw [← Nat.pow_add, ← hsh]
      exact Nat.log2_self_le hzero
    have hhigh : m < 2 ^ 24 * 2 ^ sh := by
      rw [← Nat.pow_add, show 24 + sh = m.log2 + 1 by omega]
      exact Nat.lt_log2_self
    rw [magnitudeBits_of_lt hzero (Nat.lt_of_not_le he), show m.log2 + 126 = sh + 149 by omega,
      show m.log2 - 23 = sh by omega]
    exact nearestMagnitude_roundShift ((Nat.le_div_iff_mul_le (Nat.two_pow_pos sh)).2 hlow)
      (Nat.div_lt_of_lt_mul (Nat.mul_comm _ _ ▸ hhigh))

/-! ## The nearest pattern -/

/-- A magnitude nearest to an integer of 32 bits is one of a finite pattern: 0 is nearer than the ones beyond. -/
theorem NearestMagnitude.lt {m n : Nat} (h : NearestMagnitude (m * 2 ^ 149) n) (hm : m < 2 ^ 32) : n < 255 * 2 ^ 23 := by
  by_contra hn
  have hbig : magnitude (159 * 2 ^ 23 + 2 ^ 23) ≤ magnitude n := magnitude_strictMono.monotone (by omega)
  rw [magnitude_normal 159 le_rfl (by omega)] at hbig
  have hnear := h.nearest 0
  rw [magnitude_zero] at hnear
  omega

theorem abs_binary32_sub (b : Word) (v : Int) :
    |binary32 b - v| = (((scaledValue b - v * 2 ^ 149).natAbs : Nat) : ℚ) / 2 ^ 149 := by
  have hdiff : binary32 b - v = ((scaledValue b - v * 2 ^ 149 : Int) : ℚ) / 2 ^ 149 := by
    have hpow : (2 : ℚ) ^ 149 ≠ 0 := by positivity
    rw [binary32_eq, eq_div_iff hpow, sub_mul, div_mul_cancel₀ _ hpow]
    push_cast
    rfl
  rw [hdiff, abs_div, abs_of_pos (by positivity : (0 : ℚ) < 2 ^ 149), Nat.cast_natAbs, Int.cast_abs]

/-- The pattern of the nearest magnitude with the sign of the integer is nearest among the patterns of both signs. -/
theorem nearestEven_of_nearestMagnitude {v : Int} {n : Nat} {b : Word} (h : NearestMagnitude (v.natAbs * 2 ^ 149) n)
    (hn : n < 255 * 2 ^ 23) (hb : b.toNat = n + if v < 0 then 2 ^ 31 else 0) : NearestEven v b := by
  have hmod : b.toNat % 2 ^ 31 = n := by split at hb <;> omega
  have hsign : 2 ^ 31 ≤ b.toNat ↔ v < 0 := by split at hb <;> omega
  have hvalue : scaledValue b = if v < 0 then -(magnitude n : Int) else magnitude n := by
    rw [scaledValue, hmod, getLsbD_sign, signedValue]
    simp only [hsign, decide_eq_true_eq]
  have hother (b' : Word) : scaledValue b' = magnitude (b'.toNat % 2 ^ 31) ∨
      scaledValue b' = -(magnitude (b'.toNat % 2 ^ 31) : Int) := by
    unfold scaledValue signedValue
    split <;> simp
  have hzero := h.nearest 0
  rw [magnitude_zero] at hzero
  refine ⟨(isFinite_iff b).2 (hmod ▸ hn), fun b' _ => ?_, fun b' _ heq hne => ?_, ?_⟩
  · rw [abs_binary32_sub, abs_binary32_sub, div_le_div_iff_of_pos_right (by positivity), Nat.cast_le]
    have hnear := h.nearest (b'.toNat % 2 ^ 31)
    have := hother b'
    split at hvalue <;> omega
  · rw [abs_binary32_sub, abs_binary32_sub, div_left_inj' (by positivity), Nat.cast_inj] at heq
    rw [Ne, binary32_inj] at hne
    have hsame : b'.toNat % 2 ^ 31 = n → scaledValue b' = -(magnitude n : Int) ∨ scaledValue b' = magnitude n := by
      rintro rfl
      exact (hother b').symm
    have heven : n % 2 = 0 := by
      have htie := h.tie (b'.toNat % 2 ^ 31)
      have hnear := h.nearest (b'.toNat % 2 ^ 31)
      have := hother b'
      split at hvalue <;> omega
    have hlast : b.toNat % 2 = 0 := by omega
    simp [bit, hlast]
  · simp only [bit, decide_eq_true_eq, ← hsign]
    have := b.isLt
    omega

end Sys2Proof.Machine
end

section
/-! PROOF. The conversion and floating-point instructions: the statements `WidenNarrow`, `FcmpResult`, `FloatToInt` and
`IntToFloat` (spec 45_conversion.md R330 to R338). -/

namespace Sys2Proof.Machine

/-! ## ZEXT, SEXT and TRUNC -/

theorem toNat_setWidth_of_wider {dst src : Width} (h : Wider dst src) (v : BitVec src.bits) :
    (v.setWidth dst.bits).toNat = v.toNat :=
  BitVec.toNat_setWidth_of_le h.le

/-- R331: an extension by the sign, in numbers. -/
theorem natCast_toNat_signExtend {w : Nat} (hw : 0 < w) (n : Nat) (v : BitVec w) :
    ((v.signExtend n).toNat : Int) = signed w v.toNat % 2 ^ n := by
  rw [BitVec.signExtend, natCast_toNat_ofInt, signed_toNat hw]

/-- Settles O51: each of the three writes its view and nothing else. -/
theorem widenNarrow : Obligations.WidenNarrow := by
  refine fun dst src s => ⟨fun hwider => ⟨⟨_, rfl, ?_⟩, _, _, rfl, ?_, writesView_writeG 3 dst _ s⟩,
    fun _ => ⟨_, rfl, ?_⟩⟩
  · rw [← toNat_setWidth_of_wider hwider]
    exact writesView_writeG 3 dst _ s
  · exact natCast_toNat_signExtend (Width.bits_pos src.width) _ (readG src s)
  · rw [← BitVec.toNat_setWidth]
    exact writesView_writeG 3 dst _ s

/-! ## FCMP -/

/-- What the model's rank of a pattern says of its kind. -/
structure HasRank (b : Word) (m : Int) : Prop where
  bounded : -2 ^ 277 ≤ m ∧ m ≤ 2 ^ 277
  plusInf : IsPlusInf b ↔ m = 2 ^ 277
  minusInf : IsMinusInf b ↔ m = -2 ^ 277
  finite : IsFinite b ↔ -2 ^ 277 < m ∧ m < 2 ^ 277
  number : IsFinite b → scaledValue b = m

theorem IsPlusInf.not_isMinusInf {b : Word} (h : IsPlusInf b) : ¬ IsMinusInf b := by
  rw [IsMinusInf, h]
  decide

theorem exists_rank {b : Word} (h : ¬ IsNan b) : ∃ m, (FloatValue.ofBits b).rank = some m ∧ HasRank b m := by
  have hpos : (0 : Int) < 2 ^ 277 := by positivity
  obtain hnan | hplus | hminus | hfinite := pattern_cases b
  · exact absurd hnan h
  · exact ⟨2 ^ 277, by rw [ofBits_of_isPlusInf hplus]; rfl, by omega, iff_of_true hplus rfl,
      iff_of_false hplus.not_isMinusInf (by omega), iff_of_false hplus.not_isFinite (by omega),
      fun hf => absurd hf hplus.not_isFinite⟩
  · exact ⟨-2 ^ 277, by rw [ofBits_of_isMinusInf hminus]; rfl, by omega,
      iff_of_false (fun hp => hp.not_isMinusInf hminus) (by omega), iff_of_true hminus rfl,
      iff_of_false hminus.not_isFinite (by omega), fun hf => absurd hf hminus.not_isFinite⟩
  · obtain ⟨hlow, hhigh⟩ := abs_lt.1 (abs_scaledValue_lt hfinite)
    exact ⟨scaledValue b, by rw [ofBits_of_isFinite hfinite]; rfl, ⟨hlow.le, hhigh.le⟩,
      iff_of_false (fun hp => hp.not_isFinite hfinite) hhigh.ne,
      iff_of_false (fun hm => hm.not_isFinite hfinite) hlow.ne', iff_of_true hfinite ⟨hlow, hhigh⟩, fun _ => rfl⟩

theorem HasRank.floatLt_iff {a b : Word} {m n : Int} (ha : HasRank a m) (hb : HasRank b n) :
    FloatLt a b ↔ m < n := by
  have hboth : IsFinite a ∧ IsFinite b ∧ binary32 a < binary32 b ↔ IsFinite a ∧ IsFinite b ∧ m < n :=
    and_congr_right fun hfa => and_congr_right fun hfb => by
      rw [binary32_lt_binary32_iff, ha.number hfa, hb.number hfb]
  have := ha.bounded
  have := hb.bounded
  rw [FloatLt, hboth, ha.finite, hb.finite, ha.minusInf, hb.minusInf, ha.plusInf, hb.plusInf]
  omega

theorem HasRank.floatEq_iff {a b : Word} {m n : Int} (ha : HasRank a m) (hb : HasRank b n) :
    FloatEq a b ↔ m = n := by
  have hboth : IsFinite a ∧ IsFinite b ∧ binary32 a = binary32 b ↔ IsFinite a ∧ IsFinite b ∧ m = n :=
    and_congr_right fun hfa => and_congr_right fun hfb => by
      rw [binary32_inj, ha.number hfa, hb.number hfb]
  have hsame : ¬ IsFinite a → (a = b ↔ m = n) := fun hfa => by
    have hinf : IsPlusInf a ∨ IsMinusInf a := by
      have := ha.bounded
      rw [ha.finite] at hfa
      rw [ha.plusInf, ha.minusInf]
      omega
    obtain hplus | hminus := hinf
    · rw [ha.plusInf.1 hplus, isPlusInf_iff.1 hplus, eq_comm, ← isPlusInf_iff, hb.plusInf, eq_comm]
    · rw [ha.minusInf.1 hminus, isMinusInf_iff.1 hminus, eq_comm, ← isMinusInf_iff, hb.minusInf, eq_comm]
  rw [FloatEq, hboth, and_congr_right hsame, ha.finite, hb.finite]
  omega

theorem floatCompare_of_isNan {a b : Word} (h : IsNan a ∨ IsNan b) : floatCompare a b = ⟨false, false, true, false⟩ := by
  obtain h | h := h
  · rw [floatCompare, ofBits_of_isNan h]
    rfl
  · rw [floatCompare, ofBits_of_isNan h]
    cases (FloatValue.ofBits a).rank <;> rfl

/-- R338: of two patterns that are not NaNs, the order of the ranks is the IEEE-754 relation. -/
theorem floatCompare_of_not_isNan {a b : Word} (ha : ¬ IsNan a) (hb : ¬ IsNan b) : ∃ m n : Int,
    (FloatEq a b ↔ m = n) ∧ (FloatLt a b ↔ m < n) ∧
    floatCompare a b = if m = n then ⟨false, true, false, false⟩ else if m < n then ⟨true, false, false, true⟩
      else ⟨false, false, false, false⟩ := by
  obtain ⟨m, hm, ham⟩ := exists_rank ha
  obtain ⟨n, hn, hbn⟩ := exists_rank hb
  exact ⟨m, n, ham.floatEq_iff hbn, ham.floatLt_iff hbn, by rw [floatCompare, hm, hn]⟩

/-- Settles O54: the flags follow the order of the ranks. -/
theorem fcmpResult : Obligations.FcmpResult := by
  rintro a b s x y rfl rfl
  refine ⟨_, rfl, floatCompare_of_isNan, ?_, ?_, ?_⟩
  all_goals
    intro hx hy
    obtain ⟨m, n, heq, hlt, hflags⟩ := floatCompare_of_not_isNan hx hy
    rw [hflags]
  · exact fun h => if_pos (heq.1 h)
  · exact fun h => by rw [if_neg (hlt.1 h).ne, if_pos (hlt.1 h)]
  · exact fun hne hnlt => by rw [if_neg (mt heq.2 hne), if_neg (mt hlt.2 hnlt)]

/-! ## FTOI and FTOU -/

/-- A word written to a whole register (R334 to R337). -/
theorem writesView_writeReg (n : Nat) (j : Fin 8) (v : Word) (s : State) :
    WritesView n ⟨j, .word⟩ v.toNat s.flags s (advance n (writeReg j v s)) := by
  rw [writeReg_eq_writeG]
  exact writesView_writeG n ⟨j, .word⟩ v s

/-- The number that a finite pattern stands for, with its fraction dropped. -/
def integerPart (b : Word) : Int := (scaledValue b).tdiv (2 ^ 149)

theorem integerPart_of_nonneg {b : Word} (h : 0 ≤ scaledValue b) : integerPart b = scaledValue b / 2 ^ 149 :=
  Int.tdiv_eq_ediv_of_nonneg h

theorem integerPart_of_nonpos {b : Word} (h : scaledValue b ≤ 0) : integerPart b = -(-scaledValue b / 2 ^ 149) := by
  rw [← Int.tdiv_eq_ediv_of_nonneg (Int.neg_nonneg.2 h), Int.neg_tdiv, Int.neg_neg, integerPart]

theorem truncatesTo_integerPart (b : Word) : TruncatesTo (binary32 b) (integerPart b) := by
  refine ⟨fun h => ?_, fun h => ?_⟩
  · have hv := (le_binary32_iff 0 b).1 (by exact_mod_cast h)
    rw [integerPart_of_nonneg (by omega), ← Int.cast_one, ← Int.cast_add, ← not_le, le_binary32_iff, le_binary32_iff]
    omega
  · have hv := (binary32_le_iff 0 b).1 (by exact_mod_cast h)
    rw [integerPart_of_nonpos (by omega), ← Int.cast_one, ← Int.cast_sub, ← not_le, binary32_le_iff, binary32_le_iff]
    omega

theorem integerPart_lt {k : Int} {b : Word} (hk : 0 < k) (h : scaledValue b < k * 2 ^ 149) : integerPart b < k := by
  obtain hv | hv := le_total 0 (scaledValue b)
  · rw [integerPart_of_nonneg hv]
    omega
  · rw [integerPart_of_nonpos hv]
    omega

theorem le_integerPart {k : Int} {b : Word} (hk : k ≤ 0) (h : (k - 1) * 2 ^ 149 < scaledValue b) : k ≤ integerPart b := by
  obtain hv | hv := le_total 0 (scaledValue b)
  · rw [integerPart_of_nonneg hv]
    omega
  · rw [integerPart_of_nonpos hv]
    omega

theorem intOfFloat_of_isNan {b : Word} (h : IsNan b) : intOfFloat b = 0 := by
  rw [intOfFloat, ofBits_of_isNan h]

theorem intOfFloat_of_isFinite {b : Word} (h : IsFinite b) : intOfFloat b =
    if 2 ^ 31 * 2 ^ 149 ≤ scaledValue b then 0x7FFFFFFF
    else if scaledValue b < -(2 ^ 31 * 2 ^ 149) then 0x80000000 else BitVec.ofInt 32 (integerPart b) := by
  rw [intOfFloat, ofBits_of_isFinite h, integerPart]

theorem natOfFloat_of_isFinite {b : Word} (h : IsFinite b) : natOfFloat b =
    if scaledValue b ≤ -(2 ^ 149) then 0
    else if 2 ^ 32 * 2 ^ 149 ≤ scaledValue b then 0xFFFFFFFF else BitVec.ofInt 32 (integerPart b) := by
  rw [natOfFloat, ofBits_of_isFinite h, integerPart]

/-- R336. -/
theorem intOfFloat_saturates_high {b : Word} (h : IsPlusInf b ∨ (IsFinite b ∧ 2 ^ 31 ≤ binary32 b)) :
    intOfFloat b = 0x7FFFFFFF := by
  obtain hinf | ⟨hfin, hle⟩ := h
  · rw [intOfFloat, ofBits_of_isPlusInf hinf]
    rfl
  · have hv := (le_binary32_iff (2 ^ 31) b).1 (by exact_mod_cast hle)
    rw [intOfFloat_of_isFinite hfin, if_pos hv]

/-- R336. -/
theorem intOfFloat_saturates_low {b : Word} (h : IsMinusInf b ∨ (IsFinite b ∧ binary32 b < -2 ^ 31)) :
    intOfFloat b = 0x80000000 := by
  obtain hinf | ⟨hfin, hlt⟩ := h
  · rw [intOfFloat, ofBits_of_isMinusInf hinf]
    rfl
  · have hv := (binary32_lt_iff (-2 ^ 31) b).1 (by exact_mod_cast hlt)
    rw [intOfFloat_of_isFinite hfin, if_neg (by omega), if_pos (by omega)]

/-- R336. -/
theorem truncatesTo_intOfFloat {b : Word} (hfin : IsFinite b) (hlow : -2 ^ 31 ≤ binary32 b) (hhigh : binary32 b < 2 ^ 31) :
    TruncatesTo (binary32 b) (signed 32 (intOfFloat b).toNat) := by
  have hvlow := (le_binary32_iff (-2 ^ 31) b).1 (by exact_mod_cast hlow)
  have hvhigh := (binary32_lt_iff (2 ^ 31) b).1 (by exact_mod_cast hhigh)
  have hpartLow : -2 ^ 31 ≤ integerPart b := le_integerPart (by decide) (by omega)
  have hpartHigh : integerPart b < 2 ^ 31 := integerPart_lt (by decide) hvhigh
  have hword : signed 32 (intOfFloat b).toNat = integerPart b := by
    rw [signed_toNat (by decide), intOfFloat_of_isFinite hfin, if_neg (by omega), if_neg (by omega),
      BitVec.toInt_ofInt_eq_self (by decide) hpartLow hpartHigh]
  rw [hword]
  exact truncatesTo_integerPart b

/-- R337. -/
theorem natOfFloat_saturates_low {b : Word} (h : IsNan b ∨ IsMinusInf b ∨ (IsFinite b ∧ binary32 b ≤ -1)) :
    natOfFloat b = 0 := by
  obtain hnan | hinf | ⟨hfin, hle⟩ := h
  · rw [natOfFloat, ofBits_of_isNan hnan]
  · rw [natOfFloat, ofBits_of_isMinusInf hinf]
    rfl
  · have hv := (binary32_le_iff (-1) b).1 (by exact_mod_cast hle)
    rw [natOfFloat_of_isFinite hfin, if_pos (by omega)]

/-- R337. -/
theorem natOfFloat_saturates_high {b : Word} (h : IsPlusInf b ∨ (IsFinite b ∧ 2 ^ 32 ≤ binary32 b)) :
    natOfFloat b = 0xFFFFFFFF := by
  obtain hinf | ⟨hfin, hle⟩ := h
  · rw [natOfFloat, ofBits_of_isPlusInf hinf]
    rfl
  · have hv := (le_binary32_iff (2 ^ 32) b).1 (by exact_mod_cast hle)
    rw [natOfFloat_of_isFinite hfin, if_neg (by omega), if_pos hv]

/-- R337. -/
theorem truncatesTo_natOfFloat {b : Word} (hfin : IsFinite b) (hlow : -1 < binary32 b) (hhigh : binary32 b < 2 ^ 32) :
    TruncatesTo (binary32 b) (natOfFloat b).toNat := by
  have hvlow := (lt_binary32_iff (-1) b).1 (by exact_mod_cast hlow)
  have hvhigh := (binary32_lt_iff (2 ^ 32) b).1 (by exact_mod_cast hhigh)
  have hpartLow : 0 ≤ integerPart b := le_integerPart le_rfl hvlow
  have hpartHigh : integerPart b < 2 ^ 32 := integerPart_lt (by decide) hvhigh
  have hword : ((natOfFloat b).toNat : Int) = integerPart b := by
    rw [natOfFloat_of_isFinite hfin, if_neg (by omega), if_neg (by omega), natCast_toNat_ofInt,
      Int.emod_eq_of_lt hpartLow hpartHigh]
  rw [hword]
  exact truncatesTo_integerPart b

/-- Settles O53: the clauses are those of the two conversions of a pattern. -/
theorem floatToInt : Obligations.FloatToInt := by
  rintro dst src s x rfl
  exact ⟨⟨_, _, rfl, writesView_writeReg 3 dst _ s, fun h => by rw [intOfFloat_of_isNan h]; rfl,
      fun h => by rw [intOfFloat_saturates_high h]; rfl, fun h => by rw [intOfFloat_saturates_low h]; rfl,
      truncatesTo_intOfFloat⟩,
    _, _, rfl, writesView_writeReg 3 dst _ s, fun h => by rw [natOfFloat_saturates_low h]; rfl,
    fun h => by rw [natOfFloat_saturates_high h]; rfl, truncatesTo_natOfFloat⟩

/-! ## ITOF and UTOF -/

/-- R334, R335: the model's pattern is the nearest one for every integer of 32 bits. -/
theorem nearestEven_floatOfInt {v : Int} (h : v.natAbs < 2 ^ 32) : NearestEven v (floatOfInt v) := by
  have hnear := nearestMagnitude_magnitudeBits v.natAbs
  have hfinite := hnear.lt h
  refine nearestEven_of_nearestMagnitude hnear hfinite ?_
  rw [floatOfInt, BitVec.toNat_ofNat, Nat.mod_eq_of_lt]
  split <;> omega

/-- Settles O52: both write the nearest pattern, `ITOF` of the signed and `UTOF` of the unsigned word. -/
theorem intToFloat : Obligations.IntToFloat := by
  refine fun dst src s => ⟨⟨_, _, rfl, ?_, writesView_writeReg 3 dst _ s⟩, _, _, rfl, ?_, writesView_writeReg 3 dst _ s⟩
  · rw [signed_toNat (by decide)]
    have hlow := BitVec.le_toInt (readReg src s)
    have hhigh := BitVec.toInt_lt (x := readReg src s)
    exact nearestEven_floatOfInt (by omega)
  · exact nearestEven_floatOfInt (readReg src s).isLt

end Sys2Proof.Machine
end

section
/-! PROOF. What a step does to the interrupt queue and to the attached images: no access, instruction or exception takes an
entry off the queue or an image off its controller, said once for each; the statements `QueueFifo`, `QueuedInterruptTaken` and
`InterruptNumbers` (spec 60_exceptions.md R350, R351, R360 to R364, R371, R418). -/

namespace Sys2Proof.Machine

/-! ## What accesses and device steps keep of the devices -/

/-- From `s` to `t` the queue has gained entries at its tail only, and each controller has an image attached as before, of as
many blocks. -/
structure KeepsDevices (s t : State) : Prop where
  queue : s.queue <+: t.queue
  blocks : ∀ d, (t.disk d).image.map DiskImage.blocks = (s.disk d).image.map DiskImage.blocks

theorem KeepsDevices.refl (s : State) : KeepsDevices s s := ⟨List.prefix_rfl, fun _ => rfl⟩

theorem KeepsDevices.trans {s t u : State} (h : KeepsDevices s t) (k : KeepsDevices t u) : KeepsDevices s u :=
  ⟨h.queue.trans k.queue, fun d => (k.blocks d).trans (h.blocks d)⟩

/-- The queue and the controllers are all that matters. -/
theorem KeepsDevices.congr {s t u : State} (h : KeepsDevices s t) (hqueue : u.queue = t.queue) (hA : u.diskA = t.diskA)
    (hB : u.diskB = t.diskB) : KeepsDevices s u where
  queue := hqueue ▸ h.queue
  blocks
    | .a => (congrArg (fun d : Disk => d.image.map DiskImage.blocks) hA).trans (h.blocks .a)
    | .b => (congrArg (fun d : Disk => d.image.map DiskImage.blocks) hB).trans (h.blocks .b)

theorem keepsDevices_of_eq (s t : State) (hqueue : t.queue = s.queue) (hA : t.diskA = s.diskA)
    (hB : t.diskB = s.diskB) : KeepsDevices s t :=
  (KeepsDevices.refl s).congr hqueue hA hB

theorem keepsDevices_setDisk {s : State} {d : DiskId} {v : Disk}
    (h : v.image.map DiskImage.blocks = (s.disk d).image.map DiskImage.blocks) : KeepsDevices s (s.setDisk d v) where
  queue := by cases d <;> exact List.prefix_rfl
  blocks e := by
    by_cases he : e = d
    · rw [he, State.disk_setDisk_same, h]
    · rw [State.disk_setDisk_other s v he]

/-- A write to the register window leaves the image alone (R412). -/
theorem Disk.writeRegister_image (d : Disk) (o : Nat) (b : Byte) : (d.writeRegister o b).image = d.image := by
  unfold Disk.writeRegister Disk.command
  repeat' split
  all_goals rfl

/-- A completion writes bytes of the image but keeps its number of blocks (R415, R418). -/
theorem Disk.complete_blocks (d : Disk) (ok : Bool) (fill : Memory) :
    (d.complete ok fill).image.map DiskImage.blocks = d.image.map DiskImage.blocks := by
  unfold Disk.complete
  split
  · next img c himg _ =>
    split
    · unfold Disk.transfer
      split
      · rfl
      · exact (congrArg (Option.map DiskImage.blocks) himg).symm
    · rfl
  · rfl

theorem keepsDevices_poke (pa : Word) (b : Byte) (s : State) : KeepsDevices s (poke pa b s) := by
  unfold poke
  cases regionOf pa with
  | vector | ram | display _ => exact keepsDevices_of_eq s _ rfl rfl rfl
  | rom _ | keyboard _ => exact KeepsDevices.refl s
  | diskRegister d o => exact keepsDevices_setDisk (congrArg _ (Disk.writeRegister_image _ o b))
  | diskBuffer d o => exact keepsDevices_setDisk rfl

theorem keepsDevices_enqueue (k : DeviceIrq) (s : State) : KeepsDevices s (enqueue k s) where
  queue := List.prefix_append s.queue [k]
  blocks d := by cases d <;> rfl

theorem keepsDevices_deviceStep (t : DeviceStep) (s : State) : KeepsDevices s (deviceStep t s) := by
  cases t with
  | keyboard =>
    rcases keyboardStep_cases s with h | ⟨m, ms, _, _, h⟩
    · rw [deviceStep, h]
      exact KeepsDevices.refl s
    · rw [deviceStep, h]
      exact (keepsDevices_enqueue .keyboard s).congr rfl rfl rfl
  | disk d ok =>
    rcases diskStep_cases d ok s with h | ⟨_, _, h⟩
    · rw [deviceStep, h]
      exact KeepsDevices.refl s
    · rw [deviceStep, h]
      have hdisk := keepsDevices_setDisk ((s.disk d).complete_blocks ok (failedTransferBytes s.draws))
      exact (hdisk.congr (u := (s.setDisk d _).setDraws (s.draws + 1)) rfl rfl rfl).trans (keepsDevices_enqueue d.irq _)

theorem keepsDevices_deviceSteps (ts : List DeviceStep) (s : State) : KeepsDevices s (deviceSteps ts s) := by
  induction ts generalizing s with
  | nil => exact KeepsDevices.refl s
  | cons t ts ih => exact (keepsDevices_deviceStep t s).trans (ih (deviceStep t s))

theorem keepsDevices_afterAccess (pa : Word) (s : State) : KeepsDevices s (afterAccess pa s) := by
  unfold afterAccess
  split
  · split
    · exact KeepsDevices.refl s
    · next ts rest _ =>
      exact (keepsDevices_of_eq s (s.setMidStep rest) rfl rfl rfl).trans (keepsDevices_deviceSteps ts _)
  · exact KeepsDevices.refl s

/-! ## Memory accesses -/

theorem keepsDevices_physReadList (ps : List Word) (s : State) : KeepsDevices s (physReadList ps s).2 := by
  induction ps generalizing s with
  | nil => exact KeepsDevices.refl s
  | cons p ps ih => exact (keepsDevices_afterAccess p s).trans (ih _)

theorem keepsDevices_physWriteList (cs : List (Word × Byte)) (s : State) : KeepsDevices s (physWriteList cs s) := by
  induction cs generalizing s with
  | nil => exact KeepsDevices.refl s
  | cons c cs ih => exact ((keepsDevices_poke c.1 c.2 s).trans (keepsDevices_afterAccess c.1 _)).trans (ih _)

theorem keepsDevices_physRead (n : Nat) (pa : Word) (s : State) : KeepsDevices s (physRead n pa s).2 :=
  keepsDevices_physReadList _ s

theorem keepsDevices_translate (va : Word) (acc : Access) (s : State) : KeepsDevices s (translate va acc s).2 := by
  have hpde := keepsDevices_physRead 4 (pdeAddress s.pdpr va) s
  have hpte := hpde.trans (keepsDevices_physRead 4 (pteAddress (physRead 4 (pdeAddress s.pdpr va) s).1 va) _)
  unfold translate
  simp only
  split
  · exact hpde
  · split
    · exact hpte
    · split
      · exact hpte
      · exact hpte

theorem keepsDevices_resolve (va : Word) (acc : Access) (s : State) : KeepsDevices s (resolve va acc s).2 := by
  unfold resolve
  split
  · exact KeepsDevices.refl s
  · exact keepsDevices_translate va acc s

theorem keepsDevices_resolveList (acc : Access) (as : List Word) (s : State) :
    KeepsDevices s (resolveList acc as s).state := by
  induction as generalizing s with
  | nil => exact KeepsDevices.refl s
  | cons a as ih =>
    have hfirst := keepsDevices_resolve a acc s
    rw [resolveList]
    split
    · next e =>
      rw [e] at hfirst
      exact hfirst
    · next p u e =>
      rw [e] at hfirst
      exact MemResult.state_bind (hfirst.trans (ih u)) fun _ _ h => h

theorem keepsDevices_memRead (n : Nat) (va : Word) (acc : Access) (s : State) :
    KeepsDevices s (memRead n va acc s).state :=
  MemResult.state_bind (keepsDevices_resolveList acc _ s) fun ps u h => h.trans (keepsDevices_physReadList ps u)

theorem keepsDevices_memWrite (n : Nat) (va v : Word) (s : State) : KeepsDevices s (memWrite n va v s).state :=
  MemResult.state_bind (keepsDevices_resolveList .write _ s) fun _ u h => h.trans (keepsDevices_physWriteList _ u)

theorem keepsDevices_memSwap (n : Nat) (va v : Word) (s : State) : KeepsDevices s (memSwap n va v s).state :=
  MemResult.state_bind (keepsDevices_resolveList .read _ s) fun _ s1 h1 =>
    MemResult.state_bind (h1.trans (keepsDevices_resolveList .write _ s1)) fun _ s2 h2 =>
      MemResult.state_bind (h2.trans (keepsDevices_memRead n va .read s2)) fun _ s3 h3 =>
        MemResult.state_bind (h3.trans (keepsDevices_memWrite n va v s3)) fun _ _ h4 => h4

theorem keepsDevices_blockCopyLoop (n : Nat) (d src : Word) (s : State) :
    KeepsDevices s (blockCopyLoop n d src s).state := by
  induction n generalizing d src s with
  | zero => exact KeepsDevices.refl s
  | succ n ih =>
    exact MemResult.state_bind (keepsDevices_memRead 1 src .read s) fun b s1 h1 =>
      MemResult.state_bind (h1.trans (keepsDevices_memWrite 1 d b s1)) fun _ s2 h2 => h2.trans (ih (d + 1) (src + 1) s2)

theorem keepsDevices_blockSetLoop (n : Nat) (d v : Word) (s : State) : KeepsDevices s (blockSetLoop n d v s).state := by
  induction n generalizing d s with
  | zero => exact KeepsDevices.refl s
  | succ n ih => exact MemResult.state_bind (keepsDevices_memWrite 1 d v s) fun _ s1 h1 => h1.trans (ih (d + 1) s1)

/-! ## Instructions and exceptions -/

theorem keepsDevices_pushKernel (v : Word) (s : State) : KeepsDevices s (pushKernel v s) :=
  (keepsDevices_of_eq s (s.setKspr (s.kspr - 4)) rfl rfl rfl).trans (keepsDevices_physWriteList _ _)

theorem keepsDevices_pushFrame (ret : Word) (s : State) : KeepsDevices s (pushFrame ret s) := by
  have hstatus := (keepsDevices_of_eq s (s.setMode .kernel) rfl rfl rfl).trans (keepsDevices_pushKernel (statusWord s) _)
  rw [pushFrame]
  generalize pushKernel (statusWord s) (s.setMode .kernel) = u at hstatus ⊢
  exact (hstatus.trans (keepsDevices_pushKernel ret u)).trans (keepsDevices_pushKernel _ _)

/-- An exception's entry takes nothing from the queue (R373). -/
theorem keepsDevices_takeInterrupt (k : Interrupt) (ret : Word) (s : State) : KeepsDevices s (takeInterrupt k ret s) := by
  have hpush := keepsDevices_pushFrame ret s
  rw [takeInterrupt]
  generalize pushFrame ret s = u at hpush ⊢
  have hread := keepsDevices_physRead 4 (vectorAddress k) (u.setImr 0)
  generalize physRead 4 (vectorAddress k) (u.setImr 0) = v at hread ⊢
  exact ((hpush.trans (keepsDevices_of_eq u (u.setImr 0) rfl rfl rfl)).trans hread).congr rfl rfl rfl

theorem keepsDevices_returnFromInterrupt (s : State) : KeepsDevices s (returnFromInterrupt s) := by
  have huspr := keepsDevices_physRead 4 s.kspr s
  have hpc := keepsDevices_physRead 4 (s.kspr + 4) (physRead 4 s.kspr s).2
  have hstatus := keepsDevices_physRead 4 (s.kspr + 8) (physRead 4 (s.kspr + 4) (physRead 4 s.kspr s).2).2
  rw [returnFromInterrupt]
  generalize physRead 4 (s.kspr + 8) _ = popped at hstatus ⊢
  exact ((huspr.trans hpc).trans hstatus).congr (by simp) (by simp) (by simp)

theorem OnlyRegistersChanged.keepsDevices {s t : State} (h : OnlyRegistersChanged s t) : KeepsDevices s t := by
  rw [h]
  exact keepsDevices_of_eq s _ rfl rfl rfl

theorem EndsFrom.keepsDevices {u t : State} (h : EndsFrom u t) : KeepsDevices u t := by
  cases h with
  | entry k ret h => exact h.keepsDevices.trans (keepsDevices_takeInterrupt k ret _)
  | update h => exact h.keepsDevices

theorem Accesses.keepsDevices {i : Instr} {s u : State} (h : Accesses i s u) : KeepsDevices s u := by
  cases h with
  | none => exact KeepsDevices.refl s
  | read n va _ => exact keepsDevices_memRead n va .read s
  | write n va v _ => exact keepsDevices_memWrite n va v s
  | swap n va v _ => exact keepsDevices_memSwap n va v s
  | blockCopy n d x _ => exact keepsDevices_blockCopyLoop n d x s
  | blockSet n d v _ => exact keepsDevices_blockSetLoop n d v s

theorem keepsDevices_exec {i : Instr} {s t : State} (h : exec i s = .next t) : KeepsDevices s t := by
  by_cases hi : i = .ireturn
  · subst hi
    rcases guardPrivilege_cases h with ⟨_, _, rfl⟩ | ⟨_, hnext⟩
    · exact keepsDevices_takeInterrupt .illegalOperation s.pc s
    · cases hnext
      exact keepsDevices_returnFromInterrupt s
  · obtain ⟨u, haccess, hend⟩ := exec_accessesThenEnds hi h
    exact haccess.keepsDevices.trans hend.keepsDevices

theorem keepsDevices_fetchLoop (fuel : Nat) (got : List Byte) (s : State) :
    KeepsDevices s (fetchLoop fuel got s).state := by
  induction fuel generalizing got s with
  | zero => exact KeepsDevices.refl s
  | succ fuel ih =>
    have hbyte := keepsDevices_memRead 1 (s.pc + BitVec.ofNat 32 got.length) .fetch s
    rw [fetchLoop]
    split
    · next e =>
      rw [e] at hbyte
      exact hbyte
    · next b u e =>
      rw [e] at hbyte
      split
      · exact hbyte
      · exact hbyte
      · exact hbyte.trans (ih _ u)

theorem keepsDevices_runInstruction {s t : State} (h : runInstruction s = .next t) : KeepsDevices s t := by
  have hfetch : KeepsDevices s (fetch s).state := keepsDevices_fetchLoop _ _ s
  rcases runInstruction_cases h with ⟨i, u, e, hexec⟩ | ⟨err, u, e, rfl⟩ | ⟨va, u, e, rfl⟩
  · rw [e] at hfetch
    exact hfetch.trans (keepsDevices_exec hexec)
  · rw [e] at hfetch
    exact hfetch.trans (endsFrom_raiseIllegal u).keepsDevices
  · rw [e] at hfetch
    exact hfetch.trans (endsFrom_raisePageFault va u).keepsDevices

/-! ## Steps -/

/-- What a step does to the queue and to the attached images: it keeps them, or takes the first enabled entry off the queue
and enters its handler (R363), or is the host's start. -/
theorem step_devices_cases {s t : State} (h : step s = .next t) :
    KeepsDevices s t ∨
      (∃ k rest, takeEnabled s.imr s.queue = some (k, rest) ∧ KeepsDevices (s.setQueue rest) t ∧ TookException s t) ∨
      Restarted s t := by
  rcases step_cases h with ⟨u, hturn, hcpu⟩ | ⟨d, rest, _, rfl⟩ | ⟨m, rest, _, rfl⟩ | ⟨rest, _, rfl⟩ | ⟨i, rest, hs, rfl⟩
  · have hu := hturn.eq_setSchedule
    generalize u.schedule = turns at hu
    subst hu
    rcases cpuStep_cases hcpu with rfl | ⟨_, k, rest, e, rfl⟩ | ⟨_, _, hrun⟩
    · exact .inl (keepsDevices_of_eq s _ rfl rfl rfl)
    · have hqueue := keepsDevices_of_eq (s.setQueue rest) ((s.setSchedule turns).setQueue rest) rfl rfl rfl
      have htook := (raises_takeInterrupt (KeepsCpu.refl ((s.setSchedule turns).setQueue rest)) k.kind s.pc).took
      exact .inr (.inl ⟨k, rest, e, hqueue.trans (keepsDevices_takeInterrupt k.kind s.pc _), htook⟩)
    · exact .inl ((keepsDevices_of_eq s (s.setSchedule turns) rfl rfl rfl).trans (keepsDevices_runInstruction hrun))
  · exact .inl ((keepsDevices_of_eq s (s.setSchedule rest) rfl rfl rfl).trans (keepsDevices_deviceStep d _))
  · exact .inl (keepsDevices_of_eq s _ rfl rfl rfl)
  · exact .inl (keepsDevices_of_eq s _ rfl rfl rfl)
  · by_cases hr : s.runState = .stopped
    · exact .inr (.inr ⟨hr, i, rest, hs, rfl⟩)
    · rw [hostStart_eq, State.setSchedule_runState, if_neg hr]
      exact .inl (keepsDevices_of_eq s _ rfl rfl rfl)

/-- Settles O23: a step keeps what is queued, but for the entry that it takes. -/
theorem queueFifo : Obligations.QueueFifo := by
  intro s t h
  rcases step_devices_cases h with hkeeps | ⟨k, rest, htake, hkeeps, htook⟩ | hrestart
  · obtain ⟨added, hadded⟩ := hkeeps.queue
    exact ⟨added, .inl hadded.symm⟩
  · obtain ⟨before, behind, hqueue, rfl, hk, hbefore⟩ := takeEnabled_eq_some htake
    obtain ⟨added, hadded⟩ := hkeeps.queue
    exact ⟨added, .inr (.inl ⟨before, behind, k, hqueue, hk, hbefore, hadded.symm, htook⟩)⟩
  · exact ⟨[], .inr (.inr hrestart)⟩

/-! ## The entry that the CPU takes -/

/-- R363: behind masked entries the first enabled one is taken, and the others stay in their order. -/
theorem takeEnabled_append {imr : BitVec 16} {before behind : List DeviceIrq} {k : DeviceIrq}
    (hbefore : ∀ j ∈ before, imr.getLsbD j.kind.number = false) (hk : imr.getLsbD k.kind.number = true) :
    takeEnabled imr (before ++ k :: behind) = some (k, before ++ behind) := by
  induction before with
  | nil => exact if_pos hk
  | cons j before ih =>
    have hj : DeviceIrq.enabled imr j ≠ true := Bool.eq_false_iff.1 (hbefore j List.mem_cons_self)
    rw [List.cons_append, takeEnabled, if_neg hj, ih fun i hi => hbefore i (List.mem_cons_of_mem j hi)]
    rfl

/-- R371: a CPU that is not stopped enters the handler of the entry it takes. -/
theorem cpuStep_of_takeEnabled {s : State} {k : DeviceIrq} {rest : List DeviceIrq} (hr : s.runState ≠ .stopped)
    (h : takeEnabled s.imr s.queue = some (k, rest)) :
    cpuStep s = .next (takeInterrupt k.kind s.pc (s.setQueue rest)) := by
  unfold cpuStep
  rw [h]
  cases e : s.runState with
  | stopped => exact absurd e hr
  | running | paused => rfl

/-- Settles O8: at the CPU's turn the queue is as the statement splits it. -/
theorem queuedInterruptTaken : Obligations.QueuedInterruptTaken := by
  intro s u before behind k hturn hr hqueue hbefore hk
  have htake : takeEnabled u.imr u.queue = some (k, before ++ behind) := by
    rw [hturn.imr_eq, hturn.queue_eq, hqueue, takeEnabled_append hbefore hk]
  have hpc : u.pc = s.pc := by rw [hturn.eq_setSchedule, State.setSchedule_pc]
  rw [step_of_cpuTurn hturn, cpuStep_of_takeEnabled (hturn.runState_eq ▸ hr) htake, hpc]

/-- Settles O12: the numbers of R351, and the kinds of R360. -/
theorem interruptNumbers : Obligations.InterruptNumbers :=
  ⟨rfl, rfl, rfl, rfl, rfl, rfl, rfl, rfl, rfl, fun _ => rfl, rfl, rfl, rfl⟩

end Sys2Proof.Machine
end

section
/-! PROOF. Which steps change the mode, and that every step completes; the statements `ModeChanges` and `EveryStepCompletes`
(spec 60_exceptions.md R371, R373, R386, 40_control.md R173). -/

namespace Sys2Proof.Machine

/-! ## The mode -/

/-- R173: a return leads to user mode exactly if bit 8 of the status word that it pops is set. -/
theorem returnFromInterrupt_mode_user_iff {s : State} (hq : Quiet (accessesOf .ireturn s) s) :
    (returnFromInterrupt s).mode = .user ↔ bit (wordAt s (s.kspr + 8)).toNat 8 = true := by
  rw [returnFromInterrupt_of_quiet hq, bit_toNat]
  cases (wordAt s (s.kspr + 8)).getLsbD 8 <;> simp

/-- The only instruction that leads from kernel to user mode is the return (R386). -/
theorem exec_leaves_kernel {i : Instr} {s t : State} (h : exec i s = .next t) (hs : s.mode = .kernel)
    (ht : t.mode = .user) : i = .ireturn := by
  rcases exec_cases h with hraise | ⟨hi, _, _⟩ | ⟨_, hupdate⟩
  · obtain ⟨hmode, _, _, _⟩ := hraise.took
    exact Mode.noConfusion (hmode.symm.trans ht)
  · exact hi
  · exact Mode.noConfusion (hs.symm.trans (hupdate.mode.symm.trans ht))

theorem takeInterrupt_mode (k : Interrupt) (ret : Word) (s : State) : (takeInterrupt k ret s).mode = .kernel :=
  (keepsCpu_takeInterrupt k ret s).mode

theorem runInstruction_leaves_kernel {s t : State} (h : runInstruction s = .next t) (hs : s.mode = .kernel)
    (ht : t.mode = .user) : ∃ v, fetch s = .ok .ireturn v ∧ exec .ireturn v = .next t ∧ v.mode = .kernel := by
  have hfetch := sameOutsideDevices_fetch s
  rcases runInstruction_cases h with ⟨i, v, e, hexec⟩ | ⟨err, v, _, rfl⟩ | ⟨va, v, _, rfl⟩
  · rw [e] at hfetch
    have hv : v.mode = .kernel := hfetch.mode.trans hs
    obtain rfl := exec_leaves_kernel hexec hv ht
    exact ⟨v, e, hexec, hv⟩
  · exact Mode.noConfusion ((takeInterrupt_mode _ _ v).symm.trans ht)
  · exact Mode.noConfusion ((takeInterrupt_mode _ _ (v.setPfva va)).symm.trans ht)

/-- A step from kernel to user mode is the CPU's, and runs an instruction (R386). -/
theorem step_leaves_kernel {s t : State} (h : step s = .next t) (hs : s.mode = .kernel) (ht : t.mode = .user) :
    ∃ u, CpuTurn s u ∧ u.mode = .kernel ∧ runInstruction u = .next t := by
  have stays (hk : t.mode = .kernel) : False := Mode.noConfusion (hk.symm.trans ht)
  rcases step_cases h with ⟨u, hturn, hcpu⟩ | ⟨d, rest, _, rfl⟩ | ⟨m, rest, _, rfl⟩ | ⟨rest, _, rfl⟩ | ⟨i, rest, _, rfl⟩
  · have hu : u.mode = .kernel := by rw [hturn.eq_setSchedule, State.setSchedule_mode, hs]
    rcases cpuStep_cases hcpu with rfl | ⟨_, k, rest, _, rfl⟩ | ⟨_, _, hrun⟩
    · exact (stays hu).elim
    · exact (stays (takeInterrupt_mode k.kind u.pc _)).elim
    · exact ⟨u, hturn, hu, hrun⟩
  · exact (stays ((sameOutsideDevices_deviceStep d (s.setSchedule rest)).mode.trans hs)).elim
  · exact (stays hs).elim
  · exact (stays hs).elim
  · refine (stays ?_).elim
    rw [hostStart_eq]
    split
    · rfl
    · exact hs

/-- Settles O18: user mode is left as `UserKeepsPrivileged` says, and kernel mode by a return only. -/
theorem modeChanges : Obligations.ModeChanges := by
  intro s t h
  refine ⟨fun hs ht => ?_, fun hs ht => ?_⟩
  · rcases userKeepsPrivileged s t hs h with ⟨hmode, _⟩ | ⟨htook, _⟩ | hrestart
    · exact Mode.noConfusion (ht.symm.trans hmode)
    · exact .inl htook
    · exact .inr hrestart
  · obtain ⟨u, hturn, hu, hrun⟩ := step_leaves_kernel h hs ht
    obtain ⟨v, hfetch, hexec, hv⟩ := runInstruction_leaves_kernel hrun hu ht
    have hreturn := hexec
    rw [exec_ireturn_kernel hv] at hreturn
    obtain rfl := Host.Outcome.next.inj hreturn
    exact ⟨u, v, hturn, hfetch, hexec, hv, rfl, fun hq => (returnFromInterrupt_mode_user_iff hq).1 ht⟩

/-! ## Every step completes -/

/-- A memory access that faults has its exception's entry, so what follows an access always completes (R97). -/
theorem MemResult.finish_completes {α : Type} (r : MemResult α) (k : α → State → State) : ∃ t, r.finish k = .next t := by
  cases r with
  | ok v s => exact ⟨_, rfl⟩
  | pageFault va s => exact ⟨_, rfl⟩

theorem Phases.run_completes {X α : Type} (a : Phases X α) (s : State) : ∃ t, a.run s = .next t := by
  rw [Phases.run]
  cases a.trap s with
  | some e => exact ⟨_, rfl⟩
  | none => exact MemResult.finish_completes _ _

theorem exec_completes (i : Instr) (s : State) : ∃ t, exec i s = .next t := by
  by_cases hi : i = .ireturn
  · subst hi
    cases hm : s.mode with
    | user => exact ⟨_, exec_ireturn_user hm⟩
    | kernel => exact ⟨_, exec_ireturn_kernel hm⟩
  · obtain ⟨X, α, a, ha⟩ := hasPhases_of_ne_ireturn hi
    rw [ha.meaning]
    exact a.run_completes s

theorem runInstruction_completes (s : State) : ∃ t, runInstruction s = .next t := by
  unfold runInstruction
  cases fetch s with
  | ok i u => exact exec_completes i u
  | illegal e u => exact ⟨_, rfl⟩
  | pageFault va u => exact ⟨_, rfl⟩

theorem cpuStep_completes (s : State) : ∃ t, cpuStep s = .next t := by
  by_cases hstopped : s.runState = .stopped
  · exact ⟨s, cpuStep_of_stopped hstopped⟩
  cases htake : takeEnabled s.imr s.queue with
  | some e => exact ⟨_, cpuStep_of_takeEnabled hstopped htake⟩
  | none =>
    cases hr : s.runState with
    | stopped => exact absurd hr hstopped
    | paused => exact ⟨s, cpuStep_of_paused hr htake⟩
    | running =>
      unfold cpuStep
      rw [hr, htake]
      exact runInstruction_completes s

theorem agentStep_completes (a : Agent) (s : State) : ∃ t, agentStep a s = .next t := by
  cases a with
  | cpu => exact cpuStep_completes s
  | device _ | hostKey _ | hostStop | hostStart _ => exact ⟨_, rfl⟩

/-- Settles O10: whoever has the turn completes it. -/
theorem everyStepCompletes : Obligations.EveryStepCompletes := by
  refine fun s => ⟨?_, fun i => exec_completes i s⟩
  cases hs : s.schedule with
  | nil =>
    rw [CompletesStep, step_of_cpuTurn (.inl ⟨hs, rfl⟩)]
    exact cpuStep_completes s
  | cons a rest =>
    rw [CompletesStep, step_of_schedule_cons hs]
    exact agentStep_completes a (s.setSchedule rest)

end Sys2Proof.Machine
end

section
/-! PROOF. Interrupt entry and the return that undoes it: the bytes of the frame and the words that they are read back as; the
statements `InterruptEntry` and `ReturnUndoesEntry` (spec 60_exceptions.md R373, R374, R380, 40_control.md R173). -/

namespace Sys2Proof.Machine

/-! ## Entry -/

/-- What the pushes of a frame store, in the order of the addresses (R373). -/
theorem storesBytes_frame {s : State} (hi : Inv s) (ret : Word) :
    StoresBytes (frameAddresses s) (beBytes 4 s.uspr ++ beBytes 4 ret ++ beBytes 4 (BitVec.ofNat 32 (savedStatus s))) s
      (pokes (frameBytes ret s) s) := by
  have hnodup := nodup_addresses (s.kspr - 12) (n := 12) (by decide)
  rw [← addresses_frame] at hnodup
  obtain ⟨huspr, hrest, hdisjoint⟩ := List.nodup_append.1 hnodup
  obtain ⟨hret, hstatus, hdisjoint'⟩ := List.nodup_append.1 hrest
  have push {u : State} (hu : Inv u) {ps : List Word} (bs : List Byte) (hps : ps.Nodup) :=
    storesBytes_pokes hu (bs := bs) hps
  rw [frameAddresses, ← addresses_frame, frameBytes, pokes_append, pokes_append, List.append_assoc]
  have h1 := push hi (beBytes 4 (BitVec.ofNat 32 (savedStatus s))) hstatus
  have i1 := hi.pokes ((addresses (s.kspr - 4) 4).zip (beBytes 4 (BitVec.ofNat 32 (savedStatus s))))
  have h2 := h1.comp (push i1 (beBytes 4 ret) hret) rfl fun a ha hb => hdisjoint' a hb a ha rfl
  have h3 := push (i1.pokes ((addresses (s.kspr - 8) 4).zip (beBytes 4 ret))) (beBytes 4 s.uspr) huspr
  exact h2.comp h3 rfl fun a ha hb => hdisjoint a hb a ha rfl

/-- The state `u` with the registers that the entry of a handler at `pc` sets, the stack pointer being `sp` then (R373). -/
def inHandler (sp pc : Word) (u : State) : State :=
  ((((u.setMode .kernel).setKspr sp).setImr 0).setRunState .running).setPc pc

/-- R373: an entry inside whose pushes no device step falls writes the frame's bytes, sets these registers and does nothing
else. -/
theorem takeInterrupt_of_quiet {s : State} (hq : Quiet (frameAddresses s) s) (k : Interrupt) (ret : Word) :
    takeInterrupt k ret s =
      inHandler (s.kspr - 12) (wordAt (pokes (frameBytes ret s) s) (vectorAddress k)) (pokes (frameBytes ret s) s) := by
  rw [takeInterrupt, pushFrame_of_quiet hq]
  generalize pokes (frameBytes ret s) s = u
  simp only [physRead_of_quiet (quiet_vector k _)]
  rfl

theorem peek_inHandler (sp pc : Word) (u : State) : peek (inHandler sp pc u) = peek u := by
  funext a
  unfold inHandler
  apply peek_congr
  all_goals simp

/-- Where memory has changed only, it has with the handler's registers set. -/
theorem OnlyMemoryChanged.inHandler {s u : State} (h : OnlyMemoryChanged s u) (sp pc : Word) :
    OnlyMemoryChanged (inHandler sp pc s) (inHandler sp pc u) := by
  unfold Machine.inHandler
  constructor
  case toSameRegisters => constructor <;> simp [h.regs, h.flags, h.uspr, h.pdpr, h.pfva]
  all_goals simp [h.rom, h.keyboard, h.records, h.queue, h.irqCapacity, h.hostKeys, h.schedule, h.midStep, h.draws]

/-- Settles O11: of the pushes only the frame's bytes are left, and the vector is no device. -/
theorem interruptEntry : Obligations.InterruptEntry := by
  intro k ret s hi hq
  have hstores := storesBytes_frame hi ret
  have honly := onlyMemoryChanged_pokes (frameBytes ret s) s
  have hentry := takeInterrupt_of_quiet hq k ret
  generalize takeInterrupt k ret s = t at hentry ⊢
  generalize hpc : wordAt (pokes (frameBytes ret s) s) (vectorAddress k) = pc at hentry
  have hpeek : peek t = peek (pokes (frameBytes ret s) s) := hentry ▸ peek_inHandler _ pc _
  have htpc : t.pc = pc := by rw [hentry]; rfl
  have hregs : SameRegisters (inHandler (s.kspr - 12) pc s) t := by
    rw [hentry]
    exact (honly.inHandler _ pc).toSameRegisters
  refine ⟨hregs.regs, hregs.flags, hregs.uspr, hregs.pdpr, hregs.pfva, hregs.mode, hregs.kspr, hregs.imr, hregs.runState,
    ?_, hstores.congr (fun _ => rfl) (congrFun hpeek), ?_, htpc ▸ hentry⟩
  · rw [htpc, ← hpc, wordAt, wordAt, hpeek]
    rfl
  · rw [htpc, hentry]
    exact honly.inHandler _ pc

/-! ## The frame read back -/

/-- The big-endian bytes of a word are those of its value (R76). -/
theorem beWord_beBytes (v : Word) : beWord (beBytes 4 v) = v := by
  have h := toNat_beWord_slice v (i := 0) (n := 4) (by decide)
  have hbytes : beBytes 4 v = (List.range 4).map fun j => wordByte v (0 + j) := rfl
  have hv := v.isLt
  rw [← hbytes] at h
  exact BitVec.eq_of_toNat_eq (h.trans (by omega))

theorem map_peek_eq {ps : List Word} {bs : List Byte} {t : State} (hl : ps.length = bs.length)
    (h : ∀ c ∈ ps.zip bs, peek t c.1 = c.2) : ps.map (peek t) = bs := by
  induction ps generalizing bs with
  | nil => exact (List.length_eq_zero_iff.1 hl.symm).symm
  | cons p ps ih =>
    cases bs with
    | nil => cases hl
    | cons b bs =>
      rw [List.zip_cons_cons, List.forall_mem_cons] at h
      obtain ⟨hp, hps⟩ := h
      rw [List.map_cons, hp, ih (Nat.succ.inj hl) hps]

/-- The three words of a frame, from its twelve bytes (R373). -/
theorem wordAt_of_frame {k x y z : Word} {t : State}
    (h : (addresses (k - 12) 12).map (peek t) = beBytes 4 x ++ beBytes 4 y ++ beBytes 4 z) :
    wordAt t (k - 12) = x ∧ wordAt t (k - 8) = y ∧ wordAt t (k - 4) = z := by
  rw [← addresses_frame, List.map_append, List.map_append, List.append_assoc] at h
  obtain ⟨hx, hrest⟩ := List.append_inj h rfl
  obtain ⟨hy, hz⟩ := List.append_inj hrest rfl
  have word {a v : Word} (hbytes : (addresses a 4).map (peek t) = beBytes 4 v) : wordAt t a = v := by
    rw [wordAt, hbytes, beWord_beBytes]
  exact ⟨word hx, word hy, word hz⟩


/-- The status word's digits are what it saves (R374). -/
theorem savedStatus_digits (s : State) :
    savedStatus s / 2 ^ 0 % 2 = s.flags.c.toNat ∧ savedStatus s / 2 ^ 1 % 2 = s.flags.z.toNat ∧
      savedStatus s / 2 ^ 2 % 2 = s.flags.o.toNat ∧ savedStatus s / 2 ^ 3 % 2 = s.flags.n.toNat ∧
      savedStatus s / 2 ^ 8 % 2 = (if s.mode = .user then 1 else 0) ∧ savedStatus s / 2 ^ 16 = s.imr.toNat ∧
      savedStatus s < 2 ^ 32 := by
  have hc := s.flags.c.toNat_le
  have hz := s.flags.z.toNat_le
  have ho := s.flags.o.toNat_le
  have hn := s.flags.n.toNat_le
  have himr := s.imr.isLt
  unfold savedStatus
  split
  · omega
  · omega

theorem bit_of_digit {v i : Nat} {b : Bool} (h : v / 2 ^ i % 2 = b.toNat) : bit v i = b := by
  rw [bit, h]
  cases b <;> rfl

/-- The flags that a return restores from the status word (R173, R374). -/
theorem savedStatus_flags (s : State) :
    (⟨bit (savedStatus s) 0, bit (savedStatus s) 1, bit (savedStatus s) 2, bit (savedStatus s) 3⟩ : Flags) = s.flags := by
  obtain ⟨hc, hz, ho, hn, _⟩ := savedStatus_digits s
  rw [bit_of_digit hc, bit_of_digit hz, bit_of_digit ho, bit_of_digit hn]

/-- The mode that a return restores from the status word (R173, R374). -/
theorem savedStatus_mode (s : State) : (if bit (savedStatus s) 8 then Mode.user else Mode.kernel) = s.mode := by
  obtain ⟨_, _, _, _, hmode, _⟩ := savedStatus_digits s
  have hbit : bit (savedStatus s) 8 = decide (s.mode = .user) :=
    bit_of_digit (hmode.trans (by cases s.mode <;> rfl))
  rw [hbit]
  cases s.mode <;> rfl

/-- The mask that a return restores from the status word (R173, R374). -/
theorem savedStatus_imr (s : State) : BitVec.ofNat 16 (savedStatus s / 2 ^ 16) = s.imr := by
  obtain ⟨_, _, _, _, _, himr, _⟩ := savedStatus_digits s
  rw [himr, BitVec.ofNat_toNat, BitVec.setWidth_eq]

/-! ## Return -/

/-- Settles O14: the frame's bytes are those that the entry stored, so its words are those that the entry saved. -/
theorem returnUndoesEntry : Obligations.ReturnUndoesEntry := by
  intro k ret s t hi hq hwritable hm hqt hkspr hframe
  have hstored : ∀ c ∈ (frameAddresses s).zip
      (beBytes 4 s.uspr ++ beBytes 4 ret ++ beBytes 4 (BitVec.ofNat 32 (savedStatus s))), peek t c.1 = c.2 := by
    intro c hc
    have ha := (List.of_mem_zip hc).1
    exact (hframe c.1 ha).trans ((interruptEntry k ret s hi hq).frame.stored c hc (hwritable c.1 ha))
  obtain ⟨huspr, hret, hstatus⟩ := wordAt_of_frame (map_peek_eq rfl hstored)
  obtain ⟨_, _, _, _, _, _, hlt⟩ := savedStatus_digits s
  have h4 : s.kspr - 12 + 4 = s.kspr - 8 := by bv_omega
  have h8 : s.kspr - 12 + 8 = s.kspr - 4 := by bv_omega
  have h12 : s.kspr - 12 + 12 = s.kspr := by bv_omega
  rw [ireturnPops t hm hqt, hkspr, h4, h8, h12, huspr, hret, hstatus, BitVec.toNat_ofNat, Nat.mod_eq_of_lt hlt,
    savedStatus_flags, savedStatus_mode, savedStatus_imr]

end Sys2Proof.Machine
end

section
/-! PROOF. The display and the keyboard: the row of each window, what a write to the display stores and which record it emits,
and the step in which the keyboard consumes a key message; the statements `DisplayWrite` and `KeyboardEvent` (spec
60_exceptions.md R390 to R394, R400 to R402, R361). -/

namespace Sys2Proof.Machine

/-! ## The display -/

/-- The display's byte at offset `o` (R391). -/
theorem regionOf_displayAddress {o : Nat} (ho : o < 6000) : regionOf (BitVec.ofNat 32 (0x240 + o)) = .display o := by
  have h : (BitVec.ofNat 32 (0x240 + o)).toNat = 0x240 + o := by
    rw [BitVec.toNat_ofNat, Nat.mod_eq_of_lt (by omega)]
  exact regionOf_eq_iff.2 ⟨h, by omega⟩

theorem poke_displayAddress {o : Nat} (ho : o < 6000) (b : Byte) (s : State) :
    poke (BitVec.ofNat 32 (0x240 + o)) b s = displayWrite o b s := by
  rw [poke, regionOf_displayAddress ho]

theorem writable_displayAddress {o : Nat} (ho : o < 6000) : Writable (BitVec.ofNat 32 (0x240 + o)) := by
  rw [Writable, regionOf_displayAddress ho]
  trivial

theorem regionOf_cmdAddress (d : DiskId) : regionOf (cmdAddress d) = .diskRegister d 9 := by
  cases d <;> rfl

theorem cmdAddress_ne_displayAddress (d : DiskId) {o : Nat} (ho : o < 6000) :
    cmdAddress d ≠ BitVec.ofNat 32 (0x240 + o) := by
  intro h
  have hrow := regionOf_cmdAddress d
  rw [h, regionOf_displayAddress ho] at hrow
  cases hrow

/-- R392: the records after a write to the display. -/
theorem displayWrite_records (o : Nat) (b : Byte) (s : State) :
    (displayWrite o b s).records = s.records ++ (displayRecord o b).toList := rfl

theorem displayRecord_character {o : Nat} (ho : o < 2000) (b : Byte) :
    displayRecord o b = (charOfByte b).map (.setChar (o / 80) (o % 80)) := by
  simp only [displayRecord, if_pos ho, Nat.mod_eq_of_lt ho]

theorem displayRecord_foreground {o : Nat} (hlo : 2000 ≤ o) (hhi : o < 4000) (b : Byte) :
    displayRecord o b = some (.setFg ((o - 2000) / 80) ((o - 2000) % 80) (rgbOfByte b)) := by
  have ho : o % 2000 = o - 2000 := by omega
  simp only [displayRecord, if_neg (Nat.not_lt.2 hlo), if_pos hhi, ho]

theorem displayRecord_background {o : Nat} (hlo : 4000 ≤ o) (hhi : o < 6000) (b : Byte) :
    displayRecord o b = some (.setBg ((o - 4000) / 80) ((o - 4000) % 80) (rgbOfByte b)) := by
  have ho : o % 2000 = o - 4000 := by omega
  simp only [displayRecord, if_neg (show ¬ o < 2000 by omega), if_neg (Nat.not_lt.2 hlo), ho]

/-- R393: the printable bytes stand for themselves. -/
theorem charOfByte_printable {b : Byte} (h : 32 ≤ b.toNat ∧ b.toNat ≤ 126) :
    charOfByte b = some (Char.ofNat b.toNat) := by
  have h31 : b ≠ 31 := fun e => by simp [e] at h
  have h127 : b ≠ 127 := fun e => by simp [e] at h
  rw [charOfByte, if_neg h31, if_neg h127, if_pos h]

/-- R393: bytes below 31 and above 127 have no character. -/
theorem charOfByte_none {b : Byte} (h : b.toNat < 31 ∨ 127 < b.toNat) : charOfByte b = none := by
  have h31 : b ≠ 31 := fun e => by simp [e] at h
  have h127 : b ≠ 127 := fun e => by simp [e] at h
  rw [charOfByte, if_neg h31, if_neg h127, if_neg (by omega)]

/-- R394: the colour of a byte, in numbers. -/
theorem rgbOfByte_eq (b : Byte) :
    rgbOfByte b = ⟨85 * (b.toNat / 16 % 4), 85 * (b.toNat / 4 % 4), 85 * (b.toNat % 4)⟩ := by
  simp only [rgbOfByte, quantise, BitVec.extractLsb'_toNat, Nat.shiftRight_eq_div_pow, Nat.reducePow, Nat.div_one]

/-! ## The keyboard -/

/-- The keyboard's two bytes (R400). -/
theorem regionOf_keyAddress : regionOf 0x39C4 = .keyboard 0 := regionOf_eq_iff.2 ⟨by decide, by decide⟩

theorem regionOf_metadataAddress : regionOf 0x39C5 = .keyboard 1 := regionOf_eq_iff.2 ⟨by decide, by decide⟩

theorem peek_keyboard {pa : Word} {o : Nat} (h : regionOf pa = .keyboard o) (s : State) :
    peek s pa = s.keyboard.read o := by
  rw [peek, h]

/-- A write to the keyboard's window is discarded (R401). -/
theorem poke_keyboard {pa : Word} {o : Nat} (h : regionOf pa = .keyboard o) (b : Byte) (s : State) :
    poke pa b s = s := by
  rw [poke, h]

/-- R361: room in the queue, as the device steps test it. -/
theorem queueHasRoom_iff_hasRoom {s : State} : queueHasRoom s = true ↔ HasRoom s := queueHasRoom_iff

theorem keyboardStep_of_message {s : State} {m : KeyMessage} {ms : List KeyMessage} (h : s.hostKeys = m :: ms) :
    keyboardStep s =
      if queueHasRoom s then enqueue .keyboard ((s.setHostKeys ms).setKeyboard (Keyboard.ofMessage m)) else s := by
  rw [keyboardStep, h]

theorem keyboardStep_of_no_message {s : State} (h : s.hostKeys = []) : keyboardStep s = s := by
  rw [keyboardStep, h]

/-- Settles O56: the step takes the oldest message where the queue has room, and the window's two bytes are read only. -/
theorem keyboardEvent : Obligations.KeyboardEvent := by
  refine ⟨fun s m ms h => ⟨fun hroom => ?_, fun hfull => ?_⟩, fun s h => keyboardStep_of_no_message h, fun s b => ?_⟩
  · exact (keyboardStep_of_message h).trans (if_pos (queueHasRoom_iff_hasRoom.2 hroom))
  · exact (keyboardStep_of_message h).trans (if_neg fun hroom => hfull (queueHasRoom_iff_hasRoom.1 hroom))
  · rw [peek_keyboard regionOf_keyAddress, peek_keyboard regionOf_metadataAddress, poke_keyboard regionOf_keyAddress,
      poke_keyboard regionOf_metadataAddress]
    exact ⟨rfl, rfl, rfl, rfl⟩

end Sys2Proof.Machine

namespace Sys2Proof

open Machine

/-- Settles O55: the display's row holds the byte, and the record is that of its cell. -/
theorem displayWrite : Obligations.DisplayWrite := by
  rintro o b s t hi ho rfl
  have hsame := peek_poke_same b hi (writable_displayAddress ho)
  have hother (a : Word) (ha : a ≠ BitVec.ofNat 32 (0x240 + o)) :=
    peek_poke_other (s := s) (b := b) ha fun d _ => cmdAddress_ne_displayAddress d ho
  refine ⟨hsame, hother, ?_⟩
  rw [poke_displayAddress ho, displayWrite_records]
  refine ⟨rfl, fun hcell => ?_, fun hlo hhi => ?_, fun hlo => ?_⟩
  · rw [displayRecord_character hcell]
    refine ⟨fun h => ?_, ?_, ?_, fun h => ?_⟩
    · rw [charOfByte_printable h]
      rfl
    · rintro rfl
      rfl
    · rintro rfl
      rfl
    · rw [charOfByte_none h]
      exact List.append_nil _
  · rw [displayRecord_foreground hlo hhi, rgbOfByte_eq]
    rfl
  · rw [displayRecord_background hlo ho, rgbOfByte_eq]
    rfl

end Sys2Proof
end

section
/-! PROOF. The completion of a disk's command: which commands are valid, what the transfer of a valid one moves between buffer
and image, and the step that makes it; the statement `DiskCompletion` (spec 60_exceptions.md R361, R415 to R417). -/

namespace Sys2Proof.Machine

/-! ## Commands -/

theorem diskCommand_eq_none {c : Byte} (h : c.toNat < 1 ∨ 4 < c.toNat) : diskCommand c = none := by
  have hne (n : Byte) (hn : 1 ≤ n.toNat ∧ n.toNat ≤ 4) : c ≠ n := fun e => by
    rw [e] at h
    omega
  rw [diskCommand, if_neg (hne 1 (by decide)), if_neg (hne 2 (by decide)), if_neg (hne 3 (by decide)),
    if_neg (hne 4 (by decide))]

/-- R416: the four commands, which of them read and which are contiguous. -/
theorem exists_diskCommand {c : Byte} (hlo : 1 ≤ c.toNat) (hhi : c.toNat ≤ 4) :
    ∃ m, diskCommand c = some m ∧ (m.reads = true ↔ c.toNat = 1 ∨ c.toNat = 3) ∧ (m.contiguous = true ↔ 3 ≤ c.toNat) := by
  obtain h | h | h | h : c = 1 ∨ c = 2 ∨ c = 3 ∨ c = 4 := by bv_omega
  · exact ⟨.read, by rw [h]; rfl, by rw [h]; decide, by rw [h]; decide⟩
  · exact ⟨.write, by rw [h]; rfl, by rw [h]; decide, by rw [h]; decide⟩
  · exact ⟨.contiguousRead, by rw [h]; rfl, by rw [h]; decide, by rw [h]; decide⟩
  · exact ⟨.contiguousWrite, by rw [h]; rfl, by rw [h]; decide, by rw [h]; decide⟩

/-! ## Completion of the latched command -/

/-- R415, R416: a command byte that is no command, and a block that the image does not have, are rejected. -/
theorem Disk.complete_of_bad {k : Disk} {img : DiskImage} (himg : k.image = some img)
    (h : k.lcmd.toNat < 1 ∨ 4 < k.lcmd.toNat ∨ img.blocks.toNat ≤ k.lda.toNat) (ok : Bool) (fill : Memory) :
    k.complete ok fill = k.rejectCommand := by
  rw [Disk.complete, himg]
  cases hc : diskCommand k.lcmd with
  | none => rfl
  | some c =>
    have hvalid : ¬ (k.lcmd.toNat < 1 ∨ 4 < k.lcmd.toNat) := fun hbad => by
      rw [diskCommand_eq_none hbad] at hc
      cases hc
    exact if_neg (by omega)

theorem Disk.complete_of_valid {k : Disk} {img : DiskImage} {c : DiskCommand} (himg : k.image = some img)
    (hc : diskCommand k.lcmd = some c) (h : k.lda.toNat < img.blocks.toNat) (ok : Bool) (fill : Memory) :
    k.complete ok fill = (k.transfer img c ok fill).finish c ok := by
  rw [Disk.complete, himg, hc]
  exact if_pos h

theorem Disk.complete_idle (k : Disk) (ok : Bool) (fill : Memory) :
    (k.complete ok fill).busy = false ∧ (k.complete ok fill).finished = true := by
  unfold Disk.complete
  split
  · split
    · exact ⟨rfl, rfl⟩
    · exact ⟨rfl, rfl⟩
  · exact ⟨rfl, rfl⟩

/-- A transfer leaves what its end reads: the latched address and `DA`. -/
theorem Disk.transfer_addresses (k : Disk) (img : DiskImage) (c : DiskCommand) (ok : Bool) (fill : Memory) :
    (k.transfer img c ok fill).da = k.da ∧ (k.transfer img c ok fill).lda = k.lda := by
  unfold Disk.transfer
  split
  · exact ⟨rfl, rfl⟩
  · exact ⟨rfl, rfl⟩

/-- R416: `DA` after a valid command. -/
theorem Disk.finish_transfer_da (k : Disk) (img : DiskImage) (c : DiskCommand) (ok : Bool) (fill : Memory) :
    ((k.transfer img c ok fill).finish c ok).da = if ok = true ∧ c.contiguous = true then k.lda + 1 else k.da := by
  obtain ⟨hda, hlda⟩ := k.transfer_addresses img c ok fill
  rw [Disk.finish, hda, hlda]
  simp only [Bool.and_eq_true]

/-- R415: a read command leaves the image, and copies the block into the buffer when it succeeds. -/
theorem Disk.transfer_of_reads {k : Disk} {c : DiskCommand} (h : c.reads = true) (img : DiskImage) (ok : Bool)
    (fill : Memory) :
    (k.transfer img c ok fill).image = k.image ∧
      (ok = true → ∀ o, o < 4096 → (k.transfer img c ok fill).buffer.read o = img.bytes.read (4096 * k.lda.toNat + o)) := by
  rw [Disk.transfer, if_pos h]
  refine ⟨rfl, ?_⟩
  rintro rfl o ho
  exact (Memory.read_window _ _ _ _).trans (if_pos ho)

/-- R415: a write command leaves the buffer and every other block, and copies the buffer into the block when it succeeds. -/
theorem Disk.transfer_of_writes {k : Disk} {c : DiskCommand} (h : c.reads = false) (img : DiskImage) (ok : Bool)
    (fill : Memory) :
    (k.transfer img c ok fill).buffer = k.buffer ∧
      ∃ img', (k.transfer img c ok fill).image = some img' ∧ img'.blocks = img.blocks ∧
        (∀ o, o / 4096 ≠ k.lda.toNat → img'.bytes.read o = img.bytes.read o) ∧
        (ok = true → ∀ o, o < 4096 → img'.bytes.read (4096 * k.lda.toNat + o) = k.buffer.read o) := by
  rw [Disk.transfer, h]
  refine ⟨rfl, _, rfl, rfl, fun o ho => ?_, ?_⟩
  · exact (Memory.read_splice _ _ _ _ _).trans (if_neg (by unfold blockBytes; omega))
  · rintro rfl o ho
    refine (Memory.read_splice _ _ _ _ _).trans ((if_pos (by unfold blockBytes; omega)).trans ?_)
    exact congrArg k.buffer.read (Nat.add_sub_cancel_left _ o)

/-! ## The step -/

theorem diskStep_of_not_ready {d : DiskId} {ok : Bool} {s : State} (h : (s.disk d).busy = false ∨ ¬ HasRoom s) :
    diskStep d ok s = s := by
  rcases diskStep_cases d ok s with heq | ⟨hbusy, hroom, _⟩
  · exact heq
  · rcases h with hidle | hfull
    · exact absurd (hidle.symm.trans hbusy) Bool.false_ne_true
    · exact absurd (queueHasRoom_iff_hasRoom.1 hroom) hfull

theorem diskStep_of_ready {d : DiskId} {s : State} (hbusy : (s.disk d).busy = true) (hroom : HasRoom s) (ok : Bool) :
    diskStep d ok s =
      enqueue d.irq ((s.setDisk d ((s.disk d).complete ok (failedTransferBytes s.draws))).setDraws (s.draws + 1)) := by
  rw [diskStep, hbusy, queueHasRoom_iff_hasRoom.2 hroom]
  rfl

/-- R415: what a completion changes outside its controller is the queue, which gets the disk's number. -/
theorem diskStep_outside_of_ready {d : DiskId} {s : State} (hbusy : (s.disk d).busy = true) (hroom : HasRoom s)
    (ok : Bool) :
    (diskStep d ok s).queue = s.queue ++ [d.irq] ∧ (diskStep d ok s).keyboard = s.keyboard ∧
      (diskStep d ok s).hostKeys = s.hostKeys ∧ ∀ d', d' ≠ d → (diskStep d ok s).disk d' = s.disk d' := by
  rw [diskStep_of_ready hbusy hroom]
  cases d with
  | a =>
    refine ⟨rfl, rfl, rfl, fun d' hd => ?_⟩
    cases d' with
    | a => exact absurd rfl hd
    | b => rfl
  | b =>
    refine ⟨rfl, rfl, rfl, fun d' hd => ?_⟩
    cases d' with
    | a => rfl
    | b => exact absurd rfl hd

theorem disk_diskStep_of_ready {d : DiskId} {s : State} (hbusy : (s.disk d).busy = true) (hroom : HasRoom s) (ok : Bool) :
    (diskStep d ok s).disk d = (s.disk d).complete ok (failedTransferBytes s.draws) := by
  rw [diskStep_of_ready hbusy hroom]
  cases d <;> rfl

/-- Settles O58: the step is the completion of the controller's command. -/
theorem diskCompletion : Obligations.DiskCompletion := by
  rintro d ok s t k e img rfl himg rfl rfl
  refine ⟨diskStep_of_not_ready, fun hbusy hroom => ?_⟩
  obtain ⟨hqueue, hkeyboard, hkeys, hothers⟩ := diskStep_outside_of_ready hbusy hroom ok
  obtain ⟨hidle, hfinished⟩ := (s.disk d).complete_idle ok (failedTransferBytes s.draws)
  have hdisk : (deviceStep (.disk d ok) s).disk d = _ := disk_diskStep_of_ready hbusy hroom ok
  rw [hdisk]
  refine ⟨hidle, hfinished, hqueue, sameOutsideDevices_deviceStep _ s, hkeyboard, hkeys, hothers, fun hbad => ?_,
    fun hlo hhi hblock => ?_⟩
  · rw [Disk.complete_of_bad himg hbad]
    exact ⟨rfl, rfl, rfl, rfl, rfl⟩
  · obtain ⟨c, hc, hreads, hcontiguous⟩ := exists_diskCommand hlo hhi
    rw [Disk.complete_of_valid himg hc hblock]
    refine ⟨rfl, rfl, ?_, fun hread => ?_, fun hwrite => ?_⟩
    · simp only [Disk.finish_transfer_da, hcontiguous]
    · exact Disk.transfer_of_reads (hreads.2 hread) img ok _
    · exact Disk.transfer_of_writes (Bool.eq_false_iff.2 fun h => by have := hreads.1 h; omega) img ok _

end Sys2Proof.Machine
end

section
/-! PROOF. A disk's two windows: what each register reads and what a write to it does, bytes of the buffer among them; and that
a controller with no image stays silent; the statements `DiskWindow` and `DisconnectedDisk` (spec 60_exceptions.md R410 to R415,
R418). -/

namespace Sys2Proof.Machine

/-! ## The register window -/

/-- The register of a disk at offset `o` of its window (R412). -/
theorem regionOf_registerAddress (d : DiskId) {o : Nat} (ho : o < 10) :
    regionOf (statusAddress d + BitVec.ofNat 32 o) = .diskRegister d o := by
  refine regionOf_eq_iff.2 ?_
  cases d
  · have h : (statusAddress .a + BitVec.ofNat 32 o).toNat = 0x19B0 + o := by
      rw [statusAddress, BitVec.toNat_add, BitVec.toNat_ofNat]
      simp only [BitVec.reduceToNat]
      omega
    exact ⟨h, by omega⟩
  · have h : (statusAddress .b + BitVec.ofNat 32 o).toNat = 0x29BA + o := by
      rw [statusAddress, BitVec.toNat_add, BitVec.toNat_ofNat]
      simp only [BitVec.reduceToNat]
      omega
    exact ⟨h, by omega⟩

theorem peek_registerAddress (d : DiskId) {o : Nat} (ho : o < 10) (s : State) :
    peek s (statusAddress d + BitVec.ofNat 32 o) = (s.disk d).readRegister o := by
  rw [peek, regionOf_registerAddress d ho]

theorem poke_registerAddress (d : DiskId) {o : Nat} (ho : o < 10) (b : Byte) (s : State) :
    poke (statusAddress d + BitVec.ofNat 32 o) b s = s.setDisk d ((s.disk d).writeRegister o b) := by
  rw [poke, regionOf_registerAddress d ho]

theorem statusAddress_eq (d : DiskId) : statusAddress d = statusAddress d + BitVec.ofNat 32 0 :=
  (BitVec.add_zero _).symm

theorem cmdAddress_eq (d : DiskId) : cmdAddress d = statusAddress d + BitVec.ofNat 32 9 := by
  cases d <;> rfl

theorem setDisk_disk (s : State) (d : DiskId) : s.setDisk d (s.disk d) = s := by
  cases d <;> rfl

theorem peek_status (d : DiskId) (s : State) : peek s (statusAddress d) = (s.disk d).status := by
  rw [statusAddress_eq, peek_registerAddress d (by decide)]
  rfl

/-- R411: `STATUS` in numbers. -/
theorem Disk.toNat_status (k : Disk) :
    k.status.toNat = k.image.isSome.toNat + 2 * k.finished.toNat + 4 * k.success.toNat + 8 * k.badCommand.toNat := by
  have hconnected := k.image.isSome.toNat_le
  have hfinished := k.finished.toNat_le
  have hsuccess := k.success.toNat_le
  have hbad := k.badCommand.toNat_le
  rw [Disk.status, BitVec.toNat_ofNat, Nat.mod_eq_of_lt (by omega)]

/-- Four registers that hold the bytes of a word, the most significant first, read as that word (R76, R412). -/
theorem wordAt_registers {d : DiskId} {s : State} {v : Word} {i : Nat} (hi : i + 4 ≤ 10)
    (h : ∀ j, j < 4 → (s.disk d).readRegister (i + j) = wordByte v j) :
    wordAt s (statusAddress d + BitVec.ofNat 32 i) = v := by
  have hbytes : (addresses (statusAddress d + BitVec.ofNat 32 i) 4).map (peek s) = beBytes 4 v := by
    rw [addresses_add, List.map_map]
    refine List.map_congr_left fun j hj => ?_
    have hj4 := List.mem_range.1 hj
    exact (peek_registerAddress d (by omega) s).trans (h j hj4)
  rw [wordAt, hbytes, beWord_beBytes]

theorem Disk.readRegister_nba (k : Disk) {j : Nat} (hj : j < 4) : k.readRegister (1 + j) = wordByte k.nba j := by
  rw [Disk.readRegister, if_neg (by omega), if_pos (by omega), Nat.add_sub_cancel_left]

theorem Disk.readRegister_da (k : Disk) {j : Nat} (hj : j < 4) : k.readRegister (5 + j) = wordByte k.da j := by
  rw [Disk.readRegister, if_neg (by omega), if_neg (by omega), if_pos (by omega), Nat.add_sub_cancel_left]

theorem wordAt_nba (d : DiskId) (s : State) : wordAt s (statusAddress d + 1) = (s.disk d).nba :=
  wordAt_registers (i := 1) (by decide) fun _ => (s.disk d).readRegister_nba

theorem wordAt_da (d : DiskId) (s : State) : wordAt s (statusAddress d + 5) = (s.disk d).da :=
  wordAt_registers (i := 5) (by decide) fun _ => (s.disk d).readRegister_da

/-- R412: `CMD` reads 0. -/
theorem peek_cmd (d : DiskId) (s : State) : peek s (cmdAddress d) = 0 := by
  rw [cmdAddress_eq, peek_registerAddress d (by decide)]
  rfl

/-- R412: `STATUS` and `NBA` are read only. -/
theorem poke_readOnly (d : DiskId) {o : Nat} (ho : o ≤ 4) (b : Byte) (s : State) :
    poke (statusAddress d + BitVec.ofNat 32 o) b s = s := by
  rw [poke_registerAddress d (by omega), Disk.writeRegister, if_pos ho, setDisk_disk]

/-- R412: a busy controller ignores writes to `DA`. -/
theorem poke_da_of_busy {d : DiskId} {s : State} (h : (s.disk d).busy = true) {o : Nat} (hlo : 5 ≤ o) (hhi : o ≤ 8)
    (b : Byte) : poke (statusAddress d + BitVec.ofNat 32 o) b s = s := by
  rw [poke_registerAddress d (by omega), Disk.writeRegister, if_neg (by omega), if_pos hhi, if_pos h, setDisk_disk]

/-- R412: one byte of `DA` is set where the controller is idle. -/
theorem poke_da_of_idle {d : DiskId} {s : State} (h : (s.disk d).busy = false) {o : Nat} (hlo : 5 ≤ o) (hhi : o ≤ 8)
    (b : Byte) :
    poke (statusAddress d + BitVec.ofNat 32 o) b s =
      s.setDisk d { s.disk d with da := setWordByte (s.disk d).da (o - 5) b } := by
  rw [poke_registerAddress d (by omega), Disk.writeRegister, if_neg (by omega), if_pos hhi,
    if_neg (Bool.eq_false_iff.1 h)]

/-- A word with one byte replaced, in numbers: byte `i` counted from the least significant. -/
theorem toNat_setWordByte (v : Word) (b : Byte) {j i : Nat} (hj : j < 4) (hi : i < 4) :
    (setWordByte v j b).toNat / 2 ^ (8 * i) % 2 ^ 8 = if i + j = 3 then b.toNat else v.toNat / 2 ^ (8 * i) % 2 ^ 8 := by
  have hbyte := congrArg BitVec.toNat (wordByte_setWordByte v (3 - i) j b (by omega) hj)
  have hi' : 3 - (3 - i) = i := by omega
  rw [toNat_wordByte, hi'] at hbyte
  rw [hbyte]
  by_cases h : i + j = 3
  · rw [if_pos h, if_pos (by omega)]
  · rw [if_neg h, if_neg (by omega), toNat_wordByte, hi']

/-- R414: a write to `CMD`. -/
theorem poke_cmd (d : DiskId) (b : Byte) (s : State) : poke (cmdAddress d) b s = s.setDisk d ((s.disk d).command b) := by
  rw [cmdAddress_eq, poke_registerAddress d (by decide)]
  rfl

theorem Disk.command_of_ignored {k : Disk} (h : k.image = none ∨ k.busy = true) (b : Byte) : k.command b = k := by
  refine if_pos ?_
  rcases h with h | h
  · rw [h]
    rfl
  · rw [h, Bool.or_true]

theorem Disk.command_of_accepted {k : Disk} (himg : k.image ≠ none) (hbusy : k.busy = false) (b : Byte) :
    k.command b =
      { k with lcmd := b, lda := k.da, finished := false, success := false, badCommand := false, busy := true } := by
  refine if_neg ?_
  rw [hbusy, Bool.or_false, Option.isNone_iff_eq_none]
  exact himg

theorem poke_cmd_of_ignored {d : DiskId} {s : State} (h : (s.disk d).image = none ∨ (s.disk d).busy = true) (b : Byte) :
    poke (cmdAddress d) b s = s := by
  rw [poke_cmd, Disk.command_of_ignored h, setDisk_disk]

/-! ## The buffer window -/

/-- R413, R415: a byte written to the buffer before a pending `WRITE` completes goes to the image with it. -/
theorem write_completes_with_poke {d : DiskId} {s : State} {img : DiskImage} {o : Nat} {b : Byte} (ho : o < 4096)
    (hi : Inv s) (himg : (s.disk d).image = some img) (hbusy : (s.disk d).busy = true) (hroom : HasRoom s)
    (hwrite : (s.disk d).lcmd.toNat = 2 ∨ (s.disk d).lcmd.toNat = 4) (hblock : (s.disk d).lda.toNat < img.blocks.toNat) :
    ∃ img', ((deviceStep (.disk d true) (poke (bufferAddress d + BitVec.ofNat 32 o) b s)).disk d).image = some img' ∧
      img'.bytes.read (4096 * (s.disk d).lda.toNat + o) = b := by
  have honly := onlyMemoryChanged_poke (bufferAddress d + BitVec.ofNat 32 o) b s
  have hdisk : (poke (bufferAddress d + BitVec.ofNat 32 o) b s).disk d =
      { s.disk d with buffer := (s.disk d).buffer.write o b } := by
    rw [poke_bufferAddress d ho, State.disk_setDisk_same]
  have hroom' : HasRoom (poke (bufferAddress d + BitVec.ofNat 32 o) b s) := by
    rw [HasRoom, honly.irqCapacity, honly.queue]
    exact hroom
  have hcompletion := diskCompletion d true (poke (bufferAddress d + BitVec.ofNat 32 o) b s) _ _ _ img hdisk.symm himg rfl rfl
  obtain ⟨_, hready⟩ := hcompletion
  obtain ⟨_, _, _, _, _, _, _, _, hvalid⟩ := hready hbusy hroom'
  obtain ⟨_, _, _, _, hwrites⟩ := hvalid (by dsimp only; omega) (by dsimp only; omega) hblock
  obtain ⟨_, img', himg', _, _, hcopied⟩ := hwrites hwrite
  exact ⟨img', himg', (hcopied rfl o ho).trans (Memory.read_write_same _ _ _ (hi.disk d).bufferForm)⟩

/-- Settles O57: each register by its own rule, and the buffer's bytes as the bytes of a store. -/
theorem diskWindow : Obligations.DiskWindow := by
  rintro d s b k base rfl rfl
  refine ⟨(congrArg BitVec.toNat (peek_status d s)).trans (Disk.toNat_status _), (wordAt_nba d s).trans ?_,
    wordAt_da d s, peek_cmd d s, fun o ho => poke_readOnly d ho b s,
    fun o hlo hhi => ⟨fun hbusy => poke_da_of_busy hbusy hlo hhi b, fun hidle => ?_⟩,
    fun h => poke_cmd_of_ignored h b, fun himg hidle => ?_, ?_⟩
  · unfold Disk.nba
    cases (s.disk d).image <;> rfl
  · refine ⟨_, poke_da_of_idle hidle hlo hhi b, fun i hi => ?_⟩
    rw [toNat_setWordByte _ b (by omega) hi]
    exact if_congr (by omega) rfl rfl
  · rw [poke_cmd, Disk.command_of_accepted himg hidle]
  · rintro o a ho rfl
    exact ⟨peek_bufferAddress d ho s, _, poke_bufferAddress d ho b s,
      fun hi => Memory.read_write_same _ _ _ (hi.disk d).bufferForm, fun o' ho' => Memory.read_write_other _ _ _ _ ho',
      fun img hi => write_completes_with_poke ho hi⟩

/-! ## Disconnected controllers -/

/-- R418: a controller with no image has no command and no result. -/
theorem Disk.Inv.status_of_disconnected {k : Disk} (h : k.Inv) (himg : k.image = none) : k.status = 0 := by
  obtain ⟨_, hfinished⟩ := h.disconnected himg
  have unfinished : k.finished ≠ true := Bool.eq_false_iff.1 hfinished
  have hsuccess : k.success = false := Bool.eq_false_iff.2 fun e => unfinished (h.successFinished e).1
  have hbad : k.badCommand = false := Bool.eq_false_iff.2 fun e => unfinished (h.badFinished e)
  rw [Disk.status, himg, hfinished, hsuccess, hbad]
  rfl

/-- Settles O59: with no image there is no command to complete; and no step but a start changes what is attached. -/
theorem disconnectedDisk : Obligations.DisconnectedDisk := by
  refine ⟨fun s d hi himg => ?_, fun s t d h hrestart => ?_⟩
  · obtain ⟨hidle, _⟩ := (hi.disk d).disconnected himg
    refine ⟨(peek_status d s).trans ((hi.disk d).status_of_disconnected himg), ?_, hidle,
      poke_cmd_of_ignored (.inl himg), fun ok => diskStep_of_not_ready (.inl hidle)⟩
    rw [wordAt_nba, Disk.nba, himg]
  · rcases step_devices_cases h with hkeeps | ⟨k, rest, _, hkeeps, _⟩ | hstart
    · exact hkeeps.blocks d
    · refine (hkeeps.blocks d).trans ?_
      cases d <;> rfl
    · exact absurd hstart hrestart

end Sys2Proof.Machine
end

section
/-! PROOF. Reset and the host's start: what the stores of the machine right after a start read as, which gives the statements
`InvAtReset` and `ResetValues` (spec 70_reset_and_hazards.md R450, R451). -/

namespace Sys2Proof.Machine

/-! ## Reset is a start -/

/-- `State.reset` is the start with no image and every drawn value 0 (log entries 1 to 4). -/
theorem reset_eq_start : State.reset = State.start .parameter StartInput.bare := rfl

/-- Settles O25: a start's stores are canonical and of their sizes, and `State.reset` is one start. -/
theorem invAtReset : Obligations.InvAtReset :=
  ⟨reset_eq_start ▸ inv_start .parameter StartInput.bare, inv_start⟩

/-! ## What a start leaves in each store -/

@[simp] theorem State.start_ram (capacity : QueueCapacity) (i : StartInput) : (State.start capacity i).ram = [] := rfl

@[simp] theorem State.start_rom (capacity : QueueCapacity) (i : StartInput) :
    (State.start capacity i).rom = Memory.ofBytes (i.rom.take romBytes) := rfl

@[simp] theorem State.start_display (capacity : QueueCapacity) (i : StartInput) :
    (State.start capacity i).display = [] := rfl

@[simp] theorem State.start_keyboard (capacity : QueueCapacity) (i : StartInput) :
    (State.start capacity i).keyboard = i.keyboard := rfl

/-- Cutting an image to its size changes none of the bytes inside that size (R8, R410). -/
theorem Memory.read_ofBytes_take {n o : Nat} (bs : List Byte) (ho : o < n) :
    (Memory.ofBytes (bs.take n)).read o = bs[o]?.getD 0 := by
  rw [Memory.read_ofBytes, List.getElem?_take_of_lt ho]

/-! ## The bytes of the physical map after a start -/

/-- A byte of the RAM array, the vector included, reads from RAM (R73). -/
theorem peek_of_inRamArray {pa : Word} (h : InRamArray pa) (s : State) : peek s pa = s.ram.read pa.toNat := by
  rcases h with h | h <;> rw [peek, h]

theorem peek_display {pa : Word} {o : Nat} (h : regionOf pa = .display o) (s : State) :
    peek s pa = s.display.read o := by
  rw [peek, h]

/-- The ROM's byte at offset `o` (R74). -/
theorem regionOf_romAddress {o : Nat} (ho : o < 512) : regionOf (BitVec.ofNat 32 (0x40 + o)) = .rom o := by
  have h : (BitVec.ofNat 32 (0x40 + o)).toNat = 0x40 + o := by
    rw [BitVec.toNat_ofNat, Nat.mod_eq_of_lt (by omega)]
  exact regionOf_eq_iff.2 ⟨h, by omega⟩

theorem peek_start_ram (capacity : QueueCapacity) (i : StartInput) {a : Word} (ha : InRamArray a) :
    peek (State.start capacity i) a = 0 := by
  rw [peek_of_inRamArray ha, State.start_ram, Memory.read_nil]

theorem peek_start_rom (capacity : QueueCapacity) (i : StartInput) {o : Nat} (ho : o < 512) :
    peek (State.start capacity i) (BitVec.ofNat 32 (0x40 + o)) = i.rom[o]?.getD 0 := by
  rw [peek_rom (regionOf_romAddress ho), State.start_rom]
  exact Memory.read_ofBytes_take i.rom ho

theorem peek_start_display (capacity : QueueCapacity) (i : StartInput) {o : Nat} (ho : o < 6000) :
    peek (State.start capacity i) (BitVec.ofNat 32 (0x240 + o)) = 0 := by
  rw [peek_display (regionOf_displayAddress ho), State.start_display, Memory.read_nil]

theorem peek_start_key (capacity : QueueCapacity) (i : StartInput) :
    peek (State.start capacity i) 0x39C4 = i.keyboard.key := by
  rw [peek_keyboard regionOf_keyAddress, State.start_keyboard, Keyboard.read, if_pos rfl]

theorem peek_start_metadata (capacity : QueueCapacity) (i : StartInput) :
    peek (State.start capacity i) 0x39C5 = i.keyboard.metadata := by
  rw [peek_keyboard regionOf_metadataAddress, State.start_keyboard, Keyboard.read, if_neg Nat.one_ne_zero]

/-! ## The disk controllers after a start -/

/-- Right after a start only `CONNECTED` can be set, by an attached image (R411, R450). -/
theorem Disk.status_start (d : DiskStart) : (Disk.start d).status = if d.image.isSome then 1 else 0 := by
  rcases d with ⟨_ | src, _, _, _, _⟩ <;> rfl

/-- The image attached by a start has the source's blocks and bytes (R8, R410). -/
theorem DiskImage.read_ofSource (src : DiskSource) {o : Nat} (ho : o < 4096 * src.blocks.toNat) :
    (DiskImage.ofSource src).bytes.read o = src.bytes[o]?.getD 0 :=
  Memory.read_ofBytes_take _ ho

theorem Disk.image_start_of_none {d : DiskStart} (h : d.image = none) : (Disk.start d).image = none := by
  rw [Disk.start, h, Option.map_none]

theorem Disk.image_start_of_some {d : DiskStart} {src : DiskSource} (h : d.image = some src) :
    (Disk.start d).image = some (DiskImage.ofSource src) := by
  rw [Disk.start, h, Option.map_some]

/-- Settles O26: each store by what a byte of its row reads, and each controller by its fields. -/
theorem resetValues : Obligations.ResetValues := by
  refine ⟨reset_eq_start, ?_⟩
  rintro capacity i _ rfl
  refine ⟨rfl, rfl, rfl, rfl, rfl, rfl, rfl, fun _ => peek_start_ram capacity i, fun _ => peek_start_rom capacity i,
    fun _ => peek_start_display capacity i, peek_start_key capacity i, peek_start_metadata capacity i, rfl, rfl,
    fun d => ⟨rfl, rfl, Disk.status_start d, fun _ => Memory.read_ofBytes_take d.buffer, Disk.image_start_of_none,
      fun src hsrc => ?_⟩⟩
  exact ⟨DiskImage.ofSource src, Disk.image_start_of_some hsrc, rfl, fun _ => DiskImage.read_ofSource src⟩

end Sys2Proof.Machine
end
